-- ==== Sys2Proof/Word.lean ====
section
/-! DEFINITION. The word types of the FR-648: what the manual moves as bits. -/

namespace Sys2Proof

/-- A byte of the Exchange RAM, of flash, or of a car line frame. -/
abbrev Byte := BitVec 8

/-- A 16-bit word of the host bus (R154). -/
abbrev Word := BitVec 16

/-- A 32-bit value: a digest (R34), the uptime (R156), an activation sequence (R130). -/
abbrev Long := BitVec 32

/-- A set of drops as a car line frame carries one: the bit of weight 2^(d-1) stands for drop d
(05 section 5.3, ROLL CALL). -/
abbrev DropSet := BitVec 8

/-- Cars 0 to 5 (00 section 4). -/
abbrev Car := Fin 6

/-- Drops 1 to 8 (00 section 4): the value d - 1 stands for drop d. -/
abbrev Drop := Fin 8

/-- Image slots 0 to 15 (00 section 4). -/
abbrev Slot := Fin 16

/-- Order slots 0 to 31 (00 section 4). -/
abbrev OrderSlot := Fin 32

end Sys2Proof
end

