-- ==== Sys2Proof/Config.lean ====
section
/-! DEFINITION. The numbers the manual fixes for the part (00 section 4 and the rules named), and the one free value. -/

namespace Sys2Proof.Config

/-- Largest value of the gap tick counter (R7). -/
def tickMax : Nat := 262143
/-- Ticks that qualify a loss: 2 ms of 250 us intervals (R5). -/
def lossTicks : Nat := 8
/-- G of an unknown or saturated gap, and the largest 16-bit figure shown (R3, R8, R69). -/
def gMax : Nat := 65535
/-- Bytes in a segment (00 section 4). -/
def segmentBytes : Nat := 2048
/-- Largest image, in bytes (00 section 4). -/
def imageMax : Nat := 524288
/-- Largest span count of an image, and keep span count of a LOAD (00 section 4). -/
def spanMax : Nat := 8
/-- Largest payload of a car line frame (section 5.2). -/
def payloadMax : Nat := 2097
/-- Modulus of the digest sums (R34). -/
def digestMod : Nat := 65521
/-- Bytes of the result journal (section 10.1). -/
def journalBytes : Nat := 8192
/-- Largest room and largest mark of the journal (R170). -/
def roomMax : Nat := 8188
/-- Places in the essential backlog (R172). -/
def backlogMax : Nat := 16
/-- Bytes in an erase block (section 8.1). -/
def blockBytes : Nat := 65536
/-- The fleet block of bank A (section 8.1). -/
def fleetBlock : Nat := 144
/-- The protection block of bank A (section 8.1). -/
def protectBlock : Nat := 145
/-- Bytes of the fleet block that hold the fleet table (section 2.2, R149). -/
def fleetBytes : Nat := 272
/-- Most node entries of a fleet table and most roster records (R17, R21). -/
def rosterMax : Nat := 48
/-- The 32-bit value whose four bytes are all erased (R21). -/
def erasedLong : Nat := 4294967295
/-- The highest activation sequence an ACTIVATE COPY may program (R130). -/
def sequenceMax : Nat := 4294967294
/-- Length of the backoff timer in ms (R60). -/
def backoffMs : Nat := 1000
/-- Length of a round after its ROLL CALL frame in ms (R82). -/
def roundMs : Nat := 20
/-- Period of the slow rounds in ms (R86). -/
def slowMs : Nat := 500
/-- Retransmissions of a request (R92). -/
def retryMax : Nat := 3
/-- Rounds of a fast or an individual roll call (R85, R87). -/
def roundsMax : Nat := 4
/-- Family and revision codes of the Status Page (section 9.2). -/
def familyCode : Nat := 0xF648
def revisionCode : Nat := 1

/-- Base addresses of the Exchange RAM regions (section 9.1). -/
def steeringBase : Nat := 0x0100
def orderBase : Nat := 0x0200
def nodeMirrorBase : Nat := 0x1200
def directoryMirrorBase : Nat := 0x1E00
def stagingBase : Nat := 0x2000
def journalBase : Nat := 0x6000

/-- FREE VALUE (log 9): the byte that a flash location reads after an interrupted or failed
operation left it of unknown contents (R126, R139, R152), for the epoch of that operation and the
location's address. Nothing constrains it. -/
opaque unsureByte : Nat → Nat → Byte

end Sys2Proof.Config
end

