-- ==== Sys2Proof/Syntax.lean ====
section
/-! DEFINITION. The commands of the FR-648: one constructor per row of spec/opcode_table.json, with the operands that the
row's event carries from outside the part (the host, the board, the nodes, the flash array). -/

namespace Sys2Proof

/-- What an interrupted or failed flash operation left of what it was doing (R126, R152): nothing
done, part done, or all done. The flash array decides it, so it is an operand of the command. -/
inductive Left where
  | nothing
  | part
  | whole
  deriving DecidableEq, Repr

/-- What a cut or failed operation left: `left` of the location or block it concerned, and, where
the protection block was being erased, `protect` for each group's mark in turn (R147). -/
structure Cut where
  left : Left
  protect : List Left
  deriving DecidableEq, Repr

/-- How a program ended: it read back as written, or it did not (R126, R139). -/
inductive ProgEnd where
  | verified
  | failed (left : Left)
  deriving DecidableEq, Repr

/-- How a block erase ended: it read back erased, or it did not (R126, R139). -/
inductive EraseEnd where
  | verified
  | failed (cut : Cut)
  deriving DecidableEq, Repr

/-- What the flash array does during a start-up: `marks` are the ends of the mark programs of the
scan in the order they are made (R151; those beyond the list verify). -/
structure StartOutcome where
  marks : List ProgEnd
  deriving DecidableEq, Repr

/-- What the flash array does during the restart handling of R153: the end of a program in flight,
what a stopped erase left, and the ends of the mark programs (pending marks first, then the scan's). -/
structure RestartOutcome where
  inFlight : ProgEnd
  cut : Cut
  marks : List ProgEnd
  deriving DecidableEq, Repr

/-- A host access on the local bus that only moves data (R154, R161): a word of the Exchange RAM at
the word address A[14:1], or a read of the register A[2:1] selects. -/
inductive BusAccess where
  | ramRead (a : BitVec 14)
  | ramWrite (a : BitVec 14) (d : Word)
  | regRead (r : BitVec 2)
  deriving DecidableEq, Repr

/-- The block that asks the Journal Writer for an entry (R171). -/
inductive Source where
  | ssu
  | rpl
  | clc (c : Car)
  | isc
  | prm
  deriving DecidableEq, Repr

/-- A flash cell found to hold another value than was programmed: its offset in the segment and the
value (R39: "A copy whose data in flash has changed since it was closed"). -/
abbrev Decay := List (Nat × Byte)

/-- The commands, in the order of spec/opcode_table.json (the two last rows stand last). `fleetAbsent` says whether a fleet
block whose write the warm restart cut short, and whose contents would pass R21, is found absent rather than bad (R149). -/
inductive Instr where
  | powerStart (o : StartOutcome)
  | resetInAsserted (cut : Cut)
  | resetInReleased (o : StartOutcome)
  | enterRunning
  | warmRestart (v : Word) (o : RestartOutcome)
  | returnToRunning (fleetAbsent : Bool)
  | nudge (v : Word)
  | noticeWrite (v : Word)
  | noticeEnableWrite (v : Word)
  | hostRamAccess (a : BusAccess)
  | uptimeTick
  | scanTick
  | quietWindowExpiry
  | openCopy (unlock : Bool)
  | stageSegment (unlock : Bool)
  | closeCopy (unlock : Bool)
  | activateCopy (unlock : Bool)
  | eraseCopy (unlock : Bool)
  | protectGroup (unlock : Bool)
  | unprotectAll (unlock : Bool)
  | writeIdentity (unlock : Bool)
  | writeFleetTable (unlock : Bool)
  | pendingMarkProgram
  | flashProgramEnd (r : ProgEnd)
  | blockEraseEnd (r : EraseEnd)
  | eraseSliceEnd
  | eraseSuspensionComplete
  | readBegin
  | segmentReadEnd (decay : Decay)
  | closingReadEnd (decay : Decay)
  | csgFallingEdge (c : Car)
  | csgRisingEdge (c : Car)
  | gapTick (c : Car)
  | lossQualified (c : Car)
  | returnTimerExpiry (c : Car)
  | rplCarLoss (c : Car)
  | clcCarLoss (c : Car)
  | prmCarLoss (c : Car)
  | rplCarReturn (c : Car)
  | clcCarReturn (c : Car)
  | prmCarReturn (c : Car)
  | bootTimerExpiry (c : Car)
  | rollCall (c : Car)
  | txFrameEnd (c : Car)
  | roundTimerExpiry (c : Car)
  | slowTimerExpiry (c : Car)
  | hello (c : Car) (d : Drop) (cls ram : Byte) (image version segments : Word) (boot : Byte)
  | digestAsk (c : Car)
  | load (c : Car)
  | start (c : Car)
  | digestList (c : Car) (d : Drop) (first count : Word) (digests : List Long)
  | loadAck (c : Car) (d : Drop) (index : Word) (outcome : Byte)
  | running (c : Car) (d : Drop) (outcome : Byte)
  | discardedFrame (c : Car) (bytes : List Byte)
  | lineIdleTimeout (c : Car)
  | replyTimerExpiry (c : Car)
  | clcJobEntersQueue (c : Car)
  | clcEndJob (c : Car)
  | clcStoreFaultEnd (c : Car)
  | individualRollCallRequest (c : Car)
  | cancelRollCall (c : Car)
  | missingSetChange (c : Car)
  | holdTell (c : Car)
  | rplHello (c : Car)
  | rplJobReport (c : Car)
  | rplSurveyEnded (c : Car)
  | rplLoadAccepted (c : Car)
  | rplRunningSuccess (c : Car)
  | rplAttemptFailed (c : Car)
  | rplUnheardReport (c : Car)
  | backoffRollCallUnheard (c : Car)
  | backoffTimerExpiry (c : Car) (d : Drop)
  | rplScanTick
  | rplBudgetSample
  | rplCopyDamaged
  | activeCopyChange
  | prmDoorReport
  | prmWithholdSample
  | journalEntryRequest (src : Source)
  | jrnSteeringValues
  | powerLost (cut : Cut)
  | leadByteTaken (c : Car)
  deriving DecidableEq, Repr

end Sys2Proof
end

