-- ==== Sys2Proof/WellFormed.lean ====
section
/-! DEFINITION. Well-formed commands: the operands a sender can mean (offsets inside a segment, frames no longer than the line
carries, one outcome per group). The machine runs every command, well-formed or not. -/

namespace Sys2Proof

/-- A cut names no group outcome, or one for each of the four groups (R146). -/
def Cut.ok (c : Cut) : Bool := decide (c.protect.length = 0) || decide (c.protect.length = 4)

/-- An erase end whose cut is well-formed. -/
def EraseEnd.ok : EraseEnd → Bool
  | .verified => true
  | .failed c => c.ok

/-- Cells found changed lie inside a segment (R37). -/
def decayOk (d : Decay) : Bool := d.all (fun x => decide (x.1 < Config.segmentBytes))

/-- A scan programs at most one mark per header and one per slot (R151). -/
def StartOutcome.ok (o : StartOutcome) : Bool := decide (o.marks.length ≤ 48)

/-- A restart programs the pending marks, at most one per copy, and then the scan's (R138, R153). -/
def RestartOutcome.ok (o : RestartOutcome) : Bool := o.cut.ok && decide (o.marks.length ≤ 80)

/-- The digests of a DIGEST LIST fit a payload (section 5.2). -/
def digestsOk (l : List Long) : Bool := decide (4 + 4 * l.length ≤ Config.payloadMax)

/-- A frame begins with its lead byte and is at most 2104 bytes long (section 5.2). -/
def frameOk (l : List Byte) : Bool := decide (l.head? = some 0xA5) && decide (l.length ≤ Config.payloadMax + 7)

/-- A well-formed command. -/
def Instr.wf : Instr → Bool
  | .powerStart o => o.ok
  | .resetInAsserted cut => cut.ok
  | .resetInReleased o => o.ok
  | .enterRunning => true
  | .warmRestart _ o => o.ok
  | .returnToRunning _ => true
  | .nudge _ => true
  | .noticeWrite _ => true
  | .noticeEnableWrite _ => true
  | .hostRamAccess _ => true
  | .uptimeTick => true
  | .scanTick => true
  | .quietWindowExpiry => true
  | .openCopy _ => true
  | .stageSegment _ => true
  | .closeCopy _ => true
  | .activateCopy _ => true
  | .eraseCopy _ => true
  | .protectGroup _ => true
  | .unprotectAll _ => true
  | .writeIdentity _ => true
  | .writeFleetTable _ => true
  | .pendingMarkProgram => true
  | .flashProgramEnd _ => true
  | .blockEraseEnd r => r.ok
  | .eraseSliceEnd => true
  | .eraseSuspensionComplete => true
  | .readBegin => true
  | .segmentReadEnd d => decayOk d
  | .closingReadEnd d => decayOk d
  | .csgFallingEdge _ => true
  | .csgRisingEdge _ => true
  | .gapTick _ => true
  | .lossQualified _ => true
  | .returnTimerExpiry _ => true
  | .rplCarLoss _ => true
  | .clcCarLoss _ => true
  | .prmCarLoss _ => true
  | .rplCarReturn _ => true
  | .clcCarReturn _ => true
  | .prmCarReturn _ => true
  | .bootTimerExpiry _ => true
  | .rollCall _ => true
  | .txFrameEnd _ => true
  | .roundTimerExpiry _ => true
  | .slowTimerExpiry _ => true
  | .hello _ _ _ _ _ _ _ _ => true
  | .digestAsk _ => true
  | .load _ => true
  | .start _ => true
  | .digestList _ _ _ _ l => digestsOk l
  | .loadAck _ _ _ _ => true
  | .running _ _ _ => true
  | .discardedFrame _ l => frameOk l
  | .lineIdleTimeout _ => true
  | .replyTimerExpiry _ => true
  | .clcJobEntersQueue _ => true
  | .clcEndJob _ => true
  | .clcStoreFaultEnd _ => true
  | .individualRollCallRequest _ => true
  | .cancelRollCall _ => true
  | .missingSetChange _ => true
  | .holdTell _ => true
  | .rplHello _ => true
  | .rplJobReport _ => true
  | .rplSurveyEnded _ => true
  | .rplLoadAccepted _ => true
  | .rplRunningSuccess _ => true
  | .rplAttemptFailed _ => true
  | .rplUnheardReport _ => true
  | .backoffRollCallUnheard _ => true
  | .backoffTimerExpiry _ _ => true
  | .rplScanTick => true
  | .rplBudgetSample => true
  | .rplCopyDamaged => true
  | .activeCopyChange => true
  | .prmDoorReport => true
  | .prmWithholdSample => true
  | .journalEntryRequest _ => true
  | .jrnSteeringValues => true
  | .powerLost cut => cut.ok
  | .leadByteTaken _ => true

end Sys2Proof
end

