-- ==== Sys2Proof/Decode.lean ====
section
/-! DEFINITION. Commands spelled as words: spec/opcode_table.json gives no bits to any row, so no word spells a command. -/

namespace Sys2Proof

/-- The command that a word spells by the table's bits: none, since no row of the table has bits. -/
def decodeTableWord (_nbits _w : Nat) : Option Instr := none

end Sys2Proof
end

