-- ==== Sys2Proof/Machine/Memory.lean ====
section
/-! DEFINITION. Addressed memories as canonical lists of (address, byte) pairs, and the byte-order helpers over them. -/

namespace Sys2Proof.Machine

/-- A memory: addresses strictly rising, no entry equal to what an unlisted address reads as. -/
abbrev Memory := List Host.Cell

/-- The byte at an address; `dflt` is what an unlisted address reads as. -/
def Mem.read (dflt : Byte) : Memory → Nat → Byte
  | [], _ => dflt
  | (k, v) :: rest, a => if k = a then v else Mem.read dflt rest a

/-- Write one byte, keeping the canonical form: writing `dflt` removes the entry. -/
def Mem.write (dflt : Byte) : Memory → Nat → Byte → Memory
  | [], a, b => if b = dflt then [] else [(a, b)]
  | (k, v) :: rest, a, b =>
    if a < k then (if b = dflt then (k, v) :: rest else (a, b) :: (k, v) :: rest)
    else if a = k then (if b = dflt then rest else (a, b) :: rest)
    else (k, v) :: Mem.write dflt rest a b

/-- All entries lie above `lo`, rise strictly, and none equals `dflt`. -/
def Mem.wfFrom (dflt : Byte) (lo : Nat) : Memory → Bool
  | [] => true
  | (k, v) :: rest => decide (lo ≤ k) && decide (v ≠ dflt) && Mem.wfFrom dflt (k + 1) rest

/-- The canonical form. -/
def Mem.wf (dflt : Byte) (m : Memory) : Bool := Mem.wfFrom dflt 0 m

/-- Write consecutive bytes from an address. -/
def Mem.writeBytes (dflt : Byte) (m : Memory) (a : Nat) : List Byte → Memory
  | [] => m
  | b :: rest => Mem.writeBytes dflt (Mem.write dflt m a b) (a + 1) rest

/-- Read `n` consecutive bytes from an address. -/
def Mem.readBytes (dflt : Byte) (m : Memory) (a : Nat) : Nat → List Byte
  | 0 => []
  | n + 1 => Mem.read dflt m a :: Mem.readBytes dflt m (a + 1) n

/-- Remove every entry whose address lies in [lo, lo + n): those bytes read `dflt` afterwards. -/
def Mem.clear (m : Memory) (lo n : Nat) : Memory :=
  m.filter (fun e => !(decide (lo ≤ e.1) && decide (e.1 < lo + n)))

/-! Little-endian fields (00 section 6). -/

/-- The byte of weight 2^(8 i) of a number. -/
def byteOf (v i : Nat) : Byte := BitVec.ofNat 8 (v / 2 ^ (8 * i))

/-- A number as two bytes, low byte first. -/
def le16 (v : Nat) : List Byte := [byteOf v 0, byteOf v 1]

/-- A number as three bytes, low byte first. -/
def le24 (v : Nat) : List Byte := [byteOf v 0, byteOf v 1, byteOf v 2]

/-- A number as four bytes, low byte first (R35 for digests). -/
def le32 (v : Nat) : List Byte := [byteOf v 0, byteOf v 1, byteOf v 2, byteOf v 3]

/-- The number that bytes spell, low byte first. -/
def leNat : List Byte → Nat
  | [] => 0
  | b :: rest => b.toNat + 256 * leNat rest

/-- The byte at an offset of a list of bytes; 0 beyond its end. -/
def byteAt (l : List Byte) (i : Nat) : Nat := (l.getD i 0).toNat

/-- The 16-bit field at an offset of a list of bytes. -/
def wordAt (l : List Byte) (i : Nat) : Nat := leNat ((l.drop i).take 2)

/-- The 24-bit field at an offset of a list of bytes. -/
def tripleAt (l : List Byte) (i : Nat) : Nat := leNat ((l.drop i).take 3)

/-- The 32-bit field at an offset of a list of bytes. -/
def longAt (l : List Byte) (i : Nat) : Nat := leNat ((l.drop i).take 4)

/-- A flag as a number: 0 clear, 1 set. -/
def bit (b : Bool) : Nat := if b then 1 else 0

/-- A count that stays at its largest value once reached (00 section 6, "saturate"). -/
def saturate (limit n : Nat) : Nat := if n ≤ limit then n else limit

/-- ceil(n / d) (00 section 6). -/
def ceilDiv (n d : Nat) : Nat := (n + d - 1) / d

/-! Sets of drops. -/

/-- The bit of a drop in a set (05 section 5.3). -/
def dropBit (d : Drop) : DropSet := BitVec.ofNat 8 (2 ^ d.val)

/-- Is the drop in the set? -/
def DropSet.has (s : DropSet) (d : Drop) : Bool := s.getLsbD d.val

/-- The set with a drop added. -/
def DropSet.add (s : DropSet) (d : Drop) : DropSet := s ||| dropBit d

/-- The set with a drop removed. -/
def DropSet.del (s : DropSet) (d : Drop) : DropSet := s &&& ~~~ dropBit d

/-- The eight drops in ascending order. -/
def allDrops : List Drop := [0, 1, 2, 3, 4, 5, 6, 7]

/-- The six cars in ascending order. -/
def allCars : List Car := [0, 1, 2, 3, 4, 5]

end Sys2Proof.Machine
end

