-- ==== Sys2Proof/Machine/State.lean ====
section
/-! DEFINITION. The state of the FR-648 as plain data: every register, timer, queue, buffer, memory and pin the manual
gives the part, block by block, and the state after a power start on an erased flash array. -/

namespace Sys2Proof.Machine

/-! ## Power, run state and pins -/

/-- Run states (R159); codes 0, 1, 2 in this order. -/
inductive RunState where
  | starting
  | running
  | restarting
  deriving DecidableEq, Repr

/-- Reset causes (R159); codes 0, 1, 2 in this order. -/
inductive ResetCause where
  | power
  | resetPin
  | restart
  deriving DecidableEq, Repr

/-- The signals of 00 section 5 that carry a level the rules use. `dp` is the level of DP0 to DP5,
`dpDriven` whether they are driven (R119), `noticeA` and `noticeB` whether the line is active
(R178), `busData` what the host's last read returned (R154, R161). -/
structure Pins where
  csg : Vector Bool 6
  svcUnlock : Bool
  dp : Vector Bool 6
  dpDriven : Bool
  noticeA : Bool
  noticeB : Bool
  busData : Word
  deriving DecidableEq, Repr

/-! ## Supply Sense Unit (chapter 1) -/

/-- Supply states; codes 0 to 4 in this order (section 1.1). -/
inductive SupplyState where
  | unknown
  | present
  | dipping
  | gap
  | returning
  deriving DecidableEq, Repr

/-- The per-car record of section 1.1. `timer` holds the R_q a running return timer was started
with (R15); `held` the uptime at which a held return was qualified, while the held return is set (R10, R13). -/
structure SsuCar where
  state : SupplyState
  ticks : Nat
  candidate : Option Nat
  timer : Option Nat
  g : Nat
  unknown : Bool
  restart : Bool
  pend : Bool
  held : Option Long
  deriving DecidableEq, Repr

/-- CAR LOSS and CAR RETURN as the SSU delivers them (R6, R11). -/
inductive CarEvent where
  | loss (uptime : Long)
  | ret (g : Nat) (unknown restart : Bool) (uptime : Long)
  deriving DecidableEq, Repr

/-! ## Fleet table and roster (chapter 2) -/

/-- Fleet status; codes 0 to 3 in this order (R27). -/
inductive FleetStatus where
  | loaded
  | absent
  | bad
  | mismatch
  deriving DecidableEq, Repr

/-- The table in force: status, skipped count, car count and parameters (R23), car flags. -/
structure Fleet where
  status : FleetStatus
  skipped : Nat
  carCount : Nat
  hDoor : Nat
  bDoor : Nat
  hInfo : Nat
  bInfo : Nat
  rq : Nat
  boot : Nat
  attemptLimit : Nat
  holdLimit : Nat
  tt : Nat
  flags : Vector Bool 6
  deriving DecidableEq, Repr

/-- Node classes; codes 0, 1 in this order. -/
inductive NodeClass where
  | door
  | info
  deriving DecidableEq, Repr

/-- The two copies of an image slot, each in the bank of its name. -/
inductive CopyId where
  | a
  | b
  deriving DecidableEq, Repr

/-- One of the 32 copies by its directory record number: copy A of slot s is 2s, copy B is 2s + 1
(R129). -/
abbrev CopyIx := Fin 32

/-- Runtime overrides; mirror codes 0, 1, 2 in this order. -/
inductive Override where
  | unset
  | exclude
  | include
  deriving DecidableEq, Repr

/-- Node states; codes 0 to 10 in this order (section 2.1). -/
inductive NodeState where
  | excluded
  | dark
  | awaiting
  | missing
  | queued
  | surveying
  | loading
  | starting
  | ready
  | backoff
  | failed
  deriving DecidableEq, Repr

/-- Plans; mirror codes 1, 2 in this order, 0 absent. -/
inductive Plan where
  | compare
  | full
  deriving DecidableEq, Repr

/-- Plan reasons; codes 0 to 10 in this order (section 2.6). -/
inductive PlanReason where
  | absent
  | compare
  | ramLost
  | otherImage
  | loadOnlyBoot
  | beyondHoldUp
  | ordered
  | imageCheck
  | classMismatch
  | noImage
  | imageClass
  deriving DecidableEq, Repr

/-- Failure reasons; codes 0 to 5 in this order (section 2.6). -/
inductive FailReason where
  | absent
  | noReply
  | repeatedReject
  | nodeRefused
  | imageCheck
  | storeFault
  deriving DecidableEq, Repr

/-- Job phases; codes 1, 2, 3 in this order. -/
inductive Phase where
  | survey
  | load
  | start
  deriving DecidableEq, Repr

/-- The HELLO fields of a roster record (section 2.1). -/
structure HelloFields where
  cls : NodeClass
  ramLost : Bool
  image : Nat
  version : Nat
  segments : Nat
  digestCapable : Bool
  deriving DecidableEq, Repr

/-- Where a live job stands for the RPL (R52). -/
inductive Place where
  | queue
  | line
  | backoff
  deriving DecidableEq, Repr

/-- A live job as the RPL keeps it (R52, R54): its identity, pinned copy, place and fields.
`phase` is none in BACKOFF (R59). `condemned` is set while the job is to end with STORE FAULT at
the end of its try (R114). -/
structure RplJob where
  jid : Nat
  copy : CopyIx
  place : Place
  phase : Option Phase
  reload : List Nat
  s : Nat
  retry : Nat
  condemned : Bool
  deriving DecidableEq, Repr

/-- A roster record (section 2.1) with the figures its mirror entry shows. `backoffFrom` is the
uptime at which a running backoff timer was started; in BACKOFF without it the individual roll call
runs (R60). -/
structure NodeRec where
  car : Car
  drop : Drop
  cls : NodeClass
  slot : Slot
  fleetExcl : Bool
  override : Override
  state : NodeState
  plan : Option Plan
  marginal : Bool
  reason : PlanReason
  attempt : Nat
  hello : Option HelloFields
  fail : FailReason
  job : Option RplJob
  backoffFrom : Option Long
  backoffShown : Nat
  cost : Nat
  changedAt : Long
  deriving DecidableEq, Repr

/-! ## Restore Planner, per car (chapter 4) -/

/-- What the RPL keeps for a car (R45, R63 to R71). The ready clock stands at `clock` ms and runs while
`clockOn` is set. -/
structure RplCar where
  up : Bool
  gapG : Nat
  gapUnknown : Bool
  gapRestart : Bool
  ready : Nat
  total : Nat
  blocked : Bool
  late : Bool
  settled : Bool
  clock : Nat
  clockOn : Bool
  e : Nat
  p : Nat
  elapsed : Nat
  budget : Nat
  nextJob : Nat
  deriving DecidableEq, Repr

/-! ## Car Line Controllers (chapters 5 and 6) -/

/-- Line states (section 5.4). -/
inductive LineState where
  | off
  | bootWait
  | rollCall
  | idle
  | serving
  deriving DecidableEq, Repr

/-- A job as its CLC keeps it (R97, R100, R113). -/
structure LineJob where
  jid : Nat
  drop : Drop
  cls : NodeClass
  plan : Plan
  copy : CopyIx
  phase : Phase
  reload : List Nat
  s : Nat
  deriving DecidableEq, Repr

/-- The three requests of an exchange (R78): a DIGEST ASK of `count` segments, a LOAD of a segment,
a START. -/
inductive Request where
  | digestAsk (count : Nat)
  | load (index : Nat)
  | start
  deriving DecidableEq, Repr

/-- Where an exchange stands: a try is being sent, its reply is awaited, or a retransmission waits
for the turnaround (R90, R92). -/
inductive Stage where
  | sending
  | awaiting
  | resend
  deriving DecidableEq, Repr

/-- The exchange in flight: every try sends the same bytes (R78). -/
structure Exchange where
  req : Request
  bytes : List Byte
  retry : Nat
  stage : Stage
  deriving DecidableEq, Repr

/-- The receiver (R74): no frame, a frame in reception, or waiting for the line to be idle. -/
inductive Receiver where
  | idle
  | inFrame
  | waitIdle
  deriving DecidableEq, Repr

/-- The kind of round in flight (section 5.5). -/
inductive Round where
  | fast
  | other
  deriving DecidableEq, Repr

/-- Ending marks of the holding job (section 6.1). -/
inductive Ending where
  | unset
  | ending
  | storeFault
  deriving DecidableEq, Repr

/-- Buffer states (section 6.4). -/
inductive BufState where
  | empty
  | waiting
  | filling
  | filled
  | fault
  | stale
  deriving DecidableEq, Repr

/-- A segment buffer record (section 6.4). -/
structure SegBuf where
  state : BufState
  job : Option Nat
  copy : CopyIx
  index : Nat
  len : Nat
  data : List Byte
  digest : Long
  deriving DecidableEq, Repr

/-- A frame being sent (its presence is the driver enable, R73); `rollCall` tells a ROLL CALL from a
request of the exchange. -/
structure TxFrame where
  rollCall : Bool
  bytes : List Byte
  deriving DecidableEq, Repr

/-- A line's record (sections 5.4 and 6.1). Timers hold the value in ms they run for.
`roundOver` is a round end deferred by a frame in reception (R74); `exchangeFirst` says that a
further round waits for one exchange (R88); `wantRead` is a read request that waits for a buffer
(R104). -/
structure Line where
  state : LineState
  bootTimer : Option Nat
  fastNo : Nat
  heard : DropSet
  called : DropSet
  missing : DropSet
  owed : Vector Nat 8
  slowTimer : Option Nat
  slowDue : Bool
  round : Option Round
  roundTimer : Option Nat
  roundOver : Bool
  replyTimer : Option Nat
  errors : Nat
  tx : Option TxFrame
  rx : Receiver
  exch : Option Exchange
  exchangeFirst : Bool
  queue : List LineJob
  holding : Option LineJob
  ending : Ending
  hold : Bool
  bufX : SegBuf
  bufY : SegBuf
  wantRead : Option Nat
  deriving DecidableEq, Repr

/-! ## Permit Outputs (chapter 7) -/

/-- The permit record of a car (section 7.1). -/
structure PrmCar where
  active : Bool
  up : Bool
  withhold : Bool
  doorRecords : Nat
  deriving DecidableEq, Repr

/-! ## Digest Engine (chapter 3) -/

/-- A pair of digest sums (R34). -/
structure Sums where
  a : Nat
  b : Nat
  deriving DecidableEq, Repr

/-- What the DGE holds (section 3.3). The context is the copy, the segment and whether the read
serves a job. -/
structure Dge where
  masked : Sums
  unmasked : Sums
  context : Option (CopyIx × Nat × Bool)
  closing : Sums
  next : Nat
  fleet : Sums
  deriving DecidableEq, Repr

/-! ## Image Store (chapter 8) -/

/-- A personal span (R36). -/
structure Span where
  off : Nat
  len : Nat
  deriving DecidableEq, Repr

/-- The description of a copy (R127). -/
structure Desc where
  image : Nat
  version : Nat
  cls : Nat
  length : Nat
  segments : Nat
  spans : List Span
  deriving DecidableEq, Repr

/-- Copy states; codes 0 to 7 in this order (R128). -/
inductive CopyState where
  | blank
  | erasing
  | writing
  | closed
  | retired
  | rejected
  | torn
  | damaged
  deriving DecidableEq, Repr

/-- A copy record of the directory (section 8.2). A field the record does not hold is 0 or empty. -/
structure CopyRec where
  state : CopyState
  desc : Desc
  written : BitVec 256
  table : List Long
  whole : Long
  seq : Nat
  use : Nat
  deriving DecidableEq, Repr

/-- A mark in flash: erased, recorded whole, or part-programmed (R127, R146). -/
inductive Mark where
  | erased
  | recorded
  | part
  deriving DecidableEq, Repr

/-- A number in flash: erased, programmed whole, or part-programmed (R127, R148). -/
inductive Field where
  | erased
  | value (n : Nat)
  | part
  deriving DecidableEq, Repr

/-- The marks that steps of store orders program into a header (R127). -/
inductive MarkKind where
  | eraseIntent
  | opened
  | closed
  | rejected
  | retired
  | damaged
  deriving DecidableEq, Repr

/-- The header block of a copy (R127). `writtenPart` is set while a written mark reads
part-programmed, `other` while some other byte is neither erased nor part of a whole field. -/
structure Header where
  eraseIntent : Mark
  opened : Mark
  closed : Mark
  rejected : Mark
  retired : Mark
  damaged : Mark
  desc : Option Desc
  written : BitVec 256
  writtenPart : Bool
  tables : Option (List Long × Long)
  seq : Field
  other : Bool
  deriving DecidableEq, Repr

/-- A bank's data blocks (and bank A's fleet block) at byte address 65536 x block + offset (R126).
`unsure` lists the 2048-byte places of unknown contents with the epoch of the operation that left
them so. -/
structure FlashBank where
  cells : Memory
  unsure : List (Nat × Nat)
  deriving DecidableEq, Repr

/-- The flash array (section 8.1). -/
structure Flash where
  a : FlashBank
  b : FlashBank
  headers : Vector Header 32
  protect : Vector Mark 4
  identity1 : Field
  identity2 : Field
  epoch : Nat
  deriving DecidableEq, Repr

/-- The identity as read (R148). -/
inductive Identity where
  | notWritten
  | written (n : Nat)
  | unreadable
  deriving DecidableEq, Repr

/-- Kinds of store order (section 9.6). -/
inductive StoreKind where
  | openCopy
  | stageSegment
  | closeCopy
  | activateCopy
  | eraseCopy
  | protectGroup
  | unprotectAll
  | writeIdentity
  | writeFleetTable
  deriving DecidableEq, Repr

/-- A store order: the order slot it answers to and the ORD's 128-byte copy of that slot (R164). -/
structure StoreOrder where
  oslot : OrderSlot
  kind : StoreKind
  bytes : List Byte
  deriving DecidableEq, Repr

/-- An erase or a program of the flash array. -/
inductive FlashOp where
  | mark (r : CopyIx) (m : MarkKind)
  | description (r : CopyIx) (d : Desc)
  | segment (r : CopyIx) (i : Nat)
  | writtenMark (r : CopyIx) (i : Nat)
  | tables (r : CopyIx)
  | sequence (r : CopyIx) (n : Nat)
  | eraseData (r : CopyIx) (k : Nat)
  | eraseHeader (r : CopyIx)
  | eraseProtect
  | eraseFleet
  | protectMark (g : Fin 4)
  | identity (n : Nat)
  | fleet
  deriving DecidableEq, Repr

/-- What a step that waits to begin waits for: the read in progress on its bank (R136); that, and
first the arbiter's choice (R136, after a program); every read of its bank (R135, between block
erases). -/
inductive Wait where
  | read
  | arbiter
  | drain
  deriving DecidableEq, Repr

/-- The store order being executed, or the pending mark being programmed (`order` none). `op` is the
erase or program in flight, `due` the one that waits to begin. `failed` is set once a verify failure
has settled the outcome and only the DAMAGED mark is left to program (R139). -/
structure Work where
  order : Option StoreOrder
  target : Option CopyIx
  op : Option FlashOp
  due : Option (FlashOp × Wait)
  sliceOver : Bool
  suspending : Bool
  suspended : Bool
  data : List Byte
  table : List Long
  expected : Nat
  failed : Bool
  deriving DecidableEq, Repr

/-- Store states; codes 0 to 4 in this order (R132). -/
inductive StoreState where
  | idle
  | erasing
  | suspended
  | programming
  | closing
  deriving DecidableEq, Repr

/-- Who a read request serves: a buffer (`y` false for X) of a car's line, for a job of a class, or
the closing readback (R133). -/
inductive Reader where
  | job (c : Car) (y : Bool) (cls : NodeClass)
  | closing
  deriving DecidableEq, Repr

/-- A read request at the arbiter (R133). -/
structure ReadReq where
  who : Reader
  copy : CopyIx
  index : Nat
  deriving DecidableEq, Repr

/-- Causes of a COPY STATE entry; codes 1 to 5 in this order (section 10.2). -/
inductive CopyCause where
  | readCheck
  | verify
  | scanTorn
  | scanFields
  | scanRepair
  deriving DecidableEq, Repr

/-- What the ISC holds in RAM (chapter 8). `protectUnreadable` is the unreadable mark of the protection block held in
RAM (R139), `protectNeither` that some mark of the record as loaded reads neither erased nor recorded (R146);
`fleetCut`, the model's own (log 9), that a warm restart has cut short a write of the fleet block (R20, R149);
`scanUptime` is the uptime of the scan that owes `scanEntries`. -/
structure Isc where
  records : Vector CopyRec 32
  openCopy : Vector (Option CopyId) 16
  protect : Vector Bool 4
  protectUnreadable : Bool
  protectNeither : Bool
  fleetUnreadable : Bool
  fleetCut : Bool
  identity : Identity
  queue : List StoreOrder
  work : Option Work
  pendingMarks : List CopyIx
  storeState : StoreState
  targetSlot : Nat
  targetCopy : Nat
  suspendCount : Nat
  requests : List ReadReq
  reading : Option ReadReq
  lastDoor : Car
  lastInfo : Car
  scanEntries : List (CopyIx × CopyState × CopyCause)
  scanUptime : Long
  deriving DecidableEq, Repr

/-! ## Order Unit, Journal Writer and Notice Unit (chapters 9 and 10) -/

/-- What the ORD keeps (section 9.5, R157, R158). -/
structure Ord where
  uptime : Long
  batch : Word
  q : Nat
  scan : Nat
  lw : Nat
  hw : Nat
  ret : Nat
  scanTimer : Option Nat
  window : Option Nat
  owed : Vector Bool 32
  deriving DecidableEq, Repr

/-- Journal entry kinds other than the WRAP filler (section 10.2). -/
inductive EntryKind where
  | startUp
  | carLoss
  | carReturn
  | nodeReady
  | nodeFailed
  | nodeMissing
  | stranger
  | anomaly
  | carDoorsReady
  | late
  | onTime
  | permit
  | copyState
  | lost
  | nodePlanned
  | surveyResult
  | preempted
  deriving DecidableEq, Repr

/-- An entry: kind, car and drop bytes, uptime of its event, and body (section 10.2). -/
structure Entry where
  kind : EntryKind
  car : Nat
  drop : Nat
  uptime : Long
  body : List Byte
  deriving DecidableEq, Repr

/-- An entry a block has asked for and the JRN has not yet taken (R171). -/
structure EntryReq where
  src : Source
  entry : Entry
  deriving DecidableEq, Repr

/-- What the JRN holds (chapter 10). -/
structure Jrn where
  w : Nat
  r : Nat
  lw : Nat
  hw : Nat
  backlog : List Entry
  tally : Nat
  lost : Nat
  withheld : Nat
  hold : Bool
  requests : List EntryReq
  deriving DecidableEq, Repr

/-- What the NTU holds (R162, R177); bits 0 to 3 are JOURNAL, ORDER, PERMIT, ALERT. -/
structure Ntu where
  causes : BitVec 4
  enables : BitVec 4
  tie : Bool
  deriving DecidableEq, Repr

/-! ## News in transit between blocks -/

/-- What a CLC reports to the RPL (R47, R54, R84, R85, R87, R91). -/
inductive LineReport where
  | hello (d : Drop) (f : HelloFields)
  | unheard (ds : List Drop) (individual : Bool)
  | granted (jid : Nat) (phase : Phase)
  | yielded (jid : Nat)
  | retry (jid : Nat) (n : Nat)
  | progress (jid : Nat) (s : Nat)
  | surveyEnded (jid : Nat) (digests : List Long)
  | loadAccepted (jid : Nat)
  | success (jid : Nat)
  | failed (jid : Nat) (reason : FailReason)
  | released (jid : Nat)
  deriving DecidableEq, Repr

/-- What the RPL tells a CLC (R86, R87, R89, R98, R113, R114). -/
inductive LineOrder where
  | jobEnters (j : LineJob)
  | endJob (jid : Nat)
  | storeFaultEnd (jid : Nat)
  | individual (d : Drop)
  | cancel (d : Drop)
  | missing (d : Drop) (on : Bool)
  deriving DecidableEq, Repr

/-- What changed of a DOOR record, as the RPL reports it to the PRM (R121). -/
inductive DoorChange where
  | state (old new : NodeState)
  | included
  | excluded
  deriving DecidableEq, Repr

/-- A report of the RPL to the PRM (R121). `allReady` tells whether every included door node of the car was READY
once the change was made (DEDUCED: log 25). -/
structure DoorReport where
  car : Car
  drop : Drop
  change : DoorChange
  allReady : Bool
  deriving DecidableEq, Repr

/-- What the ISC tells the RPL (R137, R179). -/
inductive StoreNews where
  | damaged (r : CopyIx)
  | activeChanged (s : Slot)
  deriving DecidableEq, Repr

/-- What the ORD hands the JRN after a sample (R157). -/
structure Steering where
  ret : Nat
  lw : Nat
  hw : Nat
  deriving DecidableEq, Repr

/-- What the ORD hands the RPL (R157, R158). -/
inductive OrdNews where
  | budgets (b : Vector Nat 6)
  | scanTick
  deriving DecidableEq, Repr

/-- The channels: each list is first in, first out. The model's own `handed` tells, of each CAR LOSS that a car's CLC has taken and
the RPL has not, oldest first, how many of the reports still in clcRpl were handed before the CLC took it (log 4). -/
structure Channels where
  ssuRpl : Vector (List CarEvent) 6
  ssuClc : Vector (List CarEvent) 6
  ssuPrm : Vector (List CarEvent) 6
  clcRpl : Vector (List LineReport) 6
  handed : Vector (List Nat) 6
  rplClc : Vector (List LineOrder) 6
  jrnClc : Vector (List Bool) 6
  rplPrm : List DoorReport
  iscRpl : List StoreNews
  ordJrn : List Steering
  ordRpl : List OrdNews
  ordPrm : List (Vector Bool 6)
  deriving DecidableEq, Repr

/-! ## The machine -/

/-- Why a command ends in a fault: no rule of the manual stops the part, so there is no such reason.
What the manual calls faults are states the part goes on in (INVENTORY, Faults). -/
inductive Fault where
  deriving DecidableEq, Repr

/-- Why a command is refused. -/
inductive Refusal where
  /-- Raised by the dispatch for a command that has no meaning in the model yet (safe: nothing can be proved of it). -/
  | notModelled (mnemonic : String)
  deriving DecidableEq, Repr

/-- The whole part. -/
structure State where
  power : Bool
  resetIn : Bool
  run : RunState
  cause : ResetCause
  pins : Pins
  ram : Memory
  ord : Ord
  ntu : Ntu
  jrn : Jrn
  ssu : Vector SsuCar 6
  fleet : Fleet
  roster : List NodeRec
  mirrorCount : Vector Word 48
  rpl : Vector RplCar 6
  lines : Vector Line 6
  prm : Vector PrmCar 6
  dge : Dge
  isc : Isc
  flash : Flash
  chan : Channels
  pending : List Instr
  deriving DecidableEq, Repr

/-! ## The values of a start -/

/-- R2. -/
def SsuCar.reset : SsuCar :=
  { state := .unknown, ticks := 0, candidate := none, timer := none, g := 0, unknown := false,
    restart := false, pend := false, held := none }

/-- The defaulted table of R21, with its status: every parameter at the default of 2.3. -/
def Fleet.defaulted (st : FleetStatus) : Fleet :=
  { status := st, skipped := 0, carCount := 0, hDoor := 800, bDoor := 100, hInfo := 300, bInfo := 100,
    rq := 20, boot := 50, attemptLimit := 3, holdLimit := 32, tt := 50, flags := Vector.replicate 6 false }

/-- R71. -/
def RplCar.reset : RplCar :=
  { up := false, gapG := 0, gapUnknown := false, gapRestart := false, ready := 0, total := 0,
    blocked := false, late := false, settled := false, clock := 0, clockOn := false,
    e := 65535, p := 65535, elapsed := 0, budget := 0, nextJob := 0 }

/-- An EMPTY buffer (section 6.4). -/
def SegBuf.reset : SegBuf :=
  { state := .empty, job := none, copy := 0, index := 0, len := 0, data := [], digest := 0 }

/-- R95, R117. -/
def Line.reset : Line :=
  { state := .off, bootTimer := none, fastNo := 0, heard := 0, called := 0, missing := 0,
    owed := Vector.replicate 8 0, slowTimer := none, slowDue := false, round := none,
    roundTimer := none, roundOver := false, replyTimer := none, errors := 0, tx := none, rx := .idle,
    exch := none, exchangeFirst := false, queue := [], holding := none, ending := .unset,
    hold := false, bufX := SegBuf.reset, bufY := SegBuf.reset, wantRead := none }

/-- R119. -/
def PrmCar.reset : PrmCar := { active := false, up := false, withhold := false, doorRecords := 0 }

/-- R44. -/
def Dge.reset : Dge :=
  { masked := ⟨0, 0⟩, unmasked := ⟨0, 0⟩, context := none, closing := ⟨0, 0⟩, next := 0, fleet := ⟨0, 0⟩ }

/-- The description of a record that holds none. -/
def Desc.none : Desc := { image := 0, version := 0, cls := 0, length := 0, segments := 0, spans := [] }

/-- A record that holds no field, in a state (R128). -/
def CopyRec.bare (st : CopyState) : CopyRec :=
  { state := st, desc := Desc.none, written := 0, table := [], whole := 0, seq := 0, use := 0 }

/-- An erased header block. -/
def Header.blank : Header :=
  { eraseIntent := .erased, opened := .erased, closed := .erased, rejected := .erased,
    retired := .erased, damaged := .erased, desc := none, written := 0, writtenPart := false,
    tables := none, seq := .erased, other := false }

/-- The flash array as it is delivered: erased (11 section 11.1). DESIGN CHOICE, log 8. -/
def Flash.blank : Flash :=
  { a := ⟨[], []⟩, b := ⟨[], []⟩, headers := Vector.replicate 32 Header.blank,
    protect := Vector.replicate 4 .erased, identity1 := .erased, identity2 := .erased, epoch := 0 }

/-- R152 before the scan, and after it on an erased array (R150). -/
def Isc.reset : Isc :=
  { records := Vector.replicate 32 (CopyRec.bare .blank), openCopy := Vector.replicate 16 none,
    protect := Vector.replicate 4 false, protectUnreadable := false, protectNeither := false, fleetUnreadable := false, fleetCut := false,
    identity := .notWritten, queue := [], work := none, pendingMarks := [], storeState := .idle,
    targetSlot := 255, targetCopy := 0, suspendCount := 0, requests := [], reading := none,
    lastDoor := 5, lastInfo := 5, scanEntries := [], scanUptime := 0 }

/-- R156, R157, R159. -/
def Ord.reset : Ord :=
  { uptime := 0, batch := 0, q := 2, scan := 10, lw := 1024, hw := 3072, ret := 0, scanTimer := none,
    window := none, owed := Vector.replicate 32 false }

/-- R176; LW and HW are the defaults in force (R157). -/
def Jrn.reset : Jrn :=
  { w := 0, r := 0, lw := 1024, hw := 3072, backlog := [], tally := 0, lost := 0, withheld := 0,
    hold := false, requests := [] }

/-- R162, R177. -/
def Ntu.reset : Ntu := { causes := 0, enables := 0, tie := false }

/-- No news in transit. -/
def Channels.empty : Channels :=
  { ssuRpl := Vector.replicate 6 [], ssuClc := Vector.replicate 6 [], ssuPrm := Vector.replicate 6 [],
    clcRpl := Vector.replicate 6 [], handed := Vector.replicate 6 [], rplClc := Vector.replicate 6 [], jrnClc := Vector.replicate 6 [],
    rplPrm := [], iscRpl := [], ordJrn := [], ordRpl := [], ordPrm := [] }

/-- The pins at a power start: permits driven low (R119), notice lines inactive (R178); input levels
and bus data are DESIGN CHOICE, log 11. -/
def Pins.reset : Pins :=
  { csg := Vector.replicate 6 false, svcUnlock := false, dp := Vector.replicate 6 false,
    dpDriven := true, noticeA := false, noticeB := false, busData := 0 }

/-- The nonzero bytes of the Exchange RAM after a power start on erased flash: the Status Page
(family and revision codes, fleet status DEFAULTED-ABSENT, room 8188, target slot 255, the steering
values in force, E and P of each car 65,535), the Steering Page defaults (9.3), and car 0xFF in
every entry of the node mirror (R33). -/
def resetRam : Memory :=
  [(0x00, 0x48), (0x01, 0xF6), (0x02, 0x01), (0x07, 0x01), (0x12, 0xFC), (0x13, 0x1F), (0x1C, 0xFF),
    (0x26, 0x02), (0x28, 0x0A), (0x2B, 0x04), (0x2D, 0x0C)]
  ++ (List.range 6).flatMap (fun c => (List.range 4).map (fun k => (0x64 + 16 * c + k, 0xFF)))
  ++ [(0x102, 0x02), (0x104, 0x0A), (0x107, 0x04), (0x109, 0x0C)]
  ++ (List.range 48).map (fun i => (0x1200 + 64 * i, 0xFF))

/-- The part right after a power start whose flash array is erased: in STARTING with cause POWER,
every block as its chapter's start leaves it, the fleet table defaulted and the roster empty. -/
def State.reset : State :=
  { power := true, resetIn := false, run := .starting, cause := .power, pins := Pins.reset,
    ram := resetRam, ord := Ord.reset, ntu := Ntu.reset, jrn := Jrn.reset,
    ssu := Vector.replicate 6 SsuCar.reset, fleet := Fleet.defaulted .absent, roster := [],
    mirrorCount := Vector.replicate 48 0, rpl := Vector.replicate 6 RplCar.reset,
    lines := Vector.replicate 6 Line.reset, prm := Vector.replicate 6 PrmCar.reset, dge := Dge.reset,
    isc := Isc.reset, flash := Flash.blank, chan := Channels.empty, pending := [] }

end Sys2Proof.Machine
end

