-- ==== Sys2Proof/Machine/Ops.lean ====
section
/-! DEFINITION. The named operations over the state that every block shares: the run condition, the per-car records, the
channels between blocks, roster look-up, and words of the Exchange RAM. -/

namespace Sys2Proof.Machine

/-! ## Run condition (R159) -/

/-- The part has its supply and RESET_IN does not hold it. -/
def State.live (s : State) : Bool := s.power && !s.resetIn

/-- The part is in RUNNING. -/
def State.isRunning (s : State) : Bool := s.live && decide (s.run = .running)

/-- The part is in RESTARTING. -/
def State.isRestarting (s : State) : Bool := s.live && decide (s.run = .restarting)

/-- The part is in STARTING and not held there. -/
def State.isStarting (s : State) : Bool := s.live && decide (s.run = .starting)

/-- Car c is sensed: below the car count in force (R1). -/
def State.sensed (s : State) (c : Car) : Bool := decide (c.val < s.fleet.carCount)

/-! ## Per-car records -/

/-- Replace the SSU record of a car. -/
def State.setSsu (s : State) (c : Car) (r : SsuCar) : State := { s with ssu := s.ssu.set c r }

/-- Replace the line record of a car. -/
def State.setLine (s : State) (c : Car) (l : Line) : State := { s with lines := s.lines.set c l }

/-- Replace the permit record of a car. -/
def State.setPrm (s : State) (c : Car) (r : PrmCar) : State := { s with prm := s.prm.set c r }

/-! ## Channels -/

/-- The list at a car with one element added at its tail. -/
def appendAt {α : Type} (v : Vector (List α) 6) (c : Car) (x : α) : Vector (List α) 6 :=
  v.set c (v[c] ++ [x])

/-- The list at a car without its head. -/
def dropAt {α : Type} (v : Vector (List α) 6) (c : Car) : Vector (List α) 6 :=
  v.set c v[c].tail

/-- The SSU delivers a car event to the RPL, the car's CLC and the PRM (R6, R11). -/
def State.deliver (s : State) (c : Car) (e : CarEvent) : State :=
  { s with chan := { s.chan with
      ssuRpl := appendAt s.chan.ssuRpl c e
      ssuClc := appendAt s.chan.ssuClc c e
      ssuPrm := appendAt s.chan.ssuPrm c e } }

/-- The CLC of car c reports to the RPL. -/
def State.report (s : State) (c : Car) (m : LineReport) : State :=
  { s with chan := { s.chan with clcRpl := appendAt s.chan.clcRpl c m } }

/-- The RPL tells the CLC of car c. -/
def State.tell (s : State) (c : Car) (m : LineOrder) : State :=
  { s with chan := { s.chan with rplClc := appendAt s.chan.rplClc c m } }

/-- The RPL reports a DOOR record's change to the PRM (R121). -/
def State.reportDoor (s : State) (r : DoorReport) : State :=
  { s with chan := { s.chan with rplPrm := s.chan.rplPrm ++ [r] } }

/-- The ISC tells the RPL. -/
def State.storeTells (s : State) (n : StoreNews) : State :=
  { s with chan := { s.chan with iscRpl := s.chan.iscRpl ++ [n] } }

/-- The JRN tells every CLC the hold flag (R110, R175). -/
def State.tellHold (s : State) (on : Bool) : State :=
  { s with chan := { s.chan with
      jrnClc := Vector.ofFn (fun c : Car => s.chan.jrnClc[c] ++ [on]) } }

/-- The RPL has taken the report at the head of its channel from CLC c: one fewer of those handed before each loss waits. -/
def State.dropReport (s : State) (c : Car) : State :=
  { s with chan := { s.chan with
      clcRpl := dropAt s.chan.clcRpl c
      handed := s.chan.handed.set c (s.chan.handed[c].map (fun n => n - 1)) } }

/-- The RPL takes a CAR LOSS of car c: of the CLC's reports those handed before the CLC took that loss, all where it has
not, are without effect (R48, R54, R116), and those of the next cycle stay (log 4). -/
def State.purgeReports (s : State) (c : Car) : State :=
  let n := s.chan.handed[c].head?.getD s.chan.clcRpl[c].length
  { s with chan := { s.chan with
      clcRpl := s.chan.clcRpl.set c (s.chan.clcRpl[c].drop n)
      handed := s.chan.handed.set c (s.chan.handed[c].tail.map (fun k => k - n)) } }

/-- CLC c takes a CAR LOSS: its reports before this moment are of the cycle that ends. They wait for the RPL, which takes the loss
after them, or are without effect, where the RPL has taken it (R48, R54, R116; log 4). -/
def State.closeReports (s : State) (c : Car) : State :=
  let taken := decide (s.chan.ssuRpl[c].length < s.chan.ssuClc[c].length)
  { s with chan := { s.chan with
      clcRpl := s.chan.clcRpl.set c (if taken then [] else s.chan.clcRpl[c])
      handed := s.chan.handed.set c (if taken then [] else s.chan.handed[c] ++ [s.chan.clcRpl[c].length]) } }

/-- Is the event a CAR LOSS? -/
def CarEvent.isLoss : CarEvent → Bool
  | .loss _ => true
  | .ret _ _ _ _ => false

/-- The RPL has taken a CAR LOSS of car c that its CLC has not: what the CLC hands until then is of the cycle that ended (R48). -/
def State.clcBehind (s : State) (c : Car) : Bool :=
  (s.chan.ssuClc[c].take (s.chan.ssuClc[c].length - s.chan.ssuRpl[c].length)).any CarEvent.isLoss

/-- CLC c has taken a CAR LOSS that the RPL has not: the jobs the RPL creates until then are of the cycle that ended (R116). -/
def State.rplBehind (s : State) (c : Car) : Bool := decide (s.chan.handed[c] ≠ [])

/-- The head of the RPL's channel to CLC c has been taken. -/
def State.dropTell (s : State) (c : Car) : State :=
  { s with chan := { s.chan with rplClc := dropAt s.chan.rplClc c } }

/-! ## Journal entry requests (R171) -/

/-- A block asks the JRN for an entry. -/
def State.ask (s : State) (src : Source) (e : Entry) : State :=
  { s with jrn := { s.jrn with requests := s.jrn.requests ++ [⟨src, e⟩] } }

/-! ## Roster look-up (R17) -/

/-- Does the record name (car, drop)? -/
def NodeRec.names (r : NodeRec) (c : Car) (d : Drop) : Bool := decide (r.car = c) && decide (r.drop = d)

/-- The roster record of (car, drop), if there is one. -/
def State.findNode (s : State) (c : Car) (d : Drop) : Option NodeRec :=
  s.roster.find? (fun r => r.names c d)

/-- A node is excluded when its runtime override is EXCLUDE, or when it is unset and the fleet
exclusion is set (R19). -/
def NodeRec.isExcluded (r : NodeRec) : Bool :=
  match r.override with
  | .exclude => true
  | .include => false
  | .unset => r.fleetExcl

/-- An included DOOR record of a car. -/
def NodeRec.includedDoor (r : NodeRec) (c : Car) : Bool :=
  decide (r.car = c) && decide (r.cls = .door) && !r.isExcluded

/-- Every included DOOR record of the car is READY (R64; R118, fourth term). -/
def doorsAllReady (roster : List NodeRec) (c : Car) : Bool :=
  roster.all (fun r => !r.includedDoor c || decide (r.state = .ready))

/-- The record of a car whose live job has the identity `jid` (R54). -/
def State.findJob (s : State) (c : Car) (jid : Nat) : Option NodeRec :=
  s.roster.find? (fun r => decide (r.car = c) && decide (r.job.map RplJob.jid = some jid))

/-! ## Directory (sections 8.2, 8.3) -/

/-- The record number of a copy of a slot (R129). -/
def copyIx (s : Slot) (k : CopyId) : CopyIx :=
  match k with
  | .a => ⟨2 * s.val, by omega⟩
  | .b => ⟨2 * s.val + 1, by omega⟩

/-- The slot of a copy. -/
def slotOf (r : CopyIx) : Slot := ⟨r.val / 2, by omega⟩

/-- Which copy of its slot a copy is; also its bank. -/
def copyOf (r : CopyIx) : CopyId := if r.val % 2 = 0 then .a else .b

/-- The other copy of a slot. -/
def CopyId.other : CopyId → CopyId
  | .a => .b
  | .b => .a

/-- Copy codes: 0 A, 1 B. -/
def CopyId.code : CopyId → Nat
  | .a => 0
  | .b => 1

/-- A record that is an active copy: CLOSED with a nonzero activation sequence (R130). -/
def CopyRec.isActive (r : CopyRec) : Bool := decide (r.state = .closed) && decide (r.seq ≠ 0)

/-- The active copy of a slot, if it has one (R130). -/
def State.activeCopy (s : State) (k : Slot) : Option CopyIx :=
  if s.isc.records[copyIx k .a].isActive then some (copyIx k .a)
  else if s.isc.records[copyIx k .b].isActive then some (copyIx k .b)
  else none

/-! ## Words of the Exchange RAM (R154) -/

/-- The byte of the Exchange RAM at an address. -/
def State.ramByte (s : State) (a : Nat) : Byte := Mem.read 0 s.ram a

/-- Consecutive bytes of the Exchange RAM. -/
def State.ramBytes (s : State) (a n : Nat) : List Byte := Mem.readBytes 0 s.ram a n

/-- Write a 16-bit word into a memory, low byte first. -/
def putWord (m : Memory) (a v : Nat) : Memory := Mem.writeBytes 0 m a (le16 v)

/-- The part writes consecutive bytes of the Exchange RAM. -/
def State.putBytes (s : State) (a : Nat) (l : List Byte) : State :=
  { s with ram := Mem.writeBytes 0 s.ram a l }

/-! ## Elapsed time -/

/-- Milliseconds from one uptime to a later one, the 32-bit count wrapping (R156).
(DEDUCED: log 5). -/
def msSince (now was : Long) : Nat := (now - was).toNat

end Sys2Proof.Machine
end

