-- ==== Sys2Proof/Machine/Flags.lean ====
section
/-! DEFINITION. The Notice Unit's flags: causes, enables, TIE, and the two notice lines they drive (R162, R177, R178). -/

namespace Sys2Proof.Machine

/-- The four causes; bits 0 to 3 of NOTICE in this order (section 9.4). -/
inductive Cause where
  | journal
  | order
  | permit
  | alert
  deriving DecidableEq, Repr

/-- The bit of a cause. -/
def Cause.mask : Cause → BitVec 4
  | .journal => 1
  | .order => 2
  | .permit => 4
  | .alert => 8

/-- NOTICE_A is active: with TIE clear for PERMIT and ALERT, with TIE set for all four (R178). -/
def Ntu.lineA (n : Ntu) : Bool :=
  decide (n.causes &&& n.enables &&& (if n.tie then 15 else 12) ≠ 0)

/-- NOTICE_B is active: with TIE clear for JOURNAL and ORDER, with TIE set never (R178). -/
def Ntu.lineB (n : Ntu) : Bool :=
  decide (n.causes &&& n.enables &&& (if n.tie then 0 else 3) ≠ 0)

/-- Set the NTU's record and drive the lines afresh (R178). -/
def State.setNtu (s : State) (n : Ntu) : State :=
  { s with ntu := n, pins := { s.pins with noticeA := n.lineA, noticeB := n.lineB } }

/-- Raise a cause; a raised cause stays raised (R177). -/
def State.raise (s : State) (c : Cause) : State :=
  s.setNtu { s.ntu with causes := s.ntu.causes ||| c.mask }

/-- Clear the causes whose bits are 1 in a value written to NOTICE (R162). -/
def State.clearCauses (s : State) (v : Word) : State :=
  s.setNtu { s.ntu with causes := s.ntu.causes &&& ~~~ (v.setWidth 4) }

/-- Set the enables and TIE from a value written to NOTICE ENABLE (section 9.4). -/
def State.setEnables (s : State) (v : Word) : State :=
  s.setNtu { s.ntu with enables := v.setWidth 4, tie := v.getLsbD 7 }

end Sys2Proof.Machine
end

