-- ==== Sys2Proof/Machine/Digest.lean ====
section
/-! DEFINITION. The Digest Engine's algorithm, masking and clipped spans (chapter 3). -/

namespace Sys2Proof.Machine

/-- The sums a digest starts from (R34). -/
def Sums.init : Sums := ⟨1, 0⟩

/-- Take one byte value: A first, then B with the A just formed, both mod 65521 (R34). -/
def Sums.feed (s : Sums) (d : Nat) : Sums :=
  let a := (s.a + d) % Config.digestMod
  ⟨a, (s.b + a) % Config.digestMod⟩

/-- Take bytes first to last. -/
def Sums.feedAll (s : Sums) : List Byte → Sums
  | [] => s
  | b :: rest => (s.feed b.toNat).feedAll rest

/-- The digest B x 65536 + A (R34). -/
def Sums.digest (s : Sums) : Long := BitVec.ofNat 32 (s.b * 65536 + s.a)

/-- The unmasked digest of a sequence of bytes (R34). -/
def digestOf (l : List Byte) : Long := (Sums.init.feedAll l).digest

/-- The byte at image position p is masked for a span list (R36). -/
def isMasked (spans : List Span) (p : Nat) : Bool :=
  spans.any (fun s => decide (s.off ≤ p) && decide (p < s.off + s.len))

/-- Bytes from image position p on, each masked byte replaced by 0x00 in its place (R36). -/
def maskFrom (spans : List Span) (p : Nat) : List Byte → List Byte
  | [] => []
  | b :: rest => (if isMasked spans p then 0 else b) :: maskFrom spans (p + 1) rest

/-- Segments of an image of length L: ceil(L / 2048) (R141). -/
def segmentCount (length : Nat) : Nat := ceilDiv length Config.segmentBytes

/-- len_i: 2048 but for the last segment, which has the rest (R37). -/
def segLen (d : Desc) (i : Nat) : Nat :=
  if i + 1 < d.segments then Config.segmentBytes
  else d.length - Config.segmentBytes * (d.segments - 1)

/-- The clipped spans of segment i, in list order and in segment coordinates (R37). -/
def clippedSpans (d : Desc) (i : Nat) : List Span :=
  d.spans.filterMap (fun s =>
    let lo := max s.off (Config.segmentBytes * i)
    let hi := min (s.off + s.len) (Config.segmentBytes * i + segLen d i)
    if lo < hi then some ⟨lo - Config.segmentBytes * i, hi - lo⟩ else none)

/-- The bytes of segment i of a copy with its masked bytes fed as 0x00 (R36, R38). -/
def maskSegment (d : Desc) (i : Nat) (l : List Byte) : List Byte :=
  maskFrom d.spans (Config.segmentBytes * i) l

end Sys2Proof.Machine
end

