-- ==== Sys2Proof/Machine/Publish.lean ====
section
/-! DEFINITION. What the part shows in the Exchange RAM: the Status Page, the node mirror and the directory mirror, each
item written whole when it changes, and the bracketed changes of the roster (R12, R32, R129, R154, R156). -/

namespace Sys2Proof.Machine

/-! ## Codes -/

def RunState.code : RunState → Nat
  | .starting => 0
  | .running => 1
  | .restarting => 2

def ResetCause.code : ResetCause → Nat
  | .power => 0
  | .resetPin => 1
  | .restart => 2

def SupplyState.code : SupplyState → Nat
  | .unknown => 0
  | .present => 1
  | .dipping => 2
  | .gap => 3
  | .returning => 4

def FleetStatus.code : FleetStatus → Nat
  | .loaded => 0
  | .absent => 1
  | .bad => 2
  | .mismatch => 3

def NodeClass.code : NodeClass → Nat
  | .door => 0
  | .info => 1

def Override.code : Override → Nat
  | .unset => 0
  | .exclude => 1
  | .include => 2

def NodeState.code : NodeState → Nat
  | .excluded => 0
  | .dark => 1
  | .awaiting => 2
  | .missing => 3
  | .queued => 4
  | .surveying => 5
  | .loading => 6
  | .starting => 7
  | .ready => 8
  | .backoff => 9
  | .failed => 10

def Plan.code : Plan → Nat
  | .compare => 1
  | .full => 2

def PlanReason.code : PlanReason → Nat
  | .absent => 0
  | .compare => 1
  | .ramLost => 2
  | .otherImage => 3
  | .loadOnlyBoot => 4
  | .beyondHoldUp => 5
  | .ordered => 6
  | .imageCheck => 7
  | .classMismatch => 8
  | .noImage => 9
  | .imageClass => 10

def FailReason.code : FailReason → Nat
  | .absent => 0
  | .noReply => 1
  | .repeatedReject => 2
  | .nodeRefused => 3
  | .imageCheck => 4
  | .storeFault => 5

def Phase.code : Phase → Nat
  | .survey => 1
  | .load => 2
  | .start => 3

def CopyState.code : CopyState → Nat
  | .blank => 0
  | .erasing => 1
  | .writing => 2
  | .closed => 3
  | .retired => 4
  | .rejected => 5
  | .torn => 6
  | .damaged => 7

def StoreState.code : StoreState → Nat
  | .idle => 0
  | .erasing => 1
  | .suspended => 2
  | .programming => 3
  | .closing => 4

/-- An absent plan reads 0 (R32). -/
def planCode : Option Plan → Nat
  | none => 0
  | some p => p.code

/-- The vehicle number shown: 0 when not written or unreadable (section 9.2, R148). -/
def Identity.number : Identity → Nat
  | .written n => n
  | _ => 0

/-- The identity written flag (R148). -/
def Identity.isWritten : Identity → Bool
  | .notWritten => false
  | _ => true

/-! ## Items (R154, R156) -/

/-- An item the part shows: its address and its consecutive 16-bit words, low word first. A field of 32 bits is one
item of two words, and fields that are written together are one item (R132, R156, R170). -/
abbrev Item := Nat × List Nat

/-- A number of 32 bits as two words, low word first (R154). -/
def longWords (v : Nat) : List Nat := [v % 65536, v / 65536 % 65536]

/-- Consecutive words from an address: (address, value). -/
def wordsFrom (a : Nat) : List Nat → List (Nat × Nat)
  | [] => []
  | v :: rest => (a, v) :: wordsFrom (a + 2) rest

/-- Every word of a list of items. -/
def itemWords (l : List Item) : List (Nat × Nat) := l.flatMap (fun x => wordsFrom x.1 x.2)

/-! ## The Status Page (section 9.2) -/

/-- The room: (R - W - 4) mod 8192 (R170). -/
def Jrn.room (j : Jrn) : Nat := (j.r + 2 * Config.journalBytes - j.w - 4) % Config.journalBytes

/-- The protection block is unreadable: marked so in RAM, or by a mark that reads as neither (R139, R146). -/
def Isc.protectBad (i : Isc) : Bool := i.protectUnreadable || i.protectNeither

/-- While the protection block is unreadable every group is taken as protected (R146). -/
def Isc.groupProtected (i : Isc) (g : Fin 4) : Bool := i.protectBad || i.protect[g]

/-- The protection byte: groups 0 to 3 in bits 0 to 3, bit 7 while the block is unreadable (R146). -/
def Isc.protectByte (i : Isc) : Nat :=
  bit (i.groupProtected 0) + 2 * bit (i.groupProtected 1) + 4 * bit (i.groupProtected 2)
    + 8 * bit (i.groupProtected 3) + 128 * bit i.protectBad

/-- The items of the Status Page ahead of the car summaries. Bytes that share a word are shown together (R154). The journal's
five words are written whenever one of them changes (R170), and the store state with the target and the suspend count (R132):
each of these is one item. -/
def statusItems (s : State) : List Item :=
  [(0x00, [Config.familyCode]), (0x02, [Config.revisionCode]),
   (0x04, [s.run.code + 256 * s.cause.code]),
   (0x06, [bit s.isc.identity.isWritten + 256 * s.fleet.status.code]),
   (0x08, longWords s.isc.identity.number),
   (0x0C, [s.fleet.skipped + 256 * s.fleet.carCount]), (0x0E, [s.ord.batch.toNat]),
   (0x10, [s.jrn.w, s.jrn.room, bit s.jrn.hold + 256 * s.jrn.backlog.length, s.jrn.lost, s.jrn.withheld]),
   (0x1A, [s.isc.storeState.code + 256 * s.isc.targetCopy, s.isc.targetSlot + 256 * s.isc.protectByte, s.isc.suspendCount]),
   (0x20, longWords s.ord.uptime.toNat),
   (0x24, [s.ord.ret, s.ord.q, s.ord.scan, s.ord.lw, s.ord.hw])]

/-- The flags byte of a car summary: unknown, restart, permit, withhold seen, late, blocked. -/
def carFlags (s : State) (c : Car) : Nat :=
  bit s.ssu[c].unknown + 2 * bit s.ssu[c].restart + 4 * bit s.prm[c].active
    + 8 * bit s.prm[c].withhold + 16 * bit s.rpl[c].late + 32 * bit s.rpl[c].blocked

/-- The items of a car summary, at 0x60 + 16c. -/
def carItems (s : State) (c : Car) : List Item :=
  let base := 0x60 + 16 * c.val
  [(base, [s.ssu[c].state.code + 256 * carFlags s c]), (base + 2, [s.ssu[c].g]), (base + 4, [s.rpl[c].e]),
   (base + 6, [s.rpl[c].p]), (base + 8, [s.rpl[c].elapsed]),
   (base + 10, [s.rpl[c].ready + 256 * s.rpl[c].total]), (base + 12, [s.lines[c].errors])]

/-- Every item of the Status Page the part writes. -/
def pageItems (s : State) : List Item := statusItems s ++ allCars.flatMap (carItems s)

/-- Every word of the Status Page the part writes: (address, value). -/
def statusPage (s : State) : List (Nat × Nat) := itemWords (pageItems s)

/-! ## The node mirror (section 2.6) -/

/-- The items of a mirror entry but for the change count, at their offsets. -/
def nodeItems : Option NodeRec → List Item
  | none => [(0, [0xFF]), (2, [0]), (4, [0]), (6, [0]), (8, [0]), (10, [0]), (12, [0]), (14, [0]), (16, [0]), (18, [0]),
     (20, [0]), (22, [0]), (24, [0]), (26, [0]), (28, [0]), (32, [0, 0]), (36, [0, 0])]
  | some r =>
    let h := r.hello
    let j := r.job
    [(0, [r.car.val + 256 * (r.drop.val + 1)]), (2, [r.cls.code + 256 * r.slot.val]),
     (4, [bit r.fleetExcl + 256 * r.override.code]), (6, [r.state.code + 256 * planCode r.plan]),
     (8, [bit r.marginal + 256 * r.reason.code]), (10, [r.attempt + 256 * r.fail.code]),
     (12, [bit h.isSome + 256 * (h.elim 0 (fun f => bit f.ramLost))]),
     (14, [h.elim 0 (fun f => bit f.digestCapable)
        + 256 * (j.elim 0 (fun x => x.phase.elim 0 Phase.code))]),
     (16, [h.elim 0 HelloFields.image]), (18, [h.elim 0 HelloFields.version]),
     (20, [h.elim 0 HelloFields.segments]),
     (22, [j.elim 0 (fun x => (copyOf x.copy).code) + 256 * j.elim 0 RplJob.retry]),
     (24, [j.elim 0 (fun x => x.reload.length)]), (26, [j.elim 0 RplJob.s]), (28, [r.backoffShown]),
     (32, longWords r.changedAt.toNat), (36, longWords r.cost)]

/-- The words of a mirror entry but for the change count: (offset, value). -/
def nodeWords (r : Option NodeRec) : List (Nat × Nat) := itemWords (nodeItems r)

/-- The items of mirror entry i with its change count at offset 30. -/
def mirrorItems (s : State) (i : Fin 48) : List Item :=
  ((30, [s.mirrorCount[i].toNat]) :: nodeItems s.roster[i.val]?).map
    (fun x => (Config.nodeMirrorBase + 64 * i.val + x.1, x.2))

/-- The words of mirror entry i: (address, value). -/
def mirrorWords (s : State) (i : Fin 48) : List (Nat × Nat) := itemWords (mirrorItems s i)

/-- Some field that an entry shows, other than its change count, differs between two records (R32). -/
def shownDiffers (old new : Option NodeRec) : Bool :=
  decide (old ≠ new) && decide (nodeWords old ≠ nodeWords new)

/-! ## The directory mirror (R129) -/

/-- Number of marks set in a written map. -/
def marksSet (w : BitVec 256) : Nat :=
  (List.range 256).foldl (fun n i => n + bit (w.getLsbD i)) 0

/-- The items of a directory mirror entry, at 0x1E00 + 16r. A description the record does not hold
reads 0. -/
def recordItems (r : CopyIx) (k : CopyRec) : List Item :=
  let base := Config.directoryMirrorBase + 16 * r.val
  [(base, [k.state.code + 256 * k.desc.cls]), (base + 2, [k.desc.image]), (base + 4, [k.desc.version]),
   (base + 6, [k.desc.segments]), (base + 8, [if k.written = 0 then 0 else marksSet k.written]),
   (base + 10, [k.use + 256 * k.desc.spans.length]), (base + 12, longWords k.seq)]

/-- The words of a directory mirror entry: (address, value). -/
def recordWords (r : CopyIx) (k : CopyRec) : List (Nat × Nat) := itemWords (recordItems r k)

/-- Every word of the directory mirror. -/
def directoryMirror (s : State) : List (Nat × Nat) :=
  (List.finRange 32).flatMap (fun r => recordWords r s.isc.records[r])

/-! ## Writing what changed -/

/-- Write words. -/
def putWords (m : Memory) : List (Nat × Nat) → Memory
  | [] => m
  | (a, w) :: rest => putWords (putWord m a w) rest

/-- Write, whole, each of the new items that differs from the old item of the same place (R154, R156). -/
def syncItems (m : Memory) : List Item → List Item → Memory
  | x :: olds, y :: news => syncItems (if x = y then m else putWords m (wordsFrom y.1 y.2)) olds news
  | _, _ => m

/-- One mirror entry: nothing where neither the record nor the count has changed, else the changed items and the
count. -/
def syncEntry (old new : State) (m : Memory) (i : Fin 48) : Memory :=
  if old.roster[i.val]? = new.roster[i.val]? ∧ old.mirrorCount[i] = new.mirrorCount[i] then m
  else syncItems m (mirrorItems old i) (mirrorItems new i)

/-- One directory entry. -/
def syncRecord (old new : State) (m : Memory) (r : CopyIx) : Memory :=
  if old.isc.records[r] = new.isc.records[r] then m
  else syncItems m (recordItems r old.isc.records[r]) (recordItems r new.isc.records[r])

/-- A command took the part from `old` to `new`: write into the Exchange RAM every item of the Status Page and the two
mirrors that now differs from how the command found it. What the planner's car records, the roster and the directory
show has been written at each change already (`State.setRpl`, `State.setRoster`, `State.setRecord`). -/
def publish (old new : State) : State :=
  let m1 := syncItems new.ram (pageItems old) (pageItems new)
  let m2 := (List.finRange 48).foldl (syncEntry old new) m1
  let m3 := (List.finRange 32).foldl (syncRecord old new) m2
  { new with ram := m3 }

/-! ## Changes that write what they show -/

/-- Replace the RPL record of a car: each item of its summary that this changes is written (R156). -/
def State.setRpl (s : State) (c : Car) (r : RplCar) : State :=
  let t := { s with rpl := s.rpl.set c r }
  { t with ram := syncItems s.ram (carItems s c) (carItems t c) }

/-- A node's backoff timer, running in the old record, is running no more in the new one. -/
def backoffEnds (old new : Option NodeRec) : Bool :=
  old.any (fun r => r.backoffFrom.isSome) && new.all (fun r => r.backoffFrom.isNone)

/-- The backoff remaining of an entry whose timer has ended: written whether or not it showed 0 (R32, R60). -/
def endedBackoff (old new : State) (i : Fin 48) : List (Nat × Nat) :=
  if backoffEnds old.roster[i.val]? new.roster[i.val]? then
    itemWords ((mirrorItems new i).filter (fun x => decide (x.1 = Config.nodeMirrorBase + 64 * i.val + 28)))
  else []

/-- The RPL changes the roster: each entry that shows a change is written, the write bracketed by its change count, two
higher (R32; log 6). -/
def State.setRoster (s : State) (l : List NodeRec) : State :=
  let t := { s with
    roster := l
    mirrorCount := Vector.ofFn (fun i : Fin 48 =>
      if shownDiffers s.roster[i.val]? l[i.val]? then s.mirrorCount[i] + 2 else s.mirrorCount[i]) }
  { t with ram := (List.finRange 48).foldl (fun m i => putWords (syncEntry s t m i) (endedBackoff s t i)) s.ram }

/-- Replace the roster record of (car, drop). -/
def State.setNode (s : State) (c : Car) (d : Drop) (n : NodeRec) : State :=
  s.setRoster (s.roster.map (fun r => if r.names c d then n else r))

/-- Replace a directory record: each item of its mirror entry that this changes is written (R129). -/
def State.setRecord (s : State) (r : CopyIx) (v : CopyRec) : State :=
  let t := { s with isc := { s.isc with records := s.isc.records.set r v } }
  { t with ram := syncRecord s t s.ram r }

/-- Add 1 to a copy's use count (R131). -/
def State.pin (s : State) (r : CopyIx) : State :=
  s.setRecord r { s.isc.records[r] with use := s.isc.records[r].use + 1 }

/-- Take 1 from a copy's use count (R131). -/
def State.unpin (s : State) (r : CopyIx) : State :=
  s.setRecord r { s.isc.records[r] with use := s.isc.records[r].use - 1 }

/-- A job pins its copy, and the job it replaces, if any, releases its own in the same step: the use count of a copy that
both pin is as it was (R53). -/
def State.repin (s : State) (old : Option RplJob) (r : CopyIx) : State :=
  match old with
  | none => s.pin r
  | some j =>
    if j.copy = r then s.setRecord r { s.isc.records[r] with use := s.isc.records[r].use - 1 + 1 }
    else (s.unpin j.copy).pin r

/-! ## Writes whatever was shown -/

/-- Write the given words of the Status Page, whatever they showed. -/
def State.showWords (s : State) (which : Nat → Bool) : State :=
  { s with ram := putWords s.ram ((statusPage s).filter (fun w => which w.1)) }

/-- The word of each car summary that holds its flags, the supply state code beside them. -/
def isFlagsWord (a : Nat) : Bool := decide (0x60 ≤ a) && decide ((a - 0x60) % 16 = 0)

/-- Write the field at an offset of the mirror entry of each record a test picks, whatever it showed. Only writes of a change
are bracketed by the change count (R32). -/
def State.showField (s : State) (which : NodeRec → Bool) (offset : Nat) : State :=
  let shown := fun i : Fin 48 =>
    if (s.roster[i.val]?).any which
      then itemWords ((mirrorItems s i).filter (fun x => decide (x.1 = Config.nodeMirrorBase + 64 * i.val + offset)))
    else []
  { s with ram := putWords s.ram ((List.finRange 48).flatMap shown) }

/-- Write the whole Status Page and directory mirror, whatever they showed. -/
def State.showAll (s : State) : State :=
  { s with ram := putWords s.ram (statusPage s ++ directoryMirror s) }

/-- The reserved bytes 40 to 63 of mirror entry i, which read 0 (R32). -/
def reservedWords (i : Fin 48) : List (Nat × Nat) :=
  wordsFrom (Config.nodeMirrorBase + 64 * i.val + 40) (List.replicate 12 0)

/-- Write all 48 mirror entries whole, their reserved bytes with them (R33). DEDUCED: "rewritten whole" takes in bytes 40
to 63, so what the host has left there goes (log 35). -/
def State.showMirror (s : State) : State :=
  { s with ram := (List.finRange 48).foldl (fun m i => putWords m (mirrorWords s i ++ reservedWords i)) s.ram }

/-- Advance every change count by 2: the bracketed rewrite of all entries at a rebuild (R33). -/
def State.bumpCounts (s : State) : State :=
  { s with mirrorCount := Vector.ofFn (fun i : Fin 48 => s.mirrorCount[i] + 2) }

end Sys2Proof.Machine
end

