-- ==== Sys2Proof/Machine/Journal.lean ====
section
/-! DEFINITION. The Journal Writer (chapter 10): entries, room, backlog, losses, the hold, and its two commands. -/

namespace Sys2Proof.Machine

/-- The outcome of every command of the part. -/
abbrev Result := Host.Outcome State Fault Refusal

/-- A command's effect took `old` to `new`: what changed is shown, and the part goes on. -/
def done (old new : State) : Result := .next (publish old new)

/-! ## Entries (section 10.2) -/

def EntryKind.code : EntryKind → Nat
  | .startUp => 0x01
  | .carLoss => 0x02
  | .carReturn => 0x03
  | .nodeReady => 0x10
  | .nodeFailed => 0x11
  | .nodeMissing => 0x12
  | .stranger => 0x13
  | .anomaly => 0x14
  | .carDoorsReady => 0x15
  | .late => 0x16
  | .onTime => 0x17
  | .permit => 0x18
  | .copyState => 0x19
  | .lost => 0x1F
  | .nodePlanned => 0x20
  | .surveyResult => 0x21
  | .preempted => 0x22

/-- NODE PLANNED, SURVEY RESULT and PREEMPTED are progress entries; the others are essential. -/
def EntryKind.isProgress : EntryKind → Bool
  | .nodePlanned => true
  | .surveyResult => true
  | .preempted => true
  | _ => false

/-- Pad bytes read 0; every entry is a multiple of 4 bytes long. -/
def pad4 (l : List Byte) : List Byte := l ++ List.replicate ((4 - l.length % 4) % 4) 0

/-- Length of an entry, header included. -/
def Entry.length (e : Entry) : Nat := 8 + e.body.length

/-- The bytes of an entry: kind, length, car, drop, uptime, body. -/
def Entry.bytes (e : Entry) : List Byte :=
  [byteOf e.kind.code 0, byteOf e.length 0, byteOf e.car 0, byteOf e.drop 0] ++ le32 e.uptime.toNat ++ e.body

/-- The 4-byte WRAP filler. -/
def wrapFiller : List Byte := [0x7F, 4, 0xFF, 0]

/-- The LOST entry carrying a tally. -/
def lostEntry (uptime : Long) (tally : Nat) : Entry :=
  { kind := .lost, car := 0xFF, drop := 0, uptime := uptime, body := pad4 (le16 tally) }

/-- A COPY STATE entry (R137, R139, R151). -/
def copyStateEntry (uptime : Long) (r : CopyIx) (st : CopyState) (cause : CopyCause) : Entry :=
  let code : CopyCause → Nat
    | .readCheck => 1
    | .verify => 2
    | .scanTorn => 3
    | .scanFields => 4
    | .scanRepair => 5
  { kind := .copyState, car := 0xFF, drop := 0, uptime := uptime,
    body := [byteOf (slotOf r).val 0, byteOf (copyOf r).code 0, byteOf st.code 0, byteOf (code cause) 0] }

/-- A COPY STATE entry whose new state is DAMAGED or TORN raises ALERT when it is taken (R177). -/
def Entry.alerts (e : Entry) : Bool :=
  decide (e.kind = .copyState)
    && (decide (byteAt e.body 2 = CopyState.damaged.code) || decide (byteAt e.body 2 = CopyState.torn.code))

/-! ## Writing (R171) -/

/-- The entry fits before the end of the journal. -/
def fitsBefore (w : Nat) (len : Nat) : Bool := decide (w + len ≤ Config.journalBytes)

/-- The needed room of an entry at W (R171). -/
def neededRoom (w : Nat) (len : Nat) : Nat :=
  if fitsBefore w len then len else (Config.journalBytes - w) + len

/-- The entry's needed room is at most the room. -/
def Jrn.hasRoom (j : Jrn) (e : Entry) : Bool := decide (neededRoom j.w e.length ≤ j.room)

/-- W after an entry has been written at W (R171). -/
def markAfter (w len : Nat) : Nat := if fitsBefore w len then (w + len) % Config.journalBytes else len

/-- Write an entry: a filler first where it does not fit before the end, then the entry, then W, and
raise JOURNAL (R171, R177). -/
def State.writeEntry (s : State) (e : Entry) : State :=
  let s1 :=
    if fitsBefore s.jrn.w e.length then s.putBytes (Config.journalBase + s.jrn.w) e.bytes
    else (s.putBytes (Config.journalBase + s.jrn.w) wrapFiller).putBytes Config.journalBase e.bytes
  ({ s1 with jrn := { s1.jrn with w := markAfter s.jrn.w e.length } }).raise .journal

/-- Place an essential entry: written, backlogged, or lost with the lost counts and ALERT raised
(R172, R173). -/
def State.placeEssential (s : State) (e : Entry) : State :=
  if s.jrn.backlog = [] ∧ s.jrn.hasRoom e = true then s.writeEntry e
  else if s.jrn.backlog.length < Config.backlogMax then
    { s with jrn := { s.jrn with backlog := s.jrn.backlog ++ [e] } }
  else
    ({ s with jrn := { s.jrn with tally := saturate 65535 (s.jrn.tally + 1),
                                  lost := saturate 65535 (s.jrn.lost + 1) } }).raise .alert

/-- With the tally nonzero and the backlog empty, the LOST entry is placed first (R173). DEDUCED: its
uptime is that of its making (log 32). -/
def State.placeLost (s : State) : State :=
  if s.jrn.tally ≠ 0 ∧ s.jrn.backlog = [] then
    ({ s with jrn := { s.jrn with tally := 0 } }).placeEssential (lostEntry s.ord.uptime s.jrn.tally)
  else s

/-- Place a progress entry: written only with an empty backlog, room for it, and at least LW left;
otherwise withheld and counted (R174). -/
def State.placeProgress (s : State) (e : Entry) : State :=
  if s.jrn.backlog = [] ∧ s.jrn.hasRoom e = true
      ∧ s.jrn.lw ≤ s.jrn.room - neededRoom s.jrn.w e.length then s.writeEntry e
  else { s with jrn := { s.jrn with withheld := saturate 65535 (s.jrn.withheld + 1) } }

/-! ## The hold (R175) -/

/-- The hold flag after a test: set below LW, cleared at or above HW, kept between. -/
def Jrn.holdAfter (j : Jrn) : Bool := if j.hold then decide (j.room < j.hw) else decide (j.room < j.lw)

/-- Test the hold; at a change tell every CLC. -/
def State.testHold (s : State) : State :=
  if s.jrn.holdAfter = s.jrn.hold then s
  else ({ s with jrn := { s.jrn with hold := s.jrn.holdAfter } }).tellHold s.jrn.holdAfter

/-- The JRN takes one entry request, whole (R171 to R175, R177). -/
def State.takeEntry (s : State) (e : Entry) : State :=
  let s1 := if e.alerts then s.raise .alert else s
  let s2 := s1.placeLost
  let s3 := if e.kind.isProgress then s2.placeProgress e else s2.placeEssential e
  s3.testHold

/-- Take entries in order. -/
def State.takeEntries (s : State) (l : List Entry) : State := l.foldl State.takeEntry s

/-! ## Steering values (R170, R172, R173) -/

/-- Drain the backlog while its head fits; when a place frees with the tally nonzero, the LOST entry
joins the tail (R172, R173). The number bounds the heads taken. -/
def State.drainBacklog : Nat → State → State
  | 0, s => s
  | n + 1, s =>
    match s.jrn.backlog with
    | [] => s
    | e :: rest =>
      if s.jrn.hasRoom e then
        let s1 := ({ s with jrn := { s.jrn with backlog := rest } }).writeEntry e
        let s2 :=
          if s1.jrn.tally = 0 then s1
          else { s1 with jrn := { s1.jrn with backlog := s1.jrn.backlog ++ [lostEntry s1.ord.uptime s1.jrn.tally],
                                              tally := 0 } }
        State.drainBacklog n s2
      else s

/-- The JRN takes the return mark, LW and HW of a sample: drain, then test the hold (R170, R172,
R175). -/
def State.takeSteering (s : State) (v : Steering) : State :=
  let s1 := { s with jrn := { s.jrn with r := v.ret, lw := v.lw, hw := v.hw } }
  (State.drainBacklog (s1.jrn.backlog.length + 2) s1).testHold

/-! ## Which request may be taken next (R171, R123, R137; log 4) -/

/-- An earlier request that a later one of another block must follow: PERMIT follows NODE READY of
its car (R123), NODE FAILED follows COPY STATE (R137). -/
def mustPrecede (early late : Entry) : Bool :=
  (decide (early.kind = .nodeReady) && decide (late.kind = .permit) && decide (early.car = late.car))
    || (decide (early.kind = .copyState) && decide (late.kind = .nodeFailed))

/-- The first request of a block, unless an earlier request must precede it, with the requests left.
`before` are the requests passed over, latest first. -/
def pickRequest (src : Source) : List EntryReq → List EntryReq → Option (Entry × List EntryReq)
  | _, [] => none
  | before, q :: rest =>
    if q.src = src then
      if before.any (fun p => mustPrecede p.entry q.entry) then none
      else some (q.entry, before.reverse ++ rest)
    else pickRequest src (q :: before) rest

/-- The JRN takes the next entry request of a block. -/
def State.jrnTakesRequest (s : State) (src : Source) : State :=
  match pickRequest src [] s.jrn.requests with
  | none => s
  | some (e, rest) => ({ s with jrn := { s.jrn with requests := rest } }).takeEntry e

/-- Every waiting request taken, in the order they were made (at a warm restart's request; log 4). -/
def State.flushRequests (s : State) : State :=
  ({ s with jrn := { s.jrn with requests := [] } }).takeEntries (s.jrn.requests.map EntryReq.entry)

/-! ## Commands -/

/-- JOURNAL_ENTRY_REQUEST: the JRN takes requests only in RUNNING (R171, R176). -/
def execJournalEntryRequest (src : Source) (s : State) : Result :=
  done s (if s.isRunning then s.jrnTakesRequest src else s)

/-- JRN_STEERING_VALUES (R170, R172, R175). -/
def execJrnSteeringValues (s : State) : Result :=
  done s (if s.isRunning then
      match s.chan.ordJrn with
      | [] => s
      | v :: rest => ({ s with chan := { s.chan with ordJrn := rest } }).takeSteering v
    else s)

end Sys2Proof.Machine
end

