-- ==== Sys2Proof/Machine/FlashArray.lean ====
section
/-! DEFINITION. The flash array: where things lie, what a program or an erase leaves, and what a scan of it finds
(08 sections 8.1, 8.8, 8.10). -/

namespace Sys2Proof.Machine

/-! ## Places (R126) -/

/-- Byte address of segment i of a copy in its bank: data block 8s + i / 32, offset 2048 (i mod 32). -/
def segmentAddr (r : CopyIx) (i : Nat) : Nat :=
  Config.blockBytes * (8 * (slotOf r).val + i / 32) + Config.segmentBytes * (i % 32)

/-- Byte address of the fleet block in bank A. -/
def fleetAddr : Nat := Config.blockBytes * Config.fleetBlock

/-- The bank of a copy. -/
def Flash.bank (f : Flash) : CopyId → FlashBank
  | .a => f.a
  | .b => f.b

/-- Replace a bank. -/
def Flash.setBank (f : Flash) (k : CopyId) (v : FlashBank) : Flash :=
  match k with
  | .a => { f with a := v }
  | .b => { f with b := v }

/-- A byte of a bank: a free value where its 2048-byte place is of unknown contents (log 9). -/
def FlashBank.byte (v : FlashBank) (a : Nat) : Byte :=
  match v.unsure.find? (fun u => decide (u.1 = a / Config.segmentBytes)) with
  | some u => Config.unsureByte u.2 a
  | none => Mem.read 0xFF v.cells a

/-- Consecutive bytes of a bank. -/
def FlashBank.bytes (v : FlashBank) (a : Nat) : Nat → List Byte
  | 0 => []
  | n + 1 => v.byte a :: v.bytes (a + 1) n

/-- Note a place as of unknown contents, keeping the list rising by place. -/
def addUnsure (place epoch : Nat) : List (Nat × Nat) → List (Nat × Nat)
  | [] => [(place, epoch)]
  | (p, e) :: rest =>
    if place < p then (place, epoch) :: (p, e) :: rest
    else if place = p then (place, epoch) :: rest
    else (p, e) :: addUnsure place epoch rest

/-- Program bytes at an address within one place. -/
def FlashBank.program (v : FlashBank) (epoch a : Nat) (l : List Byte) : Left → FlashBank
  | .nothing => v
  | .part => { v with unsure := addUnsure (a / Config.segmentBytes) epoch v.unsure }
  | .whole => { cells := Mem.writeBytes 0xFF v.cells a l,
                unsure := v.unsure.filter (fun u => !decide (u.1 = a / Config.segmentBytes)) }

/-- Erase a block. -/
def FlashBank.erase (v : FlashBank) (epoch blk : Nat) : Left → FlashBank
  | .nothing => v
  | .part => { v with unsure := (List.range 32).foldl (fun u k => addUnsure (32 * blk + k) epoch u) v.unsure }
  | .whole => { cells := Mem.clear v.cells (Config.blockBytes * blk) Config.blockBytes,
                unsure := v.unsure.filter (fun u => !decide (u.1 / 32 = blk)) }

/-- Cells found changed since they were programmed (R39). -/
def FlashBank.decay (v : FlashBank) (a len : Nat) (d : Decay) : FlashBank :=
  { v with cells := d.foldl (fun m x => if x.1 < len then Mem.write 0xFF m (a + x.1) x.2 else m) v.cells }

/-! ## Headers (R127) -/

/-- A mark after a program of it that left so much. -/
def Mark.program (m : Mark) : Left → Mark
  | .nothing => m
  | .part => .part
  | .whole => .recorded

/-- A mark after an erase that left so much (R147). -/
def Mark.erase (m : Mark) : Left → Mark
  | .nothing => m
  | .part => if m = .erased then .erased else .part
  | .whole => .erased

/-- Program a mark of a header. -/
def Header.programMark (h : Header) (k : MarkKind) (l : Left) : Header :=
  match k with
  | .eraseIntent => { h with eraseIntent := h.eraseIntent.program l }
  | .opened => { h with opened := h.opened.program l }
  | .closed => { h with closed := h.closed.program l }
  | .rejected => { h with rejected := h.rejected.program l }
  | .retired => { h with retired := h.retired.program l }
  | .damaged => { h with damaged := h.damaged.program l }

/-- Program the description. A part-programmed one leaves bytes that are neither erased nor whole. -/
def Header.programDesc (h : Header) (d : Desc) : Left → Header
  | .nothing => h
  | .part => { h with other := true }
  | .whole => { h with desc := some d }

/-- Program the written mark of segment i. -/
def Header.programWritten (h : Header) (i : Nat) : Left → Header
  | .nothing => h
  | .part => { h with writtenPart := true }
  | .whole => { h with written := h.written ||| (1#256 <<< i) }

/-- Program the digest table and whole-image digest. -/
def Header.programTables (h : Header) (t : List Long) (w : Long) : Left → Header
  | .nothing => h
  | .part => { h with other := true }
  | .whole => { h with tables := some (t, w) }

/-- Program the activation sequence. -/
def Header.programSeq (h : Header) (n : Nat) : Left → Header
  | .nothing => h
  | .part => { h with seq := .part }
  | .whole => { h with seq := .value n }

/-- Erase the header block. One partly erased reads part-programmed (R150; log 9). -/
def Header.erase (h : Header) : Left → Header
  | .nothing => h
  | .part => { h with eraseIntent := .part }
  | .whole => Header.blank

/-- The header block as a warm restart's stop of its erase leaves it: ERASE INTENT stands as it was recorded, so a header
otherwise erased does not read as blank (R153). -/
def Header.stopErase (h : Header) : Left → Header
  | .nothing => h
  | .part => { Header.blank with eraseIntent := h.eraseIntent, other := true }
  | .whole => { Header.blank with eraseIntent := h.eraseIntent }

/-- Change one header. -/
def Flash.onHeader (f : Flash) (r : CopyIx) (g : Header → Header) : Flash :=
  { f with headers := f.headers.set r (g f.headers[r]) }

/-- A place of the identity area after a program that left so much; one stopped or failed is never taken as
unwritten (R148). -/
def Field.programIdentity (n : Nat) : Left → Field
  | .whole => .value n
  | _ => .part

/-- What a program that failed or was cut short leaves. One of the identity area leaves it written and unreadable, however
far it had come (R148). -/
def FlashOp.unfinished (op : FlashOp) (l : Left) : Left :=
  match op with
  | .identity _ => .part
  | _ => l

/-- What a program leaves in flash: `data` are the bytes of a segment or of the fleet table, `t` and `w` the digest table and
whole-image digest of a closing. DEDUCED (log 39): the two places of the identity area are one program, as are the 272 fleet bytes and each part of a header. -/
def Flash.program (f : Flash) (op : FlashOp) (data : List Byte) (t : List Long) (w : Long) (l : Left) : Flash :=
  let f1 := match op with
    | .mark r k => f.onHeader r (fun h => h.programMark k l)
    | .description r d => f.onHeader r (fun h => h.programDesc d l)
    | .segment r i => f.setBank (copyOf r) ((f.bank (copyOf r)).program f.epoch (segmentAddr r i) data l)
    | .writtenMark r i => f.onHeader r (fun h => h.programWritten i l)
    | .tables r => f.onHeader r (fun h => h.programTables t w l)
    | .sequence r n => f.onHeader r (fun h => h.programSeq n l)
    | .protectMark g => { f with protect := f.protect.set g (f.protect[g].program l) }
    | .identity n => { f with identity1 := Field.programIdentity n l, identity2 := Field.programIdentity n l }
    | .fleet => { f with a := f.a.program f.epoch fleetAddr data l }
    | _ => f
  if l = .whole then f1 else { f1 with epoch := f1.epoch + 1 }

/-- What an erase leaves in flash. -/
def Flash.erase (f : Flash) (op : FlashOp) (cut : Cut) : Flash :=
  let f1 := match op with
    | .eraseData r k =>
      f.setBank (copyOf r) ((f.bank (copyOf r)).erase f.epoch (8 * (slotOf r).val + k) cut.left)
    | .eraseHeader r => f.onHeader r (fun h => h.erase cut.left)
    | .eraseProtect =>
      { f with protect := Vector.ofFn (fun g : Fin 4 => f.protect[g].erase (cut.protect.getD g.val cut.left)) }
    | .eraseFleet => { f with a := f.a.erase f.epoch Config.fleetBlock cut.left }
    | _ => f
  if cut.left = .whole then f1 else { f1 with epoch := f1.epoch + 1 }

/-- What a warm restart's stop of an erase leaves in flash (R153). -/
def Flash.stopErase (f : Flash) (op : FlashOp) (cut : Cut) : Flash :=
  match op with
  | .eraseHeader r => f.onHeader r (fun h => h.stopErase cut.left)
  | _ => f.erase op cut

/-- A completed erase. -/
def cutComplete : Cut := ⟨.whole, []⟩

/-- How much a program that ended so left. -/
def progLeft : ProgEnd → Left
  | .verified => .whole
  | .failed l => l

/-- How much a program of this operation that ended so left. -/
def FlashOp.leftBy (op : FlashOp) : ProgEnd → Left
  | .verified => .whole
  | .failed l => op.unfinished l

/-- How much an erase that ended so left. -/
def eraseCut : EraseEnd → Cut
  | .verified => cutComplete
  | .failed c => c

/-- Is the operation an erase? -/
def FlashOp.isErase : FlashOp → Bool
  | .eraseData _ _ => true
  | .eraseHeader _ => true
  | .eraseProtect => true
  | .eraseFleet => true
  | _ => false

/-- The bank an operation concerns; the identity area belongs to neither (R126). -/
def FlashOp.bank : FlashOp → Option CopyId
  | .mark r _ => some (copyOf r)
  | .description r _ => some (copyOf r)
  | .segment r _ => some (copyOf r)
  | .writtenMark r _ => some (copyOf r)
  | .tables r => some (copyOf r)
  | .sequence r _ => some (copyOf r)
  | .eraseData r _ => some (copyOf r)
  | .eraseHeader r => some (copyOf r)
  | .eraseProtect => some .a
  | .eraseFleet => some .a
  | .protectMark _ => some .a
  | .identity _ => none
  | .fleet => some .a

/-- What a supply loss or RESET_IN leaves of the operation in flight (R152): an erase by its cut, a
program by how far it had come. -/
def Flash.cutOp (f : Flash) (op : FlashOp) (data : List Byte) (t : List Long) (w : Long) (cut : Cut) : Flash :=
  if op.isErase then f.erase op cut else f.program op data t w (op.unfinished cut.left)

/-! ## What a scan finds (R148, R150, R151) -/

/-- The vehicle number that the bytes of a place read: every byte erased reads 0xFF (R21), and a part-programmed place gives
none. -/
def Field.vehicle : Field → Option Nat
  | .erased => some Config.erasedLong
  | .value n => some n
  | .part => none

/-- Some byte of the identity area reads other than erased (R148). -/
def Flash.identityUsed (f : Flash) : Bool :=
  decide (f.identity1.vehicle ≠ some Config.erasedLong) || decide (f.identity2.vehicle ≠ some Config.erasedLong)

/-- The identity as the two places read (R148). -/
def Flash.readIdentity (f : Flash) : Identity :=
  if f.identityUsed = false then .notWritten
  else if f.identity1.vehicle = f.identity2.vehicle then f.identity1.vehicle.elim .unreadable .written
  else .unreadable

/-- A mark or the activation sequence reads part-programmed (R150, second row). -/
def Header.partProgrammed (h : Header) : Bool :=
  decide (h.eraseIntent = .part) || decide (h.opened = .part) || decide (h.closed = .part)
    || decide (h.rejected = .part) || decide (h.retired = .part) || decide (h.damaged = .part)
    || h.writtenPart || decide (h.seq = .part)

/-- The state a header gives its record: the first row of R150 that applies.
(DEDUCED: log 14). -/
def Header.foundState (h : Header) : CopyState :=
  if h = Header.blank then .blank
  else if h.partProgrammed then .torn
  else if h.damaged = .recorded then .damaged
  else if h.eraseIntent = .recorded then .torn
  else if h.retired = .recorded then .retired
  else if h.rejected = .recorded then .rejected
  else if h.closed = .recorded then .closed
  else .torn

/-- The number a sequence field holds: 0 while erased (R127). -/
def Field.number : Field → Nat
  | .value n => n
  | _ => 0

/-- The record a header gives: its fields are loaded for CLOSED, RETIRED, REJECTED and DAMAGED, as
far as the header holds them (R150). -/
def Header.found (h : Header) : CopyRec :=
  match h.foundState with
  | .blank => CopyRec.bare .blank
  | .torn => CopyRec.bare .torn
  | st =>
    { state := st, desc := h.desc.getD Desc.none, written := h.written,
      table := (h.tables.map Prod.fst).getD [], whole := (h.tables.map Prod.snd).getD 0,
      seq := h.seq.number, use := 0 }

/-- The description fails the check of R151. -/
def Desc.unsound (d : Desc) : Bool :=
  decide (1 < d.cls) || decide (d.length = 0) || decide (Config.imageMax < d.length)
    || decide (Config.spanMax < d.spans.length) || d.spans.any (fun s => decide (d.length < s.off + s.len))

/-- A scan under way: the flash array, the records found, the ends of programs still to come, and the
COPY STATE entries owed. -/
structure Scan where
  flash : Flash
  records : Vector CopyRec 32
  ends : List ProgEnd
  entries : List (CopyIx × CopyState × CopyCause)

/-- The scan programs a mark and the copy takes the state the mark gives, or DAMAGED with cause
VERIFY where the program fails (R151, R139). DEDUCED: nothing further is programmed then (log 22). -/
def Scan.programMark (x : Scan) (r : CopyIx) (k : MarkKind) (st : CopyState) (cause : CopyCause) : Scan :=
  let e := x.ends.headD .verified
  let now := if e = .verified then (st, cause) else (.damaged, .verify)
  { flash := x.flash.program (.mark r k) [] [] 0 (progLeft e)
    records := x.records.set r { x.records[r] with state := now.1 }
    ends := x.ends.tail
    entries := x.entries ++ [(r, now.1, now.2)] }

/-- One header is scanned (R150) and its description checked (R151). -/
def Scan.header (x : Scan) (r : CopyIx) : Scan :=
  let v := x.flash.headers[r].found
  let x1 := { x with records := x.records.set r v }
  if v.state = .torn then { x1 with entries := x1.entries ++ [(r, .torn, .scanTorn)] }
  else if (v.state = .closed ∨ v.state = .retired) ∧ v.desc.unsound = true then
    x1.programMark r .damaged .damaged .scanFields
  else x1

/-- One slot's pair is repaired: of two active copies the higher sequence, or copy A at equal ones,
stays active and the other is retired (R151). -/
def Scan.pair (x : Scan) (k : Slot) : Scan :=
  let a := x.records[copyIx k .a]
  let b := x.records[copyIx k .b]
  if a.isActive && b.isActive then
    x.programMark (if a.seq < b.seq then copyIx k .a else copyIx k .b) .retired .retired .scanRepair
  else x

/-- The owed entries in ascending record order (R151). -/
def sortEntries (l : List (CopyIx × CopyState × CopyCause)) : List (CopyIx × CopyState × CopyCause) :=
  (List.finRange 32).flatMap (fun r => l.filter (fun e => decide (e.1 = r)))

/-- The scan of all headers and pairs (R150, R151). -/
def Flash.scan (f : Flash) (ends : List ProgEnd) : Scan :=
  let x0 : Scan := { flash := f, records := Vector.replicate 32 (CopyRec.bare .blank), ends := ends, entries := [] }
  let x1 := (List.finRange 32).foldl Scan.header x0
  let x2 := (List.finRange 16).foldl Scan.pair x1
  { x2 with entries := sortEntries x2.entries }

/-- The identity is read, the headers are scanned and the protection record is loaded: a mark that
reads recorded protects its group, one that reads as neither makes the block unreadable (R146, R148,
R150). The unreadable marks held in RAM are kept (R153; at a power or RESET_IN start they are clear), and the scan's uptime
is that of its entries (R171). -/
def State.startScan (s : State) (ends : List ProgEnd) : State :=
  let x := s.flash.scan ends
  { s with
    flash := x.flash
    isc := { s.isc with
      records := x.records
      openCopy := Vector.replicate 16 none
      pendingMarks := []
      identity := s.flash.readIdentity
      protect := Vector.ofFn (fun g : Fin 4 => decide (s.flash.protect[g] ≠ .erased))
      protectNeither := s.flash.protect.toList.any (fun m => decide (m = .part))
      scanEntries := x.entries
      scanUptime := s.ord.uptime } }

end Sys2Proof.Machine
end

