-- ==== Sys2Proof/Machine/Arbiter.lean ====
section
/-! DEFINITION. The read arbiter, the sharing of the banks between reads and the operation in flight, and the marking of
damage (08 sections 8.4, 8.5). -/

namespace Sys2Proof.Machine

/-! ## Requests (R133) -/

/-- The bank a read request concerns. -/
def ReadReq.bank (q : ReadReq) : CopyId := copyOf q.copy

/-- The request serves a job of a class on a car. -/
def ReadReq.serves (q : ReadReq) (k : NodeClass) (c : Car) : Bool :=
  match q.who with
  | .job c' _ k' => decide (c' = c) && decide (k' = k)
  | .closing => false

/-- An erase on the bank is running, or a program on it is in progress (R133). -/
def State.bankBusy (s : State) (k : CopyId) : Bool :=
  match s.isc.work with
  | none => false
  | some w =>
    match w.op with
    | none => false
    | some op => decide (op.bank = some k) && !(op.isErase && w.suspended)

/-- A read of the bank is in progress. -/
def State.readingOn (s : State) (k : CopyId) : Bool :=
  match s.isc.reading with
  | none => false
  | some q => decide (q.bank = k)

/-- A read of the bank waits. -/
def State.waitingOn (s : State) (k : CopyId) : Bool := s.isc.requests.any (fun q => decide (q.bank = k))

/-- The cars in the order the round gives them after the last served (R133). -/
def carsAfter (last : Car) : List Car := [last + 1, last + 2, last + 3, last + 4, last + 5, last]

/-- The first request of a class in the round after the last served car; within a car, the one made
first (R133). -/
def firstOfClass (l : List ReadReq) (k : NodeClass) (last : Car) : Option ReadReq :=
  (carsAfter last).findSome? (fun c => l.find? (fun q => q.serves k c))

/-- The request the arbiter would begin: DOOR, then INFO, then the closing read, of the requests
whose bank is free (R133). -/
def State.chooseRequest (s : State) : Option ReadReq :=
  let l := s.isc.requests.filter (fun q => !s.bankBusy q.bank)
  match firstOfClass l .door s.isc.lastDoor with
  | some q => some q
  | none =>
    match firstOfClass l .info s.isc.lastInfo with
    | some q => some q
    | none => l.find? (fun q => decide (q.who = .closing))

/-! ## The operation in flight (R135, R136) -/

/-- Replace the order or mark being executed. -/
def State.setWork (s : State) (w : Option Work) : State := { s with isc := { s.isc with work := w } }

/-- Set the store state (R132). -/
def State.setStoreState (s : State) (x : StoreState) : State := { s with isc := { s.isc with storeState := x } }

/-- A waiting step may begin: no read of its bank is in progress, and for a step that follows a
program the arbiter has made its choice, for one that follows a block erase no read of the bank waits
(R135, R136). -/
def State.mayBegin (s : State) (op : FlashOp) (w : Wait) : Bool :=
  match op.bank with
  | none => true
  | some k =>
    !s.readingOn k &&
      match w with
      | .read => true
      | .arbiter => s.isc.reading.isSome || s.chooseRequest.isNone
      | .drain => !s.waitingOn k

/-- The erase in flight is resumed when no read of its bank is in progress and none waits (R135). -/
def State.mayResume (s : State) (w : Work) : Bool :=
  w.suspended &&
    match w.op with
    | some op =>
      match op.bank with
      | some k => !s.readingOn k && !s.waitingOn k
      | none => false
    | none => false

/-- A suspension begins when the slice has ended and a read of the erasing bank waits (R135). -/
def State.maySuspend (s : State) (w : Work) : Bool :=
  w.sliceOver && !w.suspending && !w.suspended &&
    match w.op with
    | some op =>
      op.isErase &&
        match op.bank with
        | some k => s.waitingOn k
        | none => false
    | none => false

/-- What the reads' coming and going does to the work: a waiting step begins, a suspended erase
resumes with a new slice, or a suspension begins (R135, R136). -/
def State.settleStore (s : State) : State :=
  match s.isc.work with
  | none => s
  | some w =>
    match w.due with
    | some (op, wait) =>
      if s.mayBegin op wait then
        s.setWork (some { w with op := some op, due := none, sliceOver := false, suspending := false, suspended := false })
      else s
    | none =>
      if s.mayResume w then
        (s.setWork (some { w with suspended := false, suspending := false, sliceOver := false })).setStoreState .erasing
      else if s.maySuspend w then s.setWork (some { w with suspending := true })
      else s

/-- Place a read request at the arbiter (R133); it may bring about a suspension (R135). -/
def State.addRequest (s : State) (q : ReadReq) : State :=
  ({ s with isc := { s.isc with requests := s.isc.requests ++ [q] } }).settleStore

/-- Withdraw the waiting request of a buffer (R112, R134). -/
def State.withdraw (s : State) (c : Car) (y : Bool) : State :=
  let keep (q : ReadReq) : Bool :=
    match q.who with
    | .job c' y' _ => !(decide (c' = c) && decide (y' = y))
    | .closing => true
  ({ s with isc := { s.isc with requests := s.isc.requests.filter keep } }).settleStore

/-! ## Damage (R128, R137, R139) -/

/-- Clear a slot's open copy if it is this one. -/
def State.clearOpen (s : State) (r : CopyIx) : State :=
  if s.isc.openCopy[slotOf r] = some (copyOf r) then
    { s with isc := { s.isc with openCopy := s.isc.openCopy.set (slotOf r) none } }
  else s

/-- A copy takes a DAMAGED record: the open copy is cleared, the COPY STATE entry asked for, and the
RPL told of the marking and, where the copy was active, of the slot's loss of its active copy. DESIGN CHOICE (log 43): the
marking is told first. -/
def State.markDamaged (s : State) (r : CopyIx) (v : CopyRec) (cause : CopyCause) : State :=
  let wasActive := s.isc.records[r].isActive
  let s1 := (s.setRecord r { v with state := .damaged, use := s.isc.records[r].use }).clearOpen r
  let s2 := (s1.ask .isc (copyStateEntry s.ord.uptime r .damaged cause)).storeTells (.damaged r)
  if wasActive then s2.storeTells (.activeChanged (slotOf r)) else s2

/-- The record of a copy with the fields its header holds (R128, DAMAGED: "Those the header held
before the failure"). -/
def Header.fields (h : Header) : CopyRec :=
  { state := .damaged, desc := h.desc.getD Desc.none, written := h.written,
    table := (h.tables.map Prod.fst).getD [], whole := (h.tables.map Prod.snd).getD 0,
    seq := h.seq.number, use := 0 }

/-- A failed read check: the copy is marked DAMAGED once, and its mark joins the pending marks
(R137, R138). -/
def State.failReadCheck (s : State) (r : CopyIx) : State :=
  if s.isc.records[r].state = .damaged then s
  else
    let s1 := s.markDamaged r s.isc.records[r] .readCheck
    { s1 with isc := { s1.isc with pendingMarks := s1.isc.pendingMarks ++ [r] } }

end Sys2Proof.Machine
end

