-- ==== Sys2Proof/Machine/Frames.lean ====
section
/-! DEFINITION. Car line frames: the check, the frames the part builds, and the frames it receives (05 sections 5.2, 5.3). -/

namespace Sys2Proof.Machine

/-! ## The check (R76) -/

/-- One bit of the CRC with polynomial 0x1021, most significant bit first. -/
def crcBit (r : Word) : Word := if r.getMsbD 0 then (r <<< 1) ^^^ 0x1021 else r <<< 1

/-- One byte of the CRC. -/
def crcByte (r : Word) (b : Byte) : Word :=
  let x := r ^^^ (b.setWidth 16 <<< 8)
  crcBit (crcBit (crcBit (crcBit (crcBit (crcBit (crcBit (crcBit x)))))))

/-- The check over a run of bytes, from the start value 0xFFFF (R76). -/
def crc16 (l : List Byte) : Word := l.foldl crcByte 0xFFFF

/-! ## Frames the part sends -/

/-- Kind codes (section 5.3). -/
def kindRollCall : Nat := 0x10
def kindHello : Nat := 0x11
def kindDigestAsk : Nat := 0x20
def kindDigestList : Nat := 0x21
def kindLoad : Nat := 0x30
def kindLoadAck : Nat := 0x31
def kindStart : Nat := 0x40
def kindRunning : Nat := 0x41

/-- Address, kind, length and payload: the bytes the check runs over (R76). -/
def frameBody (address kind : Nat) (payload : List Byte) : List Byte :=
  [byteOf address 0, byteOf kind 0] ++ le16 payload.length ++ payload

/-- A whole frame: lead byte, body, check low byte first (section 5.2, R76). -/
def mkFrame (address kind : Nat) (payload : List Byte) : List Byte :=
  [0xA5] ++ frameBody address kind payload ++ le16 (crc16 (frameBody address kind payload)).toNat

/-- The address of a frame to drop d is the drop number (R75). -/
def dropAddress (d : Drop) : Nat := d.val + 1

/-- A ROLL CALL to every node, carrying the silent set (R75, section 5.3). -/
def rollCallFrame (silent : DropSet) : List Byte := mkFrame 0x0F kindRollCall [silent]

/-- Span fields: offset in three bytes, length in two (section 5.3). -/
def spanBytes (l : List Span) : List Byte := l.flatMap (fun s => le24 s.off ++ le16 s.len)

/-- A DIGEST ASK: image id, first segment 0, count n, the full span list (R78). -/
def digestAskFrame (d : Drop) (k : Desc) : List Byte :=
  mkFrame (dropAddress d) kindDigestAsk
    (le16 k.image ++ le16 0 ++ le16 k.segments ++ [byteOf k.spans.length 0] ++ spanBytes k.spans)

/-- A LOAD: segment index, keep spans, data length, data, unmasked digest (R78). -/
def loadFrame (d : Drop) (index : Nat) (keep : List Span) (data : List Byte) (digest : Long) : List Byte :=
  mkFrame (dropAddress d) kindLoad
    (le16 index ++ [byteOf keep.length 0] ++ spanBytes keep ++ le16 data.length ++ data ++ le32 digest.toNat)

/-- A START: image id, version, segment count, whole-image masked digest (R78). -/
def startFrame (d : Drop) (k : Desc) (whole : Long) : List Byte :=
  mkFrame (dropAddress d) kindStart (le16 k.image ++ le16 k.version ++ le16 k.segments ++ le32 whole.toNat)

/-- The reply timeout of a request in ms (R90). -/
def replyTimeout : Request → Nat
  | .digestAsk count => 5 + ceilDiv count 4
  | .load _ => 4
  | .start => 20

/-! ## Frames the part receives -/

/-- The contents of a frame of a receivable kind. `malformed` is a frame of a receivable kind other
than HELLO whose payload does not have the kind's form: it passes R77 and disagrees (R79). DEDUCED (log 33). -/
inductive RxBody where
  | hello (cls ram : Byte) (image version segments : Word) (boot : Byte)
  | digestList (first count : Word) (digests : List Long)
  | loadAck (index : Word) (outcome : Byte)
  | running (outcome : Byte)
  | malformed
  deriving DecidableEq, Repr

/-- What R77 makes of a received frame by its bytes alone: discarded (`overlong` for a length above
2097, R74), or a frame from a drop. Whether that drop is in the current exchange or round is judged
on the line's state. -/
inductive Judged where
  | bad (overlong : Bool)
  | frame (d : Drop) (body : RxBody)
  deriving DecidableEq, Repr

/-- A byte that is 0 or 1, as a flag. -/
def flagOf (b : Byte) : Option Bool := if b = 0 then some false else if b = 1 then some true else none

/-- The HELLO fields, if class, RAM state and boot level each hold 0 or 1 (R77). -/
def helloFieldsOf (cls ram : Byte) (image version segments : Word) (boot : Byte) : Option HelloFields :=
  match flagOf cls, flagOf ram, flagOf boot with
  | some k, some lost, some capable =>
    some { cls := if k then .info else .door, ramLost := lost, image := image.toNat,
           version := version.toNat, segments := segments.toNat, digestCapable := capable }
  | _, _, _ => none

/-- The 16-bit field at an offset of a payload, as a word. -/
def payloadWord (l : List Byte) (i : Nat) : Word := BitVec.ofNat 16 (wordAt l i)

/-- `n` digests of a payload from an offset, each assembled low byte first (R35). -/
def payloadDigests (l : List Byte) (i : Nat) : Nat → List Long
  | 0 => []
  | n + 1 => BitVec.ofNat 32 (longAt l i) :: payloadDigests l (i + 4) n

/-- The body of a payload by kind code; none for an unknown kind or a HELLO of other than 9 bytes
(R75, R77). -/
def bodyOf (kind : Nat) (p : List Byte) : Option RxBody :=
  if kind = kindHello then
    if p.length = 9 then
      some (.hello (p.getD 0 0) (p.getD 1 0) (payloadWord p 2) (payloadWord p 4) (payloadWord p 6) (p.getD 8 0))
    else none
  else if kind = kindDigestList then
    if 4 ≤ p.length ∧ p.length = 4 + 4 * wordAt p 2 then
      some (.digestList (payloadWord p 0) (payloadWord p 2) (payloadDigests p 4 (wordAt p 2)))
    else some .malformed
  else if kind = kindLoadAck then
    if p.length = 3 then some (.loadAck (payloadWord p 0) (p.getD 2 0)) else some .malformed
  else if kind = kindRunning then
    if p.length = 1 then some (.running (p.getD 0 0)) else some .malformed
  else none

/-- The drop a node's address names: 0x80 plus the drop number (R75). -/
def senderOf (address : Nat) : Option Drop :=
  if h : 0x81 ≤ address ∧ address ≤ 0x88 then some ⟨address - 0x81, by omega⟩ else none

/-- The judgement of R77 on the bytes of an ended frame, lead byte included. -/
def judgeBytes (l : List Byte) : Judged :=
  match l with
  | lead :: address :: kind :: l0 :: l1 :: rest =>
    let len := l0.toNat + 256 * l1.toNat
    if lead ≠ 0xA5 then .bad false
    else if Config.payloadMax < len then .bad true
    else if rest.length ≠ len + 2 then .bad false
    else if crc16 ([address, kind, l0, l1] ++ rest.take len) ≠ payloadWord rest len then .bad false
    else
      match senderOf address.toNat, bodyOf kind.toNat (rest.take len) with
      | some d, some body => .frame d body
      | _, _ => .bad false
  | _ => .bad false

/-- The reply in a body agrees with a request (R79). -/
def agrees : Request → RxBody → Bool
  | .digestAsk n, .digestList first count digests =>
    decide (first = 0) && decide (count.toNat = n) && decide (digests.length = n)
  | .load i, .loadAck index outcome => decide (index.toNat = i) && decide (outcome.toNat ≤ 3)
  | .start, .running outcome => decide (outcome.toNat ≤ 1)
  | _, _ => false

end Sys2Proof.Machine
end

