-- ==== Sys2Proof/Machine/Lines.lean ====
section
/-! DEFINITION. What a Car Line Controller does with its line: the work queue, the grant, the segment buffers, rounds,
exchanges and the frames it takes (chapters 5 and 6). -/

namespace Sys2Proof.Machine

/-! ## The work queue (R97) -/

/-- Key order: class, then drop. -/
def LineJob.before (a b : LineJob) : Bool :=
  decide (a.cls.code < b.cls.code) || (decide (a.cls = b.cls) && decide (a.drop.val < b.drop.val))

/-- Place a job at the position its key gives. -/
def insertJob (j : LineJob) : List LineJob → List LineJob
  | [] => [j]
  | x :: rest => if j.before x then j :: x :: rest else x :: insertJob j rest

/-- A drop has owed rounds. -/
def Line.anyOwed (l : Line) : Bool := allDrops.any (fun d => decide (0 < l.owed[d]))

/-- A round is due (R88). -/
def Line.roundDue (l : Line) : Bool := l.slowDue || l.anyOwed

/-- The first job in queue order that may be granted (R99). -/
def Line.grantable (l : Line) : Option LineJob := l.queue.find? (fun j => !l.hold || decide (j.cls = .door))

/-- The queue holds a DOOR job. -/
def Line.doorWaits (l : Line) : Bool := l.queue.any (fun j => decide (j.cls = .door))

/-- A try of the job on the line is in flight: its request is being sent or its reply awaited
(R90, R113). -/
def Line.tryInFlight (l : Line) : Bool :=
  match l.exch with
  | none => false
  | some x => decide (x.stage ≠ .resend)

/-- The reply of a request is awaited. -/
def Line.awaitsReply (l : Line) : Bool :=
  match l.exch with
  | none => false
  | some x => decide (x.stage = .awaiting)

/-! ## Segment buffers (section 6.4) -/

/-- Buffer X (`y` false) or Y. -/
def Line.buf (l : Line) (y : Bool) : SegBuf := if y then l.bufY else l.bufX

/-- Replace buffer X or Y. -/
def Line.setBuf (l : Line) (y : Bool) (b : SegBuf) : Line := if y then { l with bufY := b } else { l with bufX := b }

/-- An EMPTY buffer, X first (R104). -/
def Line.emptyBuf (l : Line) : Option Bool :=
  if l.bufX.state = .empty then some false else if l.bufY.state = .empty then some true else none

/-- The buffer is in one of the states for an index of a job. -/
def SegBuf.isFor (b : SegBuf) (jid i : Nat) (states : List BufState) : Bool :=
  decide (b.job = some jid) && decide (b.index = i) && decide (b.state ∈ states)

/-- Some buffer holds the index for the job in WAITING, FILLING or FILLED (R104). -/
def Line.holdsIndex (l : Line) (jid i : Nat) : Bool :=
  l.bufX.isFor jid i [.waiting, .filling, .filled] || l.bufY.isFor jid i [.waiting, .filling, .filled]

/-- The buffer that holds an index of a job in FILLED. -/
def Line.filledBuf (l : Line) (jid i : Nat) : Option SegBuf :=
  if l.bufX.isFor jid i [.filled] then some l.bufX
  else if l.bufY.isFor jid i [.filled] then some l.bufY
  else none

/-- Some buffer of the job is in FAULT for the index. -/
def Line.faultAt (l : Line) (jid i : Nat) : Bool := l.bufX.isFor jid i [.fault] || l.bufY.isFor jid i [.fault]

/-- The holding job's read request for an index: an EMPTY buffer is set WAITING and the request placed
at the arbiter; with both buffers in use it waits in the CLC (R104; log 26). -/
def State.requestRead (s : State) (c : Car) (i : Nat) : State :=
  let l := s.lines[c]
  match l.holding with
  | none => s
  | some j =>
    match l.emptyBuf with
    | none => s.setLine c { l with wantRead := some i }
    | some y =>
      let b : SegBuf :=
        { state := .waiting, job := some j.jid, copy := j.copy, index := i,
          len := segLen s.isc.records[j.copy].desc i, data := [], digest := 0 }
      (s.setLine c (l.setBuf y b)).addRequest { who := .job c y j.cls, copy := j.copy, index := i }

/-- Request the lowest index of the holding job's reload set, unless a buffer has it (R100, R102). -/
def State.requestLowest (s : State) (c : Car) : State :=
  let l := s.lines[c]
  match l.holding with
  | none => s
  | some j =>
    match j.reload with
    | [] => s
    | i :: _ => if l.holdsIndex j.jid i then s else s.requestRead c i

/-- Request the second-lowest index, at the first try of a LOAD (R104). -/
def State.requestNext (s : State) (c : Car) : State :=
  let l := s.lines[c]
  match l.holding with
  | none => s
  | some j =>
    match j.reload with
    | _ :: i :: _ => if l.holdsIndex j.jid i then s else s.requestRead c i
    | _ => s

/-- A buffer after its job has left the line (R112). -/
def SegBuf.released (b : SegBuf) : SegBuf :=
  match b.state with
  | .filling => { b with state := .stale }
  | .stale => b
  | _ => SegBuf.reset

/-- Release one buffer: a WAITING one has its request withdrawn (R112). -/
def State.releaseBuffer (s : State) (c : Car) (y : Bool) : State :=
  let l := s.lines[c]
  let s1 := s.setLine c (l.setBuf y (l.buf y).released)
  if (l.buf y).state = .waiting then s1.withdraw c y else s1

/-- Release both buffers; no request waits for one any longer (R112). -/
def State.releaseBuffers (s : State) (c : Car) : State :=
  let s1 := (s.releaseBuffer c false).releaseBuffer c true
  s1.setLine c { s1.lines[c] with wantRead := none }

/-! ## Grant and release (R99 to R101) -/

/-- The line of a grant (R100). -/
def Line.granted (l : Line) (j : LineJob) : Line :=
  { l with state := .serving, queue := l.queue.erase j, holding := some { j with s := 0 }, ending := .unset,
           exch := none, exchangeFirst := false }

/-- Grant the line if it is IDLE, no round is due, and a job may be granted (R99, R100). -/
def State.tryGrant (s : State) (c : Car) : State :=
  let l := s.lines[c]
  if l.state = .idle ∧ l.roundDue = false then
    match l.grantable with
    | none => s
    | some j =>
      let s1 := (s.setLine c (l.granted j)).report c (.granted j.jid j.phase)
      if j.phase = .load then s1.requestLowest c else s1
  else s

/-- The line without its holding job; a round in flight keeps it in ROLL CALL (R101, R113). DEDUCED (log 50): the job and its
buffers are gone at once, though the round runs on. -/
def Line.vacated (l : Line) (requeue : Option LineJob) : Line :=
  { l with
    state := if l.state = .serving then .idle else l.state
    holding := none
    ending := .unset
    exch := none
    exchangeFirst := false
    replyTimer := none
    queue := match requeue with
      | none => l.queue
      | some j => insertJob j l.queue }

/-- The holding job leaves the line, back into the queue where it yields; the line is released and,
where it may be, granted (R101). DESIGN CHOICE (log 58): a withdrawal resumes a suspended erase before the next job's request is
made (R135). -/
def State.leaveLine (s : State) (c : Car) (requeue : Option LineJob) : State :=
  let s1 := s.releaseBuffers c
  (s1.setLine c (s1.lines[c].vacated requeue)).tryGrant c

/-- The holding job's attempt fails (R115). -/
def State.attemptFails (s : State) (c : Car) (reason : FailReason) : State :=
  match s.lines[c].holding with
  | none => s
  | some j => (s.report c (.failed j.jid reason)).leaveLine c none

/-- The holding job ends by its ending mark: released at ENDING (R113), failed with STORE FAULT at
STORE FAULT (R114). -/
def State.endHolding (s : State) (c : Car) : State :=
  match s.lines[c].holding, s.lines[c].ending with
  | some j, .ending => (s.report c (.released j.jid)).leaveLine c none
  | some j, .storeFault => (s.report c (.failed j.jid .storeFault)).leaveLine c none
  | _, _ => s

/-- Replace the holding job and end its exchange (R91). -/
def State.exchangeDone (s : State) (c : Car) (j : LineJob) : State :=
  s.setLine c { s.lines[c] with holding := some j, exch := none, exchangeFirst := false, replyTimer := none }

/-! ## Exchange outcomes (R91, R92, R102, R103, R108 to R111) -/

/-- A failed try: retransmission under a retry count below 3, else the attempt fails; with an ending
mark set the try was the last (R92, R113, R114). -/
def State.failedTry (s : State) (c : Car) (timeout : Bool) : State :=
  let l := s.lines[c]
  match l.holding, l.exch with
  | some j, some x =>
    if l.ending ≠ .unset then s.endHolding c
    else if x.retry < Config.retryMax then
      (s.setLine c { l with exch := some { x with retry := x.retry + 1, stage := .resend }, replyTimer := none }).report c
        (.retry j.jid (x.retry + 1))
    else s.attemptFails c (if timeout then .noReply else .repeatedReject)
  | _, _ => s

/-- The yield condition of an INFO job and its reason: 1 DOOR WAITING (R109), 2 JOURNAL HOLD (R110). -/
def State.yieldReason (s : State) (c : Car) (j : LineJob) : Option Nat :=
  let l := s.lines[c]
  if j.cls = .door then none
  else if s.fleet.holdLimit ≤ j.s ∧ l.doorWaits = true then some 1
  else if l.hold then some 2
  else none

/-- The PREEMPTED entry of a yield (R111, section 10.2). -/
def preemptedEntry (c : Car) (j : LineJob) (reason : Nat) (uptime : Long) : Entry :=
  { kind := .preempted, car := c.val, drop := j.drop.val + 1, uptime := uptime,
    body := [byteOf reason 0, byteOf j.s 0] ++ le16 j.reload.length }

/-- The holding job yields (R111). -/
def State.yieldJob (s : State) (c : Car) (j : LineJob) (reason : Nat) : State :=
  ((s.report c (.yielded j.jid)).ask (.clc c) (preemptedEntry c j reason s.ord.uptime)).leaveLine c (some j)

/-- Indices at which a DIGEST LIST differs from a copy's table, ascending (R56). -/
def differing (table digests : List Long) : List Nat :=
  (List.range digests.length).filter (fun i => decide (digests[i]? ≠ table[i]?))

/-- An agreeing DIGEST LIST ends the survey: the list goes to the RPL, and the job passes to START,
yields, or requests its first segment (R102). -/
def State.surveyDone (s : State) (c : Car) (j : LineJob) (digests : List Long) : State :=
  let reload := differing s.isc.records[j.copy].table digests
  let j1 : LineJob := { j with reload := reload, phase := if reload = [] then .start else .load }
  let s1 := (s.exchangeDone c j1).report c (.surveyEnded j.jid digests)
  if reload = [] then s1
  else
    match s1.yieldReason c j1 with
    | some r => s1.yieldJob c j1 r
    | none => s1.requestLowest c

/-- The buffer that holds an index of a job becomes EMPTY (R108). -/
def Line.emptied (l : Line) (jid i : Nat) : Line :=
  let l1 := if l.bufX.isFor jid i [.filled] then { l with bufX := SegBuf.reset } else l
  if l1.bufY.isFor jid i [.filled] then { l1 with bufY := SegBuf.reset } else l1

/-- An ACCEPTED LOAD: the lowest index leaves the reload set, s rises, and the table of R108 says
what follows; a FAULT in the buffer of the new lowest index fails the attempt (R106). -/
def State.accepted (s : State) (c : Car) (j : LineJob) : State :=
  let i := j.reload.headD 0
  let j1 : LineJob :=
    { j with reload := j.reload.tail, s := j.s + 1, phase := if j.reload.tail = [] then .start else .load }
  let s1 := s.exchangeDone c j1
  let s2 := ((s1.setLine c (s1.lines[c].emptied j.jid i)).report c (.progress j.jid j1.s)).report c (.loadAccepted j.jid)
  match j1.reload with
  | [] => s2
  | next :: _ =>
    match s2.yieldReason c j1 with
    | some r => s2.yieldJob c j1 r
    | none => if s2.lines[c].faultAt j.jid next then s2.attemptFails c .storeFault else s2

/-- An agreeing reply (R91); with an ending mark set it is not handed on (R113, R114). -/
def State.takeReply (s : State) (c : Car) (j : LineJob) (body : RxBody) : State :=
  if s.lines[c].ending ≠ .unset then s.endHolding c
  else
    match body with
    | .digestList _ _ digests => s.surveyDone c j digests
    | .loadAck _ outcome =>
      if outcome = 0 then s.accepted c j
      else if outcome = 3 then s.attemptFails c .nodeRefused
      else s.failedTry c false
    | .running outcome =>
      if outcome = 0 then (s.report c (.success j.jid)).leaveLine c none
      else s.attemptFails c .imageCheck
    | _ => s.failedTry c false

/-! ## Rounds (section 5.5) -/

/-- The included roster drops of a car in ascending order (R85). -/
def State.includedDrops (s : State) (c : Car) : List Drop :=
  allDrops.filter (fun d =>
    match s.findNode c d with
    | none => false
    | some r => !r.isExcluded)

/-- The holding job has a request ready to send (R88, R102, R103, R106). -/
def Line.requestReady (l : Line) : Bool :=
  match l.holding with
  | none => false
  | some j =>
    match j.phase with
    | .load => (l.filledBuf j.jid (j.reload.headD 0)).isSome
    | _ => true

/-- The end of a fast round: the fast roll call ends with its unheard drops reported, or the next
round is to be sent (R82, R85). -/
def State.endFastRound (s : State) (c : Car) : State :=
  let l := s.lines[c]
  let unheard := (s.includedDrops c).filter (fun d => !DropSet.has l.heard d)
  let l1 := { l with fastNo := l.fastNo + 1, round := none, called := 0, roundTimer := none, roundOver := false }
  if unheard = [] ∨ l1.fastNo = Config.roundsMax then
    let s1 := s.setLine c { l1 with fastNo := 0, heard := 0, state := .idle }
    let s2 := if unheard = [] then s1 else s1.report c (.unheard unheard false)
    s2.tryGrant c
  else s.setLine c l1

/-- One unheard called drop at the end of a round: its owed rounds fall by 1, and at 0 it is reported
(R87). -/
def State.fallOwed (c : Car) (s : State) (d : Drop) : State :=
  let l := s.lines[c]
  if l.owed[d] = 0 then s
  else
    let s1 := s.setLine c { l with owed := l.owed.set d (l.owed[d] - 1) }
    if l.owed[d] = 1 then s1.report c (.unheard [d] true) else s1

/-- The end of any other round: the line goes to SERVING if a job holds it, else to IDLE (R82, R87, R88, R113). DESIGN CHOICE
(log 51): where the owed rounds of several drops reach 0 at it, each makes its report, in ascending order of drops. -/
def State.endOtherRound (s : State) (c : Car) : State :=
  let s1 := (allDrops.filter (fun d => DropSet.has s.lines[c].called d)).foldl (State.fallOwed c) s
  let l := s1.lines[c]
  let s2 := s1.setLine c
    { l with round := none, called := 0, roundTimer := none, roundOver := false,
             state := if l.holding.isSome then .serving else .idle
             exchangeFirst := l.requestReady }
  if l.ending ≠ .unset then s2.endHolding c else s2.tryGrant c

/-- The round in flight ends (R82). -/
def State.endRound (s : State) (c : Car) : State :=
  match s.lines[c].round with
  | none => s
  | some .fast => s.endFastRound c
  | some .other => s.endOtherRound c

/-! ## Received frames (R74, R77, R84) -/

/-- The STRANGER entry (section 10.2). -/
def strangerEntry (c : Car) (d : Drop) (f : HelloFields) (uptime : Long) : Entry :=
  { kind := .stranger, car := c.val, drop := d.val + 1, uptime := uptime,
    body := [byteOf f.cls.code 0, 0] ++ le16 f.image ++ le16 f.version ++ [0, 0] }

/-- The line of a HELLO taken from a drop in the round: it is no longer in the round (R83, R84).
DEDUCED: it leaves the called set as it is heard (log 27). -/
def Line.hear (l : Line) (d : Drop) : Line :=
  let l1 := { l with called := DropSet.del l.called d }
  match l.round with
  | some .fast => { l1 with heard := DropSet.add l.heard d }
  | _ => { l1 with owed := l.owed.set d 0 }

/-- A drop is in the round in flight: called, and not yet heard in it (R82, R83). -/
def Line.inRound (l : Line) (d : Drop) : Bool := l.round.isSome && DropSet.has l.called d

/-- A HELLO in the round: heard, then handed on, ignored or a stranger by the roster; the last called
drop heard ends a round other than a fast one (R82, R84). -/
def State.takeHello (s : State) (c : Car) (d : Drop) (f : HelloFields) : State :=
  let s1 := s.setLine c (s.lines[c].hear d)
  let s2 := match s1.findNode c d with
    | none => s1.ask (.clc c) (strangerEntry c d f s1.ord.uptime)
    | some r => if r.isExcluded then s1 else s1.report c (.hello d f)
  if s2.lines[c].round = some .other ∧ s2.lines[c].called = 0 then s2.endRound c else s2

/-- A discarded frame: counted, and a failed try where a reply was awaited (R77, R92). -/
def State.discardFrame (s : State) (c : Car) : State :=
  let l := s.lines[c]
  let s1 := s.setLine c { l with errors := saturate 65535 (l.errors + 1) }
  if l.awaitsReply then s1.failedTry c false else s1

/-- A frame taken while a round is open (R77, R82). -/
def State.frameInRound (s : State) (c : Car) (d : Drop) (body : RxBody) : State :=
  match body with
  | .hello cls ram image version segments boot =>
    match helloFieldsOf cls ram image version segments boot with
    | none => s.discardFrame c
    | some f => if s.lines[c].inRound d then s.takeHello c d f else s.discardFrame c
  | _ => s.discardFrame c

/-- A frame taken with no round open: the reply of the exchange, a disagreeing reply, or discarded
(R77, R79, R92). -/
def State.frameInExchange (s : State) (c : Car) (d : Drop) (body : RxBody) : State :=
  match s.lines[c].holding, s.lines[c].exch with
  | some j, some x =>
    if x.stage = .awaiting ∧ j.drop = d then
      match body with
      | .hello cls ram image version segments boot =>
        if helloFieldsOf cls ram image version segments boot = none then s.discardFrame c else s.failedTry c false
      | b => if agrees x.req b then s.takeReply c j b else s.failedTry c false
    else s.discardFrame c
  | _, _ => s.discardFrame c

/-- What a frame that has ended brings about (R77). -/
def State.judgeFrame (s : State) (c : Car) (f : Judged) : State :=
  match f with
  | .bad _ => s.discardFrame c
  | .frame d body => if s.lines[c].round.isSome then s.frameInRound c d body else s.frameInExchange c d body

/-- A length field above 2097 leaves the receiver waiting for an idle line (R74). -/
def Judged.overlong : Judged → Bool
  | .bad o => o
  | _ => false

/-- The receiver ends a frame and it is judged; a round end that fell during it is then taken
(R74). -/
def State.takeFrame (s : State) (c : Car) (f : Judged) : State :=
  let l := s.lines[c]
  if l.rx = .inFrame then
    let s1 := s.setLine c { l with rx := if f.overlong then .waitIdle else .idle }
    let s2 := s1.judgeFrame c f
    if s2.lines[c].roundOver then s2.endRound c else s2
  else s

/-! ## Ends of reads, as the CLC takes them (R105, R106, R112) -/

/-- A buffer has become FAULT: with no exchange of the job in flight and the index next to be sent, the
attempt fails (R106). DEDUCED (log 50): at once, with a round in flight too. -/
def State.checkFault (s : State) (c : Car) : State :=
  let l := s.lines[c]
  match l.holding with
  | none => s
  | some j =>
    if l.exch = none ∧ l.ending = .unset ∧ j.phase = .load ∧ j.reload ≠ [] ∧ l.faultAt j.jid (j.reload.headD 0) = true then
      s.attemptFails c .storeFault
    else s

/-- A STALE buffer becomes EMPTY, and a request that waited for it is made (R104, R112). DEDUCED: it waits
for this buffer (log 26). -/
def State.emptyStale (s : State) (c : Car) (y : Bool) : State :=
  let l := s.lines[c]
  let s1 := s.setLine c { l.setBuf y SegBuf.reset with wantRead := none }
  match l.wantRead with
  | none => s1
  | some i => s1.requestRead c i

/-- The read of a buffer has passed its check (R105). -/
def State.bufferFilled (s : State) (c : Car) (y : Bool) (data : List Byte) (digest : Long) : State :=
  let l := s.lines[c]
  let b := l.buf y
  if b.state = .stale then s.emptyStale c y
  else s.setLine c (l.setBuf y { b with state := .filled, data := data, digest := digest })

/-- The read of a buffer has failed its check, or its request was refused (R105). -/
def State.bufferFaulted (s : State) (c : Car) (y : Bool) : State :=
  let l := s.lines[c]
  let b := l.buf y
  if b.state = .stale then s.emptyStale c y
  else (s.setLine c (l.setBuf y { b with state := .fault })).checkFault c

/-! ## The line goes OFF (R80, R96, R116, R117) -/

/-- The line of a lost car: everything stopped and empty but the error count, the hold flag and a
STALE buffer. -/
def Line.off (l : Line) : Line :=
  { Line.reset with errors := l.errors, hold := l.hold, bufX := l.bufX, bufY := l.bufY }

/-- CAR LOSS puts the line in OFF (R80, R116). -/
def State.lineOff (s : State) (c : Car) : State :=
  let s1 := s.releaseBuffers c
  s1.setLine c s1.lines[c].off

end Sys2Proof.Machine
end

