-- ==== Sys2Proof/Machine/LineCommands.lean ====
section
/-! DEFINITION. The commands of the car lines: timers, frames sent and received, and the news a Car Line Controller takes
(chapters 5 and 6). All are taken in RUNNING only: in OFF, STARTING and RESTARTING the lines do nothing (R95, R96). -/

namespace Sys2Proof.Machine

/-! ## Frames the part sends -/

/-- The part may begin a frame: its driver is disabled and no frame is in reception (R73). -/
def Line.maySend (l : Line) : Bool := l.tx.isNone && decide (l.rx ≠ .inFrame)

/-- The line may begin or resend a request: SERVING, no round in flight, no ending mark (R90, R106). -/
def Line.mayRequest (l : Line) : Bool :=
  l.maySend && decide (l.state = .serving) && decide (l.round = none) && decide (l.ending = .unset)

/-- A due round goes before the next request, unless one exchange is to go first (R88, R90). -/
def Line.roundFirst (l : Line) : Bool := l.roundDue && !l.exchangeFirst

/-- Drops called by a round other than a fast one: the missing set and the drops owed a round (R82). -/
def Line.calledSet (l : Line) : DropSet :=
  allDrops.foldl (fun s d => if 0 < l.owed[d] then DropSet.add s d else s) l.missing

/-- A round begins: its ROLL CALL frame is sent with the complement of the called set as silent set
(R82). -/
def Line.beginRound (l : Line) (kind : Round) (called : DropSet) : Line :=
  { l with state := .rollCall, round := some kind, called := called, roundTimer := none, roundOver := false,
           tx := some { rollCall := true, bytes := rollCallFrame (~~~ called) } }

/-- The line sends the round that is due, if it may (R82, R85, R88). -/
def Line.sendRound (l : Line) : Line :=
  if l.maySend && decide (l.round = none) then
    if l.state = .rollCall then l.beginRound .fast (~~~ l.heard)
    else if l.roundDue && (decide (l.state = .idle)
        || (decide (l.state = .serving) && l.exch.isNone && !l.exchangeFirst)) then
      { l.beginRound .other l.calledSet with slowDue := false }
    else l
  else l

/-- The request of the holding job's phase with its frame, if it is ready (R78, R102, R103, R106). -/
def State.nextRequest (s : State) (c : Car) : Option (Request × List Byte) :=
  let l := s.lines[c]
  match l.holding with
  | none => none
  | some j =>
    let k := s.isc.records[j.copy]
    match j.phase with
    | .survey => some (.digestAsk k.desc.segments, digestAskFrame j.drop k.desc)
    | .start => some (.start, startFrame j.drop k.desc k.whole)
    | .load =>
      match l.filledBuf j.jid (j.reload.headD 0) with
      | none => none
      | some b =>
        some (.load b.index, loadFrame j.drop b.index
          (if j.plan = .compare then clippedSpans k.desc b.index else []) b.data b.digest)

/-- A request belongs to a phase. -/
def Request.phase : Request → Phase
  | .digestAsk _ => .survey
  | .load _ => .load
  | .start => .start

/-- Send the request of a phase, or send it again (R90, R92). The retry count of a new request is
reported as 0, and the first try of a LOAD requests the next segment (R104). -/
def State.sendRequest (s : State) (c : Car) (p : Phase) : State :=
  let l := s.lines[c]
  if l.mayRequest then
    match l.exch with
    | some x =>
      if x.stage = .resend ∧ x.req.phase = p then
        s.setLine c { l with exch := some { x with stage := .sending }, tx := some { rollCall := false, bytes := x.bytes } }
      else s
    | none =>
      match l.holding, s.nextRequest c with
      | some j, some (req, bytes) =>
        if j.phase = p ∧ l.roundFirst = false then
          let x : Exchange := { req := req, bytes := bytes, retry := 0, stage := .sending }
          let s1 := (s.setLine c { l with exch := some x, tx := some { rollCall := false, bytes := bytes } }).report c
            (.retry j.jid 0)
          if p = .load then s1.requestNext c else s1
        else s
      | _, _ => s
  else s

/-- ROLL_CALL (R82, R85, R86, R88). -/
def execRollCall (c : Car) (s : State) : Result :=
  done s (if s.isRunning then s.setLine c s.lines[c].sendRound else s)

/-- DIGEST_ASK (R78, R90, R92, R102). -/
def execDigestAsk (c : Car) (s : State) : Result :=
  done s (if s.isRunning then s.sendRequest c .survey else s)

/-- LOAD (R78, R90, R92, R104, R106). -/
def execLoad (c : Car) (s : State) : Result :=
  done s (if s.isRunning then s.sendRequest c .load else s)

/-- START (R78, R90, R92, R103). -/
def execStart (c : Car) (s : State) : Result :=
  done s (if s.isRunning then s.sendRequest c .start else s)

/-- The driver is disabled at the end of a frame; the round timer or the reply timer starts (R73,
R82, R90). -/
def Line.frameSent (l : Line) : Line :=
  match l.tx with
  | none => l
  | some f =>
    let l1 := { l with tx := none }
    if f.rollCall then { l1 with roundTimer := some Config.roundMs }
    else
      match l.exch with
      | none => l1
      | some x => { l1 with exch := some { x with stage := .awaiting }, replyTimer := some (replyTimeout x.req) }

/-- TX_FRAME_END (R73, R82, R90). -/
def execTxFrameEnd (c : Car) (s : State) : Result :=
  done s (if s.isRunning then s.setLine c s.lines[c].frameSent else s)

/-! ## Timers -/

/-- BOOT_TIMER_EXPIRY (R81): the line moves to ROLL CALL with the first fast round to be sent. -/
def execBootTimerExpiry (c : Car) (s : State) : Result :=
  done s (
    let l := s.lines[c]
    if s.isRunning && decide (l.state = .bootWait) && l.bootTimer.isSome then
      s.setLine c { l with state := .rollCall, bootTimer := none, fastNo := 0, heard := 0 }
    else s)

/-- ROUND_TIMER_EXPIRY (R74, R82, R85, R87): a frame in reception defers the round's end. -/
def execRoundTimerExpiry (c : Car) (s : State) : Result :=
  done s (
    let l := s.lines[c]
    if s.isRunning && l.round.isSome && l.roundTimer.isSome then
      if l.rx = .inFrame then s.setLine c { l with roundTimer := none, roundOver := true }
      else s.endRound c
    else s)

/-- SLOW_TIMER_EXPIRY (R86). -/
def execSlowTimerExpiry (c : Car) (s : State) : Result :=
  done s (
    let l := s.lines[c]
    if s.isRunning && l.slowTimer.isSome then
      s.setLine c { l with slowDue := true, slowTimer := some Config.slowMs }
    else s)

/-- REPLY_TIMER_EXPIRY (R90, R92): it stops when a lead byte is taken, so no frame is in reception. -/
def execReplyTimerExpiry (c : Car) (s : State) : Result :=
  done s (
    let l := s.lines[c]
    if s.isRunning && l.replyTimer.isSome && l.awaitsReply then s.failedTry c true else s)

/-! ## Reception -/

/-- A lead byte begins a frame and stops the reply timer (R74, R90). -/
def Line.leadByte (l : Line) : Line :=
  if decide (l.state ≠ .off) && l.tx.isNone && decide (l.rx = .idle) then
    { l with rx := .inFrame, replyTimer := none }
  else l

/-- LEAD_BYTE_TAKEN (R74, R90). -/
def execLeadByteTaken (c : Car) (s : State) : Result :=
  done s (if s.isRunning then s.setLine c s.lines[c].leadByte else s)

/-- A frame ends on car c's line, if the part takes frames (R74, R77). -/
def State.endsFrame (s : State) (c : Car) (f : Judged) : State := if s.isRunning then s.takeFrame c f else s

/-- HELLO (R77, R82, R84). -/
def execHello (c : Car) (d : Drop) (cls ram : Byte) (image version segments : Word) (boot : Byte) (s : State) : Result :=
  done s (s.endsFrame c (.frame d (.hello cls ram image version segments boot)))

/-- DIGEST_LIST (R77, R79, R91, R102). -/
def execDigestList (c : Car) (d : Drop) (first count : Word) (digests : List Long) (s : State) : Result :=
  done s (s.endsFrame c (.frame d (.digestList first count digests)))

/-- LOAD_ACK (R77, R79, R91, R108). -/
def execLoadAck (c : Car) (d : Drop) (index : Word) (outcome : Byte) (s : State) : Result :=
  done s (s.endsFrame c (.frame d (.loadAck index outcome)))

/-- RUNNING (R77, R79, R91, R103). -/
def execRunning (c : Car) (d : Drop) (outcome : Byte) (s : State) : Result :=
  done s (s.endsFrame c (.frame d (.running outcome)))

/-- DISCARDED_FRAME (R76, R77, R92): the frame is judged by its bytes. -/
def execDiscardedFrame (c : Car) (bytes : List Byte) (s : State) : Result :=
  done s (s.endsFrame c (judgeBytes bytes))

/-- LINE_IDLE_TIMEOUT (R74): a frame in reception ends short, and a wait for an idle line ends. -/
def execLineIdleTimeout (c : Car) (s : State) : Result :=
  done s (
    let l := s.lines[c]
    if s.isRunning then
      match l.rx with
      | .inFrame => s.takeFrame c (.bad false)
      | .waitIdle => s.setLine c { l with rx := .idle }
      | .idle => s
    else s)

/-! ## Car events -/

/-- The head of CLC c's channel from the SSU has been taken. -/
def State.dropClcEvent (s : State) (c : Car) : State :=
  { s with chan := { s.chan with ssuClc := dropAt s.chan.ssuClc c } }

/-- CLC_CAR_LOSS (R80, R116). -/
def execClcCarLoss (c : Car) (s : State) : Result :=
  done s (
    match s.isRunning, s.chan.ssuClc[c] with
    | true, .loss _ :: _ => ((s.closeReports c).dropClcEvent c).lineOff c
    | _, _ => s)

/-- The line of a returned car: BOOT WAIT with the boot timer running (R81). -/
def Line.bootWait (l : Line) (boot : Nat) : Line :=
  if l.state = .off then { l with state := .bootWait, bootTimer := some boot } else l

/-- CLC_CAR_RETURN (R81, R96). -/
def execClcCarReturn (c : Car) (s : State) : Result :=
  done s (
    match s.isRunning, s.chan.ssuClc[c] with
    | true, .ret _ _ _ _ :: _ =>
      (s.dropClcEvent c).setLine c (s.lines[c].bootWait s.fleet.boot)
    | _, _ => s)

/-! ## What the RPL and the JRN tell -/

/-- A job enters the queue of a line that is not OFF, and an IDLE line is granted (R98, R99, R116). One the RPL created before it takes
a CAR LOSS that the CLC has taken does not enter, though the line has left OFF again: that loss ends it (R116; log 4). -/
def State.jobEnters (s : State) (c : Car) (j : LineJob) : State :=
  let l := s.lines[c]
  if l.state = .off ∨ s.rplBehind c = true then s else (s.setLine c { l with queue := insertJob j l.queue }).tryGrant c

/-- The queue without the job of an identity. -/
def removeJob (l : List LineJob) (jid : Nat) : List LineJob := l.filter (fun j => decide (j.jid ≠ jid))

/-- The line holds the job of an identity. -/
def Line.holds (l : Line) (jid : Nat) : Bool := decide (l.holding.map LineJob.jid = some jid)

/-- The RPL ends a job at an exclusion: at once, or at the end of its try or of the round in flight
(R98, R113). The release of a job that no longer stands on the line is reported at once (log 15), but of one the line has abandoned
at a CAR LOSS the RPL has still to take nothing is reported: that loss ends it (R116). -/
def State.endJob (s : State) (c : Car) (jid : Nat) : State :=
  let l := s.lines[c]
  if l.holds jid then
    if l.tryInFlight || l.round.isSome then s.setLine c { l with ending := .ending }
    else (s.report c (.released jid)).leaveLine c none
  else if s.rplBehind c then s
  else (s.setLine c { l with queue := removeJob l.queue jid }).report c (.released jid)

/-- The RPL ends a job on a copy marked DAMAGED: at once, or at the end of its try; ENDING stays
(R114). A job that no longer stands on the line is reported at once (log 15), but none that the line has abandoned at a CAR LOSS
the RPL has still to take (R116). DEDUCED (log 50): a round in flight does not put the end off, as it does that of an ENDING. -/
def State.storeFaultEnd (s : State) (c : Car) (jid : Nat) : State :=
  let l := s.lines[c]
  if l.holds jid then
    if l.ending = .ending then s
    else if l.tryInFlight then s.setLine c { l with ending := .storeFault }
    else s.attemptFails c .storeFault
  else if s.rplBehind c then s
  else (s.setLine c { l with queue := removeJob l.queue jid }).report c (.failed jid .storeFault)

/-- The RPL asks for an individual roll call: 4 owed rounds, but none in OFF, in BOOT WAIT and in the fast rounds (R87).
DEDUCED (log 49): a drop that stands in the called set of the round in flight stays there. -/
def Line.individual (l : Line) (d : Drop) : Line :=
  match l.state with
  | .off => l
  | .bootWait => l
  | .rollCall => if l.round = some .other then { l with owed := l.owed.set d Config.roundsMax } else l
  | _ => { l with owed := l.owed.set d Config.roundsMax }

/-- A node entered or left MISSING: the set, the slow timer and the due flag (R86). DEDUCED (log 36): in OFF a tell changes
nothing. -/
def Line.setMissing (l : Line) (d : Drop) (on : Bool) : Line :=
  if l.state = .off then l
  else
    let m := if on then DropSet.add l.missing d else DropSet.del l.missing d
    if m = 0 then { l with missing := m, slowTimer := none, slowDue := false }
    else if l.missing = 0 then { l with missing := m, slowTimer := some Config.slowMs }
    else { l with missing := m }

/-- CLC_JOB_ENTERS_QUEUE (R97, R98, R99, R116). -/
def execClcJobEntersQueue (c : Car) (s : State) : Result :=
  done s (
    match s.isRunning, s.chan.rplClc[c] with
    | true, .jobEnters j :: _ => (s.dropTell c).jobEnters c j
    | _, _ => s)

/-- CLC_END_JOB (R98, R113). -/
def execClcEndJob (c : Car) (s : State) : Result :=
  done s (
    match s.isRunning, s.chan.rplClc[c] with
    | true, .endJob jid :: _ => (s.dropTell c).endJob c jid
    | _, _ => s)

/-- CLC_STORE_FAULT_END (R98, R114). -/
def execClcStoreFaultEnd (c : Car) (s : State) : Result :=
  done s (
    match s.isRunning, s.chan.rplClc[c] with
    | true, .storeFaultEnd jid :: _ => (s.dropTell c).storeFaultEnd c jid
    | _, _ => s)

/-- INDIVIDUAL_ROLL_CALL_REQUEST (R87). -/
def execIndividualRollCallRequest (c : Car) (s : State) : Result :=
  done s (
    match s.isRunning, s.chan.rplClc[c] with
    | true, .individual d :: _ => (s.dropTell c).setLine c (s.lines[c].individual d)
    | _, _ => s)

/-- CANCEL_ROLL_CALL (R89): owed rounds 0 and no report; an IDLE line with no round due any longer is
granted (R99). DEDUCED: a round in flight goes on (log 21). -/
def execCancelRollCall (c : Car) (s : State) : Result :=
  done s (
    match s.isRunning, s.chan.rplClc[c] with
    | true, .cancel d :: _ =>
      ((s.dropTell c).setLine c { s.lines[c] with owed := s.lines[c].owed.set d 0 }).tryGrant c
    | _, _ => s)

/-- MISSING_SET_CHANGE (R86): an IDLE line with no round due any longer is granted (R99). -/
def execMissingSetChange (c : Car) (s : State) : Result :=
  done s (
    match s.isRunning, s.chan.rplClc[c] with
    | true, .missing d on :: _ => ((s.dropTell c).setLine c (s.lines[c].setMissing d on)).tryGrant c
    | _, _ => s)

/-- HOLD_TELL (R110): the hold flag takes the value told; at its clearing an IDLE line is granted. -/
def execHoldTell (c : Car) (s : State) : Result :=
  done s (
    match s.isRunning, s.chan.jrnClc[c] with
    | true, on :: rest =>
      (({ s with chan := { s.chan with jrnClc := s.chan.jrnClc.set c rest } }).setLine c { s.lines[c] with hold := on }).tryGrant c
    | _, _ => s)

end Sys2Proof.Machine
end

