-- ==== Sys2Proof/Machine/Operands.lean ====
section
/-! DEFINITION. The operands and answers of orders: the fields of an order slot, the parameters of each kind, and the writing
of an answer (09 sections 9.5, 9.6). -/

namespace Sys2Proof.Machine

/-- Address of order slot j (section 9.1). -/
def orderAddr (j : OrderSlot) : Nat := Config.orderBase + 128 * j.val

/-- Parameter byte at an offset from slot byte 8. -/
def paramByte (slot : List Byte) (i : Nat) : Nat := byteAt slot (8 + i)

/-- Two-byte parameter. -/
def paramWord (slot : List Byte) (i : Nat) : Nat := wordAt slot (8 + i)

/-- Three-byte parameter. -/
def paramTriple (slot : List Byte) (i : Nat) : Nat := tripleAt slot (8 + i)

/-- Four-byte parameter. -/
def paramLong (slot : List Byte) (i : Nat) : Nat := longAt slot (8 + i)

/-- Refusal codes (section 9.5). -/
inductive RefusalCode where
  | unknownKind
  | badParameter
  | isProtected
  | inUse
  | active
  | notOpen
  | alreadyWritten
  | outOfRange
  | incomplete
  | notClosed
  | alreadyActive
  | restarted
  | notInRoster
  | excluded
  | dark
  | notHeard
  | busy
  deriving DecidableEq, Repr

def RefusalCode.code : RefusalCode → Nat
  | .unknownKind => 1
  | .badParameter => 2
  | .isProtected => 3
  | .inUse => 4
  | .active => 5
  | .notOpen => 6
  | .alreadyWritten => 7
  | .outOfRange => 8
  | .incomplete => 9
  | .notClosed => 10
  | .alreadyActive => 11
  | .restarted => 12
  | .notInRoster => 13
  | .excluded => 14
  | .dark => 15
  | .notHeard => 16
  | .busy => 17

/-- Outcomes of an executed order (section 9.5). -/
inductive OrderOutcome where
  | ok
  | digestMismatch
  | storeFault
  | interrupted
  deriving DecidableEq, Repr

def OrderOutcome.code : OrderOutcome → Nat
  | .ok => 0
  | .digestMismatch => 1
  | .storeFault => 2
  | .interrupted => 3

/-- The answer to a taken order: DONE with an outcome and results, or REFUSED with a code. -/
inductive Answer where
  | done (o : OrderOutcome) (results : List Byte)
  | refused (r : RefusalCode)
  deriving DecidableEq, Repr

/-- Hand of an answer: 3 DONE, 4 REFUSED. -/
def Answer.hand : Answer → Nat
  | .done _ _ => 3
  | .refused _ => 4

/-- Byte 4 of the answered slot. -/
def Answer.code : Answer → Nat
  | .done o _ => o.code
  | .refused r => r.code

/-- The results; a refusal has none. -/
def Answer.results : Answer → List Byte
  | .done _ l => l
  | .refused _ => []

/-- Results written a word at a time: an odd last byte shares its word with a zero byte (R154). -/
def evenBytes (l : List Byte) : List Byte := if l.length % 2 = 0 then l else l ++ [0]

/-- The ORD answers a taken order from its copy of the slot: results, result length and code, tag,
kind, and the hand; then the owed flag is cleared and ORDER raised, and ALERT for STORE FAULT
(R165, R177). -/
def State.answer (s : State) (j : OrderSlot) (copy : List Byte) (a : Answer) : State :=
  let base := orderAddr j
  let s1 := s.putBytes (base + 64) (evenBytes a.results)
  let s2 := s1.putBytes base
    ([byteOf a.hand 0, copy.getD 1 0, copy.getD 2 0, copy.getD 3 0, byteOf a.code 0, byteOf a.results.length 0])
  let s3 := ({ s2 with ord := { s2.ord with owed := s2.ord.owed.set j false } }).raise .order
  match a with
  | .done .storeFault _ => s3.raise .alert
  | _ => s3

/-- Spans of an OPEN COPY: span j's offset at 11 + 5j and length at 14 + 5j (section 9.6). -/
def paramSpans (slot : List Byte) : Nat → List Span
  | 0 => []
  | n + 1 => paramSpans slot n ++ [⟨paramTriple slot (11 + 5 * n), paramWord slot (14 + 5 * n)⟩]

end Sys2Proof.Machine
end

