-- ==== Sys2Proof/Machine/Roster.lean ====
section
/-! DEFINITION. The fleet table reading and the building of the roster (chapter 2, R43). -/

namespace Sys2Proof.Machine

/-! ## Parameters (R23) -/

/-- Clamp to a range. -/
def clamp (lo hi v : Nat) : Nat := if v < lo then lo else if hi < v then hi else v

/-- The parameters of an accepted table, each clamped (R23). -/
def acceptedFleet (l : List Byte) : Fleet :=
  { status := .loaded, skipped := 0, carCount := clamp 1 6 (byteAt l 4),
    hDoor := clamp 0 60000 (wordAt l 6), bDoor := clamp 0 5000 (wordAt l 8),
    hInfo := clamp 0 60000 (wordAt l 10), bInfo := clamp 0 5000 (wordAt l 12),
    rq := clamp 5 200 (wordAt l 14), boot := clamp 10 500 (wordAt l 16),
    attemptLimit := clamp 1 7 (byteAt l 18), holdLimit := clamp 1 255 (byteAt l 19),
    tt := clamp 10 500 (wordAt l 20),
    flags := Vector.ofFn (fun c : Car => decide (byteAt l (22 + c.val) ≠ 0)) }

/-! ## Node entries (R18, R25) -/

/-- A record as the roster build makes it (R18).
(DESIGN CHOICE: log 30). -/
def NodeRec.built (c : Car) (d : Drop) (cls : NodeClass) (slot : Slot) (excl : Bool) : NodeRec :=
  { car := c, drop := d, cls := cls, slot := slot, fleetExcl := excl, override := .unset,
    state := if excl then .excluded else .dark, plan := none, marginal := false, reason := .absent,
    attempt := 0, hello := none, fail := .absent, job := none, backoffFrom := none, backoffShown := 0,
    cost := 0, changedAt := 0 }

/-- A class byte. -/
def classOf (n : Nat) : Option NodeClass := if n = 0 then some .door else if n = 1 then some .info else none

/-- Entry j of a table, unless its own fields skip it (R25). -/
def entryOf (f : Fleet) (l : List Byte) (j : Nat) : Option NodeRec :=
  let car := byteAt l (28 + 5 * j)
  let drop := byteAt l (29 + 5 * j)
  let slot := byteAt l (31 + 5 * j)
  if h : car < 6 ∧ 1 ≤ drop ∧ drop ≤ 8 ∧ slot < 16 then
    match classOf (byteAt l (30 + 5 * j)) with
    | none => none
    | some cls =>
      let c : Car := ⟨car, h.1⟩
      if f.carCount ≤ car then none
      else if cls = .door ∧ f.flags[c] = false then none
      else some (NodeRec.built c ⟨drop - 1, by omega⟩ cls ⟨slot, h.2.2.2⟩ (decide (byteAt l (32 + 5 * j) ≠ 0)))
  else none

/-- Screen entries in order against those already kept; the second component counts the skipped (R25). -/
def screen (f : Fleet) (l : List Byte) : List Nat → List NodeRec × Nat → List NodeRec × Nat
  | [], acc => acc
  | j :: rest, (kept, skipped) =>
    match entryOf f l j with
    | none => screen f l rest (kept, skipped + 1)
    | some r =>
      if kept.any (fun k => k.names r.car r.drop) then screen f l rest (kept, skipped + 1)
      else screen f l rest (kept ++ [r], skipped)

/-- Roster order: car, then drop (R17). -/
def NodeRec.before (a b : NodeRec) : Bool :=
  decide (a.car.val < b.car.val) || (decide (a.car = b.car) && decide (a.drop.val < b.drop.val))

/-- Insert a record at its place. -/
def insertNode (r : NodeRec) : List NodeRec → List NodeRec
  | [] => [r]
  | x :: rest => if r.before x then r :: x :: rest else x :: insertNode r rest

/-- Records in roster order (R17). -/
def sortNodes (l : List NodeRec) : List NodeRec := l.foldr insertNode []

/-! ## The reading (R20 to R22, R43) -/

/-- What a reading gives: the fleet in force, the roster and the DGE's fleet sums. -/
structure FleetReading where
  fleet : Fleet
  roster : List NodeRec
  sums : Sums

/-- A reading that defaults the table (R21, R22). -/
def defaultedReading (st : FleetStatus) (sums : Sums) : FleetReading :=
  { fleet := Fleet.defaulted st, roster := [], sums := sums }

/-- The identity refuses a table's vehicle number (R22, R148). -/
def Identity.refuses : Identity → Nat → Bool
  | .notWritten, _ => false
  | .written n, v => decide (n ≠ v)
  | .unreadable, _ => true

/-- The judgement of a fleet block's first 272 bytes (R21, R22, R43). -/
def readFleet (l : List Byte) (unreadable : Bool) (i : Identity) : FleetReading :=
  let n := byteAt l 5
  if l.all (fun b => decide (b = 0xFF)) then defaultedReading .absent ⟨0, 0⟩
  else if unreadable || decide (Config.rosterMax < n) then defaultedReading .bad ⟨0, 0⟩
  else
    let sums := Sums.init.feedAll (l.take (28 + 5 * n))
    if sums.digest.toNat ≠ longAt l (28 + 5 * n) then defaultedReading .bad sums
    else if i.refuses (longAt l 0) then defaultedReading .mismatch sums
    else
      let f := acceptedFleet l
      let (kept, skipped) := screen f l (List.range n) ([], 0)
      { fleet := { f with skipped := skipped }, roster := sortNodes kept, sums := sums }

/-- A reading that goes on past R21: the table is neither absent nor bad. -/
def FleetReading.passes (x : FleetReading) : Bool :=
  decide (x.fleet.status ≠ .absent) && decide (x.fleet.status ≠ .bad)

/-- The fleet block judged by the contents it holds at that moment: what an operation cut short has left is judged like any
other (R20, R21, R43). -/
def State.blockReading (s : State) : FleetReading :=
  readFleet (s.flash.a.bytes fleetAddr Config.fleetBytes) s.isc.fleetUnreadable s.isc.identity

/-- The reading at the return to RUNNING. A block whose write the warm restart cut short is found absent or bad (R20, R149).
DEDUCED (log 9): contents that are neither are taken as the one or the other, as `fleetAbsent` says. -/
def State.fleetReading (s : State) (fleetAbsent : Bool) : FleetReading :=
  let x := s.blockReading
  if s.isc.fleetCut && x.passes then defaultedReading (if fleetAbsent then .absent else .bad) x.sums else x

/-! ## The build (R17, R18, R26, R71, R119) -/

/-- Included DOOR records of a car (R26). -/
def includedDoors (roster : List NodeRec) (c : Car) : List NodeRec := roster.filter (fun r => r.includedDoor c)

/-- DOOR records of a car, included and excluded alike (section 7.1). -/
def doorRecordsOf (roster : List NodeRec) (c : Car) : Nat :=
  (roster.filter (fun r => decide (r.car = c) && decide (r.cls = .door))).length

/-- The roster is built from a reading of the fleet table: the RPL's car records are as at a power start but for
the budget and the job identities, with the total door counts; the PRM takes the door records.
(Logs 10, 29). -/
def State.buildRoster (s : State) (x : FleetReading) : State :=
  { s with
    fleet := x.fleet
    roster := x.roster
    dge := { s.dge with fleet := x.sums }
    rpl := Vector.ofFn (fun c : Car =>
      { RplCar.reset with total := (includedDoors x.roster c).length, budget := s.rpl[c].budget,
                          nextJob := s.rpl[c].nextJob })
    prm := Vector.ofFn (fun c : Car => { s.prm[c] with doorRecords := doorRecordsOf x.roster c }) }

end Sys2Proof.Machine
end

