-- ==== Sys2Proof/Machine/Planner.lean ====
section
/-! DEFINITION. The Restore Planner's operations: node changes, door readiness, the cost model, the estimate, planning and
the end of an attempt (chapter 4, with the exclusion rules of chapter 2). -/

namespace Sys2Proof.Machine

/-! ## Entries (section 10.2) -/

/-- An essential or progress entry of the RPL about a node, at the present uptime. -/
def State.nodeEntry (s : State) (k : EntryKind) (r : NodeRec) (body : List Byte) : State :=
  s.ask .rpl { kind := k, car := r.car.val, drop := r.drop.val + 1, uptime := s.ord.uptime, body := body }

/-- An entry of the RPL about a car, with the uptime of its event (R171). -/
def State.carEntry (s : State) (k : EntryKind) (c : Car) (uptime : Long) (body : List Byte) : State :=
  s.ask .rpl { kind := k, car := c.val, drop := 0, uptime := uptime, body := body }

/-- A NODE FAILED entry: mode, source, reason code, attempt number. A final one raises ALERT (R72). -/
def State.nodeFailedEntry (s : State) (r : NodeRec) (final : Bool) (source reason : Nat) : State :=
  let s1 := s.nodeEntry .nodeFailed r [byteOf (bit final) 0, byteOf source 0, byteOf reason 0, byteOf r.attempt 0]
  if final then s1.raise .alert else s1

/-- A NODE MISSING entry. -/
def State.nodeMissingEntry (s : State) (r : NodeRec) : State :=
  s.nodeEntry .nodeMissing r [byteOf r.attempt 0, byteOf r.fail.code 0, 0, 0]

/-! ## A node changes (R32, R86, R121) -/

/-- The record with the uptime of a change of its node state. -/
def NodeRec.stamped (new old : NodeRec) (uptime : Long) : NodeRec :=
  if new.state = old.state then new else { new with changedAt := uptime }

/-- The RPL writes a record: the CLC hears of a node that enters or leaves MISSING (R86). -/
def State.writeNode (s : State) (old new : NodeRec) : State :=
  let s1 := s.setNode old.car old.drop (new.stamped old s.ord.uptime)
  if decide (old.state = .missing) = decide (new.state = .missing) then s1
  else s1.tell old.car (.missing old.drop (decide (new.state = .missing)))

/-- The RPL reports a change of a DOOR record it has written, with how the car's door nodes then stand (R121). -/
def State.doorChanged (s : State) (r : NodeRec) (change : DoorChange) : State :=
  s.reportDoor ⟨r.car, r.drop, change, doorsAllReady s.roster r.car⟩

/-- The RPL writes a record, and the PRM hears of a DOOR record's change of state (R121). -/
def State.putNode (s : State) (old new : NodeRec) : State :=
  let s1 := s.writeNode old new
  if old.cls = .door ∧ new.state ≠ old.state then s1.doorChanged old (.state old.state new.state) else s1

/-! ## Door readiness (R63 to R65) -/

/-- The car's doors are settled (R64). -/
def State.doorsSettled (s : State) (c : Car) : Bool := s.rpl[c].up && doorsAllReady s.roster c

/-- The ready clock one ms later (R65): it stands at 65,535 once there, the most that is ever shown or carried of it. -/
def RplCar.tick (r : RplCar) : RplCar := if r.clockOn then { r with clock := saturate 65535 (r.clock + 1) } else r

/-- The clock at a change of settlement: it stops, holding its value, or runs on from it (R65). -/
def RplCar.settle (r : RplCar) (settled : Bool) : RplCar :=
  if settled = r.settled then r else { r with settled := settled, clockOn := !settled }

/-- The counts and the blocked flag of a car afresh (R26, R63). -/
def State.countDoors (s : State) (c : Car) : RplCar :=
  let r := s.rpl[c]
  let doors := includedDoors s.roster c
  { r with
    total := doors.length
    ready := if r.up then (doors.filter (fun n => decide (n.state = .ready))).length else 0
    blocked := r.up && doors.any (fun n => decide (n.state = .failed)) }

/-- Counts, blocked flag, settlement, clock, and CAR DOORS READY where doors become settled (R63 to
R65). -/
def State.updateDoors (s : State) (c : Car) : State :=
  let r := s.countDoors c
  if r.up then
    let settled := s.doorsSettled c
    let r1 := r.settle settled
    let s1 := s.setRpl c r1
    if settled && !r.settled && decide (0 < r1.total) then
      s1.carEntry .carDoorsReady c s.ord.uptime (le16 (saturate 65535 r1.clock) ++ [byteOf r1.ready 0, 0])
    else s1
  else s.setRpl c r

/-! ## The cost model (R66 to R68) -/

/-- C(i) in us, at COMPARE or at FULL. -/
def segCost (tt : Nat) (d : Desc) (compare : Bool) (i : Nat) : Nat :=
  10 * (26 + 5 * (if compare then (clippedSpans d i).length else 0) + segLen d i) + 2 * tt

/-- The sum of C(i) over indices. -/
def segCosts (tt : Nat) (d : Desc) (compare : Bool) (l : List Nat) : Nat :=
  l.foldl (fun n i => n + segCost tt d compare i) 0

/-- The full cost of a copy. -/
def fullCost (tt : Nat) (d : Desc) : Nat := segCosts tt d false (List.range d.segments)

/-- The survey cost of a copy. -/
def surveyCost (tt : Nat) (d : Desc) : Nat :=
  10 * (25 + 5 * d.spans.length + 4 * d.segments) + 2 * tt + 250 * d.segments

/-- The start cost. -/
def startCost (tt : Nat) : Nat := 10 * 25 + 2 * tt + 10000

/-- Backoff remaining in ms (R60): 0 once the timer has expired.
(DEDUCED: log 5). -/
def NodeRec.backoffLeft (r : NodeRec) (now : Long) : Nat :=
  match r.backoffFrom with
  | none => 0
  | some u => Config.backoffMs - msSince now u

/-- A plan prices at COMPARE (R67). -/
def NodeRec.compares (r : NodeRec) : Bool := decide (r.plan = some .compare)

/-- The remaining cost of a node by its state and job (R67). -/
def State.price (s : State) (r : NodeRec) : Nat :=
  let tt := s.fleet.tt
  match r.state with
  | .awaiting | .missing =>
    match s.activeCopy r.slot with
    | none => 0
    | some k => fullCost tt s.isc.records[k].desc + startCost tt
  | .queued | .surveying | .loading | .starting =>
    match r.job with
    | none => 0
    | some j =>
      let d := s.isc.records[j.copy].desc
      match j.phase with
      | some .survey => surveyCost tt d + segCosts tt d true (List.range d.segments) + startCost tt
      | some .load => segCosts tt d r.compares j.reload + startCost tt
      | some .start => startCost tt
      | none => 0
  | .backoff =>
    match r.job with
    | none => 0
    | some j => 1000 * r.backoffLeft s.ord.uptime + fullCost tt s.isc.records[j.copy].desc + startCost tt
  | _ => 0

/-- What an INFO job holding the line is still owed before door work (R68). -/
def State.infoOwed (s : State) (r : NodeRec) : Nat :=
  match r.job with
  | none => 0
  | some j =>
    let tt := s.fleet.tt
    let d := s.isc.records[j.copy].desc
    match j.phase with
    | some .survey => surveyCost tt d
    | some .start => startCost tt
    | some .load =>
      segCosts tt d r.compares (j.reload.take (min (max (s.fleet.holdLimit - j.s) 1) j.reload.length))
    | none => 0

/-- The INFO contribution of a car: the INFO job holding its line (R68), but that of an EXCLUDED node, which R19 leaves
out of its car's estimate. -/
def State.infoShare (s : State) (c : Car) : Nat :=
  (s.roster.filter (fun r => decide (r.car = c) && decide (r.cls = .info) && !r.isExcluded
      && decide (r.job.map RplJob.place = some .line))).foldl (fun n r => n + s.infoOwed r) 0

/-! ## The estimate (R69, R70) -/

/-- LATE and ON TIME (R70), with the uptime of the event (R171). DEDUCED: P is compared with the budget also while the doors are
settled, where a sample that changes a nonzero budget may turn the flag (log 54). -/
def State.judgeLate (s : State) (c : Car) (uptime : Long) : State :=
  let r := s.rpl[c]
  let late := decide (r.budget ≠ 0) && decide (r.budget < r.p)
  if late = r.late then s
  else
    let s1 := s.setRpl c { r with late := late }
    let body := le16 r.p ++ le16 r.budget
    if late then (s1.carEntry .late c uptime body).raise .alert else s1.carEntry .onTime c uptime body

/-- The record of a node with its remaining cost as recomputed (R67). -/
def State.repriced (s : State) (c : Car) (r : NodeRec) : NodeRec :=
  if decide (r.car = c) && decide (r.cls = .door) then { r with cost := if r.isExcluded then 0 else s.price r } else r

/-- The words of a car summary that hold E, P and the elapsed time. -/
def isEstimateWord (c : Car) (a : Nat) : Bool := decide (a ∈ [0x64 + 16 * c.val, 0x66 + 16 * c.val, 0x68 + 16 * c.val])

/-- E, P and the elapsed time of a car are written to its summary, and the remaining costs of its door nodes to the mirror,
changed or not (R32, R67, R69). -/
def State.showEstimate (s : State) (c : Car) : State :=
  (s.showWords (isEstimateWord c)).showField (fun r => decide (r.car = c) && decide (r.cls = .door)) 36

/-- Recompute E, P and the elapsed time of an up car and the remaining costs, judge the late flag, and write what was
recomputed (R67 to R70); an entry this asks for carries the uptime of the event (R171). -/
def State.estimateAt (s : State) (c : Car) (uptime : Long) : State :=
  let r := s.rpl[c]
  if r.up then
    let sum := (includedDoors s.roster c).foldl (fun n d => n + s.price d) 0 + s.infoShare c
    let e := if r.settled then 0 else saturate 65535 (ceilDiv sum 1000)
    let elapsed := saturate 65535 r.clock
    let s1 := s.setRoster (s.roster.map (s.repriced c))
    ((s1.setRpl c { r with e := e, elapsed := elapsed, p := saturate 65535 (elapsed + e) }).judgeLate c uptime).showEstimate c
  else s

/-- The estimate at an event that carries no uptime of its own (R69, R171). -/
def State.estimate (s : State) (c : Car) : State := s.estimateAt c s.ord.uptime

/-- What follows every change of a node or job of a car (R63 to R65, R69, R72). -/
def State.changed (s : State) (c : Car) : State := (s.updateDoors c).estimate c

/-! ## Planning (R49 to R53, R62) -/

/-- What a planning gives: a failure with its plan reason, or a job's plan, reason, copy and marginal
flag. -/
inductive Planning where
  | fails (reason : PlanReason)
  | job (plan : Plan) (reason : PlanReason) (copy : CopyIx) (marginal : Bool)
  deriving DecidableEq, Repr

/-- The held image, version or segment count of a HELLO differs from a copy's (R49 row 6, R62 row 4). -/
def HelloFields.differs (f : HelloFields) (d : Desc) : Bool :=
  decide (f.image ≠ d.image) || decide (f.version ≠ d.version) || decide (f.segments ≠ d.segments)

/-- H and B of a class (R24). -/
def Fleet.hold (f : Fleet) : NodeClass → Nat × Nat
  | .door => (f.hDoor, f.bDoor)
  | .info => (f.hInfo, f.bInfo)

/-- The copy a planning may pin, or the reason of rows 1 to 3 of R49 and of R62. -/
def State.plannable (s : State) (r : NodeRec) (f : HelloFields) : Except PlanReason CopyIx :=
  if r.cls ≠ f.cls then .error .classMismatch
  else
    match s.activeCopy r.slot with
    | none => .error .noImage
    | some k => if s.isc.records[k].desc.cls ≠ r.cls.code then .error .imageClass else .ok k

/-- Planning at a HELLO (R49, R50). -/
def State.planHello (s : State) (r : NodeRec) (f : HelloFields) : Planning :=
  match s.plannable r f with
  | .error e => .fails e
  | .ok k =>
    let (h, b) := s.fleet.hold r.cls
    let g := s.rpl[r.car].gapG
    if r.attempt > 0 ∧ r.fail = .imageCheck then .job .full .imageCheck k false
    else if f.ramLost then .job .full .ramLost k false
    else if f.differs s.isc.records[k].desc then .job .full .otherImage k false
    else if f.digestCapable = false then .job .full .loadOnlyBoot k false
    else if h + b ≤ g then .job .full .beyondHoldUp k false
    else .job .compare .compare k (decide (h - b ≤ g))

/-- Planning by a restore order (R62). -/
def State.planOrder (s : State) (r : NodeRec) (f : HelloFields) (plan : Plan) : Planning :=
  match s.plannable r f with
  | .error e => .fails e
  | .ok k =>
    if plan = .compare ∧ f.differs s.isc.records[k].desc = true then .job .full .otherImage k false
    else if plan = .compare ∧ f.digestCapable = false then .job .full .loadOnlyBoot k false
    else .job plan .ordered k false

/-- The record's job releases its pin, if it has one (R53). -/
def State.unpinJob (s : State) (r : NodeRec) : State :=
  match r.job with
  | none => s
  | some j => s.unpin j.copy

/-- The ANOMALY entry of row 8 (R50). -/
def State.anomalyEntry (s : State) (r : NodeRec) : State :=
  let (h, b) := s.fleet.hold r.cls
  s.nodeEntry .anomaly r (le16 s.rpl[r.car].gapG ++ le16 h ++ le16 b ++ [byteOf r.cls.code 0, 0])

/-- The job a planning creates (R52). -/
def newJob (jid : Nat) (plan : Plan) (copy : CopyIx) (segments : Nat) : RplJob :=
  { jid := jid, copy := copy, place := .queue,
    phase := some (match plan with
      | .compare => .survey
      | .full => .load)
    reload := match plan with
      | .compare => []
      | .full => List.range segments
    s := 0, retry := 0, condemned := false }

/-- The job as it enters the CLC's queue (R97, R98). -/
def lineJobOf (r : NodeRec) (plan : Plan) (j : RplJob) : LineJob :=
  { jid := j.jid, drop := r.drop, cls := r.cls, plan := plan, copy := j.copy,
    phase := j.phase.getD .start, reload := j.reload, s := 0 }

/-- A planning's effect on a node: FAILED under R51, or a new job, pinned and queued, under R52 and
R53. `old` is the record as the roster holds it, `r` the same with what the event recorded in it. -/
def State.applyPlan (s : State) (old r : NodeRec) (p : Planning) : State :=
  match p with
  | .fails reason =>
    let r1 := { r with plan := none, reason := reason, marginal := false, state := .failed, job := none,
                       backoffFrom := none, backoffShown := 0 }
    (((s.unpinJob old).putNode old r1).nodeFailedEntry r1 true 1 reason.code).changed old.car
  | .job plan reason copy marginal =>
    let jid := s.rpl[old.car].nextJob
    let j := newJob jid plan copy s.isc.records[copy].desc.segments
    let r1 := { r with plan := some plan, reason := reason, marginal := marginal, attempt := r.attempt + 1,
                       state := .queued, job := some j, backoffFrom := none, backoffShown := 0 }
    let s1 := ((s.repin old.job copy).setRpl old.car { s.rpl[old.car] with nextJob := jid + 1 }).putNode old r1
    let s2 := if reason = .beyondHoldUp then s1.anomalyEntry r1 else s1
    let s3 := s2.nodeEntry .nodePlanned r1
      [byteOf plan.code 0, byteOf reason.code 0, byteOf (bit marginal) 0, byteOf r1.attempt 0]
    (s3.tell old.car (.jobEnters (lineJobOf r1 plan j))).changed old.car

/-! ## The end of an attempt (R59) -/

/-- An attempt fails: BACKOFF below the attempt limit, else FAILED (R59). -/
def State.failAttempt (s : State) (r : NodeRec) (j : RplJob) (reason : FailReason) : State :=
  let r1 := { r with fail := reason }
  if r.attempt < s.fleet.attemptLimit then
    let r2 := { r1 with
      state := .backoff
      job := some { j with place := .backoff, phase := none, reload := [], s := 0, retry := 0, condemned := false }
      backoffFrom := some s.ord.uptime
      backoffShown := Config.backoffMs }
    ((s.putNode r r2).nodeFailedEntry r2 false 0 reason.code).changed r.car
  else
    let r2 := { r1 with state := .failed, job := none }
    (((s.unpin j.copy).putNode r r2).nodeFailedEntry r2 true 0 reason.code).changed r.car

/-- A node not heard: MISSING, its backoff job, if any, ended and unpinned (R47, R61). -/
def State.missNode (s : State) (r : NodeRec) : State :=
  let r1 := { r with state := .missing, job := none, backoffFrom := none, backoffShown := 0 }
  (((s.unpinJob r).putNode r r1).nodeMissingEntry r1).changed r.car

/-- The individual roll call of a BACKOFF node runs: its timer has expired (R60, R61). -/
def NodeRec.polled (r : NodeRec) : Bool := decide (r.state = .backoff) && r.backoffFrom.isNone

/-! ## Reports of a job (R54, R98, R114) -/

/-- The node state of a job that holds the line in a phase (R54). -/
def Phase.nodeState : Phase → NodeState
  | .survey => .surveying
  | .load => .loading
  | .start => .starting

/-- The record whose live job a report names, in its queue or on its line, of a node not EXCLUDED and
not condemned to end with STORE FAULT: any other report is disregarded (R29, R54, R98, R114). -/
def State.reported (s : State) (c : Car) (jid : Nat) : Option (NodeRec × RplJob) :=
  match s.findJob c jid with
  | none => none
  | some r =>
    match r.job with
    | none => none
    | some j =>
      if r.state = .excluded ∨ j.place = .backoff ∨ j.condemned = true then none else some (r, j)

/-- The RPL takes an attempt failure: of a condemned job only the STORE FAULT report of its end (R59,
R114). -/
def State.takeFailure (s : State) (c : Car) (jid : Nat) (reason : FailReason) : State :=
  match s.findJob c jid with
  | none => s
  | some r =>
    match r.job with
    | none => s
    | some j =>
      if r.state = .excluded ∨ j.place = .backoff ∨ (j.condemned = true ∧ reason ≠ .storeFault) then s
      else s.failAttempt r j reason

/-- The CLC has released the line of an EXCLUDED node's job: the pin is released, the job is absent, and what follows every
change of a job follows (R29, R69, R113). -/
def State.takeRelease (s : State) (c : Car) (jid : Nat) : State :=
  match s.findJob c jid with
  | none => s
  | some r =>
    if r.state = .excluded then ((s.unpinJob r).putNode r { r with job := none }).changed c else s

end Sys2Proof.Machine
end

