-- ==== Sys2Proof/Machine/Orders.lean ====
section
/-! DEFINITION. The Order Unit: the Steering Page sample, the slot checks, the taking of a batch, the node orders, the
registers and the host's accesses (chapter 9, with the exclusion orders of chapter 2). -/

namespace Sys2Proof.Machine

/-! ## The sample of the Steering Page (R157) -/

/-- A two-byte field of the Steering Page as the host has left it. -/
def State.steeringWord (s : State) (i : Nat) : Nat := leNat (s.ramBytes (Config.steeringBase + i) 2)

/-- The scan timer after a sample: a changed period stops it and starts it for the new one (R158). -/
def Ord.rescan (o : Ord) (scan : Nat) : Option Nat :=
  if scan = o.scan then o.scanTimer else if scan = 0 then none else some scan

/-- The return mark in force after a sample: rounded down to a multiple of 4, and ignored above 8188
(R157; log 16). -/
def Ord.nextReturn (o : Ord) (v : Nat) : Nat := if Config.roomMax < v then o.ret else v - v % 4

/-- The values in force after a sample (R157). -/
def State.sampled (s : State) : Ord :=
  let lw := clamp 256 4096 (s.steeringWord 6)
  let scan := clamp 0 1000 (s.steeringWord 4)
  { s.ord with
    q := clamp 0 50 (s.steeringWord 2)
    scan := scan
    lw := lw
    hw := clamp (lw + 256) Config.roomMax (s.steeringWord 8)
    ret := s.ord.nextReturn (s.steeringWord 0)
    scanTimer := s.ord.rescan scan }

/-- The ready budgets and the withhold flags as the page gives them. -/
def State.budgets (s : State) : Vector Nat 6 := Vector.ofFn (fun c : Car => s.steeringWord (10 + 2 * c.val))
def State.withholds (s : State) : Vector Bool 6 :=
  Vector.ofFn (fun c : Car => decide (s.ramByte (Config.steeringBase + 22 + c.val) ≠ 0))

/-- A sample: the values in force are set, and the JRN, the RPL and the PRM are handed theirs (R157). -/
def State.sample (s : State) : State :=
  let o := s.sampled
  { s with
    ord := o
    chan := { s.chan with
      ordJrn := s.chan.ordJrn ++ [⟨o.ret, o.lw, o.hw⟩]
      ordRpl := s.chan.ordRpl ++ [.budgets s.budgets]
      ordPrm := s.chan.ordPrm ++ [s.withholds] } }

/-! ## Node orders (R28 to R31, R62, R166 to R168) -/

/-- What a restore of one drop comes to (R167, R168). -/
inductive Restored where
  | refused (r : RefusalCode)
  | planned (n : NodeState) (reason : PlanReason)
  deriving DecidableEq, Repr

/-- The refusal a node's state gives a restore (R167). -/
def NodeRec.restoreRefusal (r : NodeRec) : Option RefusalCode :=
  if r.isExcluded then some .excluded
  else
    match r.state with
    | .excluded => some .excluded
    | .dark => some .dark
    | .awaiting => some .notHeard
    | .missing => some .notHeard
    | .queued => some .busy
    | .surveying => some .busy
    | .loading => some .busy
    | .starting => some .busy
    | _ => none

/-- The plan parameter of a restore order: 1 COMPARE, 2 FULL. -/
def planOf (n : Nat) : Option Plan := if n = 1 then some .compare else if n = 2 then some .full else none

/-- A restore of one drop: tested (R167), then planned under R62, which ends a backoff; whatever individual roll call is owed
to the node is cancelled (R89). -/
def State.restore (s : State) (c : Car) (d : Drop) (plan : Plan) : State × Restored :=
  match s.findNode c d with
  | none => (s, .refused .notInRoster)
  | some r =>
    match r.restoreRefusal, r.hello with
    | some e, _ => (s, .refused e)
    | none, none => (s, .refused .notHeard)
    | none, some f =>
      let s2 := (s.tell c (.cancel d)).applyPlan r { r with attempt := 0 } (s.planOrder r f plan)
      match s2.findNode c d with
      | none => (s2, .refused .notInRoster)
      | some r2 => (s2, .planned r2.state r2.reason)

/-- A car parameter. -/
def carOf (n : Nat) : Option Car := if h : n < 6 then some ⟨n, h⟩ else none

/-- A drop parameter, 1 to 8. -/
def dropOf (n : Nat) : Option Drop := if h : 1 ≤ n ∧ n ≤ 8 then some ⟨n - 1, by omega⟩ else none

/-- RESTORE NODE (R62, R167). -/
def State.restoreNode (s : State) (b : List Byte) : State × Answer :=
  match carOf (paramByte b 0), dropOf (paramByte b 1), planOf (paramByte b 2) with
  | some c, some d, some plan =>
    match s.restore c d plan with
    | (s1, .refused e) => (s1, .refused e)
    | (s1, .planned n reason) => (s1, .done .ok [byteOf n.code 0, byteOf reason.code 0])
  | _, _, _ => (s, .refused .badParameter)

/-- The disposition of a drop in RESTORE CAR's results: 0 no record, 1 queued, 2 failed, else the
refusal code (R168). -/
def Restored.disposition : Restored → Nat
  | .refused .notInRoster => 0
  | .refused e => e.code
  | .planned .queued _ => 1
  | .planned _ _ => 2

/-- The drops of a car restored in ascending order, with their dispositions (R168). -/
def State.restoreDrops (s : State) (c : Car) (plan : Plan) : List Drop → State × List Nat
  | [] => (s, [])
  | d :: rest =>
    let x := s.restore c d plan
    let y := x.1.restoreDrops c plan rest
    (y.1, x.2.disposition :: y.2)

/-- RESTORE CAR (R168).
(DEDUCED: log 13). -/
def State.restoreCar (s : State) (b : List Byte) : State × Answer :=
  match carOf (paramByte b 0), planOf (paramByte b 2) with
  | some c, some plan =>
    if s.roster.any (fun r => decide (r.car = c)) then
      let (s1, l) := s.restoreDrops c plan allDrops
      (s1, .done .ok ([byteOf (l.count 1) 0, byteOf (l.count 2) 0, 0, 0, 0, 0, 0, 0] ++ l.map (fun n => byteOf n 0)))
    else (s, .refused .notInRoster)
  | _, _ => (s, .refused .badParameter)

/-- Write a DOOR or INFO record whose exclusion changed, and report it to the PRM (R121). -/
def State.putInclusion (s : State) (old new : NodeRec) (change : DoorChange) : State :=
  let s1 := s.writeNode old new
  if old.cls = .door then s1.doorChanged old change else s1

/-- The job disposition of an exclusion: 0 NONE, 1 ENDED, 2 ENDING (R28). -/
def NodeRec.disposition (r : NodeRec) : Nat :=
  match r.job with
  | none => 0
  | some j => if j.place = .line then 2 else 1

/-- The job stands in its queue or holds its line (R52). -/
def RplJob.inLine (j : RplJob) : Bool := decide (j.place ≠ .backoff)

/-- What the CLC is told at an exclusion: to cancel whatever rounds are owed to the node, and to end a queued or holding
job (R28, R29, R89). -/
def State.tellExclusion (s : State) (r : NodeRec) : State :=
  let s1 := s.tell r.car (.cancel r.drop)
  match r.job with
  | none => s1
  | some j => if j.inLine then s1.tell r.car (.endJob j.jid) else s1

/-- An included node is excluded (R28, R29): its job stays only while it holds the line. -/
def State.exclude (s : State) (r : NodeRec) : State :=
  let ending := decide (r.disposition = 2)
  let r1 := { r with override := .exclude, state := .excluded, job := if ending then r.job else none,
                     backoffFrom := none, backoffShown := 0 }
  let s1 := if ending then s else s.unpinJob r
  ((s1.putInclusion r r1 .excluded).tellExclusion r).changed r.car

/-- EXCLUDE NODE (R17, R28).
(DEDUCED: log 13). -/
def State.excludeNode (s : State) (b : List Byte) : State × Answer :=
  match carOf (paramByte b 0), dropOf (paramByte b 1) with
  | some c, some d =>
    match s.findNode c d with
    | none => (s, .refused .notInRoster)
    | some r =>
      if r.isExcluded then (s, .done .ok [1, byteOf r.state.code 0, 0])
      else (s.exclude r, .done .ok [0, byteOf r.state.code 0, byteOf r.disposition 0])
  | _, _ => (s, .refused .badParameter)

/-- The line is in BOOT WAIT or in its fast rounds (R30, R85, R87). DESIGN CHOICE (log 53): one in OFF, of which R30 has no row, is
not asked for an individual roll call either. -/
def Line.inFastCall (l : Line) : Bool :=
  match l.state with
  | .off => true
  | .bootWait => true
  | .rollCall => decide (l.round ≠ some .other)
  | _ => false

/-- The line action of an inclusion on an up car: the fast rounds call the drop again, or an individual roll call is asked for
(R30, R85, R87). -/
def State.callIncluded (s : State) (c : Car) (d : Drop) : State :=
  let l := s.lines[c]
  if l.inFastCall then s.setLine c { l with heard := DropSet.del l.heard d } else s.tell c (.individual d)

/-- An excluded node is included (R30). DEDUCED (log 48): a line in BOOT WAIT or in its fast rounds, of a car whose CAR RETURN
the RPL has not yet taken, is not acted on and keeps its heard set, as R30 gives for a car not up. -/
def State.include (s : State) (r : NodeRec) : State :=
  let up := s.rpl[r.car].up
  let r1 := { r with override := .include, attempt := 0, state := if up then .awaiting else .dark }
  let s1 := s.putInclusion r r1 .included
  (if up then s1.callIncluded r.car r.drop else s1).changed r.car

/-- INCLUDE NODE (R17, R30). -/
def State.includeNode (s : State) (b : List Byte) : State × Answer :=
  match carOf (paramByte b 0), dropOf (paramByte b 1) with
  | some c, some d =>
    match s.findNode c d with
    | none => (s, .refused .notInRoster)
    | some r =>
      if !r.isExcluded then (s, .done .ok [1, byteOf r.state.code 0, byteOf r.state.code 0])
      else if r.job.isSome then (s, .refused .busy)
      else
        (s.include r, .done .ok [0, byteOf r.state.code 0,
          byteOf (if s.rpl[c].up then NodeState.awaiting.code else NodeState.dark.code) 0])
  | _, _ => (s, .refused .badParameter)

/-! ## Routing and batches (R163 to R166) -/

/-- What an order's kind code routes to (R166, section 9.6). -/
inductive Route where
  | restoreNode
  | restoreCar
  | excludeNode
  | includeNode
  | store (k : StoreKind)
  | unknown
  deriving DecidableEq, Repr

/-- The kind codes of section 9.6. -/
def routeOf (n : Nat) : Route :=
  if n = 0x01 then .restoreNode
  else if n = 0x02 then .restoreCar
  else if n = 0x03 then .excludeNode
  else if n = 0x04 then .includeNode
  else if n = 0x10 then .store .openCopy
  else if n = 0x11 then .store .stageSegment
  else if n = 0x12 then .store .closeCopy
  else if n = 0x13 then .store .activateCopy
  else if n = 0x14 then .store .eraseCopy
  else if n = 0x18 then .store .protectGroup
  else if n = 0x19 then .store .unprotectAll
  else if n = 0x1A then .store .writeIdentity
  else if n = 0x1B then .store .writeFleetTable
  else .unknown

/-- A node order executed and answered at its taking (R166). -/
def State.answered (j : OrderSlot) (b : List Byte) (x : State × Answer) : State := x.1.answer j b x.2

/-- Route a taken order by its kind (R166). -/
def State.route (s : State) (j : OrderSlot) (b : List Byte) : State :=
  match routeOf (byteAt b 1) with
  | .restoreNode => State.answered j b (s.restoreNode b)
  | .restoreCar => State.answered j b (s.restoreCar b)
  | .excludeNode => State.answered j b (s.excludeNode b)
  | .includeNode => State.answered j b (s.includeNode b)
  | .store k => { s with isc := { s.isc with queue := s.isc.queue ++ [⟨j, k, b⟩] } }
  | .unknown => s.answer j b (.refused .unknownKind)

/-- The slot's hand reads POSTED and its owed flag is clear (R163). -/
def State.takeable (s : State) (j : OrderSlot) : Bool :=
  decide (s.ramByte (orderAddr j) = 1) && !s.ord.owed[j]

/-- The order slots in ascending order. -/
def allSlots : List OrderSlot := List.finRange 32

/-- One slot of the pass: copied whole, written TAKEN with kind, batch number and uptime, its owed flag
set, and routed (R164). -/
def State.takeSlot (s : State) (j : OrderSlot) : State :=
  if s.takeable j then
    let b := s.ramBytes (orderAddr j) 128
    let s1 := s.putBytes (orderAddr j) [2, b.getD 1 0]
    let s2 := s1.putBytes (orderAddr j + 6) (le16 s.ord.batch.toNat)
    let s3 := s2.putBytes (orderAddr j + 124) (le32 s.ord.uptime.toNat)
    ({ s3 with ord := { s3.ord with owed := s3.ord.owed.set j true } }).route j b
  else s

/-- The window expires: with a slot to take, the batch count rises and the batch is taken (R163, R164). -/
def State.expireWindow (s : State) : State :=
  let s1 := { s with ord := { s.ord with window := none } }
  if allSlots.any s1.takeable then
    allSlots.foldl State.takeSlot { s1 with ord := { s1.ord with batch := s1.ord.batch + 1 } }
  else s1

/-- The window starts for Q; with Q = 0 it expires as it starts (R163). -/
def State.startWindow (s : State) : State :=
  if s.ord.q = 0 then s.expireWindow else { s with ord := { s.ord with window := some s.ord.q } }

/-- A slot check: a NUDGE restarts a running window, any check with a slot to take starts a stopped one
(R163). -/
def State.slotCheck (s : State) (nudge : Bool) : State :=
  match s.ord.window with
  | some _ => if nudge then s.startWindow else s
  | none => if allSlots.any s.takeable then s.startWindow else s

/-! ## Commands -/

/-- NUDGE (R158, R161, R163): the value written does not matter. -/
def execNudge (_v : Word) (s : State) : Result := done s (if s.isRunning then s.sample.slotCheck true else s)

/-- The timer for the period in force (R158). -/
def Ord.restartScan (o : Ord) : Ord := { o with scanTimer := if o.scan = 0 then none else some o.scan }

/-- SCAN_TICK (R158, R163). -/
def execScanTick (s : State) : Result :=
  done s (
    if s.isRunning && s.ord.scanTimer.isSome then
      let s1 := s.sample.slotCheck false
      { s1 with chan := { s1.chan with ordRpl := s1.chan.ordRpl ++ [.scanTick] }, ord := s1.ord.restartScan }
    else s)

/-- QUIET_WINDOW_EXPIRY (R163, R164, R166 to R168). -/
def execQuietWindowExpiry (s : State) : Result :=
  done s (if s.isRunning && s.ord.window.isSome then s.expireWindow else s)

/-- Each car's ready clock that runs counts the ms (R65). -/
def State.tickClocks (s : State) : State := { s with rpl := Vector.ofFn (fun c : Car => s.rpl[c].tick) }

/-- UPTIME_TICK (R65, R156): the uptime runs in every run state and wraps. -/
def execUptimeTick (s : State) : Result :=
  done s (if s.live then { s.tickClocks with ord := { s.ord with uptime := s.ord.uptime + 1 } } else s)

/-- NOTICE_WRITE (R162, R177, R178): reached at all times (R155). -/
def execNoticeWrite (v : Word) (s : State) : Result := done s (if s.power then s.clearCauses v else s)

/-- NOTICE_ENABLE_WRITE (R162, R178): reached at all times (R155). -/
def execNoticeEnableWrite (v : Word) (s : State) : Result := done s (if s.power then s.setEnables v else s)

/-- The value a register reads (section 9.4). -/
def State.register (s : State) (r : BitVec 2) : Word :=
  match r.toNat with
  | 0 => BitVec.ofNat 16 (s.run.code + 16 * s.cause.code)
  | 1 => s.ord.batch
  | 2 => s.ntu.causes.setWidth 16
  | _ => BitVec.ofNat 16 (s.ntu.enables.toNat + 128 * bit s.ntu.tie)

/-- The word of the Exchange RAM at a word address. -/
def State.ramWord (s : State) (a : BitVec 14) : Word := BitVec.ofNat 16 (leNat (s.ramBytes (2 * a.toNat) 2))

/-- A host access: while RESET_IN is held the RAM reads 0x0000 and writes are discarded (R154, R155,
R161). -/
def State.busAccess (s : State) (a : BusAccess) : State :=
  match a with
  | .ramRead w => { s with pins := { s.pins with busData := if s.resetIn then 0 else s.ramWord w } }
  | .ramWrite w d => if s.resetIn then s else s.putBytes (2 * w.toNat) (le16 d.toNat)
  | .regRead r => { s with pins := { s.pins with busData := s.register r } }

/-- HOST_RAM_ACCESS (R154, R155, R161). -/
def execHostRamAccess (a : BusAccess) (s : State) : Result := done s (if s.power then s.busAccess a else s)

end Sys2Proof.Machine
end

