-- ==== Sys2Proof/Machine/Permits.lean ====
section
/-! DEFINITION. The Permit Outputs (chapter 7): the permit condition, its changes, and the commands that evaluate it. -/

namespace Sys2Proof.Machine

/-- Causes of a permit change (R123). -/
inductive PermitCause where
  | supplyLost
  | doorNode
  | withholdSet
  | doorsReady
  | exclusion
  | withholdCleared
  | supplyReturned
  deriving DecidableEq, Repr

/-- Codes 1 to 7 of the table of R123. -/
def PermitCause.code : PermitCause → Nat
  | .supplyLost => 1
  | .doorNode => 2
  | .withholdSet => 3
  | .doorsReady => 4
  | .exclusion => 5
  | .withholdCleared => 6
  | .supplyReturned => 7

/-- Some DOOR record of the car is included (R26). -/
def State.hasIncludedDoor (s : State) (c : Car) : Bool := s.roster.any (fun r => r.includedDoor c)

/-- The fourth term of R118: every included door node is READY on the states the RPL holds. DEDUCED (log 44): while the PRM
has taken a car event that the RPL has not, the states of included door nodes are of an earlier cycle and do not count. -/
def State.doorTerm (s : State) (c : Car) : Bool :=
  doorsAllReady s.roster c
    && (!s.hasIncludedDoor c || decide (s.chan.ssuRpl[c].length ≤ s.chan.ssuPrm[c].length))

/-- The permit condition of R118 on the PRM's record, with what stands for its fourth term. -/
def PrmCar.holds (p : PrmCar) (doors : Bool) : Bool := p.up && !p.withhold && decide (0 < p.doorRecords) && doors

/-- The PERMIT entry (section 10.2). -/
def permitEntry (c : Car) (active : Bool) (cause : PermitCause) (uptime : Long) : Entry :=
  { kind := .permit, car := c.val, drop := 0, uptime := uptime,
    body := [byteOf (bit active) 0, byteOf cause.code 0, 0, 0] }

/-- A change of permit: the state and DPc, then the PERMIT entry with the uptime of its event, then the PERMIT cause
(R123, R171). -/
def State.changePermit (s : State) (c : Car) (active : Bool) (cause : PermitCause) (uptime : Long) : State :=
  let s1 := s.setPrm c { s.prm[c] with active := active }
  let s2 := { s1 with pins := { s1.pins with dp := s1.pins.dp.set c active } }
  (s2.ask .prm (permitEntry c active cause uptime)).raise .permit

/-- Evaluate a car's condition; `up` is the cause of a change to ACTIVE, `down` of one to INACTIVE.
An evaluation that gives the state the car already has changes nothing (R118). -/
def State.evaluatePermit (s : State) (c : Car) (doors : Bool) (up down : PermitCause) (uptime : Long) : State :=
  let active := s.prm[c].holds doors
  if active = s.prm[c].active then s else s.changePermit c active (if active then up else down) uptime

/-- Set the car up bit of the PRM's record. -/
def State.setPrmUp (s : State) (c : Car) (up : Bool) : State := s.setPrm c { s.prm[c] with up := up }

/-- The cause of a change to ACTIVE on a door report: EXCLUSION at an exclusion, else DOORS READY, as only a report of READY
then makes the change (R121). -/
def DoorReport.upCause (r : DoorReport) : PermitCause :=
  match r.change with
  | .excluded => .exclusion
  | _ => .doorsReady

/-- The reports whose row of R121 withdraws a permit: a door node leaves READY, or is included. -/
def DoorReport.withdraws (r : DoorReport) : Bool :=
  match r.change with
  | .state old _ => decide (old = .ready)
  | .included => true
  | .excluded => false

/-- The fourth term at a door report: what the RPL now holds of the car's door nodes (R118). By the rows of R121, a report of a
node that leaves READY or is included withdraws, and a permit still INACTIVE waits for a report made with all READY. DEDUCED
(log 25): both hold though the states have changed again since the report was made. -/
def State.reportedDoors (s : State) (r : DoorReport) : Bool :=
  !r.withdraws && s.doorTerm r.car && (s.prm[r.car].active || r.allReady)

/-- One car's flag of a withhold sample: recorded, and the car evaluated if it has changed (R122). -/
def State.takeWithhold (flags : Vector Bool 6) (s : State) (c : Car) : State :=
  if flags[c] = s.prm[c].withhold then s
  else
    (s.setPrm c { s.prm[c] with withhold := flags[c] }).evaluatePermit c (s.doorTerm c) .withholdCleared .withholdSet
      s.ord.uptime

/-! ## Commands (taken in RUNNING only, R119, R124) -/

/-- The head of the PRM's channel from the SSU has been taken. -/
def State.dropPrmEvent (s : State) (c : Car) : State :=
  { s with chan := { s.chan with ssuPrm := dropAt s.chan.ssuPrm c } }

/-- PRM_CAR_LOSS (R118, R120). DEDUCED (log 38): the PERMIT entry carries the event's uptime. -/
def execPrmCarLoss (c : Car) (s : State) : Result :=
  done s (
    match s.isRunning, s.chan.ssuPrm[c] with
    | true, .loss u :: _ =>
      ((s.dropPrmEvent c).setPrmUp c false).evaluatePermit c (s.doorTerm c) .supplyReturned .supplyLost u
    | _, _ => s)

/-- PRM_CAR_RETURN (R118, R120, R125): a car with an included door node stays INACTIVE, whatever its nodes' states (log 44).
DEDUCED (log 38): the PERMIT entry carries the event's uptime. -/
def execPrmCarReturn (c : Car) (s : State) : Result :=
  done s (
    match s.isRunning, s.chan.ssuPrm[c] with
    | true, .ret _ _ _ u :: _ =>
      ((s.dropPrmEvent c).setPrmUp c true).evaluatePermit c (!s.hasIncludedDoor c) .supplyReturned .supplyLost u
    | _, _ => s)

/-- PRM_DOOR_REPORT (R118, R121, R125). -/
def execPrmDoorReport (s : State) : Result :=
  done s (
    match s.isRunning, s.chan.rplPrm with
    | true, r :: rest =>
      ({ s with chan := { s.chan with rplPrm := rest } }).evaluatePermit r.car (s.reportedDoors r) r.upCause .doorNode
        s.ord.uptime
    | _, _ => s)

/-- PRM_WITHHOLD_SAMPLE (R118, R122): every car's withhold seen is written to its summary, changed or not. DESIGN CHOICE
(log 37): the cars are evaluated in ascending order. -/
def execPrmWithholdSample (s : State) : Result :=
  done s (
    match s.isRunning, s.chan.ordPrm with
    | true, flags :: rest =>
      (allCars.foldl (State.takeWithhold flags) { s with chan := { s.chan with ordPrm := rest } }).showWords isFlagsWord
    | _, _ => s)

end Sys2Proof.Machine
end

