-- ==== Sys2Proof/Machine/PlannerCommands.lean ====
section
/-! DEFINITION. The commands of the Restore Planner: the news it takes from the SSU, the CLCs, the ISC and the ORD, and its
backoff timers (chapter 4). All are taken in RUNNING only (R71). -/

namespace Sys2Proof.Machine

/-! ## Car events (R45, R46) -/

/-- A record of a lost car: DARK unless EXCLUDED, its job and backoff ended (R46). -/
def NodeRec.darkened (r : NodeRec) (uptime : Long) : NodeRec :=
  let r1 := { r with state := if r.state = NodeState.excluded then NodeState.excluded else NodeState.dark, job := none, backoffFrom := none,
                     backoffShown := 0, cost := 0 }
  r1.stamped r uptime

/-- Drops of a car with a live job, ascending (R46). -/
def State.abandonedDrops (s : State) (c : Car) : List Drop :=
  (s.roster.filter (fun r => decide (r.car = c) && r.job.isSome)).map NodeRec.drop

/-- The CAR LOSS entry, with the uptime the event carries (R46, R171). -/
def carLossEntry (c : Car) (uptime : Long) (drops : List Drop) : Entry :=
  { kind := .carLoss, car := c.val, drop := 0, uptime := uptime,
    body := pad4 (byteOf drops.length 0 :: drops.map (fun d => byteOf (d.val + 1) 0)) }

/-- Replace every record of a car by its image, reporting each DOOR record's change of state (R121). -/
def State.mapCar (s : State) (c : Car) (g : NodeRec → NodeRec) : State :=
  let mine := s.roster.filter (fun r => decide (r.car = c))
  let l := s.roster.map (fun r => if r.car = c then g r else r)
  let news := (mine.filter (fun r => decide (r.cls = .door) && decide ((g r).state ≠ r.state))).map
    (fun r => (⟨r.car, r.drop, .state r.state (g r).state, doorsAllReady l c⟩ : DoorReport))
  { s.setRoster l with chan := { s.chan with rplPrm := s.chan.rplPrm ++ news } }

/-- Unpin every live job of a car (R46, R53). -/
def State.unpinCar (s : State) (c : Car) : State :=
  (s.roster.filter (fun r => decide (r.car = c))).foldl State.unpinJob s

/-- A tell of a node that enters or leaves MISSING (R86). -/
def LineOrder.ofMissing : LineOrder → Bool
  | .missing _ _ => true
  | _ => false

/-- Drops of a car whose nodes are MISSING, in roster order. -/
def State.missingDrops (s : State) (c : Car) : List Drop :=
  (s.roster.filter (fun r => decide (r.car = c) && decide (r.state = .missing))).map NodeRec.drop

/-- What the RPL told a car's CLC before a loss is without effect (R54, R116; log 4), but for the tells of MISSING, which stand;
those of the nodes that the loss takes out of MISSING follow them (R86). -/
def State.purgeTells (s : State) (c : Car) (left : List Drop) : State :=
  let tells := s.chan.rplClc[c].filter LineOrder.ofMissing ++ left.map (fun d => .missing d false)
  { s with chan := { s.chan with rplClc := s.chan.rplClc.set c tells } }

/-- The RPL's record of a lost car (R46, R65, R69).
(DESIGN CHOICE: log 30). -/
def RplCar.lost (r : RplCar) : RplCar :=
  { r with up := false, ready := 0, blocked := false, late := false, settled := false, clock := 0,
           clockOn := false, e := 65535, p := 65535 }

/-- The RPL takes CAR LOSS (R46): the news of the cycle that ends is without effect (R48, R54; log 4), and the CLC hears of each node
that leaves MISSING by it (R86). -/
def State.rplLoss (s : State) (c : Car) (uptime : Long) : State :=
  let drops := s.abandonedDrops c
  let s1 := ((s.unpinCar c).mapCar c (fun r => r.darkened s.ord.uptime)).setRpl c s.rpl[c].lost
  ((s1.ask .rpl (carLossEntry c uptime drops)).purgeReports c).purgeTells c (s.missingDrops c)

/-- A record of a returned car: DARK goes to AWAITING with attempt number 0 (R45). -/
def NodeRec.awaited (r : NodeRec) (uptime : Long) : NodeRec :=
  if r.state = .dark then { r with state := .awaiting, attempt := 0, changedAt := uptime } else r

/-- The RPL's record at a CAR RETURN: up, the gap of the cycle, no ready door, the ready clock from the
event's uptime, `since` ms ago, unless the doors are settled (R45, R64, R65; log 5). -/
def RplCar.returned (r : RplCar) (g : Nat) (unknown restart : Bool) (since : Nat) (settled : Bool) : RplCar :=
  { r with up := true, gapG := g, gapUnknown := unknown, gapRestart := restart, ready := 0, blocked := false,
           settled := settled, clock := if settled then 0 else saturate 65535 since, clockOn := !settled }

/-- The RPL takes CAR RETURN (R45); a LATE or ON TIME entry carries the event's uptime (R171). -/
def State.rplReturn (s : State) (c : Car) (g : Nat) (unknown restart : Bool) (uptime : Long) : State :=
  let s1 := s.mapCar c (fun r => r.awaited s.ord.uptime)
  let settled := decide (includedDoors s1.roster c = [])
  (s1.setRpl c (s1.rpl[c].returned g unknown restart (msSince s.ord.uptime uptime) settled)).estimateAt c uptime

/-- The head of the RPL's channel from the SSU has been taken. -/
def State.dropRplEvent (s : State) (c : Car) : State :=
  { s with chan := { s.chan with ssuRpl := dropAt s.chan.ssuRpl c } }

/-- RPL_CAR_LOSS (R46). -/
def execRplCarLoss (c : Car) (s : State) : Result :=
  done s (
    match s.isRunning, s.chan.ssuRpl[c] with
    | true, .loss u :: _ => (s.dropRplEvent c).rplLoss c u
    | _, _ => s)

/-- RPL_CAR_RETURN (R45). -/
def execRplCarReturn (c : Car) (s : State) : Result :=
  done s (
    match s.isRunning, s.chan.ssuRpl[c] with
    | true, .ret g unknown restart u :: _ => (s.dropRplEvent c).rplReturn c g unknown restart u
    | _, _ => s)

/-! ## HELLOs and roll-call outcomes (R47, R48, R61) -/

/-- The node states in which a HELLO is taken (R48). -/
def NodeRec.takesHello (r : NodeRec) : Bool :=
  decide (r.state = .awaiting) || decide (r.state = .missing) || r.polled

/-- The RPL takes a HELLO: recorded and planned, or disregarded (R48, R49), as is one of a cycle whose CAR LOSS the RPL has taken
(log 4). -/
def State.rplHello (s : State) (c : Car) (d : Drop) (f : HelloFields) : State :=
  if s.clcBehind c then s else
  match s.findNode c d with
  | none => s
  | some r =>
    if r.takesHello then s.applyPlan r { r with hello := some f } (s.planHello { r with hello := some f } f) else s

/-- RPL_HELLO (R48 to R53). -/
def execRplHello (c : Car) (s : State) : Result :=
  done s (
    match s.isRunning, s.chan.clcRpl[c] with
    | true, .hello d f :: _ => (s.dropReport c).rplHello c d f
    | _, _ => s)

/-- One drop reported unheard: an AWAITING node, or a BACKOFF node whose individual roll call runs,
goes MISSING (R47, R61, R87), but for a roll call of a cycle whose CAR LOSS the RPL has taken (log 4). DESIGN CHOICE (log 57): the
report is judged by the node state as it stands, so one made before the node was excluded and included again acts on it. -/
def State.takeUnheard (c : Car) (s : State) (d : Drop) : State :=
  if s.clcBehind c then s else
  match s.findNode c d with
  | none => s
  | some r => if decide (r.state = .awaiting) || r.polled then s.missNode r else s

/-- The report of an individual roll call concerns a node in BACKOFF (R61). -/
def State.backoffReport (s : State) (c : Car) (ds : List Drop) (individual : Bool) : Bool :=
  individual && ds.any (fun d =>
    match s.findNode c d with
    | none => false
    | some r => decide (r.state = .backoff))

/-- RPL_UNHEARD_REPORT (R47, R61): the end of a fast roll call or of a roll call after an inclusion. DEDUCED (log 47): the nodes
of several drops go MISSING in the order of the report's list. -/
def execRplUnheardReport (c : Car) (s : State) : Result :=
  done s (
    match s.isRunning, s.chan.clcRpl[c] with
    | true, .unheard ds individual :: _ =>
      if s.backoffReport c ds individual then s else ds.foldl (State.takeUnheard c) (s.dropReport c)
    | _, _ => s)

/-- BACKOFF_ROLL_CALL_UNHEARD (R61). -/
def execBackoffRollCallUnheard (c : Car) (s : State) : Result :=
  done s (
    match s.isRunning, s.chan.clcRpl[c] with
    | true, .unheard ds individual :: _ =>
      if s.backoffReport c ds individual then ds.foldl (State.takeUnheard c) (s.dropReport c) else s
    | _, _ => s)

/-! ## Reports of jobs (R54, R56 to R59) -/

/-- A grant: the node moves to the state of the job's phase (R54, R100). -/
def State.takeGrant (s : State) (c : Car) (jid : Nat) (p : Phase) : State :=
  match s.reported c jid with
  | none => s
  | some (r, j) =>
    (s.putNode r { r with state := p.nodeState, job := some { j with place := .line, phase := some p, s := 0 } }).changed c

/-- A yield: the node returns to QUEUED with phase, reload set and pin kept (R54, R111). -/
def State.takeYield (s : State) (c : Car) (jid : Nat) : State :=
  match s.reported c jid with
  | none => s
  | some (r, j) => (s.putNode r { r with state := .queued, job := some { j with place := .queue } }).changed c

/-- A retry count (R54, R90). -/
def State.takeRetry (s : State) (c : Car) (jid n : Nat) : State :=
  match s.reported c jid with
  | none => s
  | some (r, j) => s.putNode r { r with job := some { j with retry := n } }

/-- The count s (R54, R108). -/
def State.takeProgress (s : State) (c : Car) (jid n : Nat) : State :=
  match s.reported c jid with
  | none => s
  | some (r, j) => s.putNode r { r with job := some { j with s := n } }

/-- RPL_JOB_REPORT (R29, R32, R54). -/
def execRplJobReport (c : Car) (s : State) : Result :=
  done s (
    match s.isRunning, s.chan.clcRpl[c] with
    | true, .granted jid p :: _ => (s.dropReport c).takeGrant c jid p
    | true, .yielded jid :: _ => (s.dropReport c).takeYield c jid
    | true, .retry jid n :: _ => (s.dropReport c).takeRetry c jid n
    | true, .progress jid n :: _ => (s.dropReport c).takeProgress c jid n
    | true, .released jid :: _ => (s.dropReport c).takeRelease c jid
    | _, _ => s)

/-- The body of SURVEY RESULT: mismatch count, and the first up to 24 differing indices (R56). -/
def surveyBody (l : List Nat) : List Byte :=
  let listed := l.take 24
  le16 l.length ++ [byteOf listed.length 0, 0] ++ pad4 (listed.map (fun i => byteOf i 0))

/-- The survey has ended: the reload set is filled, SURVEY RESULT asked for, and the job passes to LOAD
or START (R56). -/
def State.takeSurvey (s : State) (c : Car) (jid : Nat) (digests : List Long) : State :=
  match s.reported c jid with
  | none => s
  | some (r, j) =>
    let l := differing s.isc.records[j.copy].table digests
    let p : Phase := if l = [] then .start else .load
    let s1 := s.putNode r { r with state := p.nodeState, job := some { j with phase := some p, reload := l } }
    (s1.nodeEntry .surveyResult r (surveyBody l)).changed c

/-- RPL_SURVEY_ENDED (R56). -/
def execRplSurveyEnded (c : Car) (s : State) : Result :=
  done s (
    match s.isRunning, s.chan.clcRpl[c] with
    | true, .surveyEnded jid digests :: _ => (s.dropReport c).takeSurvey c jid digests
    | _, _ => s)

/-- An ACCEPTED LOAD: the lowest index leaves the reload set; an emptied set passes the job to START
(R57). -/
def State.takeAccepted (s : State) (c : Car) (jid : Nat) : State :=
  match s.reported c jid with
  | none => s
  | some (r, j) =>
    let l := j.reload.tail
    let p : Phase := if l = [] then .start else .load
    (s.putNode r { r with state := p.nodeState, job := some { j with phase := some p, reload := l } }).changed c

/-- RPL_LOAD_ACCEPTED (R57). -/
def execRplLoadAccepted (c : Car) (s : State) : Result :=
  done s (
    match s.isRunning, s.chan.clcRpl[c] with
    | true, .loadAccepted jid :: _ => (s.dropReport c).takeAccepted c jid
    | _, _ => s)

/-- The body of NODE READY: plan, attempt number, pinned slot and copy (section 10.2). -/
def readyBody (r : NodeRec) (j : RplJob) : List Byte :=
  [byteOf (match r.plan with
    | none => 0
    | some p => p.code) 0, byteOf r.attempt 0, byteOf (slotOf j.copy).val 0, byteOf (copyOf j.copy).code 0]

/-- RUNNING: the node is READY, its job ended and unpinned, and NODE READY asked for (R58). -/
def State.takeSuccess (s : State) (c : Car) (jid : Nat) : State :=
  match s.reported c jid with
  | none => s
  | some (r, j) =>
    let r1 := { r with state := .ready, job := none }
    (((s.unpin j.copy).putNode r r1).nodeEntry .nodeReady r (readyBody r j)).changed c

/-- RPL_RUNNING_SUCCESS (R58, R64). -/
def execRplRunningSuccess (c : Car) (s : State) : Result :=
  done s (
    match s.isRunning, s.chan.clcRpl[c] with
    | true, .success jid :: _ => (s.dropReport c).takeSuccess c jid
    | _, _ => s)

/-- RPL_ATTEMPT_FAILED (R59, R114). -/
def execRplAttemptFailed (c : Car) (s : State) : Result :=
  done s (
    match s.isRunning, s.chan.clcRpl[c] with
    | true, .failed jid reason :: _ => (s.dropReport c).takeFailure c jid reason
    | _, _ => s)

/-! ## Timers and ticks (R60, R69, R70) -/

/-- BACKOFF_TIMER_EXPIRY (R60): the node stays in BACKOFF with remaining backoff 0, and the CLC is
asked for an individual roll call. -/
def execBackoffTimerExpiry (c : Car) (d : Drop) (s : State) : Result :=
  done s (
    match s.isRunning, s.findNode c d with
    | true, some r =>
      if decide (r.state = .backoff) && r.backoffFrom.isSome then
        (s.putNode r { r with backoffFrom := none, backoffShown := 0 }).tell c (.individual d)
      else s
    | _, _ => s)

/-- The remaining backoff as a scan tick shows it (R60). -/
def NodeRec.shownBackoff (uptime : Long) (r : NodeRec) : NodeRec :=
  if decide (r.state = .backoff) && r.backoffFrom.isSome then { r with backoffShown := r.backoffLeft uptime } else r

/-- RPL_SCAN_TICK (R60, R69): the remaining backoff of each timer that runs is written, changed or not (R32). DESIGN CHOICE
(log 45): the cars are recomputed in ascending order. -/
def execRplScanTick (s : State) : Result :=
  done s (
    match s.isRunning, s.chan.ordRpl with
    | true, .scanTick :: rest =>
      let s1 := ({ s with chan := { s.chan with ordRpl := rest } }).setRoster
        (s.roster.map (NodeRec.shownBackoff s.ord.uptime))
      allCars.foldl State.estimate (s1.showField (fun r => decide (r.state = .backoff) && r.backoffFrom.isSome) 28)
    | _, _ => s)

/-- A car's sampled budget: recorded, and an up car recomputed where it changed (R69, R70). -/
def State.takeBudget (b : Vector Nat 6) (s : State) (c : Car) : State :=
  if b[c] = s.rpl[c].budget then s
  else (s.setRpl c { s.rpl[c] with budget := b[c] }).estimate c

/-- RPL_BUDGET_SAMPLE (R69, R70). DESIGN CHOICE (log 45): the cars are recomputed in ascending order. -/
def execRplBudgetSample (s : State) : Result :=
  done s (
    match s.isRunning, s.chan.ordRpl with
    | true, .budgets b :: rest =>
      allCars.foldl (State.takeBudget b) { s with chan := { s.chan with ordRpl := rest } }
    | _, _ => s)

/-! ## News of the store (R114, R137, R179) -/

/-- A record's job on the marking of its copy: in the queue it fails with STORE FAULT, holding its line
it is to end so, in BACKOFF or of an EXCLUDED node it is left (R59, R114). -/
def State.faultJob (s : State) (r : NodeRec) (j : RplJob) : State :=
  if r.state = .excluded ∨ j.condemned = true then s
  else
    match j.place with
    | .backoff => s
    | .queue => (s.tell r.car (.storeFaultEnd j.jid)).failAttempt r j .storeFault
    | .line => (s.putNode r { r with job := some { j with condemned := true } }).tell r.car (.storeFaultEnd j.jid)

/-- One roster place on the marking of a copy. -/
def State.markedCopy (copy : CopyIx) (s : State) (at_ : Car × Drop) : State :=
  match s.findNode at_.1 at_.2 with
  | none => s
  | some r =>
    match r.job with
    | none => s
    | some j => if j.copy = copy then s.faultJob r j else s

/-- RPL_COPY_DAMAGED (R59, R114, R137). DESIGN CHOICE (log 46): the copy's jobs are failed in roster order. -/
def execRplCopyDamaged (s : State) : Result :=
  done s (
    match s.isRunning, s.chan.iscRpl with
    | true, .damaged copy :: rest =>
      (s.roster.map (fun r => (r.car, r.drop))).foldl (State.markedCopy copy) { s with chan := { s.chan with iscRpl := rest } }
    | _, _ => s)

/-- The car has an included door node, AWAITING or MISSING, of the slot (R67, R179). -/
def State.awaitsSlot (s : State) (k : Slot) (c : Car) : Bool :=
  (includedDoors s.roster c).any (fun r =>
    decide (r.slot = k) && (decide (r.state = .awaiting) || decide (r.state = .missing)))

/-- ACTIVE_COPY_CHANGE (R179): the estimates of the cars whose pricing it changes. DESIGN CHOICE (log 45): in ascending
order. -/
def execActiveCopyChange (s : State) : Result :=
  done s (
    match s.isRunning, s.chan.iscRpl with
    | true, .activeChanged k :: rest =>
      (allCars.filter (s.awaitsSlot k)).foldl State.estimate { s with chan := { s.chan with iscRpl := rest } }
    | _, _ => s)

end Sys2Proof.Machine
end

