-- ==== Sys2Proof/Machine/Store.lean ====
section
/-! DEFINITION. The Image Store Controller's orders, step by step, its reads and its pending marks (08 sections 8.3 to 8.9). -/

namespace Sys2Proof.Machine

/-! ## The order being executed (R132, R140) -/

/-- Show a copy as the target, or none (R132). -/
def State.setTarget (s : State) (r : Option CopyIx) : State :=
  match r with
  | none => { s with isc := { s.isc with targetSlot := 255, targetCopy := 0 } }
  | some r => { s with isc := { s.isc with targetSlot := (slotOf r).val, targetCopy := (copyOf r).code } }

/-- Work with no step begun. -/
def Work.fresh (order : Option StoreOrder) (target : Option CopyIx) : Work :=
  { order := order, target := target, op := none, due := none, sliceOver := false, suspending := false,
    suspended := false, data := [], table := [], expected := 0, failed := false }

/-- The store state while an operation of this work is made: CLOSING throughout a CLOSE COPY (R132). DEDUCED (log 42): the
DAMAGED mark of a CLOSE COPY that has failed is a program of it too. -/
def Work.stateFor (w : Work) (op : FlashOp) : StoreState :=
  if w.order.map StoreOrder.kind = some .closeCopy then .closing else if op.isErase then .erasing else .programming

/-- The next erase or program of the work is to be made; it begins as soon as it may (R135, R136). The
store state is shown from here on (log 12). DESIGN CHOICE (log 56): a suspension begun of the block erase that has ended is dropped. -/
def State.schedule (s : State) (w : Work) (op : FlashOp) (wait : Wait) : State :=
  ((s.setWork (some { w with op := none, due := some (op, wait), sliceOver := false, suspending := false, suspended := false })).setStoreState
    (w.stateFor op)).settleStore

/-- Begin an order: its target is shown and its first operation is to be made. -/
def State.startWork (s : State) (w : Work) (op : FlashOp) : State := (s.setTarget w.target).schedule w op .read

/-- The work ends: IDLE with no target; an order is answered (R132, R165, R169). -/
def State.finishWork (s : State) (w : Work) (a : Answer) : State :=
  let s1 := ((s.setWork none).setStoreState .idle).setTarget none
  match w.order with
  | none => s1
  | some o => s1.answer o.oslot o.bytes a

/-- The head of the store order queue, if it is of the kind and may begin: RUNNING, no order
executing, no pending mark owed (R138, R140). -/
def State.nextOrder (s : State) (k : StoreKind) : Option (StoreOrder × List StoreOrder) :=
  if s.isRunning && s.isc.work.isNone && decide (s.isc.pendingMarks = []) then
    match s.isc.queue with
    | [] => none
    | o :: rest => if o.kind = k then some (o, rest) else none
  else none

/-- Execution of the head order begins: SVC_UNLOCK is sampled, the suspend count is 0, the tests are
made, and the order is refused or started (R132, R140).
(DEDUCED: log 29). -/
def State.beginOrder (s : State) (k : StoreKind) (unlock : Bool)
    (test : State → List Byte → Option RefusalCode) (start : State → StoreOrder → State) : State :=
  match s.nextOrder k with
  | none => s
  | some (o, rest) =>
    let s1 := { s with pins := { s.pins with svcUnlock := unlock }
                       isc := { s.isc with queue := rest, suspendCount := 0 } }
    match test s1 o.bytes with
    | some r => s1.answer o.oslot o.bytes (.refused r)
    | none => start s1 o

/-! ## Targets and tests (R141 to R149) -/

/-- The slot parameter at an offset. -/
def paramSlot (b : List Byte) (i : Nat) : Slot := ⟨paramByte b i % 16, Nat.mod_lt _ (by decide)⟩

/-- The slot's group is protected and SVC_UNLOCK is low (R146). -/
def State.slotLocked (s : State) (k : Slot) : Bool :=
  s.isc.groupProtected ⟨k.val / 4, by omega⟩ && !s.pins.svcUnlock

/-- The open copy of a slot. -/
def State.openOf (s : State) (k : Slot) : Option CopyIx := s.isc.openCopy[k].map (copyIx k)

/-- OPEN COPY's target: the copy that is not active, or copy A (R141). -/
def State.openTarget (s : State) (k : Slot) : CopyIx :=
  match s.activeCopy k with
  | some r => copyIx k (copyOf r).other
  | none => copyIx k .a

/-- ACTIVATE COPY's target (R144). -/
def State.activateTarget (s : State) (k : Slot) : CopyIx :=
  match s.activeCopy k with
  | some r => copyIx k (copyOf r).other
  | none => if s.isc.records[copyIx k .a].state = .closed then copyIx k .a else copyIx k .b

/-- The description an OPEN COPY gives (R141, section 9.6). -/
def openDesc (b : List Byte) : Desc :=
  { image := paramWord b 2, version := paramWord b 4, cls := paramByte b 1, length := paramLong b 6,
    segments := segmentCount (paramLong b 6), spans := paramSpans b (paramByte b 10) }

/-- BAD PARAMETER of OPEN COPY (R141). -/
def openBad (b : List Byte) : Bool :=
  decide (15 < paramByte b 0) || decide (paramWord b 2 = 0) || decide (1 < paramByte b 1)
    || decide (paramLong b 6 = 0) || decide (Config.imageMax < paramLong b 6)
    || decide (Config.spanMax < paramByte b 10)
    || (openDesc b).spans.any (fun x =>
        decide (x.len = 0) || decide (65535 < x.len) || decide (paramLong b 6 < x.off + x.len))

/-- The first refusal of a list that holds (R140). -/
def firstRefusal : List (Bool × RefusalCode) → Option RefusalCode
  | [] => none
  | (holds, r) :: rest => if holds then some r else firstRefusal rest

/-- Tests of OPEN COPY (R141). -/
def openTest (s : State) (b : List Byte) : Option RefusalCode :=
  let k := paramSlot b 0
  firstRefusal [(openBad b, .badParameter), (s.slotLocked k, .isProtected),
    (decide (s.isc.records[s.openTarget k].use ≠ 0), .inUse)]

/-- The description of a slot's open copy. -/
def State.openRec (s : State) (k : Slot) : CopyRec :=
  match s.openOf k with
  | none => CopyRec.bare .blank
  | some r => s.isc.records[r]

/-- Tests of STAGE SEGMENT (R142). -/
def stageTest (s : State) (b : List Byte) : Option RefusalCode :=
  let k := paramSlot b 1
  firstRefusal [(decide (7 < paramByte b 0) || decide (15 < paramByte b 1), .badParameter),
    (s.slotLocked k, .isProtected), ((s.openOf k).isNone, .notOpen),
    (decide ((s.openRec k).desc.segments ≤ paramWord b 2), .outOfRange),
    ((s.openRec k).written.getLsbD (paramWord b 2), .alreadyWritten)]

/-- Every segment below the segment count has its written mark (R143). -/
def CopyRec.complete (k : CopyRec) : Bool := (List.range k.desc.segments).all (fun i => k.written.getLsbD i)

/-- Tests of CLOSE COPY (R143). -/
def closeTest (s : State) (b : List Byte) : Option RefusalCode :=
  let k := paramSlot b 0
  firstRefusal [(decide (15 < paramByte b 0), .badParameter), (s.slotLocked k, .isProtected),
    ((s.openOf k).isNone, .notOpen), (!(s.openRec k).complete, .incomplete)]

/-- One more than the highest activation sequence of the 32 records (R130). -/
def State.nextSequence (s : State) : Nat := s.isc.records.toList.foldl (fun m r => max m r.seq) 0 + 1

/-- The slot has an active copy whose image id and version equal the target's (R144). -/
def State.sameImageActive (s : State) (k : Slot) : Bool :=
  match s.activeCopy k with
  | none => false
  | some r =>
    let t := s.isc.records[s.activateTarget k].desc
    decide (s.isc.records[r].desc.image = t.image) && decide (s.isc.records[r].desc.version = t.version)

/-- Tests of ACTIVATE COPY (R130, R144). -/
def activateTest (s : State) (b : List Byte) : Option RefusalCode :=
  let k := paramSlot b 0
  firstRefusal [(decide (15 < paramByte b 0) || decide (Config.sequenceMax < s.nextSequence), .badParameter),
    (s.slotLocked k, .isProtected), (decide (s.isc.records[s.activateTarget k].state ≠ .closed), .notClosed),
    (s.sameImageActive k, .alreadyActive)]

/-- The copy an ERASE COPY names. -/
def eraseTarget (b : List Byte) : CopyIx := copyIx (paramSlot b 0) (if paramByte b 1 = 0 then .a else .b)

/-- Tests of ERASE COPY (R145). -/
def eraseTest (s : State) (b : List Byte) : Option RefusalCode :=
  let r := eraseTarget b
  firstRefusal [(decide (15 < paramByte b 0) || decide (1 < paramByte b 1), .badParameter),
    (s.slotLocked (paramSlot b 0), .isProtected), (s.isc.records[r].isActive, .active),
    (decide (s.isc.records[r].use ≠ 0), .inUse)]

/-- Tests of PROTECT GROUP (R147). -/
def protectTest (_ : State) (b : List Byte) : Option RefusalCode :=
  firstRefusal [(decide (3 < paramByte b 0), .badParameter)]

/-- Tests of UNPROTECT ALL (R147). -/
def unprotectTest (s : State) (_ : List Byte) : Option RefusalCode :=
  firstRefusal [(!s.pins.svcUnlock, .isProtected)]

/-- Tests of WRITE IDENTITY (R148). -/
def identityTest (s : State) (_ : List Byte) : Option RefusalCode :=
  firstRefusal [(!s.pins.svcUnlock, .isProtected),
    (s.flash.identityUsed, .alreadyWritten)]

/-! ## What an order does when it passes its tests -/

/-- OPEN COPY begins with the ERASE INTENT mark (R141). DEDUCED (log 41): also on a copy whose header holds it already. -/
def startOpen (s : State) (o : StoreOrder) : State :=
  let r := s.openTarget (paramSlot o.bytes 0)
  s.startWork (Work.fresh (some o) (some r)) (.mark r .eraseIntent)

/-- STAGE SEGMENT copies len_i bytes of the staging page and programs them (R142). -/
def startStage (s : State) (o : StoreOrder) : State :=
  match s.openOf (paramSlot o.bytes 1) with
  | none => s
  | some r =>
    let i := paramWord o.bytes 2
    let data := s.ramBytes (Config.stagingBase + Config.segmentBytes * paramByte o.bytes 0) (segLen s.isc.records[r].desc i)
    s.startWork { Work.fresh (some o) (some r) with data := data } (.segment r i)

/-- CLOSE COPY begins its readback: the closing sums are set and segment 0 is requested (R40, R143). -/
def startClose (s : State) (o : StoreOrder) : State :=
  match s.openOf (paramSlot o.bytes 0) with
  | none => s
  | some r =>
    let w := { Work.fresh (some o) (some r) with expected := paramLong o.bytes 4 }
    let s1 := { s with dge := { s.dge with closing := Sums.init, next := 0 } }
    (((s1.setTarget (some r)).setWork (some w)).setStoreState .closing).addRequest
      { who := .closing, copy := r, index := 0 }

/-- ACTIVATE COPY begins with the activation sequence (R130, R144). -/
def startActivate (s : State) (o : StoreOrder) : State :=
  let r := s.activateTarget (paramSlot o.bytes 0)
  s.startWork (Work.fresh (some o) (some r)) (.sequence r s.nextSequence)

/-- ERASE COPY begins with the ERASE INTENT mark (R145). DEDUCED (log 41): also on a copy whose header holds it already. -/
def startErase (s : State) (o : StoreOrder) : State :=
  let r := eraseTarget o.bytes
  s.startWork (Work.fresh (some o) (some r)) (.mark r .eraseIntent)

/-- PROTECT GROUP programs the group's mark, or answers OK for a group already protected (R147). -/
def startProtect (s : State) (o : StoreOrder) : State :=
  let g : Fin 4 := ⟨paramByte o.bytes 0 % 4, Nat.mod_lt _ (by decide)⟩
  if s.isc.groupProtected g then s.answer o.oslot o.bytes (.done .ok [])
  else s.startWork (Work.fresh (some o) none) (.protectMark g)

/-- UNPROTECT ALL erases the protection block (R147). -/
def startUnprotect (s : State) (o : StoreOrder) : State := s.startWork (Work.fresh (some o) none) .eraseProtect

/-- WRITE IDENTITY programs the number into both places (R148). -/
def startIdentity (s : State) (o : StoreOrder) : State :=
  s.startWork (Work.fresh (some o) none) (.identity (paramLong o.bytes 0))

/-- WRITE FLEET TABLE copies 272 bytes of staging page 0 and erases the fleet block (R149). -/
def startFleet (s : State) (o : StoreOrder) : State :=
  s.startWork { Work.fresh (some o) none with data := s.ramBytes Config.stagingBase Config.fleetBytes } .eraseFleet

/-! ## Steps (R127, R141 to R149) -/

/-- The results of an OPEN COPY, an ACTIVATE COPY and a CLOSE COPY (section 9.6).
(DEDUCED: log 13). -/
def openResults (r : CopyIx) (segments : Nat) : List Byte := [byteOf (copyOf r).code 0, 0] ++ le16 segments
def activateResults (r : CopyIx) (seq : Nat) : List Byte := [byteOf (copyOf r).code 0, 0, 0, 0] ++ le32 seq

/-- ERASE INTENT has been programmed: the record becomes ERASING, the slot's open copy is cleared if
it was this one, and the first data block is erased (R128, R141, R145). -/
def State.intentRecorded (s : State) (w : Work) (r : CopyIx) : State :=
  let s1 := (s.setRecord r { CopyRec.bare .erasing with use := s.isc.records[r].use }).clearOpen r
  s1.schedule w (.eraseData r 0) .arbiter

/-- The header block has been erased: OPEN COPY programs the description, ERASE COPY ends with the
record BLANK (R141, R145). -/
def State.headerErased (s : State) (w : Work) (r : CopyIx) : State :=
  match w.order with
  | some o =>
    if o.kind = .openCopy then s.schedule w (.description r (openDesc o.bytes)) .read
    else (s.setRecord r { CopyRec.bare .blank with use := s.isc.records[r].use }).finishWork w (.done .ok [])
  | none => s.finishWork w (.done .ok [])

/-- OPENED has been programmed: the record is WRITING with an empty written map and the target is the
slot's open copy (R141). -/
def State.opened (s : State) (w : Work) (r : CopyIx) : State :=
  let d := (w.order.map (fun o => openDesc o.bytes)).getD Desc.none
  let s1 := s.setRecord r { CopyRec.bare .writing with desc := d, use := s.isc.records[r].use }
  let s2 := { s1 with isc := { s1.isc with openCopy := s1.isc.openCopy.set (slotOf r) (some (copyOf r)) } }
  s2.finishWork w (.done .ok (openResults r d.segments))

/-- CLOSED or REJECTED has been programmed: the record holds table and digest, and the slot has no open
copy (R143).
(DEDUCED: log 13). -/
def State.closed (s : State) (w : Work) (r : CopyIx) (st : CopyState) : State :=
  let whole := s.dge.closing.digest
  let s1 := (s.setRecord r { s.isc.records[r] with state := st, table := w.table, whole := whole, seq := 0 }).clearOpen r
  s1.finishWork w (.done (if st = .closed then .ok else .digestMismatch) (le32 whole.toNat))

/-- The activation sequence has verified: it is recorded, and in the same step the previously active
copy is RETIRED (R130, R144). -/
def State.sequenceRecorded (s : State) (w : Work) (r : CopyIx) (n : Nat) : State :=
  let prev := s.activeCopy (slotOf r)
  let s1 := s.setRecord r { s.isc.records[r] with seq := n }
  match prev with
  | none => (s1.storeTells (.activeChanged (slotOf r))).finishWork w (.done .ok (activateResults r n))
  | some p =>
    let s2 := (s1.setRecord p { s1.isc.records[p] with state := .retired }).storeTells (.activeChanged (slotOf r))
    s2.schedule w (.mark p .retired) .arbiter

/-- The step that follows a mark that has verified. -/
def State.afterMark (s : State) (w : Work) (r : CopyIx) (k : MarkKind) : State :=
  match k with
  | .eraseIntent => s.intentRecorded w r
  | .opened => s.opened w r
  | .closed => s.closed w r .closed
  | .rejected => s.closed w r .rejected
  | .retired =>
    let t := w.target.getD r
    s.finishWork w (.done .ok (activateResults t s.isc.records[t].seq))
  | .damaged => s.finishWork w (.done .storeFault [])

/-- The step that follows an operation that has verified. Between two block erases every waiting read of the bank proceeds;
a program after an erase is not delayed by waiting reads (R135, R136; log 18). DEDUCED (log 39): the 272 bytes of the fleet block,
the two places of the identity area and each part of a header are one program, with one verify and no choice of the arbiter
within. -/
def State.nextStep (s : State) (w : Work) (op : FlashOp) : State :=
  match op with
  | .mark r k => s.afterMark w r k
  | .description r _ => s.schedule w (.mark r .opened) .arbiter
  | .segment r i => s.schedule w (.writtenMark r i) .arbiter
  | .writtenMark r i =>
    (s.setRecord r { s.isc.records[r] with written := s.isc.records[r].written ||| (1#256 <<< i) }).finishWork w (.done .ok [])
  | .tables r =>
    s.schedule w (.mark r (if s.dge.closing.digest.toNat = w.expected then .closed else .rejected)) .arbiter
  | .sequence r n => s.sequenceRecorded w r n
  | .eraseData r k => s.schedule w (if k < 7 then .eraseData r (k + 1) else .eraseHeader r) .drain
  | .eraseHeader r => s.headerErased w r
  | .eraseProtect =>
    ({ s with isc := { s.isc with protect := Vector.replicate 4 false, protectUnreadable := false, protectNeither := false } }).finishWork w (.done .ok [])
  | .eraseFleet => s.schedule w .fleet .read
  | .protectMark g =>
    ({ s with isc := { s.isc with protect := s.isc.protect.set g true } }).finishWork w (.done .ok [])
  | .identity n => ({ s with isc := { s.isc with identity := .written n } }).finishWork w (.done .ok [])
  | .fleet => ({ s with isc := { s.isc with fleetUnreadable := false, fleetCut := false } }).finishWork w (.done .ok [])

/-- The copy an operation concerns. -/
def FlashOp.copy : FlashOp → Option CopyIx
  | .mark r _ => some r
  | .description r _ => some r
  | .segment r _ => some r
  | .writtenMark r _ => some r
  | .tables r => some r
  | .sequence r _ => some r
  | .eraseData r _ => some r
  | .eraseHeader r => some r
  | _ => none

/-- A verify failure of an operation on the fleet block, the protection block or the identity area
(R139). -/
def State.failBlock (s : State) (op : FlashOp) : State :=
  match op with
  | .eraseFleet => { s with isc := { s.isc with fleetUnreadable := true } }
  | .fleet => { s with isc := { s.isc with fleetUnreadable := true } }
  | .eraseProtect => { s with isc := { s.isc with protectUnreadable := true } }
  | .protectMark _ => { s with isc := { s.isc with protectUnreadable := true } }
  | .identity _ => { s with isc := { s.isc with identity := .unreadable } }
  | _ => s

/-- A verify failure (R138, R139): a copy is DAMAGED and its DAMAGED mark is the order's last step; a
pending mark, and the DAMAGED mark of an order that has failed, change nothing more. `h` is the
copy's header before the failure (log 19). -/
def State.failStep (s : State) (w : Work) (op : FlashOp) (h : Header) : State :=
  match op.copy with
  | none => (s.failBlock op).finishWork w (.done .storeFault [])
  | some r =>
    if w.order.isNone || w.failed then s.finishWork w (.done .storeFault [])
    else
      (s.markDamaged r h.fields .verify).schedule { w with failed := true } (.mark r .damaged)
        (if op.isErase then .read else .arbiter)

/-- The header of the copy an operation concerns, as it stands. -/
def State.headerOf (s : State) (op : FlashOp) : Header := (op.copy.map (fun r => s.flash.headers[r])).getD Header.blank

/-- A program in flight ends (R126). -/
def State.programEnds (s : State) (w : Work) (op : FlashOp) (e : ProgEnd) : State :=
  let s1 := { s with flash := s.flash.program op w.data w.table s.dge.closing.digest (op.leftBy e) }
  if e = .verified then s1.nextStep w op else s1.failStep w op (s.headerOf op)

/-- A block erase in flight ends (R126, R135). -/
def State.eraseEnds (s : State) (w : Work) (op : FlashOp) (e : EraseEnd) : State :=
  let s1 := { s with flash := s.flash.erase op (eraseCut e) }
  if e = .verified then s1.nextStep w op else s1.failStep w op (s.headerOf op)

/-- The work and its operation in flight. -/
def State.inFlight (s : State) : Option (Work × FlashOp) :=
  match s.isc.work with
  | none => none
  | some w => w.op.map (fun op => (w, op))

/-! ## Commands: orders -/

/-- OPEN_COPY (R140, R141, R146). -/
def execOpenCopy (unlock : Bool) (s : State) : Result := done s (s.beginOrder .openCopy unlock openTest startOpen)

/-- STAGE_SEGMENT (R140, R142, R146). -/
def execStageSegment (unlock : Bool) (s : State) : Result := done s (s.beginOrder .stageSegment unlock stageTest startStage)

/-- CLOSE_COPY (R40, R140, R143, R146). -/
def execCloseCopy (unlock : Bool) (s : State) : Result := done s (s.beginOrder .closeCopy unlock closeTest startClose)

/-- ACTIVATE_COPY (R130, R140, R144, R146). -/
def execActivateCopy (unlock : Bool) (s : State) : Result :=
  done s (s.beginOrder .activateCopy unlock activateTest startActivate)

/-- ERASE_COPY (R140, R145, R146). -/
def execEraseCopy (unlock : Bool) (s : State) : Result := done s (s.beginOrder .eraseCopy unlock eraseTest startErase)

/-- PROTECT_GROUP (R140, R147). -/
def execProtectGroup (unlock : Bool) (s : State) : Result :=
  done s (s.beginOrder .protectGroup unlock protectTest startProtect)

/-- UNPROTECT_ALL (R140, R147). -/
def execUnprotectAll (unlock : Bool) (s : State) : Result :=
  done s (s.beginOrder .unprotectAll unlock unprotectTest startUnprotect)

/-- WRITE_IDENTITY (R140, R148). -/
def execWriteIdentity (unlock : Bool) (s : State) : Result :=
  done s (s.beginOrder .writeIdentity unlock identityTest startIdentity)

/-- WRITE_FLEET_TABLE (R140, R149). -/
def execWriteFleetTable (unlock : Bool) (s : State) : Result :=
  done s (s.beginOrder .writeFleetTable unlock (fun _ _ => none) startFleet)

/-! ## Commands: flash -/

/-- A pending mark's program is to be made, with no order executing (R138). -/
def State.beginMark (s : State) : State :=
  match s.isRunning && s.isc.work.isNone, s.isc.pendingMarks with
  | true, r :: rest =>
    ({ s with isc := { s.isc with pendingMarks := rest } }).startWork (Work.fresh none (some r)) (.mark r .damaged)
  | _, _ => s

/-- PENDING_MARK_PROGRAM (R138). -/
def execPendingMarkProgram (s : State) : Result := done s s.beginMark

/-- FLASH_PROGRAM_END (R126 to R130, R138, R139, R141 to R149). -/
def execFlashProgramEnd (e : ProgEnd) (s : State) : Result :=
  done s (
    match s.isRunning, s.inFlight with
    | true, some (w, op) => if op.isErase then s else s.programEnds w op e
    | _, _ => s)

/-- BLOCK_ERASE_END (R126, R135, R139, R141, R145, R147, R149): a suspended erase does not run. DESIGN CHOICE (log 56): one of which a
suspension has been begun and is not complete runs still, and may end; the suspension is then dropped and not counted. -/
def execBlockEraseEnd (e : EraseEnd) (s : State) : Result :=
  done s (
    match s.isRunning, s.inFlight with
    | true, some (w, op) => if op.isErase && !w.suspended then s.eraseEnds w op e else s
    | _, _ => s)

/-- ERASE_SLICE_END (R135): with a read of the bank waiting a suspension is begun. -/
def execEraseSliceEnd (s : State) : Result :=
  done s (
    match s.isRunning, s.inFlight with
    | true, some (w, op) =>
      if op.isErase && !w.suspended then (s.setWork (some { w with sliceOver := true })).settleStore else s
    | _, _ => s)

/-- The Status Page words of the store state, its target, the protection and the suspend count (section 9.2). -/
def isWorkWord (a : Nat) : Bool := decide (a ∈ [0x1A, 0x1C, 0x1E])

/-- The suspension has been made: the store state is SUSPENDED and the suspend count one higher, and both are written, though
the erase may go on at once and the count stand at its limit (R132, R135). -/
def State.suspended (s : State) (w : Work) : State :=
  let s1 := (s.setWork (some { w with suspending := false, suspended := true })).setStoreState .suspended
  let s2 := { s1 with isc := { s1.isc with suspendCount := saturate 65535 (s1.isc.suspendCount + 1) } }
  s2.settleStore.showWords isWorkWord

/-- ERASE_SUSPENSION_COMPLETE (R132, R135). -/
def execEraseSuspensionComplete (s : State) : Result :=
  done s (
    match s.isRunning, s.inFlight with
    | true, some (w, op) =>
      if op.isErase && w.suspending then s.suspended w else s
    | _, _ => s)

/-! ## Commands: reads -/

/-- The arbiter's test of a chosen request (R134). -/
def State.readAllowed (s : State) (q : ReadReq) : Bool :=
  match q.who with
  | .job _ _ _ =>
    decide (s.isc.records[q.copy].state = .closed) || decide (s.isc.records[q.copy].state = .retired)
  | .closing => decide (s.isc.work.bind Work.target = some q.copy) && decide (s.isc.storeState = .closing)

/-- A step that waits for the arbiter's choice waits only for reads in progress once it is made (R136). -/
def Work.afterChoice (w : Work) : Work :=
  match w.due with
  | some (op, .arbiter) => { w with due := some (op, .read) }
  | _ => w

/-- The buffer of a request moves to FILLING (R105). -/
def State.bufferFilling (s : State) (q : ReadReq) : State :=
  match q.who with
  | .job c y _ =>
    let l := s.lines[c]
    s.setLine c (l.setBuf y { l.buf y with state := .filling })
  | .closing => s

/-- The last served car of the request's class (R133). -/
def Isc.served (i : Isc) (q : ReadReq) : Isc :=
  match q.who with
  | .job c _ .door => { i with lastDoor := c }
  | .job c _ .info => { i with lastInfo := c }
  | .closing => i

/-- A chosen request whose copy passes the test begins: read context and sums are set (R38, R134). -/
def State.beginRead (s : State) (q : ReadReq) : State :=
  let i := ({ s.isc with requests := s.isc.requests.erase q, reading := some q,
                         work := s.isc.work.map Work.afterChoice }).served q
  let s1 := { s with
    isc := i
    dge := { s.dge with masked := Sums.init, unmasked := Sums.init,
                        context := some (q.copy, q.index, decide (q.who ≠ Reader.closing)) } }
  (s1.bufferFilling q).settleStore

/-- A chosen request whose copy fails the test is refused: its buffer becomes FAULT (R105, R134). -/
def State.refuseRead (s : State) (q : ReadReq) : State :=
  let s1 := ({ s with isc := { s.isc with requests := s.isc.requests.erase q } }).settleStore
  match q.who with
  | .job c y _ => s1.bufferFaulted c y
  | .closing => s1

/-- READ_BEGIN (R38, R133, R134, R136). -/
def execReadBegin (s : State) : Result :=
  done s (
    if s.isRunning && s.isc.reading.isNone then
      match s.chooseRequest with
      | none => s
      | some q => if s.readAllowed q then s.beginRead q else s.refuseRead q
    else s)

/-- The bytes of a segment as the flash array holds them. -/
def Flash.segment (f : Flash) (r : CopyIx) (i len : Nat) : List Byte := (f.bank (copyOf r)).bytes (segmentAddr r i) len

/-- The last byte of the read in progress has passed: cells found changed are as found (R39), and both
pairs of sums have taken every byte (R38). -/
def State.readPassed (s : State) (q : ReadReq) (decay : Decay) : State :=
  let d := s.isc.records[q.copy].desc
  let len := segLen d q.index
  let f := s.flash.setBank (copyOf q.copy)
    ((s.flash.bank (copyOf q.copy)).decay (segmentAddr q.copy q.index) len decay)
  let bytes := f.segment q.copy q.index len
  { s with
    flash := f
    isc := { s.isc with reading := none }
    dge := { s.dge with masked := s.dge.masked.feedAll (maskSegment d q.index bytes),
                        unmasked := s.dge.unmasked.feedAll bytes, context := none } }

/-- A job read ends: FILLED on a match with the table, else the copy is DAMAGED and the buffer FAULT
(R39, R105, R137). DESIGN CHOICE (log 58): a suspended erase is resumed before a request that the end of the read brings about, in
the STALE buffer it empties or for the next job, is made; R135 allows either order. -/
def State.jobReadEnds (s : State) (q : ReadReq) (c : Car) (y : Bool) (decay : Decay) : State :=
  let k := s.isc.records[q.copy]
  let s1 := s.readPassed q decay
  let s2 := s1.settleStore
  if k.table[q.index]? = some s1.dge.masked.digest then
    s2.bufferFilled c y (s1.flash.segment q.copy q.index (segLen k.desc q.index)) s1.dge.unmasked.digest
  else (s2.failReadCheck q.copy).bufferFaulted c y

/-- SEGMENT_READ_END (R38, R39, R105, R112, R137). -/
def execSegmentReadEnd (decay : Decay) (s : State) : Result :=
  done s (
    match s.isRunning, s.isc.reading with
    | true, some q =>
      match q.who with
      | .job c y _ => s.jobReadEnds q c y decay
      | .closing => s
    | _, _ => s)

/-- A closing read ends: its masked digest is the next table entry, its bytes are fed to the closing
sums in turn, and the next segment is requested or the closing programs begin (R40, R143). -/
def State.closingReadEnds (s : State) (q : ReadReq) (w : Work) (decay : Decay) : State :=
  let d := s.isc.records[q.copy].desc
  let s1 := s.readPassed q decay
  let bytes := maskSegment d q.index (s1.flash.segment q.copy q.index (segLen d q.index))
  let g := s1.dge
  let g1 := if q.index = g.next then { g with closing := g.closing.feedAll bytes, next := g.next + 1 } else g
  let w1 := { w with table := w.table ++ [g.masked.digest] }
  let s2 := ({ s1 with dge := g1 }).setWork (some w1)
  if q.index + 1 < d.segments then
    s2.addRequest { who := .closing, copy := q.copy, index := q.index + 1 }
  else s2.schedule w1 (.tables q.copy) .read

/-- CLOSING_READ_END (R38, R40, R143). -/
def execClosingReadEnd (decay : Decay) (s : State) : Result :=
  done s (
    match s.isRunning, s.isc.reading, s.isc.work with
    | true, some q, some w => if q.who = Reader.closing then s.closingReadEnds q w decay else s
    | _, _, _ => s)

end Sys2Proof.Machine
end

