-- ==== Sys2Proof/Machine/Supply.lean ====
section
/-! DEFINITION. The Supply Sense Unit (chapter 1): loss and return qualification, the gap tick counter, and its commands. -/

namespace Sys2Proof.Machine

/-- The CAR RETURN entry of the SSU (R11, section 10.2). -/
def carReturnEntry (c : Car) (g : Nat) (unknown restart : Bool) (uptime : Long) : Entry :=
  { kind := .carReturn, car := c.val, drop := 0, uptime := uptime,
    body := le16 g ++ [byteOf (bit unknown + 2 * bit restart) 0, 0] }

/-- Deliver CAR RETURN with the record's G and flags and the uptime at which the return was qualified or issued, and ask
for its journal entry (R11, R171). -/
def State.deliverReturn (s : State) (c : Car) (uptime : Long) : State :=
  let r := s.ssu[c]
  (s.deliver c (.ret r.g r.unknown r.restart uptime)).ask .ssu (carReturnEntry c r.g r.unknown r.restart uptime)

/-- The SSU takes events in RUNNING and in RESTARTING (R2, R13), of sensed cars only (R1). -/
def State.ssuTakes (s : State) (c : Car) : Bool := (s.isRunning || s.isRestarting) && s.sensed c

/-- Set the level of CSGc. -/
def State.setCsg (s : State) (c : Car) (high : Bool) : State :=
  { s with pins := { s.pins with csg := s.pins.csg.set c high } }

/-- A falling edge: PRESENT to DIPPING with the counter from 0 (R4), RETURNING back to GAP with the
candidate discarded and the timer stopped (R9). -/
def SsuCar.fall (r : SsuCar) : SsuCar :=
  match r.state with
  | .present => { r with state := .dipping, ticks := 0 }
  | .returning => { r with state := .gap, candidate := none, timer := none }
  | _ => r

/-- The candidate G of a rising edge in GAP (R8). -/
def SsuCar.candidateG (r : SsuCar) : Nat := if r.unknown then Config.gMax else r.ticks / 4

/-- A rising edge: GAP to RETURNING with a candidate and the timer started for R_q (R8), DIPPING
back to PRESENT with the counter at 0 (R5). -/
def SsuCar.rise (r : SsuCar) (rq : Nat) : SsuCar :=
  match r.state with
  | .gap => { r with state := .returning, candidate := some r.candidateG, timer := some rq }
  | .dipping => { r with state := .present, ticks := 0 }
  | _ => r

/-- The record of a car given its restart return (R14). DEDUCED: a held return is cleared (log 20). -/
def SsuCar.restartReturn (r : SsuCar) : SsuCar :=
  { r with g := 0, unknown := false, restart := true, pend := false, held := none }

/-- The tick counter runs in DIPPING, and in GAP or RETURNING with the unknown flag clear (R7). -/
def SsuCar.counts (r : SsuCar) : Bool :=
  match r.state with
  | .dipping => true
  | .gap => !r.unknown
  | .returning => !r.unknown
  | _ => false

/-- The counter after one more interval, saturating at 262,143 (R7). -/
def SsuCar.nextTicks (r : SsuCar) : Nat := saturate Config.tickMax (r.ticks + 1)

/-- A tick that is the eighth in DIPPING (R5). -/
def SsuCar.qualifies (r : SsuCar) : Bool :=
  decide (r.state = .dipping) && decide (r.nextTicks = Config.lossTicks)

/-- The record of a car whose loss has been qualified: GAP, both flags clear, nothing owed (R6, R13,
R14). DEDUCED: a held return is cleared (log 20). -/
def SsuCar.lose (r : SsuCar) : SsuCar :=
  { r with state := .gap, ticks := r.nextTicks, unknown := false, restart := false, pend := false, held := none }

/-- A qualified loss: the record, and CAR LOSS while RUNNING (R6, R13). -/
def State.qualifyLoss (s : State) (c : Car) : State :=
  let s1 := s.setSsu c s.ssu[c].lose
  if s.isRunning then s1.deliver c (.loss s.ord.uptime) else s1

/-- The end of one 250 us interval of a car's counter (R5, R7). -/
def State.ssuTick (s : State) (c : Car) : State :=
  let r := s.ssu[c]
  if r.qualifies then s.qualifyLoss c
  else if r.counts then s.setSsu c { r with ticks := r.nextTicks }
  else s

/-- The record of a car whose return has been qualified (R10). -/
def SsuCar.returned (r : SsuCar) : SsuCar :=
  { r with state := .present, g := r.candidate.getD 0, candidate := none, ticks := 0, timer := none }

/-- The level of CSGc as a sampling of R3 takes it: RETURNING with an unknown candidate, or GAP. -/
def SsuCar.sample (high : Bool) (rq : Nat) : SsuCar :=
  if high then
    { SsuCar.reset with state := .returning, unknown := true, candidate := some Config.gMax, timer := some rq }
  else { SsuCar.reset with state := .gap, unknown := true }

/-- Entering RUNNING after a power or RESET_IN start: every sensed car is sampled (R3). -/
def State.sampleCars (s : State) : State :=
  { s with ssu := Vector.ofFn (fun c : Car =>
      if s.sensed c then SsuCar.sample s.pins.csg[c] s.fleet.rq else s.ssu[c]) }

/-- A car at the return to RUNNING, `was` telling whether the old table sensed it (R14, R15). -/
def State.settleCar (was : Car → Bool) (s : State) (c : Car) : State :=
  let r := s.ssu[c]
  if !s.sensed c then s.setSsu c SsuCar.reset
  else if !was c then s.setSsu c (SsuCar.sample s.pins.csg[c] s.fleet.rq)
  else
    match r.state with
    | .present =>
      match r.held with
      | some u => (s.deliverReturn c u).setSsu c { r with held := none }
      | none => (s.setSsu c r.restartReturn).deliverReturn c s.ord.uptime
    | .dipping => s.setSsu c { r with pend := true }
    | _ => s

/-! ## Commands -/

/-- CSG_FALLING_EDGE (R1, R4, R9, R13): an edge needs the line high before it. -/
def execCsgFallingEdge (c : Car) (s : State) : Result :=
  done s (
    let s1 := s.setCsg c false
    if s.pins.csg[c] && s.ssuTakes c then s1.setSsu c s.ssu[c].fall else s1)

/-- CSG_RISING_EDGE (R1, R5, R8, R13, R14): an edge needs the line low before it. A dip discarded
with a restart return owed delivers it. -/
def execCsgRisingEdge (c : Car) (s : State) : Result :=
  done s (
    let s1 := s.setCsg c true
    let r := s.ssu[c]
    if !s.pins.csg[c] && s.ssuTakes c then
      if decide (r.state = .dipping) && r.pend && s.isRunning then
        (s1.setSsu c (r.rise s.fleet.rq).restartReturn).deliverReturn c s.ord.uptime
      else s1.setSsu c (r.rise s.fleet.rq)
    else s1)

/-- GAP_TICK (R5, R6, R7, R13): the eighth tick in DIPPING qualifies the loss. -/
def execGapTick (c : Car) (s : State) : Result :=
  done s (if s.ssuTakes c then s.ssuTick c else s)

/-- LOSS_QUALIFIED (R5, R6, R13, R14): the eighth tick is taken in DIPPING. -/
def execLossQualified (c : Car) (s : State) : Result :=
  done s (if s.ssuTakes c && s.ssu[c].qualifies then s.qualifyLoss c else s)

/-- RETURN_TIMER_EXPIRY (R10, R11, R13): CAR RETURN is delivered in RUNNING and held in RESTARTING. -/
def execReturnTimerExpiry (c : Car) (s : State) : Result :=
  done s (
    let r := s.ssu[c]
    if s.ssuTakes c && decide (r.state = .returning) && r.timer.isSome then
      if s.isRunning then (s.setSsu c r.returned).deliverReturn c s.ord.uptime
      else s.setSsu c { r.returned with held := some s.ord.uptime }
    else s)

end Sys2Proof.Machine
end

