-- ==== Sys2Proof/Machine/Starts.lean ====
section
/-! DEFINITION. The starts of the part: the supply, RESET_IN, the entry to RUNNING, and the warm restart (09 R159, R160, and
each block's chapter). -/

namespace Sys2Proof.Machine

/-! ## Power and RESET_IN starts -/

/-- The Exchange RAM as its initialisation leaves it: 0 but for the Steering Page defaults of 9.3 (R155). -/
def initialRam : Memory := [(0x102, 0x02), (0x104, 0x0A), (0x107, 0x04), (0x109, 0x0C)]

/-- Every block in the condition a start gives it, before any start-up activity: what flash, the board's
levels and the queue hold is kept (R2, R44, R71, R95, R117, R119, R152, R155, R159, R162, R176).
DEDUCED: while the start is held, what flash gives is as on erased flash (log 28). -/
def State.blank (s : State) (cause : ResetCause) : State :=
  { State.reset with
    power := s.power, resetIn := s.resetIn, cause := cause, ram := initialRam, flash := s.flash,
    pending := s.pending
    pins := { Pins.reset with csg := s.pins.csg, svcUnlock := s.pins.svcUnlock, busData := s.pins.busData } }

/-- The start-up activities: identity and scan, fleet table reading, roster build, and what they show
(R150, R20, R17, R33, R129, R159). -/
def State.startUp (s : State) (o : StartOutcome) : State :=
  let s1 := s.startScan o.marks
  ((s1.buildRoster s1.blockReading).showAll).showMirror

/-- The operation in flight as a supply loss or RESET_IN leaves it (R152). -/
def State.abandonFlash (s : State) (cut : Cut) : State :=
  match s.inFlight with
  | none => s
  | some (w, op) => { s with flash := s.flash.cutOp op w.data w.table s.dge.closing.digest cut }

/-- POWER_START (R159): with RESET_IN held the part stays in STARTING until it is released. DESIGN CHOICE (log 52): the cause
of that start is POWER. -/
def execPowerStart (o : StartOutcome) (s : State) : Result :=
  .next (
    if s.power then s
    else
      let s1 := ({ s with power := true }).blank .power
      if s.resetIn then s1 else s1.startUp o)

/-- RESET_IN_ASSERTED (R152, R159): whatever is in flight is abandoned and every block held in its start
condition. -/
def execResetInAsserted (cut : Cut) (s : State) : Result :=
  .next (
    if s.resetIn then s
    else if s.power then ({ s.abandonFlash cut with resetIn := true }).blank .resetPin
    else { s with resetIn := true })

/-- RESET_IN_RELEASED (R159): each block makes its start-up, with the cause its start gave it. DESIGN CHOICE (log 52): that is
POWER where the supply became good with RESET_IN already active. What the host wrote to the registers while RESET_IN was held
stands (R155; log 17). -/
def execResetInReleased (o : StartOutcome) (s : State) : Result :=
  .next (
    if s.resetIn then
      if s.power then
        let s1 := { ({ s with resetIn := false }).blank s.cause with ntu := s.ntu }
        (s1.setNtu s.ntu).startUp o
      else { s with resetIn := false }
    else s)

/-- POWER_LOST (R152, R159): flash keeps what it held when the operation in flight stopped, DP0 to DP5
are no longer driven, and all volatile state is lost. -/
def execPowerLost (cut : Cut) (s : State) : Result :=
  .next (
    if s.power then
      let s1 := ({ s.abandonFlash cut with power := false }).blank .power
      { s1 with ram := [], pins := { s1.pins with dpDriven := false, busData := 0 } }
    else s)

/-! ## Entering RUNNING -/

/-- The START-UP entry (section 10.2). -/
def State.startUpEntry (s : State) : Entry :=
  { kind := .startUp, car := 0xFF, drop := 0, uptime := s.ord.uptime,
    body := [byteOf s.cause.code 0, byteOf s.fleet.status.code 0, byteOf s.fleet.carCount 0,
      byteOf s.roster.length 0, byteOf s.fleet.skipped 0, byteOf (bit s.isc.identity.isWritten) 0, 0, 0] }

/-- The COPY STATE entries a scan owes, with the uptime of the scan (R151, R153, R171). -/
def State.scanEntryList (s : State) : List Entry :=
  s.isc.scanEntries.map (fun e => copyStateEntry s.isc.scanUptime e.1 e.2.1 e.2.2)

/-- START-UP, with ALERT for a defaulted table, then the scan's COPY STATE entries (R27, R151, R176). -/
def State.startEntries (s : State) : State :=
  let s1 := s.takeEntry s.startUpEntry
  let s2 := if s.fleet.status = .loaded then s1 else s1.raise .alert
  let s3 := s2.takeEntries s.scanEntryList
  { s3 with isc := { s3.isc with scanEntries := [] } }

/-- The scan timer starts as RUNNING begins (R158). -/
def State.startScanTimer (s : State) : State := { s with ord := s.ord.restartScan }

/-- ENTER_RUNNING (R3, R27, R151, R158, R159, R163, R176). -/
def execEnterRunning (s : State) : Result :=
  done s (
    if s.isStarting then
      (({ s with run := .running }).startEntries.sampleCars.sample.startScanTimer).slotCheck false
    else s)

/-! ## The warm restart (R160) -/

/-- Every permit INACTIVE and driven low, the permit bit 0 written to every car summary, every car up clear (R124). -/
def State.dropPermits (s : State) : State :=
  let s1 := { s with
    prm := Vector.ofFn (fun c : Car => { s.prm[c] with active := false, up := false })
    pins := { s.pins with dp := Vector.replicate 6 false } }
  s1.showWords isFlagsWord

/-- The Status Page words of the journal (section 9.2). -/
def isJournalWord (a : Nat) : Bool := decide (a ∈ [0x10, 0x12, 0x14, 0x16, 0x18])

/-- The backlog is counted lost and emptied, and the journal's words written (R170, R176). -/
def State.loseBacklog (s : State) : State :=
  let n := s.jrn.backlog.length
  let s1 := { s with
    jrn := { s.jrn with tally := saturate 65535 (s.jrn.tally + n), lost := saturate 65535 (s.jrn.lost + n), backlog := [] } }
  if n = 0 then s1 else s1.showWords isJournalWord

/-- No restart return is pending from an earlier restart (R13). DEDUCED: a held return that an earlier restart left to a DIPPING car,
which R13 names neither as kept nor as cleared, is kept (log 20). -/
def State.dropOwedReturns (s : State) : State :=
  { s with ssu := Vector.ofFn (fun c : Car => { s.ssu[c] with pend := false }) }

/-- Every line OFF and empty; error counts and hold flags stay (R96, R117). -/
def State.dropLines (s : State) : State :=
  { s with lines := Vector.ofFn (fun c : Car =>
      { Line.reset with errors := s.lines[c].errors, hold := s.lines[c].hold }) }

/-- What the stopping of an erase of the fleet block leaves is never the whole old table (R20, R149). -/
def restartCut (op : FlashOp) (cut : Cut) : Cut :=
  if op = .eraseFleet ∧ cut.left = .nothing then { cut with left := .part } else cut

/-- What the completion of a program leaves: of a fleet table no further program is made, and the block
is found absent or bad (R149). -/
def restartLeft (op : FlashOp) (e : ProgEnd) : Left := if op = .fleet then .part else op.leftBy e

/-- An operation on the fleet block. -/
def FlashOp.onFleet (op : FlashOp) : Bool := decide (op = .eraseFleet) || decide (op = .fleet)

/-- Flash after the operation in flight at a restart request: an erase stopped, a program completed (R153); a write of the
fleet block is cut short by it (R149). DEDUCED: a program that fails leaves its remains to the rescan (log 31). -/
def State.settleFlash (s : State) (o : RestartOutcome) : State :=
  match s.inFlight with
  | none => s
  | some (w, op) =>
    let s1 := { s with isc := { s.isc with fleetCut := s.isc.fleetCut || op.onFleet } }
    if op.isErase then { s1 with flash := s.flash.stopErase op (restartCut op o.cut) }
    else
      let s2 := { s1 with flash := s.flash.program op w.data w.table s.dge.closing.digest (restartLeft op o.inFlight) }
      if o.inFlight = .verified then s2 else s2.failBlock op

/-- A pending mark whose program still waits to begin is owed as before, ahead of the others (R138, R153). DEDUCED: the DAMAGED mark
that an order whose verify failed still has to begin is a step of that order, and is dropped (log 55). -/
def State.reclaimMark (s : State) : State :=
  match s.isc.work with
  | none => s
  | some w =>
    match w.order, w.due, w.target with
    | none, some _, some r => { s with isc := { s.isc with pendingMarks := r :: s.isc.pendingMarks } }
    | _, _, _ => s

/-- The order in flight is answered INTERRUPTED with no results (R153, R169). DEDUCED: so is one whose verify has failed and whose
DAMAGED mark is due or being programmed (log 55). -/
def State.interrupt (s : State) : State :=
  match s.isc.work with
  | none => s
  | some w => s.finishWork w (.done .interrupted [])

/-- Each queued order is answered RESTARTED, in queue order (R153). -/
def State.refuseQueue (s : State) : State :=
  s.isc.queue.foldl (fun t o => t.answer o.oslot o.bytes (.refused .restarted))
    { s with isc := { s.isc with queue := [] } }

/-- Every pending mark is programmed, taking the ends in turn (R153). -/
def programMarks (f : Flash) : List CopyIx → List ProgEnd → Flash × List ProgEnd
  | [], ends => (f, ends)
  | r :: rest, ends =>
    programMarks (f.program (.mark r .damaged) [] [] 0 (progLeft (ends.headD .verified))) rest ends.tail

/-- The ISC's restart handling, in the order of R153. -/
def State.restartStore (s : State) (o : RestartOutcome) : State :=
  let s1 := ((s.settleFlash o).reclaimMark.interrupt).refuseQueue
  let s2 := { s1 with isc := { s1.isc with requests := [], reading := none } }
  let x := programMarks s2.flash s2.isc.pendingMarks o.marks
  let s3 := ({ s2 with flash := x.1 }).startScan x.2
  let s4 := (s3.setStoreState .idle).setTarget none
  { s4 with
    isc := { s4.isc with lastDoor := 5, lastInfo := 5, work := none }
    dge := Dge.reset }

/-- The Status Page words of the ISC: identity, store state, target, protection, suspend count. -/
def isStoreWord (a : Nat) : Bool := decide (a ∈ [0x06, 0x08, 0x0A, 0x1A, 0x1C, 0x1E])

/-- The ISC writes the directory mirror and its Status Page words afresh (R129, R153). -/
def State.showStore (s : State) : State :=
  let s1 := s.showWords isStoreWord
  { s1 with ram := putWords s1.ram (directoryMirror s1) }

/-- The uptimes of the losses among car events. -/
def lossUptimes (l : List CarEvent) : List Long :=
  l.filterMap (fun e => match e with
    | .loss u => some u
    | .ret _ _ _ _ => none)

/-- One CAR LOSS entry for each loss the RPL has not yet taken: the first abandons the car's live jobs, and no later one
finds any. -/
def State.untakenLosses (s : State) (c : Car) : List Entry :=
  match lossUptimes s.chan.ssuRpl[c] with
  | [] => []
  | u :: later => carLossEntry c u (s.abandonedDrops c) :: later.map (fun v => carLossEntry c v [])

/-- Every loss qualified in RUNNING is recorded, though the restart leaves the RPL no time to take it (R6; DEDUCED,
log 4). DESIGN CHOICE (log 45): in ascending order of cars, whatever their uptimes, and behind every entry request that waits,
of whichever block. -/
def State.recordLosses (s : State) : State :=
  (allCars.flatMap s.untakenLosses).foldl (fun t e => t.ask .rpl e) s

/-- A restart request is taken: permits first, untaken losses recorded, entry requests made before it taken by the JRN and its
backlog lost, causes cleared, ORD timers stopped, owed restart returns cleared, lines OFF, news in transit
discarded, and the store's handling (R13, R96, R117, R124, R153, R160, R162, R176; log 4). -/
def State.restart (s : State) (o : RestartOutcome) : State :=
  let s1 := (((s.dropPermits).recordLosses.flushRequests).loseBacklog).clearCauses 15
  let s2 := { s1 with run := .restarting, cause := .restart, chan := Channels.empty
                      ord := { s1.ord with window := none, scanTimer := none } }
  s2.dropOwedReturns.dropLines.restartStore o

/-- WARM_RESTART (R160): a PART STATE write; bit 0 requests a restart, in RUNNING only. -/
def execWarmRestart (v : Word) (o : RestartOutcome) (s : State) : Result :=
  if s.isRunning && v.getLsbD 0 then .next (publish s (s.restart o)).showStore else done s s

/-- The rebuild at the return: fleet table, roster, and all 48 mirror entries bracketed and rewritten
(R17, R20, R33). -/
def State.rebuild (s : State) (fleetAbsent : Bool) : State :=
  ((s.buildRoster (s.fleetReading fleetAbsent)).bumpCounts).showMirror

/-- The JRN takes the values of the return's own sample, tests the hold and tells every CLC the flag as it then stands, once
and whether or not it changed; its backlog is empty since the request (R176). -/
def State.returnSample (s : State) : State :=
  let s1 := s.sample
  let j := { s1.jrn with r := s1.ord.ret, lw := s1.ord.lw, hw := s1.ord.hw }
  ({ s1 with jrn := { j with hold := j.holdAfter }, chan := { s1.chan with ordJrn := [] } }).tellHold j.holdAfter

/-- The Status Page words a return writes afresh: fleet status and counts (R27), and the RPL's words of
the car summaries (R71). -/
def isRebuildWord (a : Nat) : Bool :=
  decide (a = 0x06) || decide (a = 0x0C)
    || (decide (0x60 ≤ a) && decide ((a - 0x60) % 16 ∈ [0, 4, 6, 8, 10]))

/-- The return to RUNNING: sample and hold, the entries of the restart, each car settled, and the slot check (R14, R15, R158,
R160, R163, R176). DESIGN CHOICE (log 45): the cars are settled, and so their CAR RETURN entries made, in ascending order. -/
def State.returns (s : State) (was : Car → Bool) : State :=
  let s1 := ({ s with run := .running }).returnSample.startEntries
  let s2 := allCars.foldl (State.settleCar was) s1
  (s2.startScanTimer.slotCheck false)

/-- RETURN_TO_RUNNING (R160). -/
def execReturnToRunning (fleetAbsent : Bool) (s : State) : Result :=
  if s.isRestarting then
    let s1 := s.rebuild fleetAbsent
    let s2 := s1.returns (fun c => s.sensed c)
    .next (publish { s with roster := s1.roster, mirrorCount := s1.mirrorCount } (s2.showWords isRebuildWord))
  else done s s

end Sys2Proof.Machine
end

