-- ==== Sys2Proof/Machine/Dispatch.lean ====
section
/-! DEFINITION. One arm per command: each calls its meaning. -/

namespace Sys2Proof.Machine

/-- A command's effect on everything but the queue. -/
def exec (i : Instr) (s : State) : Host.Outcome State Fault Refusal :=
  match i with
  | .powerStart o => Sys2Proof.Machine.execPowerStart o s
  | .resetInAsserted cut => Sys2Proof.Machine.execResetInAsserted cut s
  | .resetInReleased o => Sys2Proof.Machine.execResetInReleased o s
  | .enterRunning => Sys2Proof.Machine.execEnterRunning s
  | .warmRestart v o => Sys2Proof.Machine.execWarmRestart v o s
  | .returnToRunning fleetAbsent => Sys2Proof.Machine.execReturnToRunning fleetAbsent s
  | .nudge v => Sys2Proof.Machine.execNudge v s
  | .noticeWrite v => Sys2Proof.Machine.execNoticeWrite v s
  | .noticeEnableWrite v => Sys2Proof.Machine.execNoticeEnableWrite v s
  | .hostRamAccess a => Sys2Proof.Machine.execHostRamAccess a s
  | .uptimeTick => Sys2Proof.Machine.execUptimeTick s
  | .scanTick => Sys2Proof.Machine.execScanTick s
  | .quietWindowExpiry => Sys2Proof.Machine.execQuietWindowExpiry s
  | .openCopy unlock => Sys2Proof.Machine.execOpenCopy unlock s
  | .stageSegment unlock => Sys2Proof.Machine.execStageSegment unlock s
  | .closeCopy unlock => Sys2Proof.Machine.execCloseCopy unlock s
  | .activateCopy unlock => Sys2Proof.Machine.execActivateCopy unlock s
  | .eraseCopy unlock => Sys2Proof.Machine.execEraseCopy unlock s
  | .protectGroup unlock => Sys2Proof.Machine.execProtectGroup unlock s
  | .unprotectAll unlock => Sys2Proof.Machine.execUnprotectAll unlock s
  | .writeIdentity unlock => Sys2Proof.Machine.execWriteIdentity unlock s
  | .writeFleetTable unlock => Sys2Proof.Machine.execWriteFleetTable unlock s
  | .pendingMarkProgram => Sys2Proof.Machine.execPendingMarkProgram s
  | .flashProgramEnd r => Sys2Proof.Machine.execFlashProgramEnd r s
  | .blockEraseEnd r => Sys2Proof.Machine.execBlockEraseEnd r s
  | .eraseSliceEnd => Sys2Proof.Machine.execEraseSliceEnd s
  | .eraseSuspensionComplete => Sys2Proof.Machine.execEraseSuspensionComplete s
  | .readBegin => Sys2Proof.Machine.execReadBegin s
  | .segmentReadEnd decay => Sys2Proof.Machine.execSegmentReadEnd decay s
  | .closingReadEnd decay => Sys2Proof.Machine.execClosingReadEnd decay s
  | .csgFallingEdge c => Sys2Proof.Machine.execCsgFallingEdge c s
  | .csgRisingEdge c => Sys2Proof.Machine.execCsgRisingEdge c s
  | .gapTick c => Sys2Proof.Machine.execGapTick c s
  | .lossQualified c => Sys2Proof.Machine.execLossQualified c s
  | .returnTimerExpiry c => Sys2Proof.Machine.execReturnTimerExpiry c s
  | .rplCarLoss c => Sys2Proof.Machine.execRplCarLoss c s
  | .clcCarLoss c => Sys2Proof.Machine.execClcCarLoss c s
  | .prmCarLoss c => Sys2Proof.Machine.execPrmCarLoss c s
  | .rplCarReturn c => Sys2Proof.Machine.execRplCarReturn c s
  | .clcCarReturn c => Sys2Proof.Machine.execClcCarReturn c s
  | .prmCarReturn c => Sys2Proof.Machine.execPrmCarReturn c s
  | .bootTimerExpiry c => Sys2Proof.Machine.execBootTimerExpiry c s
  | .rollCall c => Sys2Proof.Machine.execRollCall c s
  | .txFrameEnd c => Sys2Proof.Machine.execTxFrameEnd c s
  | .roundTimerExpiry c => Sys2Proof.Machine.execRoundTimerExpiry c s
  | .slowTimerExpiry c => Sys2Proof.Machine.execSlowTimerExpiry c s
  | .hello c d cls ram image version segments boot => Sys2Proof.Machine.execHello c d cls ram image version segments boot s
  | .digestAsk c => Sys2Proof.Machine.execDigestAsk c s
  | .load c => Sys2Proof.Machine.execLoad c s
  | .start c => Sys2Proof.Machine.execStart c s
  | .digestList c d first count digests => Sys2Proof.Machine.execDigestList c d first count digests s
  | .loadAck c d index outcome => Sys2Proof.Machine.execLoadAck c d index outcome s
  | .running c d outcome => Sys2Proof.Machine.execRunning c d outcome s
  | .discardedFrame c bytes => Sys2Proof.Machine.execDiscardedFrame c bytes s
  | .lineIdleTimeout c => Sys2Proof.Machine.execLineIdleTimeout c s
  | .replyTimerExpiry c => Sys2Proof.Machine.execReplyTimerExpiry c s
  | .clcJobEntersQueue c => Sys2Proof.Machine.execClcJobEntersQueue c s
  | .clcEndJob c => Sys2Proof.Machine.execClcEndJob c s
  | .clcStoreFaultEnd c => Sys2Proof.Machine.execClcStoreFaultEnd c s
  | .individualRollCallRequest c => Sys2Proof.Machine.execIndividualRollCallRequest c s
  | .cancelRollCall c => Sys2Proof.Machine.execCancelRollCall c s
  | .missingSetChange c => Sys2Proof.Machine.execMissingSetChange c s
  | .holdTell c => Sys2Proof.Machine.execHoldTell c s
  | .rplHello c => Sys2Proof.Machine.execRplHello c s
  | .rplJobReport c => Sys2Proof.Machine.execRplJobReport c s
  | .rplSurveyEnded c => Sys2Proof.Machine.execRplSurveyEnded c s
  | .rplLoadAccepted c => Sys2Proof.Machine.execRplLoadAccepted c s
  | .rplRunningSuccess c => Sys2Proof.Machine.execRplRunningSuccess c s
  | .rplAttemptFailed c => Sys2Proof.Machine.execRplAttemptFailed c s
  | .rplUnheardReport c => Sys2Proof.Machine.execRplUnheardReport c s
  | .backoffRollCallUnheard c => Sys2Proof.Machine.execBackoffRollCallUnheard c s
  | .backoffTimerExpiry c d => Sys2Proof.Machine.execBackoffTimerExpiry c d s
  | .rplScanTick => Sys2Proof.Machine.execRplScanTick s
  | .rplBudgetSample => Sys2Proof.Machine.execRplBudgetSample s
  | .rplCopyDamaged => Sys2Proof.Machine.execRplCopyDamaged s
  | .activeCopyChange => Sys2Proof.Machine.execActiveCopyChange s
  | .prmDoorReport => Sys2Proof.Machine.execPrmDoorReport s
  | .prmWithholdSample => Sys2Proof.Machine.execPrmWithholdSample s
  | .journalEntryRequest src => Sys2Proof.Machine.execJournalEntryRequest src s
  | .jrnSteeringValues => Sys2Proof.Machine.execJrnSteeringValues s
  | .powerLost cut => Sys2Proof.Machine.execPowerLost cut s
  | .leadByteTaken c => Sys2Proof.Machine.execLeadByteTaken c s

end Sys2Proof.Machine
end

