-- ==== Sys2Proof/Safety.lean ====
section
/-! DEFINITION. What holds of the part in every state it should be in: the conditions that the manual states of the whole
machine, in the terms the statements use. -/

namespace Sys2Proof.Machine

/-- The Exchange RAM and the flash banks are in their canonical form: equal memories are equal data. -/
def MemoryCanonical (s : State) : Prop :=
  Mem.wf 0 s.ram = true ∧ Mem.wf 0xFF s.flash.a.cells = true ∧ Mem.wf 0xFF s.flash.b.cells = true

/-- The notice lines are driven as R178 gives from the causes, the enables and TIE. -/
def NoticeLinesDriven (s : State) : Prop := s.pins.noticeA = s.ntu.lineA ∧ s.pins.noticeB = s.ntu.lineB

/-- The permit of a car follows its state onto DPc, and an ACTIVE permit has its car up, not withheld and
with a door node in the roster; outside RUNNING no permit is ACTIVE and no car up (R118, R119, R124). -/
def PermitHeld (s : State) (c : Car) : Prop :=
  s.pins.dp[c] = s.prm[c].active
    ∧ (s.prm[c].active = true → s.prm[c].up = true ∧ s.prm[c].withhold = false ∧ 0 < s.prm[c].doorRecords)
    ∧ (s.isRunning = false → s.prm[c].active = false ∧ s.prm[c].up = false)

/-- The same of every car. -/
def PermitsHeld (s : State) : Prop := ∀ c : Car, PermitHeld s c

/-- A car whose permit is ACTIVE has every included door node READY, or the report of one that has left READY or been included is
on its way to the PRM, which then makes the permit INACTIVE (R118, fourth term; R121). -/
def PermitsAwaitDoors (s : State) : Prop :=
  ∀ c : Car, s.prm[c].active = true →
    (∀ r ∈ s.roster, r.car = c → r.cls = .door → r.isExcluded = false → r.state = .ready)
      ∨ ∃ r ∈ s.chan.rplPrm, r.car = c ∧ r.withdraws = true

/-- A return mark a sample may put in force (R157). -/
def ReturnMarkOk (r : Nat) : Prop := r % 4 = 0 ∧ r ≤ Config.roomMax

/-- An entry whose length is a multiple of 4 (section 10.2). -/
def Entry.sized (e : Entry) : Prop := e.body.length % 4 = 0

/-- The marks of the journal, its backlog and its hold flag, and the steering values in force, lie as R157,
R170, R172 and R175 give, those on their way from the ORD to the JRN with them. -/
structure JournalHeld (s : State) : Prop where
  mark : s.jrn.w % 4 = 0 ∧ s.jrn.w < Config.journalBytes
  ret : ReturnMarkOk s.jrn.r
  waters : s.jrn.lw + 256 ≤ s.jrn.hw
  backlog : s.jrn.backlog.length ≤ Config.backlogMax
  waiting : ∀ e ∈ s.jrn.backlog, e.sized
  asked : ∀ q ∈ s.jrn.requests, q.entry.sized
  held : s.jrn.hold = true → s.jrn.room < s.jrn.hw
  free : s.jrn.hold = false → s.jrn.lw ≤ s.jrn.room
  inForce : ReturnMarkOk s.ord.ret ∧ s.ord.lw + 256 ≤ s.ord.hw
  handed : ∀ v ∈ s.chan.ordJrn, ReturnMarkOk v.ret ∧ v.lw + 256 ≤ v.hw

/-- Each slot has at most one active copy (R130). -/
def OneActiveCopy (s : State) : Prop :=
  ∀ k : Slot, ¬ (s.isc.records[copyIx k .a].isActive = true ∧ s.isc.records[copyIx k .b].isActive = true)

/-- An operation on the flash array has changed nothing but the bytes of its own place or block, its own copy's header, and its own
marks or identity (R126). -/
structure FlashKept (op : FlashOp) (f g : Flash) : Prop where
  bytes : ∀ (k : CopyId) (a : Nat),
    (match op with
      | .segment r i => k ≠ copyOf r ∨ a / 2048 ≠ segmentAddr r i / 2048
      | .eraseData r n => k ≠ copyOf r ∨ a / 65536 ≠ 8 * (r.val / 2) + n
      | .fleet => k ≠ .a ∨ a / 2048 ≠ 4608
      | .eraseFleet => k ≠ .a ∨ a / 65536 ≠ 144
      | _ => True) → (g.bank k).byte a = (f.bank k).byte a
  headers : ∀ r : CopyIx, op.copy ≠ some r → g.headers[r] = f.headers[r]
  marks : (∀ k : Fin 4, op ≠ .protectMark k) → op ≠ .eraseProtect → g.protect = f.protect
  mark : ∀ k i : Fin 4, op = .protectMark k → i ≠ k → g.protect[i] = f.protect[i]
  identity : (∀ n : Nat, op ≠ .identity n) → g.identity1 = f.identity1 ∧ g.identity2 = f.identity2

/-- At most 48 records, at most one for a pair of car and drop, in ascending order of car and drop (R17). -/
def RosterOrdered (s : State) : Prop :=
  s.roster.length ≤ Config.rosterMax ∧ s.roster.Pairwise (fun a b => a.before b = true)

/-- Each line's work queue stands in the order of its key (R97). -/
def QueuesOrdered (s : State) : Prop :=
  ∀ c : Car, s.lines[c].queue.Pairwise (fun a b => b.before a = false)

/-- Every block but the notice unit as a start leaves it (R2, R44, R71, R95, R117, R119, R152, R155 to R159, R176). -/
structure StartedAfresh (t : State) : Prop where
  run : t.run = .starting
  ord : t.ord = { uptime := 0, batch := 0, q := 2, scan := 10, lw := 1024, hw := 3072, ret := 0, scanTimer := none,
                  window := none, owed := Vector.replicate 32 false }
  jrn : t.jrn = { w := 0, r := 0, lw := 1024, hw := 3072, backlog := [], tally := 0, lost := 0, withheld := 0,
                  hold := false, requests := [] }
  ssu : ∀ c : Car, t.ssu[c] = { state := .unknown, ticks := 0, candidate := none, timer := none, g := 0, unknown := false,
                                restart := false, pend := false, held := none }
  rpl : ∀ c : Car, t.rpl[c] = { up := false, gapG := 0, gapUnknown := false, gapRestart := false, ready := 0,
                                total := t.rpl[c].total, blocked := false, late := false, settled := false, clock := 0,
                                clockOn := false, e := 65535, p := 65535, elapsed := 0, budget := 0, nextJob := 0 }
  dge : t.dge = { masked := ⟨0, 0⟩, unmasked := ⟨0, 0⟩, context := none, closing := ⟨0, 0⟩, next := 0, fleet := t.dge.fleet }
  lines : ∀ c : Car, t.lines[c] = Line.reset
  permits : ∀ c : Car, t.prm[c].active = false ∧ t.prm[c].up = false ∧ t.prm[c].withhold = false ∧ t.pins.dp[c] = false
  driven : t.pins.dpDriven = true
  store : t.isc.queue = [] ∧ t.isc.work = none ∧ t.isc.requests = [] ∧ t.isc.reading = none ∧ t.isc.pendingMarks = []
    ∧ t.isc.storeState = .idle ∧ t.isc.targetSlot = 255 ∧ t.isc.suspendCount = 0 ∧ t.isc.lastDoor = 5
    ∧ t.isc.lastInfo = 5 ∧ t.isc.fleetUnreadable = false ∧ t.isc.fleetCut = false ∧ t.isc.protectUnreadable = false
  chan : t.chan = Channels.empty

/-- The reading of a start: of the 272 bytes the fleet block holds, with no unreadable mark, against the identity (R20 to R22, R43,
R152). -/
def State.startReading (t : State) : FleetReading :=
  readFleet (t.flash.a.bytes fleetAddr Config.fleetBytes) false t.isc.identity

/-- Every word of the 48 entries of the node mirror shows the roster and the change counts, and their reserved bytes are 0 (R32,
R33). -/
def MirrorWritten (t : State) : Prop :=
  ∀ i : Fin 48, (∀ w ∈ mirrorWords t i, leNat (t.ramBytes w.1 2) = w.2 % 65536)
    ∧ ∀ k : Nat, 40 ≤ k → k < 64 → t.ramByte (0x1200 + 64 * i.val + k) = 0

/-- The Exchange RAM as a start leaves it: the Status Page and both mirrors show what the part holds, every change count is 0, and
every other byte is 0 but the Steering Page's defaults (R33, R129, R155). -/
structure PagesWritten (t : State) : Prop where
  counts : ∀ i : Fin 48, t.mirrorCount[i] = 0
  status : ∀ w ∈ statusPage t, leNat (t.ramBytes w.1 2) = w.2 % 65536
  nodes : MirrorWritten t
  directory : ∀ w ∈ directoryMirror t, leNat (t.ramBytes w.1 2) = w.2 % 65536
  rest : ∀ a : Nat, (∀ w ∈ statusPage t ++ directoryMirror t, a ≠ w.1 ∧ a ≠ w.1 + 1) →
    (∀ (i : Fin 48), ∀ w ∈ mirrorWords t i, a ≠ w.1 ∧ a ≠ w.1 + 1) →
    t.ramByte a = (if a = 0x102 then 2 else if a = 0x104 then 10 else if a = 0x107 then 4 else if a = 0x109 then 12 else 0)

/-- What a start-up reads from flash: the identity, then the scan of the copies, then the fleet table and the roster by a reading
of flash as the scan left it, with the DGE's fleet sums and each car's total door count, all of it shown (R20, R26, R33, R43, R129,
R148, R150, R155). -/
structure ScannedAndBuilt (f : Flash) (o : StartOutcome) (t : State) : Prop where
  identity : t.isc.identity = f.readIdentity
  flash : t.flash = (f.scan o.marks).flash
  records : t.isc.records = (f.scan o.marks).records
  entries : t.isc.scanEntries = (f.scan o.marks).entries
  fleet : t.fleet = t.startReading.fleet
  roster : t.roster = t.startReading.roster
  sums : t.dge.fleet = t.startReading.sums
  doors : ∀ c : Car, t.rpl[c].total = (t.roster.filter (fun r => decide (r.car = c ∧ r.cls = .door) && !r.isExcluded)).length
  pages : PagesWritten t

/-! ## What a command leaves as it was -/

/-- Every byte of the Exchange RAM outside the Status Page and the two mirrors reads as before. -/
def HostPagesKept (s t : State) : Prop :=
  ∀ a : Nat, 0xC0 ≤ a → a < 0x1200 ∨ 0x2000 ≤ a → t.ramByte a = s.ramByte a

/-- Only car c's line, its own channels, entry requests, the read requests at the arbiter and what they do to an
erase slice may differ. -/
def LineFrame (c : Car) (s t : State) : Prop :=
  t = { s with
    lines := s.lines.set c t.lines[c]
    chan := { s.chan with
      clcRpl := s.chan.clcRpl.set c t.chan.clcRpl[c]
      rplClc := s.chan.rplClc.set c t.chan.rplClc[c]
      jrnClc := s.chan.jrnClc.set c t.chan.jrnClc[c] }
    jrn := { s.jrn with requests := t.jrn.requests }
    isc := { s.isc with requests := t.isc.requests, work := t.isc.work, storeState := t.isc.storeState }
    ram := t.ram }
    ∧ HostPagesKept s t

/-- From s to t the line of car c, standing as `y` with its round in flight and having told `told`, comes to the end of that round.
A fast round is followed by the next, or the fast roll call ends with its unheard drops reported, in ascending order. Of any other
round each called drop's owed rounds fall by 1, those that reach 0 are reported, one by one in ascending order (log 51), and the
line serves its job again, releases one that was to end, or is IDLE (R82, R85, R87, R88, R113, R114). -/
def RoundEnds (c : Car) (s t : State) (y : Line) (told : List LineReport) : Prop :=
  let closed := { y with round := none, called := 0, roundTimer := none, roundOver := false }
  let tells := fun l : List LineReport => (s.chan.clcRpl[c] ++ told ++ l) <+: t.chan.clcRpl[c]
  LineFrame c s t
    ∧ (y.round = some .fast →
      let u := allDrops.filter (fun d => (s.findNode c d).any (fun r => !r.isExcluded) && !DropSet.has y.heard d)
      (u ≠ [] → y.fastNo < 3 →
          t.lines[c] = { closed with fastNo := y.fastNo + 1 } ∧ t.chan.clcRpl[c] = s.chan.clcRpl[c] ++ told)
        ∧ (u = [] ∨ y.fastNo = 3 → tells (if u = [] then [] else [.unheard u false]) ∧ t.lines[c].round = none
          ∧ t.lines[c].heard = 0 ∧ t.lines[c].fastNo = 0 ∧ (t.lines[c].state = .idle ∨ t.lines[c].state = .serving)
          ∧ (y.queue = [] → t.lines[c].state = .idle)))
    ∧ (y.round = some .other →
      let unheard := (allDrops.filter (fun d => DropSet.has y.called d && decide (y.owed[d] = 1))).map
        (fun d => LineReport.unheard [d] true)
      (∀ d : Drop, t.lines[c].owed[d] = if DropSet.has y.called d then y.owed[d] - 1 else y.owed[d])
        ∧ tells unheard ∧ t.lines[c].round = none ∧ t.lines[c].roundOver = false
        ∧ (y.holding = none → (t.lines[c].state = .idle ∨ t.lines[c].state = .serving)
          ∧ (y.queue = [] → t.lines[c].state = .idle))
        ∧ ∀ j : LineJob, y.holding = some j →
          (y.ending = .unset → t.chan.clcRpl[c] = s.chan.clcRpl[c] ++ told ++ unheard
              ∧ t.lines[c] = { closed with owed := t.lines[c].owed, state := .serving, exchangeFirst := y.requestReady })
            ∧ (y.ending = .ending → tells (unheard ++ [.released j.jid]))
            ∧ (y.ending = .storeFault → tells (unheard ++ [.failed j.jid .storeFault]))
            ∧ (y.ending ≠ .unset → y.queue = [] → t.lines[c].state = .idle ∧ t.lines[c].holding = none))

/-- Only the record of (c, d), the remaining costs of car c's nodes, the planner's record of car c and its channels, entry
requests, use counts and notice causes may differ. -/
def PlannerFrame (c : Car) (d : Drop) (s t : State) : Prop :=
  t = { s with
    roster := t.roster
    mirrorCount := t.mirrorCount
    rpl := s.rpl.set c t.rpl[c]
    chan := { s.chan with
      clcRpl := s.chan.clcRpl.set c t.chan.clcRpl[c]
      handed := s.chan.handed.set c t.chan.handed[c]
      rplClc := s.chan.rplClc.set c t.chan.rplClc[c]
      rplPrm := t.chan.rplPrm }
    jrn := { s.jrn with requests := t.jrn.requests }
    isc := { s.isc with records := t.isc.records }
    ntu := { s.ntu with causes := t.ntu.causes }
    pins := { s.pins with noticeA := t.pins.noticeA, noticeB := t.pins.noticeB }
    ram := t.ram }
    ∧ HostPagesKept s t
    ∧ t.roster.length = s.roster.length
    ∧ (∀ (i : Nat) (r : NodeRec), s.roster[i]? = some r → ¬ (r.car = c ∧ r.drop = d) →
        ∃ x : Nat, t.roster[i]? = some { r with cost := x } ∧ (r.car ≠ c → x = r.cost))
    ∧ ∀ k : CopyIx, t.isc.records[k] = { s.isc.records[k] with use := t.isc.records[k].use }

end Sys2Proof.Machine
end

