-- ==== Sys2Proof/Certificates/Slice0/Obligations.lean ====
section
/-! DEFINITION. The statements for the provers: what the commands do, what the blocks keep, and what every step keeps, by the
numbered rules of the manual. Each is a proposition; nothing here is proved. -/

open Sys2Proof Sys2Proof.Machine

/-! ## The step, publishing and the host -/

/-- Step takes the command at the front of the queue and runs it with the queue's rest; on an empty queue the part
idles, which is the model's own choice (log 1). -/
def Obligations.StepRunsFrontCommand : Prop :=
  (∀ (c : Instr) (rest : List Instr) (s : State),
      step { s with pending := c :: rest } = exec c { s with pending := rest })
    ∧ ∀ s : State, step { s with pending := [] } = .next { s with pending := [] }

/-- Every command completes in every state, with the queue behind it as it was: no rule stops the part. That this holds in
every state, also where the event of the command cannot arise, is the model's own choice (log 2): such a command leaves
the state as it is. -/
def Obligations.EveryCommandCompletes : Prop :=
  ∀ (c : Instr) (s : State), ∃ t, exec c s = .next t ∧ t.pending = s.pending

/-- Publishing changes nothing but words of the Status Page and the two mirrors: every byte of the Steering Page, the order
slots, the staging pages and the journal reads as before. -/
def Obligations.OnlyShownMemoryIsPublished : Prop :=
  ∀ (s t : State),
    publish s t = { t with ram := (publish s t).ram }
      ∧ ∀ a : Nat, 0xC0 ≤ a → a < 0x1200 ∨ 0x2000 ≤ a → (publish s t).ramByte a = t.ramByte a

/-- Publishing writes, whole, every item of the Status Page and the two mirrors that differs from the old state, whatever the RAM
held there and whatever part of the item has changed, and no other byte, so that with the others shown all are. A change of a
planner's car record or of a directory record writes, at that change, each item of the car summary or mirror entry that it
changes, whatever the RAM held there, and no other byte: an item that a later change of one command brings back to what it was is
thus written at both. That a change writes the changed items and no other byte of the page, entry or summary, and that both
changes of one command are written, is the model's reading (log 34). -/
def Obligations.PagesFollowItems : Prop :=
  (∀ (s t : State), Mem.wf 0 t.ram = true →
    let changed := fun x : Item => (x ∈ pageItems t ∧ x ∉ pageItems s)
      ∨ (∃ r : CopyIx, x ∈ recordItems r t.isc.records[r] ∧ x ∉ recordItems r s.isc.records[r])
      ∨ (∃ i : Fin 48, x ∈ mirrorItems t i ∧ x ∉ mirrorItems s i)
    (∀ x : Item, changed x → ∀ w ∈ wordsFrom x.1 x.2, leNat ((publish s t).ramBytes w.1 2) = w.2 % 65536)
      ∧ (∀ a : Nat, (∀ x : Item, changed x → a < x.1 ∨ x.1 + 2 * x.2.length ≤ a) → (publish s t).ramByte a = t.ramByte a)
      ∧ ((∀ w ∈ statusPage s, w ∈ statusPage t → leNat (t.ramBytes w.1 2) = w.2 % 65536) →
        ∀ w ∈ statusPage t, leNat ((publish s t).ramBytes w.1 2) = w.2 % 65536)
      ∧ ((∀ w ∈ directoryMirror s, w ∈ directoryMirror t → leNat (t.ramBytes w.1 2) = w.2 % 65536) →
        ∀ w ∈ directoryMirror t, leNat ((publish s t).ramBytes w.1 2) = w.2 % 65536))
    ∧ (∀ (s : State) (c : Car) (r : RplCar), Mem.wf 0 s.ram = true →
      let t := s.setRpl c r
      t = { s with rpl := s.rpl.set c r, ram := t.ram }
        ∧ (∀ w ∈ itemWords (carItems t c), w ∉ itemWords (carItems s c) → leNat (t.ramBytes w.1 2) = w.2 % 65536)
        ∧ ∀ a : Nat, (∀ w ∈ itemWords (carItems t c), w ∉ itemWords (carItems s c) → a ≠ w.1 ∧ a ≠ w.1 + 1) →
          t.ramByte a = s.ramByte a)
    ∧ ∀ (s : State) (r : CopyIx) (v : CopyRec), Mem.wf 0 s.ram = true →
      let t := s.setRecord r v
      t = { s with isc := { s.isc with records := s.isc.records.set r v }, ram := t.ram }
        ∧ (∀ x ∈ recordItems r v, x ∉ recordItems r s.isc.records[r] →
          ∀ w ∈ wordsFrom x.1 x.2, leNat (t.ramBytes w.1 2) = w.2 % 65536)
        ∧ ∀ a : Nat, (∀ x ∈ recordItems r v, x ∉ recordItems r s.isc.records[r] → a < x.1 ∨ x.1 + 2 * x.2.length ≤ a) →
          t.ramByte a = s.ramByte a

/-- The node mirror follows the roster. Each change of the roster writes, at that change, every field of an entry that it
changes, whatever the RAM held there, with the backoff remaining of a node whose timer it ends, and no other byte; it raises the
entry's change count by 2 exactly where a field it shows has changed, two changes of one record by 2 each; that all fields one
change writes share one bracket is the model's choice (log 6). The rebuild's rewriting of all 48 entries leaves their reserved
bytes 0, the model's reading (log 35), as is the writing of changed fields alone (log 34). -/
def Obligations.NodeMirrorFollowsRoster : Prop :=
  (∀ (s t : State) (i : Fin 48), Mem.wf 0 t.ram = true →
      (∀ w ∈ mirrorWords s i, w ∈ mirrorWords t i → leNat (t.ramBytes w.1 2) = w.2 % 65536) →
      ∀ w ∈ mirrorWords t i, leNat ((publish s t).ramBytes w.1 2) = w.2 % 65536)
    ∧ (∀ (s : State) (l : List NodeRec) (i : Fin 48),
        (s.setRoster l).mirrorCount[i]
          = s.mirrorCount[i] + (if nodeWords s.roster[i.val]? = nodeWords l[i.val]? then 0 else 2))
    ∧ (∀ (s : State) (l : List NodeRec), Mem.wf 0 s.ram = true →
      let t := s.setRoster l
      let ends := fun i : Fin 48 => (∃ r, s.roster[i.val]? = some r ∧ r.backoffFrom.isSome = true)
        ∧ ∀ n, l[i.val]? = some n → n.backoffFrom = none
      let changed := fun (i : Fin 48) (x : Item) => x ∈ mirrorItems t i ∧ x ∉ mirrorItems s i
      t = { s with roster := l, mirrorCount := t.mirrorCount, ram := t.ram }
        ∧ (∀ (i : Fin 48) (x : Item), changed i x → ∀ w ∈ wordsFrom x.1 x.2, leNat (t.ramBytes w.1 2) = w.2 % 65536)
        ∧ (∀ i : Fin 48, ends i →
          leNat (t.ramBytes (0x1200 + 64 * i.val + 28) 2) = (l[i.val]?.elim 0 NodeRec.backoffShown) % 65536)
        ∧ ∀ a : Nat, (∀ (i : Fin 48) (x : Item), changed i x → a < x.1 ∨ x.1 + 2 * x.2.length ≤ a) →
          (∀ i : Fin 48, ends i → a ≠ 0x1200 + 64 * i.val + 28 ∧ a ≠ 0x1200 + 64 * i.val + 29) → t.ramByte a = s.ramByte a)
    ∧ (∀ (s : State) (r n m : NodeRec) (i : Fin 48), RosterOrdered s → s.roster[i.val]? = some r →
        n.car = r.car → n.drop = r.drop → nodeWords (some r) ≠ nodeWords (some n) → nodeWords (some n) ≠ nodeWords (some m) →
        let t := (s.setNode r.car r.drop n).setNode r.car r.drop m
        t.mirrorCount[i] = s.mirrorCount[i] + 4
          ∧ ∀ k : Fin 48, k ≠ i → t.roster[k.val]? = s.roster[k.val]? ∧ t.mirrorCount[k] = s.mirrorCount[k])
    ∧ ∀ (s : State) (i : Fin 48), Mem.wf 0 s.ram = true →
        (∀ w ∈ mirrorWords s i, leNat (s.showMirror.ramBytes w.1 2) = w.2 % 65536)
          ∧ ∀ k : Nat, 40 ≤ k → k < 64 → s.showMirror.ramByte (0x1200 + 64 * i.val + k) = 0

/-- A host access of the Exchange RAM moves one word, low byte first, and touches nothing else; while RESET_IN is held the RAM
reads 0x0000 and host writes are discarded; the four registers are read at all times as section 9.4 gives them. -/
def Obligations.HostReachesRamAndRegisters : Prop :=
  (
      ∀ (s : State), s.power = true → s.resetIn = false → Mem.wf 0 s.ram = true →
        (∀ w : BitVec 14,
            let v : Word := BitVec.ofNat 16 ((s.ramByte (2 * w.toNat)).toNat + 256 * (s.ramByte (2 * w.toNat + 1)).toNat)
            exec (.hostRamAccess (.ramRead w)) s = .next { s with pins := { s.pins with busData := v } })
          ∧ ∀ (w : BitVec 14) (d : Word), ∃ t, exec (.hostRamAccess (.ramWrite w d)) s = .next t
              ∧ t = { s with ram := t.ram }
              ∧ t.ramByte (2 * w.toNat) = d.extractLsb' 0 8 ∧ t.ramByte (2 * w.toNat + 1) = d.extractLsb' 8 8
              ∧ ∀ a : Nat, a ≠ 2 * w.toNat → a ≠ 2 * w.toNat + 1 → t.ramByte a = s.ramByte a)
    ∧ (
      ∀ (s : State), s.power = true →
        (s.resetIn = true → ∀ w d,
            exec (.hostRamAccess (.ramRead w)) s = .next { s with pins := { s.pins with busData := 0 } }
              ∧ exec (.hostRamAccess (.ramWrite w d)) s = .next s)
          ∧ ∀ r : BitVec 2, ∃ v : Word,
              exec (.hostRamAccess (.regRead r)) s = .next { s with pins := { s.pins with busData := v } }
              ∧ (r = 0 → v.toNat = s.run.code + 16 * s.cause.code) ∧ (r = 1 → v = s.ord.batch)
              ∧ (r = 2 → v.toNat = s.ntu.causes.toNat)
              ∧ (r = 3 → v.toNat = s.ntu.enables.toNat + (if s.ntu.tie then 128 else 0)))

/-- NOTICE shows the causes and a write clears those written 1; NOTICE ENABLE holds the enables and TIE; starts clear
all of them, a warm restart the causes only (those that its answers raise afterwards stand); an answer raises ORDER. -/
def Obligations.NoticeRegisters : Prop :=
  (∀ (s : State) (v : Word), s.power = true →
      exec (.hostRamAccess (.regRead 2)) s = .next { s with pins := { s.pins with busData := s.ntu.causes.setWidth 16 } }
        ∧ (let w : Word := s.ntu.enables.setWidth 16 ||| (if s.ntu.tie then 128 else 0)
          exec (.hostRamAccess (.regRead 3)) s = .next { s with pins := { s.pins with busData := w } })
        ∧ exec (.noticeWrite v) s = .next (
            let n := { s.ntu with causes := s.ntu.causes &&& ~~~ (v.extractLsb' 0 4) }
            { s with ntu := n, pins := { s.pins with noticeA := n.lineA, noticeB := n.lineB } })
        ∧ exec (.noticeEnableWrite v) s = .next (
            let n := { s.ntu with enables := v.extractLsb' 0 4, tie := v.getLsbD 7 }
            { s with ntu := n, pins := { s.pins with noticeA := n.lineA, noticeB := n.lineB } }))
    ∧ (∀ (s : State) (x : Cause) (v : Word),
        (v.extractLsb' 0 4 &&& x.mask ≠ 0 → ((s.raise x).clearCauses v).ntu.causes &&& x.mask = 0)
          ∧ ((s.clearCauses v).raise x).ntu.causes &&& x.mask ≠ 0)
    ∧ (∀ (s : State) (o : StartOutcome), s.power = false → ∃ t, exec (.powerStart o) s = .next t ∧ t.ntu = ⟨0, 0, false⟩)
    ∧ (∀ (s : State) (cut : Cut), s.power = true → s.resetIn = false →
        ∃ t, exec (.resetInAsserted cut) s = .next t ∧ t.ntu = ⟨0, 0, false⟩)
    ∧ (∀ (s : State) (v : Word) (o : RestartOutcome), s.isRunning = true → v.getLsbD 0 = true →
        ∃ t, exec (.warmRestart v o) s = .next t ∧ t.ntu.enables = s.ntu.enables ∧ t.ntu.tie = s.ntu.tie
          ∧ t.ntu.causes &&& 13 = 0 ∧ (s.isc.work = none → s.isc.queue = [] → t.ntu.causes = 0))
    ∧ ∀ (s : State) (j : OrderSlot) (b : List Byte) (a : Answer), (s.answer j b a).ntu.causes &&& 2 = 2

/-- With TIE clear PERMIT and ALERT drive NOTICE_A and the other two NOTICE_B, with TIE set all four NOTICE_A; a line
is active while a cause routed to it is raised and enabled; every step drives the lines so, a start and a warm restart
leave them inactive. -/
def Obligations.NoticeLines : Prop :=
  (∀ n : Ntu,
      (n.lineA = true ↔ ∃ i : Fin 4, n.causes.getLsbD i = true ∧ n.enables.getLsbD i = true ∧ (n.tie = true ∨ 2 ≤ i.val))
        ∧ (n.lineB = true ↔ n.tie = false ∧ ∃ i : Fin 4, n.causes.getLsbD i = true ∧ n.enables.getLsbD i = true ∧ i.val < 2))
    ∧ (∀ s t : State, NoticeLinesDriven s → step s = .next t → NoticeLinesDriven t)
    ∧ (∀ (s : State) (x : Cause) (v : Word),
        NoticeLinesDriven (s.raise x) ∧ NoticeLinesDriven (s.clearCauses v) ∧ NoticeLinesDriven (s.setEnables v))
    ∧ (∀ (s : State) (o : StartOutcome) (cut : Cut),
        (s.power = false → ∃ t, exec (.powerStart o) s = .next t ∧ t.ntu.enables = 0 ∧ t.pins.noticeA = false ∧ t.pins.noticeB = false)
          ∧ (s.power = true → s.resetIn = false →
            ∃ t, exec (.resetInAsserted cut) s = .next t ∧ t.ntu.enables = 0 ∧ t.pins.noticeA = false ∧ t.pins.noticeB = false))
    ∧ ∀ (s : State) (v : Word) (o : RestartOutcome), s.isRunning = true → v.getLsbD 0 = true →
        s.isc.work = none → s.isc.queue = [] →
        ∃ t, exec (.warmRestart v o) s = .next t ∧ t.pins.noticeA = false ∧ t.pins.noticeB = false

/-! ## The Order Unit -/

/-- A NUDGE write taken while RUNNING is one nudge, whatever the value; two writes are two; a read returns the batch
count and does not nudge. -/
def Obligations.NudgeIsOneNudge : Prop :=
  (∀ (s : State) (v : Word), s.isRunning = true → ∃ t, exec (.nudge v) s = .next t
      ∧ t = publish s (s.sample.slotCheck true)
      ∧ ∀ w : Word, exec (.nudge w) t = .next (publish t (t.sample.slotCheck true)))
    ∧ ∀ s : State, s.power = true →
      exec (.hostRamAccess (.regRead 1)) s = .next { s with pins := { s.pins with busData := s.ord.batch } }

/-- A sample reads the Steering Page, puts the clamped values in force, stops and starts the scan timer at a change of
its period, hands the other blocks theirs, and changes nothing else. That a return mark of 8189 to 8191 is ignored as it is
written, before rounding, is the model's reading (log 16). -/
def Obligations.SampleSetsValuesInForce : Prop :=
  ∀ s : State,
    let v := fun i => leNat (s.ramBytes (0x100 + i) 2)
    let o := s.sample.ord
    s.sample = { s with ord := o, chan := { s.chan with
        ordJrn := s.chan.ordJrn ++ [⟨o.ret, o.lw, o.hw⟩]
        ordRpl := s.chan.ordRpl ++ [.budgets (Vector.ofFn (fun c : Car => v (10 + 2 * c.val)))]
        ordPrm := s.chan.ordPrm ++ [Vector.ofFn (fun c : Car => decide (s.ramByte (0x100 + 22 + c.val) ≠ 0))] } }
      ∧ o = { s.ord with
          q := min 50 (v 2)
          scan := min 1000 (v 4)
          lw := max 256 (min 4096 (v 6))
          hw := max (max 256 (min 4096 (v 6)) + 256) (min 8188 (v 8))
          ret := if v 0 ≤ 8188 then 4 * (v 0 / 4) else s.ord.ret
          scanTimer := if min 1000 (v 4) = s.ord.scan then s.ord.scanTimer
            else if min 1000 (v 4) = 0 then none else some (min 1000 (v 4)) }

/-- The table of the slot check: what starts, restarts or leaves the quiet window; with Q = 0 it expires at once. -/
def Obligations.SlotCheckTable : Prop :=
  ∀ (s : State) (nudge : Bool),
    let found := ∃ j : OrderSlot, s.ramByte (0x200 + 128 * j.val) = 1 ∧ s.ord.owed[j] = false
    (s.ord.window = none → ¬ found → s.slotCheck nudge = s)
      ∧ (∀ n, s.ord.window = some n → nudge = false → s.slotCheck nudge = s)
      ∧ (s.ord.q ≠ 0 → (s.ord.window = none ∧ found) ∨ (s.ord.window.isSome = true ∧ nudge = true) →
          s.slotCheck nudge = { s with ord := { s.ord with window := some s.ord.q } })
      ∧ (s.ord.q = 0 → (s.ord.window = none ∧ found) ∨ (s.ord.window.isSome = true ∧ nudge = true) →
          s.slotCheck nudge = s.expireWindow)

/-- At a scan tick the ORD samples, checks the slots, delivers the tick to the RPL and starts the timer again; the uptime counts
in every run state and wraps, each ready clock that runs counts with it as far as 65,535, and nothing else changes but what
the Status Page shows of it. That a ready clock counts one at each uptime tick and stands at 65,535 is the model's choice
(log 5). -/
def Obligations.ScanTickAndUptime : Prop :=
  (
      ∀ s : State, s.isRunning = true → s.ord.scanTimer.isSome = true →
        ∃ t, exec .scanTick s = .next t
          ∧ let u := s.sample.slotCheck false
            t = publish s { u with chan := { u.chan with ordRpl := u.chan.ordRpl ++ [.scanTick] }
                                   ord := { u.ord with scanTimer := if u.ord.scan = 0 then none else some u.ord.scan } })
    ∧ (
      ∀ s : State, s.power = true → s.resetIn = false →
        exec .uptimeTick s = .next (publish s { s with
          ord := { s.ord with uptime := s.ord.uptime + 1 }
          rpl := Vector.ofFn (fun c : Car =>
            let r := s.rpl[c]
            { r with clock := if r.clockOn then min 65535 (r.clock + 1) else r.clock }) }))

/-- The window's expiry with no slot to take closes it without a batch; with slots to take the batch count rises by 1 and every
such slot is taken: a store order waits TAKEN in the ISC's queue, in slot order and as the kind its code names, and any other
order is answered at once; a slot not POSTED, or still owed, is left alone. The slots are taken one after the other: on the state
in which its slot is taken, a node order's answer and effect are those of its RESTORE, EXCLUDE or INCLUDE, and a kind not in the
table is REFUSED with UNKNOWN KIND and nothing else done. -/
def Obligations.BatchTaking : Prop :=
  ∀ s : State, s.isRunning = true → s.ord.window.isSome = true → Mem.wf 0 s.ram = true →
    let base := fun j : OrderSlot => 0x200 + 128 * j.val
    let posted := fun j : OrderSlot => decide (s.ramByte (base j) = 1) && !s.ord.owed[j]
    let kind := fun j : OrderSlot => (s.ramByte (base j + 1)).toNat
    let stores := fun j : OrderSlot => decide (kind j ∈ [0x10, 0x11, 0x12, 0x13, 0x14, 0x18, 0x19, 0x1A, 0x1B])
    let code : StoreKind → Nat := fun k => match k with
      | .openCopy => 0x10
      | .stageSegment => 0x11
      | .closeCopy => 0x12
      | .activateCopy => 0x13
      | .eraseCopy => 0x14
      | .protectGroup => 0x18
      | .unprotectAll => 0x19
      | .writeIdentity => 0x1A
      | .writeFleetTable => 0x1B
    ((∀ j, posted j = false) → exec .quietWindowExpiry s = .next { s with ord := { s.ord with window := none } })
      ∧ ((∃ j, posted j = true) → ∃ t, exec .quietWindowExpiry s = .next t
          ∧ t.ord.window = none ∧ t.ord.batch = s.ord.batch + 1
          ∧ t.isc.queue.map (fun o => (o.oslot, code o.kind, o.bytes))
              = s.isc.queue.map (fun o => (o.oslot, code o.kind, o.bytes))
                ++ ((List.finRange 32).filter (fun j => posted j && stores j)).map (fun j => (j, kind j, s.ramBytes (base j) 128))
          ∧ ∀ j : OrderSlot,
            (posted j = false → t.ord.owed[j] = s.ord.owed[j] ∧ t.ramBytes (base j) 128 = s.ramBytes (base j) 128)
              ∧ (posted j = true → t.ramByte (base j + 1) = s.ramByte (base j + 1)
                ∧ t.ramBytes (base j + 2) 2 = s.ramBytes (base j + 2) 2
                ∧ leNat (t.ramBytes (base j + 6) 2) = (s.ord.batch + 1).toNat
                ∧ leNat (t.ramBytes (base j + 124) 4) = s.ord.uptime.toNat
                ∧ (stores j = true → t.ramByte (base j) = 2 ∧ t.ord.owed[j] = true)
                ∧ (stores j = false → (t.ramByte (base j) = 3 ∨ t.ramByte (base j) = 4) ∧ t.ord.owed[j] = false)
                ∧ (stores j = false → kind j ∉ [1, 2, 3, 4] → t.ramByte (base j) = 4 ∧ t.ramByte (base j + 4) = 1
                  ∧ t.ramByte (base j + 5) = 0)))
      ∧ ((∃ j, posted j = true) → ∃ u : Nat → State,
          u 0 = { s with ord := { s.ord with window := none, batch := s.ord.batch + 1 } }
          ∧ exec .quietWindowExpiry s = .next (publish s (u 32))
          ∧ ∀ j : OrderSlot, (posted j = false → u (j.val + 1) = u j.val)
            ∧ (posted j = true → ∃ v : State,
              v = { u j.val with ram := v.ram, ord := { (u j.val).ord with owed := (u j.val).ord.owed.set j true } }
                ∧ v.ramByte (base j) = 2 ∧ leNat (v.ramBytes (base j + 6) 2) = (s.ord.batch + 1).toNat
                ∧ leNat (v.ramBytes (base j + 124) 4) = s.ord.uptime.toNat
                ∧ (∀ a : Nat, a ≠ base j → a < base j + 6 ∨ base j + 8 ≤ a → a < base j + 124 ∨ base j + 128 ≤ a →
                  v.ramByte a = (u j.val).ramByte a)
                ∧ (let b := s.ramBytes (base j) 128
                  let after := fun x : State × Answer => u (j.val + 1) = x.1.answer j b x.2
                  (kind j = 1 → after (v.restoreNode b)) ∧ (kind j = 2 → after (v.restoreCar b))
                    ∧ (kind j = 3 → after (v.excludeNode b)) ∧ (kind j = 4 → after (v.includeNode b))
                    ∧ (stores j = false → kind j ∉ [1, 2, 3, 4] → after (v, .refused .unknownKind))
                    ∧ (stores j = true → ∃ o : StoreOrder, o.oslot = j ∧ code o.kind = kind j ∧ o.bytes = b
                      ∧ u (j.val + 1) = { v with isc := { v.isc with queue := v.isc.queue ++ [o] } }))))

/-! ## Node orders (chapters 2, 4 and 9) -/

/-- RESTORE NODE is refused at the first test that holds; a node that passes is planned by the first row of R62 that holds,
to FAILED or to a queued job with its copy pinned, and its new state and plan reason are the results; whatever individual roll
call is owed to it is cancelled, an old job's copy unpinned, and a DOOR node's change of state reported to the permits; that
the report carries whether all the car's included door nodes then are READY is the model's reading (log 25). How
the new job is identified (the car's next number) is the model's choice (log 10). RESTORE CAR does the same of each drop in
ascending order, with the dispositions and their counts as results (the bytes between counts and dispositions, 0, are the
model's reading, log 13). -/
def Obligations.RestoreNodeTests : Prop :=
  (∀ (s : State) (b : List Byte),
    let plan := paramByte b 2
    (5 < paramByte b 0 ∨ paramByte b 1 = 0 ∨ 8 < paramByte b 1 ∨ (plan ≠ 1 ∧ plan ≠ 2) →
        s.restoreNode b = (s, .refused .badParameter))
      ∧ ∀ (c : Car) (d : Drop), paramByte b 0 = c.val → paramByte b 1 = d.val + 1 → plan = 1 ∨ plan = 2 →
        (s.findNode c d = none → s.restoreNode b = (s, .refused .notInRoster))
          ∧ ∀ r : NodeRec, s.findNode c d = some r →
            (r.isExcluded = true → s.restoreNode b = (s, .refused .excluded))
              ∧ (r.isExcluded = false → r.state = .dark → s.restoreNode b = (s, .refused .dark))
              ∧ (r.isExcluded = false → r.state = .awaiting ∨ r.state = .missing → s.restoreNode b = (s, .refused .notHeard))
              ∧ (r.isExcluded = false → r.state ∈ [.queued, .surveying, .loading, .starting] →
                s.restoreNode b = (s, .refused .busy))
              ∧ (r.isExcluded = false → r.state ∈ [.ready, .failed, .backoff] → ∀ f : HelloFields, r.hello = some f →
                ∃ (t : State) (r' : NodeRec), t.findNode c d = some r'
                  ∧ s.restoreNode b = (t, .done .ok [byteOf r'.state.code 0, byteOf r'.reason.code 0])
                  ∧ (let entry := fun (k : EntryKind) (l : List Byte) =>
                      (⟨.rpl, { kind := k, car := c.val, drop := d.val + 1, uptime := s.ord.uptime, body := l }⟩ : EntryReq)
                    let ready := t.roster.all (fun n =>
                      !(decide (n.car = c ∧ n.cls = .door) && !n.isExcluded) || decide (n.state = .ready))
                    let report := t.chan.rplPrm = s.chan.rplPrm
                      ++ (if r.cls = .door ∧ r'.state ≠ r.state then [⟨c, d, .state r.state r'.state, ready⟩] else [])
                    let old := fun k : CopyIx => if r.job.map RplJob.copy = some k then 1 else 0
                    let fails := fun reason : PlanReason => report
                      ∧ t.chan.rplClc[c] = s.chan.rplClc[c] ++ [.cancel d] ∧ t.rpl[c].nextJob = s.rpl[c].nextJob
                      ∧ (∀ k : CopyIx, t.isc.records[k].use = s.isc.records[k].use - old k)
                      ∧ r' = { r with attempt := 0, plan := none, reason := reason, marginal := false, state := .failed,
                                      job := none, backoffFrom := none, backoffShown := 0, cost := r'.cost,
                                      changedAt := if r.state = .failed then r.changedAt else s.ord.uptime }
                        ∧ t.ntu.causes.getLsbD 3 = true
                        ∧ (s.jrn.requests ++ [entry .nodeFailed [1, 1, byteOf reason.code 0, 0]]) <+: t.jrn.requests
                    let queues := fun (k : CopyIx) (p : Plan) (reason : PlanReason) => ∃ j : RplJob, report
                      ∧ t.rpl[c].nextJob = s.rpl[c].nextJob + 1
                      ∧ (∀ x : CopyIx, t.isc.records[x].use = s.isc.records[x].use - old x + (if x = k then 1 else 0))
                      ∧ r' = { r with attempt := 1, plan := some p, reason := reason, marginal := false, state := .queued,
                                      job := some j, backoffFrom := none, backoffShown := 0, cost := r'.cost,
                                      changedAt := s.ord.uptime }
                        ∧ j = { jid := s.rpl[c].nextJob, copy := k, place := .queue, s := 0, retry := 0, condemned := false
                                phase := some (if p = .compare then .survey else .load)
                                reload := if p = .compare then [] else List.range s.isc.records[k].desc.segments }
                        ∧ (s.jrn.requests ++ [entry .nodePlanned [byteOf p.code 0, byteOf reason.code 0, 0, 1]])
                            <+: t.jrn.requests
                        ∧ t.chan.rplClc[c] = s.chan.rplClc[c] ++ [.cancel d,
                            .jobEnters ⟨j.jid, d, r.cls, p, k, if p = .compare then .survey else .load, j.reload, 0⟩]
                    (r.cls ≠ f.cls → fails .classMismatch)
                      ∧ (r.cls = f.cls → s.activeCopy r.slot = none → fails .noImage)
                      ∧ ∀ k : CopyIx, r.cls = f.cls → s.activeCopy r.slot = some k →
                        let e := s.isc.records[k].desc
                        (e.cls ≠ r.cls.code → fails .imageClass)
                          ∧ (e.cls = r.cls.code →
                            if plan = 2 then queues k .full .ordered
                            else if f.image ≠ e.image ∨ f.version ≠ e.version ∨ f.segments ≠ e.segments then
                              queues k .full .otherImage
                            else if f.digestCapable = false then queues k .full .loadOnlyBoot
                            else queues k .compare .ordered))))
    ∧ ∀ (s : State) (b : List Byte),
      let plan := paramByte b 2
      (5 < paramByte b 0 ∨ (plan ≠ 1 ∧ plan ≠ 2) → s.restoreCar b = (s, .refused .badParameter))
        ∧ ∀ c : Car, paramByte b 0 = c.val → plan = 1 ∨ plan = 2 →
          ((∀ r ∈ s.roster, r.car ≠ c) → s.restoreCar b = (s, .refused .notInRoster))
            ∧ ((∃ r ∈ s.roster, r.car = c) → ∃ (t : Nat → State) (l : List Nat), t 0 = s ∧ l.length = 8
              ∧ s.restoreCar b = (t 8, .done .ok ([byteOf (l.count 1) 0, byteOf (l.count 2) 0, 0, 0, 0, 0, 0, 0]
                  ++ l.map (fun n => byteOf n 0)))
              ∧ ∀ (d : Drop) (one : List Byte), paramByte one 0 = c.val → paramByte one 1 = d.val + 1 → paramByte one 2 = plan →
                ∃ a : Answer, (t d.val).restoreNode one = (t (d.val + 1), a)
                  ∧ (a = .refused .notInRoster → l[d.val]? = some 0)
                  ∧ (∀ e, a = .refused e → e ≠ .notInRoster → l[d.val]? = some e.code)
                  ∧ (∀ n x, a = .done .ok [n, x] → l[d.val]? = some (if n = 4 then 1 else 2)))

/-- EXCLUDE NODE and INCLUDE NODE are refused, with nothing changed, BAD PARAMETER for a car above 5 or a drop outside 1 to 8 and
NOT IN ROSTER for a place the roster does not hold (R17). EXCLUDE NODE takes an included node to EXCLUDED at once, its job
staying, and pinned, only while it holds the line; the CLC is told to cancel whatever rounds are owed to the node and to end the
job where it stands in the queue or on the line. INCLUDE NODE takes an excluded node to AWAITING on an up car and to DARK
otherwise, and is refused while the job is still ending; on an up car a line in BOOT WAIT or its fast rounds drops it from the
heard set, one IDLE, SERVING or in another round is asked for an individual roll call, and one in OFF, of which R30 has no row, is
not asked (the model's own, log 53). Either tells the CLC of a node that leaves MISSING, reports a DOOR node to the permits and
makes the car's door counts afresh, and on a node already so changes nothing. The result bytes of an answer "no change" (log 13),
what the report carries of the car's door nodes (log 25), and that the line action goes by the car as the RPL has it (log 48) are
the model's reading. -/
def Obligations.ExcludeAndIncludeNode : Prop :=
  (∀ (s : State) (b : List Byte),
    let refused := fun e : RefusalCode => s.excludeNode b = (s, .refused e) ∧ s.includeNode b = (s, .refused e)
    (5 < paramByte b 0 ∨ paramByte b 1 = 0 ∨ 8 < paramByte b 1 → refused .badParameter)
      ∧ ∀ (c : Car) (d : Drop), paramByte b 0 = c.val → paramByte b 1 = d.val + 1 → s.findNode c d = none → refused .notInRoster)
  ∧ ∀ (s : State) (b : List Byte) (c : Car) (d : Drop) (r : NodeRec),
    paramByte b 0 = c.val → paramByte b 1 = d.val + 1 → s.findNode c d = some r →
    let counted := fun (t : State) (change : DoorChange) =>
      let door := fun n : NodeRec => decide (n.car = c ∧ n.cls = .door) && !n.isExcluded
      let ready := fun n : NodeRec => decide (n.state = .ready)
      t.chan.rplPrm = s.chan.rplPrm
          ++ (if r.cls = .door then [⟨c, d, change, t.roster.all (fun n => !door n || ready n)⟩] else [])
        ∧ t.rpl[c].total = (t.roster.filter door).length
        ∧ t.rpl[c].ready = (if s.rpl[c].up then (t.roster.filter (fun n => door n && ready n)).length else 0)
        ∧ ∀ x : Car, x ≠ c → t.rpl[x] = s.rpl[x]
    let told := s.chan.rplClc[c] ++ (if r.state = .missing then [.missing d false] else [])
    (r.isExcluded = true → s.excludeNode b = (s, .done .ok [1, byteOf r.state.code 0, 0]))
      ∧ (r.isExcluded = false → ∃ (t : State) (r' : NodeRec), t.findNode c d = some r'
          ∧ s.excludeNode b = (t, .done .ok [0, byteOf r.state.code 0,
              match r.job with
              | none => 0
              | some j => if j.place = .line then 2 else 1])
          ∧ .cancel d ∈ t.chan.rplClc[c]
          ∧ r' = { r with override := .exclude, state := .excluded, job := r.job.filter (fun j => decide (j.place = .line)),
                          backoffFrom := none, backoffShown := 0, cost := r'.cost, changedAt := r'.changedAt }
          ∧ t.chan.rplClc[c] = told ++ [.cancel d] ++ (match r.job with
            | none => []
            | some j => if j.place = .backoff then [] else [.endJob j.jid])
          ∧ (∀ k : CopyIx, t.isc.records[k].use = s.isc.records[k].use
            - (if r.job.any (fun j => decide (j.place ≠ .line ∧ j.copy = k)) then 1 else 0))
          ∧ counted t .excluded ∧ t.lines = s.lines)
      ∧ (r.isExcluded = false → s.includeNode b = (s, .done .ok [1, byteOf r.state.code 0, byteOf r.state.code 0]))
      ∧ (r.isExcluded = true → r.job.isSome = true → s.includeNode b = (s, .refused .busy))
      ∧ (r.isExcluded = true → r.job = none → ∃ (t : State) (r' : NodeRec), t.findNode c d = some r'
          ∧ s.includeNode b = (t, .done .ok [0, byteOf r.state.code 0, byteOf r'.state.code 0])
          ∧ r' = { r with override := .include, attempt := 0, state := if s.rpl[c].up then .awaiting else .dark,
                          cost := r'.cost, changedAt := r'.changedAt }
          ∧ counted t .included ∧ t.isc = s.isc
          ∧ (let l := s.lines[c]
            let fast := l.state = .off ∨ l.state = .bootWait ∨ (l.state = .rollCall ∧ l.round ≠ some .other)
            (s.rpl[c].up = false → t.lines = s.lines ∧ t.chan.rplClc[c] = told)
              ∧ (s.rpl[c].up = true → fast →
                t.lines = s.lines.set c { l with heard := DropSet.del l.heard d } ∧ t.chan.rplClc[c] = told)
              ∧ (s.rpl[c].up = true → ¬ fast → t.lines = s.lines ∧ t.chan.rplClc[c] = told ++ [.individual d])))

/-! ## Supply sensing (chapter 1) -/

/-- A falling edge of a PRESENT car begins a dip: the counter starts from 0 and each interval adds one; G, the flags
and every other block are as before, and the Status Page shows DIPPING. -/
def Obligations.FallingEdgeBeginsDip : Prop :=
  ∀ (c : Car) (s : State), s.ssuTakes c = true →
    (s.pins.csg[c] = true → s.ssu[c].state = .present →
        let t := { s with pins := { s.pins with csg := s.pins.csg.set c false }
                          ssu := s.ssu.set c { s.ssu[c] with state := .dipping, ticks := 0 } }
        exec (.csgFallingEdge c) s = .next (publish s t)
          ∧ (Mem.wf 0 s.ram = true → (publish s t).ramByte (0x60 + 16 * c.val) = 2))
      ∧ (s.ssu[c].state = .dipping → s.ssu[c].ticks < 7 →
        exec (.gapTick c) s = .next { s with ssu := s.ssu.set c { s.ssu[c] with ticks := s.ssu[c].ticks + 1 } })

/-- A failed return: a falling edge in RETURNING goes back to GAP at once, with the candidate discarded and the timer
stopped; the counter is not reset and keeps counting; no event and no entry; each rising edge takes a new candidate. -/
def Obligations.FailedReturn : Prop :=
  ∀ (c : Car) (s : State), s.ssuTakes c = true →
    (s.pins.csg[c] = true → s.ssu[c].state = .returning →
        exec (.csgFallingEdge c) s = .next (publish s { s with
          pins := { s.pins with csg := s.pins.csg.set c false }
          ssu := s.ssu.set c { s.ssu[c] with state := .gap, candidate := none, timer := none } }))
      ∧ (s.ssu[c].state = .gap ∨ s.ssu[c].state = .returning → s.ssu[c].unknown = false →
        exec (.gapTick c) s = .next { s with ssu := s.ssu.set c { s.ssu[c] with ticks := min 262143 (s.ssu[c].ticks + 1) } })
      ∧ (s.pins.csg[c] = false → s.ssu[c].state = .gap →
        let g := if s.ssu[c].unknown then 65535 else s.ssu[c].ticks / 4
        exec (.csgRisingEdge c) s = .next (publish s { s with
          pins := { s.pins with csg := s.pins.csg.set c true }
          ssu := s.ssu.set c { s.ssu[c] with state := .returning, candidate := some g, timer := some s.fleet.rq } }))

/-- A rising edge of a dipping car discards the dip; where a restart return is owed and the part is RUNNING it is delivered then,
with G 0, the restart flag set and the unknown flag clear (that it clears a held return too is the model's reading, log 20). A
car at or above the car count is not sensed: its edges move the pin alone, and nothing else of the SSU is taken. -/
def Obligations.RisingEdgeAndUnsensedCars : Prop :=
  (
      ∀ (c : Car) (s : State), s.ssuTakes c = true → s.pins.csg[c] = false → s.ssu[c].state = .dipping →
        let r := { s.ssu[c] with state := .present, ticks := 0 }
        (s.ssu[c].pend = false ∨ s.isRunning = false →
            exec (.csgRisingEdge c) s = .next (publish s { s with
              pins := { s.pins with csg := s.pins.csg.set c true }, ssu := s.ssu.set c r }))
          ∧ (s.ssu[c].pend = true → s.isRunning = true → ∃ t, exec (.csgRisingEdge c) s = .next t
            ∧ t.ssu = s.ssu.set c { r with g := 0, unknown := false, restart := true, pend := false, held := none }
            ∧ t.chan.ssuRpl[c] = s.chan.ssuRpl[c] ++ [.ret 0 false true s.ord.uptime]
            ∧ t.chan.ssuClc[c] = s.chan.ssuClc[c] ++ [.ret 0 false true s.ord.uptime]
            ∧ t.chan.ssuPrm[c] = s.chan.ssuPrm[c] ++ [.ret 0 false true s.ord.uptime]
            ∧ (let e : Entry := { kind := .carReturn, car := c.val, drop := 0, uptime := s.ord.uptime, body := [0, 0, 2, 0] }
              t.jrn = { s.jrn with requests := s.jrn.requests ++ [⟨.ssu, e⟩] })))
    ∧ (
      ∀ (c : Car) (s : State), s.fleet.carCount ≤ c.val →
        exec (.csgFallingEdge c) s = .next { s with pins := { s.pins with csg := s.pins.csg.set c false } }
          ∧ exec (.csgRisingEdge c) s = .next { s with pins := { s.pins with csg := s.pins.csg.set c true } }
          ∧ exec (.gapTick c) s = .next s ∧ exec (.lossQualified c) s = .next s ∧ exec (.returnTimerExpiry c) s = .next s)

/-- The eighth tick of a dip qualifies the loss: GAP with the counter at 8 and both flags clear, and CAR LOSS delivered
to the three blocks in RUNNING, to none in RESTARTING. That a loss in RUNNING clears a held return is the model's reading
(log 20), that GAP_TICK and LOSS_QUALIFIED take the same tick its choice (log 2). -/
def Obligations.EighthTickQualifiesLoss : Prop :=
  ∀ (c : Car) (s : State), s.ssuTakes c = true → s.ssu[c].state = .dipping → s.ssu[c].ticks = 7 →
    let v := s.ssu.set c { s.ssu[c] with state := .gap, ticks := 8, unknown := false, restart := false, pend := false,
                                         held := none }
    let n : Channels := { s.chan with
      ssuRpl := s.chan.ssuRpl.set c (s.chan.ssuRpl[c] ++ [.loss s.ord.uptime])
      ssuClc := s.chan.ssuClc.set c (s.chan.ssuClc[c] ++ [.loss s.ord.uptime])
      ssuPrm := s.chan.ssuPrm.set c (s.chan.ssuPrm[c] ++ [.loss s.ord.uptime]) }
    ∀ i : Instr, i = .gapTick c ∨ i = .lossQualified c →
      (s.isRunning = true → exec i s = .next (publish s { s with ssu := v, chan := n }))
        ∧ (s.isRunning = false → exec i s = .next (publish s { s with ssu := v }))

/-- The return timer's expiry qualifies the return: PRESENT with G the candidate, and CAR RETURN delivered and asked for
as an entry in RUNNING, held in RESTARTING. -/
def Obligations.ReturnTimerQualifiesReturn : Prop :=
  ∀ (c : Car) (s : State) (g : Nat), s.ssuTakes c = true → s.ssu[c].state = .returning → s.ssu[c].timer.isSome = true →
    s.ssu[c].candidate = some g →
    let r := { s.ssu[c] with state := .present, g := g, candidate := none, ticks := 0, timer := none }
    let e : CarEvent := .ret g r.unknown r.restart s.ord.uptime
    let n : Channels := { s.chan with
      ssuRpl := s.chan.ssuRpl.set c (s.chan.ssuRpl[c] ++ [e])
      ssuClc := s.chan.ssuClc.set c (s.chan.ssuClc[c] ++ [e])
      ssuPrm := s.chan.ssuPrm.set c (s.chan.ssuPrm[c] ++ [e]) }
    let b := le16 g ++ [byteOf (bit r.unknown + 2 * bit r.restart) 0, 0]
    let x : Entry := { kind := .carReturn, car := c.val, drop := 0, uptime := s.ord.uptime, body := b }
    (s.isRunning = true → exec (.returnTimerExpiry c) s = .next (publish s { s with
        ssu := s.ssu.set c r, chan := n, jrn := { s.jrn with requests := s.jrn.requests ++ [⟨.ssu, x⟩] } }))
      ∧ (s.isRunning = false →
        exec (.returnTimerExpiry c) s = .next (publish s { s with ssu := s.ssu.set c { r with held := some s.ord.uptime } }))

/-! ## Car events at the planner, the line and the permits -/

/-- The RPL takes CAR LOSS: each node of the car not EXCLUDED goes DARK, every live job of the car ends and releases its pin,
one CAR LOSS entry names the drops that had one, the CLC hears of every node that leaves MISSING, and the PRM of every DOOR node
that goes DARK; other cars' nodes are as before. Of the CLC's reports still waiting those of the cycle that ends are discarded and
those handed after the CLC took the loss are kept, which is the model's reading (log 4). The RPL's record as it then stands (elapsed
time and gap kept) and the nodes' cost of 0 at once are the model's choice (log 30), what a report carries of the car's other door
nodes its reading (log 25). -/
def Obligations.PlannerTakesCarLoss : Prop :=
  ∀ (c : Car) (s : State) (u : Long) (rest : List CarEvent), s.isRunning = true → s.chan.ssuRpl[c] = .loss u :: rest →
    ∃ t, exec (.rplCarLoss c) s = .next t
      ∧ t.rpl = s.rpl.set c { s.rpl[c] with up := false, ready := 0, blocked := false, late := false, settled := false,
                                            clock := 0, clockOn := false, e := 65535, p := 65535 }
      ∧ t.chan.ssuRpl[c] = rest ∧ t.roster.length = s.roster.length
      ∧ (∀ (i : Nat) (r : NodeRec), s.roster[i]? = some r → ∃ r', t.roster[i]? = some r'
          ∧ (r.car ≠ c → r' = r)
          ∧ (r.car = c → r' = { r with state := if r.state = .excluded then .excluded else .dark, job := none,
                                       backoffFrom := none, backoffShown := 0, cost := 0, changedAt := r'.changedAt }))
      ∧ (let drops := (s.roster.filter (fun r => decide (r.car = c) && r.job.isSome)).map (fun r => byteOf (r.drop.val + 1) 0)
        let b := pad4 (byteOf drops.length 0 :: drops)
        let e : Entry := { kind := .carLoss, car := c.val, drop := 0, uptime := u, body := b }
        t.jrn = { s.jrn with requests := s.jrn.requests ++ [⟨.rpl, e⟩] })
      ∧ (∀ r ∈ s.roster, r.car = c → r.state = .missing → .missing r.drop false ∈ t.chan.rplClc[c])
      ∧ (s.chan.handed[c] = [] → t.chan.clcRpl = s.chan.clcRpl.set c [])
      ∧ (∀ (n : Nat) (later : List Nat), s.chan.handed[c] = n :: later →
        t.chan.clcRpl = s.chan.clcRpl.set c (s.chan.clcRpl[c].drop n)
          ∧ t.chan.handed = s.chan.handed.set c (later.map (fun k => k - n)))
      ∧ (∀ k : CopyIx, t.isc.records[k] = { s.isc.records[k] with use := s.isc.records[k].use
          - (s.roster.filter (fun r => decide (r.car = c) && decide (r.job.map RplJob.copy = some k))).length })
      ∧ (let ready := t.roster.all (fun n =>
          !(decide (n.car = c ∧ n.cls = .door) && !n.isExcluded) || decide (n.state = .ready))
        let gone := s.roster.filter (fun r =>
          decide (r.car = c ∧ r.cls = .door) && decide (r.state ≠ .excluded ∧ r.state ≠ .dark))
        t.chan.rplPrm = s.chan.rplPrm ++ gone.map (fun r => ⟨c, r.drop, .state r.state .dark, ready⟩))
      ∧ t.lines = s.lines ∧ t.prm = s.prm ∧ t.ssu = s.ssu ∧ t.ntu = s.ntu ∧ t.flash = s.flash

/-- The RPL takes CAR RETURN: the car is up with the gap the event carries, its ready clock runs from the event's uptime
unless its doors are settled, its DARK nodes go to AWAITING with attempt number 0, and no other field of any record changes
but the remaining costs; a LATE or ON TIME that the estimate then gives carries the event's uptime. The reports the CLC has handed
by then wait on. That the clock starts at the whole milliseconds since that uptime, its difference modulo 2^32, and stands at 65,535
is the model's choice (log 5). -/
def Obligations.PlannerTakesCarReturn : Prop :=
  ∀ (c : Car) (s : State) (g : Nat) (unknown restart : Bool) (u : Long) (rest : List CarEvent), s.isRunning = true →
    s.chan.ssuRpl[c] = .ret g unknown restart u :: rest →
    ∃ t, exec (.rplCarReturn c) s = .next t
      ∧ t.rpl[c].up = true ∧ t.rpl[c].gapG = g ∧ t.rpl[c].gapUnknown = unknown ∧ t.rpl[c].gapRestart = restart
      ∧ ((∃ r ∈ s.roster, r.car = c ∧ r.cls = .door ∧ r.isExcluded = false) →
        t.rpl[c].settled = false ∧ t.rpl[c].clockOn = true ∧ t.rpl[c].clock = min 65535 (s.ord.uptime - u).toNat)
      ∧ ((∀ r ∈ s.roster, r.car = c → r.cls = .door → r.isExcluded = true) →
        t.rpl[c].settled = true ∧ t.rpl[c].clockOn = false ∧ t.rpl[c].clock = 0)
      ∧ t.rpl[c].ready = 0 ∧ t.rpl[c].blocked = false ∧ (∀ d : Car, d ≠ c → t.rpl[d] = s.rpl[d])
      ∧ t.chan = { s.chan with ssuRpl := s.chan.ssuRpl.set c rest, rplPrm := t.chan.rplPrm } ∧ t.roster.length = s.roster.length
      ∧ (∀ (i : Nat) (r : NodeRec), s.roster[i]? = some r → ∃ r', t.roster[i]? = some r'
          ∧ (r.car = c ∧ r.state = .dark →
            r' = { r with state := .awaiting, attempt := 0, cost := r'.cost, changedAt := r'.changedAt })
          ∧ (¬ (r.car = c ∧ r.state = .dark) → r' = { r with cost := r'.cost }))
      ∧ t.rpl[c].late = decide (s.rpl[c].budget ≠ 0 ∧ s.rpl[c].budget < t.rpl[c].p)
      ∧ (let e : Entry := { kind := if t.rpl[c].late then .late else .onTime, car := c.val, drop := 0, uptime := u
                            body := le16 t.rpl[c].p ++ le16 s.rpl[c].budget }
        t.jrn = { s.jrn with requests := s.jrn.requests ++ (if t.rpl[c].late = s.rpl[c].late then [] else [⟨.rpl, e⟩]) })
      ∧ t.lines = s.lines ∧ t.prm = s.prm ∧ t.ssu = s.ssu ∧ t.isc = s.isc ∧ t.flash = s.flash

/-- The line at the car's events: CAR LOSS puts it in OFF with timers stopped, sets, queue and job empty, its driver
disabled, and the error count, the hold flag and a read in progress kept; CAR RETURN in OFF begins BOOT WAIT. That the reports
handed before the loss wait for an RPL that has not taken it, told apart from later ones by their number, and are discarded where
it has, is the model's reading (log 4). -/
def Obligations.LineTakesCarEvents : Prop :=
  ∀ (c : Car) (s : State) (rest : List CarEvent), s.isRunning = true →
    let l := s.lines[c]
    let off : Line := { Line.reset with errors := l.errors, hold := l.hold, bufX := l.bufX.released, bufY := l.bufY.released }
    (∀ u : Long, s.chan.ssuClc[c] = .loss u :: rest → ∃ t, exec (.clcCarLoss c) s = .next t
        ∧ t.lines[c] = off
        ∧ (∀ d : Car, d ≠ c → t.lines[d] = s.lines[d]) ∧ t.chan.ssuClc[c] = rest
        ∧ (rest.length < s.chan.ssuRpl[c].length → t.chan.clcRpl = s.chan.clcRpl
          ∧ t.chan.handed = s.chan.handed.set c (s.chan.handed[c] ++ [s.chan.clcRpl[c].length]))
        ∧ (s.chan.ssuRpl[c].length ≤ rest.length → t.chan.clcRpl = s.chan.clcRpl.set c []
          ∧ t.chan.handed = s.chan.handed.set c [])
        ∧ (∀ q ∈ t.isc.requests, ∀ y k, q.who = .job c y k → ¬ (s.lines[c].buf y).state = .waiting)
        ∧ t.isc.reading = s.isc.reading ∧ t.dge = s.dge
        ∧ t.roster = s.roster ∧ t.rpl = s.rpl ∧ t.jrn = s.jrn ∧ t.prm = s.prm)
      ∧ (∀ g unknown restart u, s.chan.ssuClc[c] = .ret g unknown restart u :: rest → s.lines[c].state = .off →
        exec (.clcCarReturn c) s = .next (publish s { s with
          chan := { s.chan with ssuClc := s.chan.ssuClc.set c rest },
          lines := s.lines.set c { s.lines[c] with state := .bootWait, bootTimer := some s.fleet.boot } }))

/-- The PRM on its four kinds of news: the record takes what the event gives, the permit becomes what the four terms of
R118 give, DPc follows it, and a change asks for one PERMIT entry with its cause and raises PERMIT; a withhold sample is shown
in every car's summary, changed or not. The model's own: what stands
for the fourth term at a door report (log 25), at CAR RETURN and while the RPL is behind the PRM (log 44), the uptime of an
entry caused by a car event (log 38), and the ascending order of the cars of one withhold sample (log 37). -/
def Obligations.PermitFollowsCondition : Prop :=
  ∀ (s : State), s.isRunning = true → PermitsHeld s →
    let door := fun (r : NodeRec) (c : Car) => decide (r.car = c) && decide (r.cls = .door) && !r.isExcluded
    let has := fun c : Car => s.roster.any (fun r => door r c)
    let doors := fun c : Car => s.roster.all (fun r => !door r c || decide (r.state = .ready))
      && (!has c || decide (s.chan.ssuRpl[c].length ≤ s.chan.ssuPrm[c].length))
    let ok := fun (p : PrmCar) (d : Bool) => p.up && !p.withhold && decide (0 < p.doorRecords) && d
    let entry := fun (c : Car) (on : Bool) (cause : Nat) (u : Long) =>
      (⟨.prm, { kind := .permit, car := c.val, drop := 0, uptime := u,
                body := [byteOf (bit on) 0, byteOf cause 0, 0, 0] }⟩ : EntryReq)
    let others := fun t : State => t.roster = s.roster ∧ t.rpl = s.rpl ∧ t.lines = s.lines ∧ t.ssu = s.ssu ∧ t.isc = s.isc
      ∧ t.ord = s.ord
    let evaluated := fun (t : State) (c : Car) (p : PrmCar) (now : Bool) (on off : Nat) (u : Long) =>
      t.prm = s.prm.set c { p with active := now } ∧ t.pins.dp = s.pins.dp.set c now
        ∧ t.jrn = { s.jrn with requests := s.jrn.requests
            ++ (if now = s.prm[c].active then [] else [entry c now (if now then on else off) u]) }
        ∧ t.ntu = { s.ntu with causes := if now = s.prm[c].active then s.ntu.causes else s.ntu.causes ||| 4 }
        ∧ others t
    (∀ (c : Car) (u : Long) (rest : List CarEvent), s.chan.ssuPrm[c] = .loss u :: rest →
        ∃ t, exec (.prmCarLoss c) s = .next t ∧ evaluated t c { s.prm[c] with up := false } false 7 1 u)
      ∧ (∀ (c : Car) (g : Nat) (x y : Bool) (u : Long) (rest : List CarEvent), s.chan.ssuPrm[c] = .ret g x y u :: rest →
        let p := { s.prm[c] with up := true }
        ∃ t, exec (.prmCarReturn c) s = .next t ∧ evaluated t c p (ok p (!has c)) 7 1 u)
      ∧ (∀ (r : DoorReport) (rest : List DoorReport), s.chan.rplPrm = r :: rest →
        let p := s.prm[r.car]
        let withdraws := match r.change with
          | .state old _ => decide (old = .ready)
          | .included => true
          | .excluded => false
        ∃ t, exec .prmDoorReport s = .next t
          ∧ evaluated t r.car p
              (ok p (!withdraws && doors r.car && (p.active || r.allReady)))
              (if r.change = .excluded then 5 else 4) 2
              s.ord.uptime)
      ∧ (∀ (f : Vector Bool 6) (rest : List (Vector Bool 6)), s.chan.ordPrm = f :: rest →
        let now := fun c : Car => if f[c] = s.prm[c].withhold then s.prm[c].active
          else ok { s.prm[c] with withhold := f[c] } (doors c)
        let turned := (List.finRange 6).filter (fun c => decide (now c ≠ s.prm[c].active))
        ∃ t, exec .prmWithholdSample s = .next t
          ∧ (∀ c : Car, t.prm[c] = { s.prm[c] with withhold := f[c], active := now c } ∧ t.pins.dp[c] = now c
            ∧ (Mem.wf 0 s.ram = true → (t.ramByte (0x61 + 16 * c.val)).getLsbD 3 = f[c]
              ∧ (t.ramByte (0x61 + 16 * c.val)).getLsbD 2 = now c))
          ∧ t.jrn = { s.jrn with requests := s.jrn.requests
              ++ (turned.map (fun c => entry c (now c) (if now c then 6 else 3) s.ord.uptime)) }
          ∧ t.ntu = { s.ntu with causes := if turned = [] then s.ntu.causes else s.ntu.causes ||| 4 }
          ∧ others t)

/-! ## The result journal (chapter 10) -/

/-- The JRN takes a block's first request, wherever it stands among those of the others: it leaves the requests and is handled
as an entry. A PERMIT request behind a NODE READY request of its car, and a NODE FAILED request behind a COPY STATE request, wait
(R123, R137): that they do so at the JRN is the model's reading (log 4). That the command then changes nothing, and nothing for a
block with no request waiting, is its own choice (log 2). -/
def Obligations.JournalTakesFirstRequest : Prop :=
  ∀ (s : State), s.isRunning = true →
    (∀ (q : EntryReq) (rest : List EntryReq), s.jrn.requests = q :: rest →
        exec (.journalEntryRequest q.src) s
          = .next (publish s (({ s with jrn := { s.jrn with requests := rest } }).takeEntry q.entry)))
      ∧ (∀ (q : EntryReq) (before rest : List EntryReq), s.jrn.requests = before ++ q :: rest → (∀ p ∈ before, p.src ≠ q.src) →
        let waits := ∃ p ∈ before, (p.entry.kind = .nodeReady ∧ q.entry.kind = .permit ∧ p.entry.car = q.entry.car)
          ∨ (p.entry.kind = .copyState ∧ q.entry.kind = .nodeFailed)
        (¬ waits → exec (.journalEntryRequest q.src) s
            = .next (publish s (({ s with jrn := { s.jrn with requests := before ++ rest } }).takeEntry q.entry)))
          ∧ (waits → exec (.journalEntryRequest q.src) s = .next s))
      ∧ ∀ src : Source, (∀ q ∈ s.jrn.requests, q.src ≠ src) → exec (.journalEntryRequest src) s = .next s

/-- An entry with room is written whole at W, or after a WRAP filler at offset 0 where it does not fit before the end;
W moves past it, the room falls by what it needed, and JOURNAL is raised. A progress entry needs LW left besides. A COPY STATE
entry whose new state is TORN (6) or DAMAGED (7) raises ALERT as it is taken. -/
def Obligations.EntryWithRoomIsWritten : Prop :=
  ∀ (s : State) (e : Entry), JournalHeld s → e.sized → Mem.wf 0 s.ram = true → s.jrn.tally = 0 → s.jrn.backlog = [] →
    let fits := s.jrn.w + e.length ≤ 8192
    let needed := if s.jrn.w + e.length ≤ 8192 then e.length else (8192 - s.jrn.w) + e.length
    let t := s.takeEntry e
    needed ≤ s.jrn.room → (e.kind.isProgress = true → s.jrn.lw ≤ s.jrn.room - needed) →
    (fits → t.jrn.w = (s.jrn.w + e.length) % 8192 ∧ t.ramBytes (0x6000 + s.jrn.w) e.length = e.bytes)
      ∧ (¬ fits → t.jrn.w = e.length ∧ t.ramBytes 0x6000 e.length = e.bytes
          ∧ t.ramBytes (0x6000 + s.jrn.w) 4 = [0x7F, 4, 0xFF, 0])
      ∧ t.jrn.room = s.jrn.room - needed ∧ t.ntu.causes.getLsbD 0 = true
      ∧ t.ntu.causes = (s.ntu.causes ||| 1 ||| if e.kind = .copyState ∧ (e.body.getD 2 0 = 6 ∨ e.body.getD 2 0 = 7) then 8 else 0)
      ∧ t.jrn.r = s.jrn.r ∧ t.jrn.backlog = [] ∧ t.jrn.lost = s.jrn.lost ∧ t.jrn.withheld = s.jrn.withheld

/-- An entry without room: a progress entry is withheld and counted; an essential one joins the backlog, behind whatever
waits there, and with the backlog full is lost, counted twice over and marked by ALERT; the journal itself is unchanged. With
losses not yet reported and the backlog empty, the LOST entry with their tally is placed ahead of the entry asked for (its
uptime, that of its making, is the model's reading, log 32). -/
def Obligations.EntryWithoutRoom : Prop :=
  (∀ (s : State) (e : Entry),
    let needed := if s.jrn.w + e.length ≤ 8192 then e.length else (8192 - s.jrn.w) + e.length
    let t := s.takeEntry e
    (e.kind.isProgress = true → (s.jrn.backlog = [] → s.jrn.tally = 0 ∧ s.jrn.room < needed + s.jrn.lw) →
        t.jrn = { s.jrn with withheld := min 65535 (s.jrn.withheld + 1), hold := t.jrn.hold } ∧ t.ram = s.ram)
      ∧ (e.kind.isProgress = false → (s.jrn.backlog = [] → s.jrn.tally = 0 ∧ s.jrn.room < needed) →
        s.jrn.backlog.length < 16 →
        t.jrn = { s.jrn with backlog := s.jrn.backlog ++ [e], hold := t.jrn.hold } ∧ t.ram = s.ram)
      ∧ (e.kind.isProgress = false → 16 ≤ s.jrn.backlog.length →
        t.jrn = { s.jrn with tally := min 65535 (s.jrn.tally + 1), lost := min 65535 (s.jrn.lost + 1), hold := t.jrn.hold }
          ∧ t.ram = s.ram ∧ t.ntu.causes.getLsbD 3 = true))
    ∧ ∀ (s : State) (e : Entry), JournalHeld s → e.sized → Mem.wf 0 s.ram = true → s.jrn.backlog = [] → s.jrn.tally ≠ 0 →
      let t := s.takeEntry e
      let body := [byteOf s.jrn.tally 0, byteOf s.jrn.tally 1, 0, 0]
      let lost : Entry := { kind := .lost, car := 255, drop := 0, uptime := s.ord.uptime, body := body }
      let needed := if s.jrn.w + 12 ≤ 8192 then 12 else (8192 - s.jrn.w) + 12
      let at_ := 0x6000 + (if s.jrn.w + 12 ≤ 8192 then s.jrn.w else 0)
      t.jrn.tally = 0
        ∧ (needed ≤ s.jrn.room → t.ramBytes at_ 12 = lost.bytes ∧ t.ntu.causes.getLsbD 0 = true)
        ∧ (s.jrn.room < needed → t.ram = s.ram ∧ t.jrn.w = s.jrn.w
          ∧ t.jrn.backlog = (if e.kind.isProgress then [lost] else [lost, e]))

/-- No step overwrites an unreturned byte of the journal: whatever the command, but for a start, a supply loss and the host's
own access of the RAM, the bytes from the return mark then in force onwards to W read as before. -/
def Obligations.UnreturnedEntriesAreKept : Prop :=
  ∀ (i : Instr) (rest : List Instr) (s t : State), JournalHeld s → s.pending = i :: rest → step s = .next t →
    (∀ o, i ≠ .powerStart o) → (∀ cut, i ≠ .powerLost cut) → (∀ cut, i ≠ .resetInAsserted cut) →
    (∀ o, i ≠ .resetInReleased o) → (∀ a, i ≠ .hostRamAccess a) →
    (∀ k : Nat, k < 8192 → (k + 8192 - t.jrn.r) % 8192 < (s.jrn.w + 8192 - t.jrn.r) % 8192 →
        t.ramByte (0x6000 + k) = s.ramByte (0x6000 + k))
      ∧ (i ≠ .jrnSteeringValues → (∀ b, i ≠ .returnToRunning b) → t.jrn.r = s.jrn.r)

/-- The JRN takes a sample's return mark, LW and HW: heads of the backlog are written in order at W while they fit, a LOST
entry with the tally joins the tail as the first place frees, what remains is the rest of the backlog with a head that does not
fit, and the hold flag is tested, every CLC told of a change. The LOST entry's uptime, that of its making, is the model's
reading (log 32). -/
def Obligations.SteeringValuesDrainBacklog : Prop :=
  ∀ (s : State) (v : Steering) (rest : List Steering), s.isRunning = true → JournalHeld s → s.chan.ordJrn = v :: rest →
    let s1 := { s with chan := { s.chan with ordJrn := rest }, jrn := { s.jrn with r := v.ret, lw := v.lw, hw := v.hw } }
    let lost : Entry := { kind := .lost, car := 255, drop := 0, uptime := s.ord.uptime,
                          body := [byteOf s.jrn.tally 0, byteOf s.jrn.tally 1, 0, 0] }
    let room := fun w : Nat => (v.ret + 16384 - w - 4) % 8192
    let needed := fun (w n : Nat) => if w + n ≤ 8192 then n else (8192 - w) + n
    let after := fun (w : Nat) (e : Entry) => if w + e.length ≤ 8192 then (w + e.length) % 8192 else e.length
    ∃ (t : State) (out : List Entry), exec .jrnSteeringValues s = .next t
      ∧ s.jrn.backlog ++ (if out ≠ [] ∧ s.jrn.tally ≠ 0 then [lost] else []) = out ++ t.jrn.backlog
      ∧ (∀ (n : Nat) (e : Entry), out[n]? = some e →
        needed ((out.take n).foldl after s.jrn.w) e.length ≤ room ((out.take n).foldl after s.jrn.w))
      ∧ (∀ (e : Entry) (l : List Entry), t.jrn.backlog = e :: l → room t.jrn.w < needed t.jrn.w e.length)
      ∧ t.jrn.w = out.foldl after s.jrn.w ∧ t.jrn.room = room t.jrn.w
      ∧ (∀ a : Nat, 0x6000 ≤ a → t.ramByte a = (out.foldl State.writeEntry s1).ramByte a)
      ∧ t.ntu = { s.ntu with causes := if out = [] then s.ntu.causes else s.ntu.causes ||| 1 }
      ∧ t.jrn = { s.jrn with r := v.ret, lw := v.lw, hw := v.hw, w := t.jrn.w, backlog := t.jrn.backlog, hold := t.jrn.hold
                             tally := if out = [] then s.jrn.tally else 0 }
      ∧ (s.jrn.hold = false → t.jrn.hold = decide (t.jrn.room < v.lw))
      ∧ (s.jrn.hold = true → t.jrn.hold = decide (t.jrn.room < v.hw))
      ∧ (∀ c : Car, t.chan.jrnClc[c] = s.chan.jrnClc[c] ++ (if t.jrn.hold = s.jrn.hold then [] else [t.jrn.hold]))
      ∧ t.chan = { s.chan with ordJrn := rest, jrnClc := t.chan.jrnClc }
      ∧ t.roster = s.roster ∧ t.rpl = s.rpl ∧ t.lines = s.lines ∧ t.prm = s.prm ∧ t.isc = s.isc ∧ t.ord = s.ord
      ∧ t.ssu = s.ssu ∧ t.flash = s.flash ∧ t.fleet = s.fleet ∧ t.pending = s.pending

/-! ## Digests and frames (chapters 3 and 5) -/

/-- The digest of bytes: A is one more than their sum and B the sum of the partial values of A, both mod 65521, its bytes least
significant first. A masked digest takes each byte that some span covers as 0x00 in its own place and every other as it is; a
run fed in parts, each from its own image position, gives the digest of the whole. -/
def Obligations.DigestsOfBytes : Prop :=
  (
      (∀ l : List Byte,
          let a := fun n : Nat => (1 + ((l.take n).map BitVec.toNat).sum) % 65521
          let b := ((List.range l.length).map (fun n => a (n + 1))).sum % 65521
          digestOf l = BitVec.ofNat 32 (b * 65536 + a l.length)
            ∧ (digestOf l).toNat / 65536 ≤ 65520 ∧ (digestOf l).toNat % 65536 ≤ 65520)
        ∧ ∀ d : Long, le32 d.toNat = [d.extractLsb' 0 8, d.extractLsb' 8 8, d.extractLsb' 16 8, d.extractLsb' 24 8]
            ∧ longAt (le32 d.toNat) 0 = d.toNat)
    ∧ (
      (∀ (spans : List Span) (p i : Nat) (l : List Byte) (b : Byte), l[i]? = some b →
          (maskFrom spans p l).length = l.length
            ∧ ((∃ x ∈ spans, x.off ≤ p + i ∧ p + i < x.off + x.len) → (maskFrom spans p l)[i]? = some 0)
            ∧ (¬ (∃ x ∈ spans, x.off ≤ p + i ∧ p + i < x.off + x.len) → (maskFrom spans p l)[i]? = some b))
        ∧ ∀ (spans : List Span) (p : Nat) (l m : List Byte) (z : Sums),
          z.feedAll (maskFrom spans p (l ++ m)) = (z.feedAll (maskFrom spans p l)).feedAll (maskFrom spans (p + l.length) m)
            ∧ maskFrom [] p l = l)

/-- The check is the CRC of R76: from 0xFFFF each byte enters the register with its most significant bit first, under the
polynomial 0x1021; of the ASCII digits 1 to 9 it is 0x29B1, and over a run followed by its own check, high byte first, it is 0.
Every frame a node sends in the form of section 5.3, with that check low byte first, is read back as what it carries; the part's
own four frames are read as from no drop. A frame is discarded whose length field is above 2097, whose bytes disagree in number
with it, whose check is another, whose address names no drop, whose kind is unknown, or that is a HELLO of other than 9 bytes. A
DIGEST LIST, LOAD ACK or RUNNING of sound check whose payload has another form than section 5.3 gives it is not among these: it
is taken as a reply whose fields disagree (R79), which is the model's reading (log 33). -/
def Obligations.FramesAreReadBack : Prop :=
  (crc16 [] = 0xFFFF
      ∧ (∀ (l : List Byte) (b : Byte), crc16 (l ++ [b])
        = (List.range 8).foldl (fun (r : Word) _ => (r <<< 1) ^^^ (if r.getLsbD 15 then 0x1021 else 0))
            (crc16 l ^^^ (b.setWidth 16 <<< 8)))
      ∧ crc16 [0x31, 0x32, 0x33, 0x34, 0x35, 0x36, 0x37, 0x38, 0x39] = 0x29B1
      ∧ ∀ l : List Byte, crc16 (l ++ [(crc16 l).extractLsb' 8 8, (crc16 l).extractLsb' 0 8]) = 0)
    ∧ (∀ (address kind : Nat) (p : List Byte),
      let body := [byteOf address 0, byteOf kind 0, byteOf p.length 0, byteOf p.length 1] ++ p
      mkFrame address kind p = [0xA5] ++ body ++ [(crc16 body).extractLsb' 0 8, (crc16 body).extractLsb' 8 8])
    ∧ (∀ (address kind : Byte) (n : Nat) (p : List Byte) (check : Word), n < 65536 →
      let head := [address, kind, byteOf n 0, byteOf n 1]
      (2097 < n → judgeBytes (0xA5 :: head ++ p) = .bad true)
        ∧ (n ≤ 2097 → p.length ≠ n + 2 → judgeBytes (0xA5 :: head ++ p) = .bad false)
        ∧ (n ≤ 2097 → p.length = n →
          check ≠ crc16 (head ++ p) ∨ address.toNat < 0x81 ∨ 0x88 < address.toNat ∨ kind ∉ [0x11, 0x21, 0x31, 0x41]
            ∨ (kind = 0x11 ∧ n ≠ 9) → judgeBytes (0xA5 :: head ++ p ++ le16 check.toNat) = .bad false))
    ∧ (∀ l : List Byte, l.length < 5 → judgeBytes l = .bad false)
    ∧ ∀ (d : Drop),
    (∀ (cls ram boot : Byte) (image version segments : Word),
        judgeBytes (mkFrame (0x81 + d.val) 0x11
          ([cls, ram] ++ le16 image.toNat ++ le16 version.toNat ++ le16 segments.toNat ++ [boot]))
          = .frame d (.hello cls ram image version segments boot))
      ∧ (∀ (first : Word) (digests : List Long), digests.length ≤ 523 →
        judgeBytes (mkFrame (0x81 + d.val) 0x21
          (le16 first.toNat ++ le16 digests.length ++ digests.flatMap (fun x => le32 x.toNat)))
          = .frame d (.digestList first (BitVec.ofNat 16 digests.length) digests))
      ∧ (∀ (index : Word) (outcome : Byte),
        judgeBytes (mkFrame (0x81 + d.val) 0x31 (le16 index.toNat ++ [outcome])) = .frame d (.loadAck index outcome))
      ∧ (∀ p : List Byte, p.length ≤ 2097 →
        let malformed := fun kind : Nat => judgeBytes (mkFrame (0x81 + d.val) kind p) = .frame d .malformed
        (p.length < 4 ∨ p.length ≠ 4 + 4 * (byteAt p 2 + 256 * byteAt p 3) → malformed 0x21)
          ∧ (p.length ≠ 3 → malformed 0x31) ∧ (p.length ≠ 1 → malformed 0x41))
      ∧ (∀ outcome : Byte, judgeBytes (mkFrame (0x81 + d.val) 0x41 [outcome]) = .frame d (.running outcome))
      ∧ (∀ (silent : DropSet) (k : Desc) (whole : Long),
        judgeBytes (rollCallFrame silent) = .bad false ∧ judgeBytes (startFrame d k whole) = .bad false
          ∧ (7 + 5 * k.spans.length ≤ 2097 → judgeBytes (digestAskFrame d k) = .bad false)
          ∧ ∀ (index : Nat) (keep : List Span) (data : List Byte), 9 + 5 * keep.length + data.length ≤ 2097 →
            judgeBytes (loadFrame d index keep data whole) = .bad false)

/-! ## Starts and the warm restart (chapter 9, with each block's own) -/

/-- A power start puts every block in its start condition and makes the start-up: the Exchange RAM holds the Steering Page
defaults and zeros outside what the part shows, the identity is as flash gives it, the copy records are the scan's, the fleet
table and the roster those of a reading of flash as the scan left it, the permits are driven low, and the roster's nodes are DARK
or EXCLUDED; the Status Page and both mirrors show all this, with every change count 0. With RESET_IN held nothing is scanned or
read; that the cause is POWER then too (log 52), that roster and fleet table are then as on erased flash (log 28), and that a
car's job numbers start from 0 (log 10) are the model's own. -/
def Obligations.PowerStartStartsAfresh : Prop :=
  ∀ (s : State) (o : StartOutcome), s.power = false → ∃ t, exec (.powerStart o) s = .next t
    ∧ StartedAfresh t ∧ t.power = true ∧ t.cause = .power ∧ t.resetIn = s.resetIn ∧ t.ntu = ⟨0, 0, false⟩
    ∧ t.pending = s.pending
    ∧ (s.resetIn = true → t.roster = [] ∧ t.fleet.carCount = 0 ∧ t.flash = s.flash ∧ t.dge.fleet = ⟨0, 0⟩)
    ∧ (s.resetIn = false → ScannedAndBuilt s.flash o t
      ∧ (∀ r ∈ t.roster, r.job = none ∧ r.attempt = 0 ∧ r.override = .unset
        ∧ r.state = (if r.fleetExcl then .excluded else .dark) ∧ r.car.val < t.fleet.carCount)
      ∧ (∀ c : Car, t.prm[c].doorRecords = (t.roster.filter (fun r => decide (r.car = c ∧ r.cls = .door))).length))
    ∧ ∀ a : Nat, 0xC0 ≤ a → a < 0x1200 ∨ 0x2000 ≤ a →
      t.ramByte a = (if a = 0x102 then 2 else if a = 0x104 then 10 else if a = 0x107 then 4 else if a = 0x109 then 12 else 0)

/-- RESET_IN: its assertion abandons what is in flight and holds every block in its start condition with cause RESET PIN; its
release makes the start-up, the scan and the reading of the fleet table among it, and leaves the Exchange RAM as a start does: the
Status Page and both mirrors written, every change count 0. The loss of supply drives no permit. Assertion and loss leave flash as
it was where no erase or program is in flight; one in flight leaves no, part or all of its effect, as an operand says (log 9), an
identity program always an unreadable area, and everything outside its own place as it was. The model's own: a release keeps the
cause the start gave, POWER where the supply became good with RESET_IN already active (log 52); register writes made meanwhile
stand (log 17); what roster and RAM hold while RESET_IN is held or supply is lost (log 28); a car's job numbers start from 0 (log
10). -/
def Obligations.ResetInAndSupplyLoss : Prop :=
  let stops := fun (s t : State) (cut : Cut) =>
    ((∀ w, s.isc.work = some w → w.op = none) → t.flash = s.flash)
      ∧ ∀ (w : Work) (op : FlashOp), s.isc.work = some w → w.op = some op →
        let identity := ∃ n : Nat, op = .identity n
        (op.isErase = true → t.flash = s.flash.erase op cut)
          ∧ (op.isErase = false → ¬ identity →
            t.flash = s.flash.program op w.data w.table s.dge.closing.digest cut.left)
          ∧ (identity → t.flash.readIdentity = .unreadable)
          ∧ (cut.left = .nothing → cut.protect = [] → ¬ identity → t.flash = { s.flash with epoch := s.flash.epoch + 1 })
          ∧ (MemoryCanonical s → w.data.length ≤ 2048 → FlashKept op s.flash t.flash)
  (∀ (s : State) (cut : Cut), s.power = true → s.resetIn = false → ∃ t, exec (.resetInAsserted cut) s = .next t
      ∧ StartedAfresh t ∧ t.power = true ∧ t.resetIn = true ∧ t.cause = .resetPin ∧ t.roster = [] ∧ t.pending = s.pending
      ∧ stops s t cut)
    ∧ (∀ (s : State) (o : StartOutcome), s.power = true → s.resetIn = true → ∃ t, exec (.resetInReleased o) s = .next t
      ∧ StartedAfresh t ∧ t.power = true ∧ t.resetIn = false ∧ t.cause = s.cause ∧ t.ntu = s.ntu
      ∧ ScannedAndBuilt s.flash o t ∧ t.pending = s.pending
      ∧ ∀ r ∈ t.roster, r.job = none ∧ r.state = (if r.fleetExcl then .excluded else .dark))
    ∧ ∀ (s : State) (cut : Cut), s.power = true → ∃ t, exec (.powerLost cut) s = .next t
      ∧ StartedAfresh { t with pins := { t.pins with dpDriven := true } } ∧ t.power = false ∧ t.pins.dpDriven = false
      ∧ t.resetIn = s.resetIn ∧ t.ram = [] ∧ t.pending = s.pending
      ∧ stops s t cut

/-- The part enters RUNNING from STARTING: START-UP is the journal's first entry, with ALERT for a defaulted
table; each sensed car is sampled, to RETURNING with an unknown candidate or to GAP; the scan timer starts for the period
sampled. That ENTER_RUNNING changes nothing outside STARTING is the model's own choice (log 2). -/
def Obligations.EnterRunningSamplesCars : Prop :=
  ∀ (s : State), s.power = true → s.resetIn = false →
    (s.run = .starting → s.jrn = Jrn.reset → Mem.wf 0 s.ram = true → ∃ t, exec .enterRunning s = .next t
      ∧ t.run = .running ∧ t.cause = s.cause
      ∧ (∀ c : Car, c.val < s.fleet.carCount → t.ssu[c] = { SsuCar.reset with
          unknown := true
          state := if s.pins.csg[c] then .returning else .gap
          candidate := if s.pins.csg[c] then some 65535 else none
          timer := if s.pins.csg[c] then some s.fleet.rq else none })
      ∧ (∀ c : Car, s.fleet.carCount ≤ c.val → t.ssu[c] = s.ssu[c])
      ∧ t.ramByte 0x6000 = 0x01 ∧ t.ramByte 0x6001 = 16 ∧ 16 ≤ t.jrn.w
      ∧ (s.fleet.status ≠ .loaded → t.ntu.causes.getLsbD 3 = true) ∧ t.isc.scanEntries = []
      ∧ t.ord.scanTimer = (if t.ord.scan = 0 then none else some t.ord.scan) ∧ t.chan.ssuRpl = s.chan.ssuRpl)
      ∧ (s.run ≠ .starting → exec .enterRunning s = .next s)

/-- A PART STATE write with bit 0 set requests a warm restart in RUNNING alone: permits INACTIVE, driven low and shown so in every
summary, lines OFF with their error counts and hold flags, every order owed answered (the one in flight INTERRUPTED, without
results), each car's supply record kept but for a pending restart return, the values in force, the batch count and the uptime
kept, and (where no entry request waits and no loss is untaken) the backlog added to the lost tally and the lost count, W, the
withheld count and the hold flag kept. The store programs its pending marks in order, reads the identity and rescans the headers
with every use count 0, reloads the protection record with the unreadable marks in RAM kept, and writes the directory mirror
whole. Before that an erase in flight is stopped, ERASE INTENT standing where it was recorded, and a program in flight completes;
either leaves everything outside its own place as it was, and a write of the fleet block is then cut short. What the operation
leaves is an operand's to say (log 9), a program's verify failure marks only the fleet or the protection block (log 31). That news
in transit is discarded, entry requests already made are taken first, and a loss the RPL has not yet taken is recorded by its CAR
LOSS entry among them, is the model's reading (log 4), as is that an order whose verify has failed and whose DAMAGED mark is due
or being programmed is in flight still (log 55), and that the held return of a DIPPING car is kept (log 20); the ascending order
of cars of these, and their place behind the requests already made, is its choice (log 45). -/
def Obligations.WarmRestartStopsBlocks : Prop :=
  ∀ (s : State) (v : Word) (o : RestartOutcome),
    (s.isRunning = true → v.getLsbD 0 = true → Mem.wf 0 s.ram = true → ∃ t, exec (.warmRestart v o) s = .next t
      ∧ t.run = .restarting ∧ t.cause = .restart
      ∧ (∀ c : Car, t.prm[c] = { s.prm[c] with active := false, up := false } ∧ t.pins.dp[c] = false
        ∧ t.lines[c] = { Line.reset with errors := s.lines[c].errors, hold := s.lines[c].hold }
        ∧ t.ssu[c] = { s.ssu[c] with pend := false })
      ∧ t.ord = { s.ord with window := none, scanTimer := none, owed := t.ord.owed }
      ∧ t.chan = Channels.empty ∧ t.jrn.backlog = [] ∧ t.jrn.requests = [] ∧ t.jrn.r = s.jrn.r
      ∧ (let v := s.recordLosses
        let u := ({ v with jrn := { v.jrn with requests := [] } }).takeEntries (v.jrn.requests.map EntryReq.entry)
        t.jrn = { u.jrn with backlog := [], lost := min 65535 (u.jrn.lost + u.jrn.backlog.length),
                             tally := min 65535 (u.jrn.tally + u.jrn.backlog.length) }
          ∧ ∀ a : Nat, 0x6000 ≤ a → t.ramByte a = u.ramByte a)
      ∧ (s.jrn.requests = [] → (∀ c : Car, ∀ e ∈ s.chan.ssuRpl[c], ∀ u, e ≠ .loss u) →
        t.jrn = { s.jrn with backlog := [], lost := min 65535 (s.jrn.lost + s.jrn.backlog.length),
                             tally := min 65535 (s.jrn.tally + s.jrn.backlog.length) })
      ∧ (∀ c : Car, (t.ramByte (0x61 + 16 * c.val)).getLsbD 2 = false
        ∧ (t.ramByte (0x61 + 16 * c.val)).getLsbD 3 = s.prm[c].withhold)
      ∧ t.isc.work = none ∧ t.isc.queue = [] ∧ t.isc.requests = [] ∧ t.isc.reading = none ∧ t.isc.pendingMarks = []
      ∧ t.isc.storeState = .idle ∧ t.isc.targetSlot = 255
      ∧ (∀ q ∈ s.isc.queue, t.ord.owed[q.oslot] = false ∧ t.ramByte (0x200 + 128 * q.oslot.val) = 4
        ∧ t.ramByte (0x200 + 128 * q.oslot.val + 4) = 12)
      ∧ (∀ w q, s.isc.work = some w → w.order = some q → (∀ x ∈ s.isc.queue, x.oslot ≠ q.oslot) →
        t.ord.owed[q.oslot] = false ∧ t.ramByte (0x200 + 128 * q.oslot.val) = 3
          ∧ t.ramByte (0x200 + 128 * q.oslot.val + 4) = 3 ∧ t.ramByte (0x200 + 128 * q.oslot.val + 5) = 0)
      ∧ (∀ r : CopyIx, t.isc.records[r].use = 0) ∧ t.isc.openCopy = Vector.replicate 16 none
      ∧ t.isc.suspendCount = s.isc.suspendCount ∧ t.isc.lastDoor = 5 ∧ t.isc.lastInfo = 5 ∧ t.isc.scanUptime = s.ord.uptime
      ∧ (∀ w ∈ directoryMirror t, leNat (t.ramBytes w.1 2) = w.2 % 65536)
      ∧ (s.isc.fleetUnreadable = true → t.isc.fleetUnreadable = true)
      ∧ (s.isc.protectUnreadable = true → ∀ g : Fin 4, t.isc.groupProtected g = true)
      ∧ (let op := s.isc.work.bind Work.op
        let fails := decide (o.inFlight ≠ .verified)
        let f : Flash := match s.isc.work, op with
          | some w, some p =>
            if p.isErase then s.flash.stopErase p (if p = .eraseFleet ∧ o.cut.left = .nothing then { o.cut with left := .part } else o.cut)
            else s.flash.program p w.data w.table s.dge.closing.digest (if p = .fleet then .part else p.leftBy o.inFlight)
          | _, _ => s.flash
        let unbegun := match s.isc.work with
          | none => []
          | some w => if w.order = none ∧ w.due.isSome = true then w.target.toList else []
        let owed := (unbegun ++ s.isc.pendingMarks).mapIdx (fun n r => (r, o.marks.getD n .verified))
        let marked := owed.foldl (fun f x => f.program (.mark x.1 .damaged) [] [] 0 (progLeft x.2)) f
        let x := marked.scan (o.marks.drop owed.length)
        t.flash = x.flash ∧ t.isc.records = x.records ∧ t.isc.scanEntries = x.entries ∧ t.isc.identity = marked.readIdentity
          ∧ (t.isc.fleetCut = true ↔ s.isc.fleetCut = true ∨ op = some .eraseFleet ∨ op = some .fleet)
          ∧ (t.isc.fleetUnreadable = true ↔ s.isc.fleetUnreadable = true ∨ (op = some .fleet ∧ fails = true))
          ∧ (t.isc.protectUnreadable = true
            ↔ s.isc.protectUnreadable = true ∨ ((∃ g : Fin 4, op = some (.protectMark g)) ∧ fails = true))
          ∧ (∀ g : Fin 4, t.isc.groupProtected g = true ↔ t.isc.protectUnreadable = true ∨ marked.protect[g] ≠ .erased
            ∨ ∃ k : Fin 4, marked.protect[k] = .part)
          ∧ (∀ p : FlashOp, op = some p → (MemoryCanonical s → (∀ w, s.isc.work = some w → w.data.length ≤ 2048) →
              FlashKept p s.flash f)
            ∧ ∀ r : CopyIx, p.copy = some r → p.isErase = true →
              f.headers[r].eraseIntent = s.flash.headers[r].eraseIntent
                ∧ (f.headers[r].eraseIntent = .recorded → f.headers[r].damaged ≠ .recorded → (∀ x ∈ owed, x.1 ≠ r) →
                  t.isc.records[r].state = .torn)))
      ∧ t.roster = s.roster ∧ t.fleet = s.fleet ∧ t.rpl = s.rpl)
      ∧ (s.isRunning = false ∨ v.getLsbD 0 = false → exec (.warmRestart v o) s = .next s)
      ∧ (let untaken := fun c : Car => s.chan.ssuRpl[c].filterMap (fun e => match e with
          | .loss u => some u
          | .ret _ _ _ _ => none)
        let drops := fun c : Car =>
          (s.roster.filter (fun r => decide (r.car = c) && r.job.isSome)).map (fun r => byteOf (r.drop.val + 1) 0)
        let entry := fun (c : Car) (u : Long) (l : List Byte) =>
          (⟨.rpl, { kind := .carLoss, car := c.val, drop := 0, uptime := u, body := pad4 (byteOf l.length 0 :: l) }⟩ : EntryReq)
        s.recordLosses = { s with jrn := { s.jrn with requests := s.jrn.requests ++ (List.finRange 6).flatMap (fun c =>
          (untaken c).mapIdx (fun n u => entry c u (if n = 0 then drops c else []))) } })

/-- The return to RUNNING: the roster is rebuilt from a fresh reading, with one bracket on every mirror entry; a car sensed before
and after that is PRESENT gets its restart return or its held return, one DIPPING owes it, one newly sensed is sampled, and one no
longer sensed is UNKNOWN. The RPL's cars are as at a power start but for budget and job numbers, and the permits take the door
records. The rebuild rewrites each of the 48 mirror entries whole. The Steering Page is sampled, the hold tested against that
sample and told to every line, and the journal takes START-UP (behind a LOST entry where losses stand, as of every entry) and the
rescan's COPY STATE entries; the slots are then checked: with a slot POSTED the quiet window starts, or with Q 0 the batch is
taken at once, as at the window's expiry, on the state so returned to. The CAR RETURN entries are asked for in ascending order of
cars, the model's choice (log 45). The budgets kept until the sample (log 29), the job numbers going on (log 10) and a fleet block
whose write the restart cut short taken, by an operand, as absent or bad where its contents are neither (log 9) are the model's
own too, as are the 0s in the reserved bytes of the mirror (log 35). -/
def Obligations.ReturnToRunningSettlesCars : Prop :=
  ∀ (b : Bool) (s : State), s.power = true → s.resetIn = false → s.run = .restarting → Mem.wf 0 s.ram = true →
    let base := fun j : OrderSlot => 0x200 + 128 * j.val
    let posted := fun j : OrderSlot => decide (s.ramByte (base j) = 1) && !s.ord.owed[j]
    let block := readFleet (s.flash.a.bytes fleetAddr 272) s.isc.fleetUnreadable s.isc.identity
    let reading := s.fleetReading b
    let returned := fun (t : State) (window : Option Nat) => t.run = .running ∧ t.cause = s.cause
      ∧ t.roster = reading.roster ∧ t.fleet = reading.fleet
      ∧ (∀ r ∈ t.roster, r.job = none ∧ r.override = .unset ∧ r.state = (if r.fleetExcl then .excluded else .dark))
      ∧ (∀ i : Fin 48, t.mirrorCount[i] = s.mirrorCount[i] + 2) ∧ MirrorWritten t
      ∧ (∀ c : Car,
        let doors := t.roster.filter (fun r => decide (r.car = c ∧ r.cls = .door))
        t.prm[c] = { s.prm[c] with doorRecords := doors.length }
          ∧ t.rpl[c] = { State.reset.rpl[c] with total := (doors.filter (fun r => !r.isExcluded)).length,
                                                 budget := s.rpl[c].budget, nextJob := s.rpl[c].nextJob })
      ∧ (let o := s.sample.ord
        let room := (o.ret + 16384 - s.jrn.w - 4) % 8192
        let hold := if s.jrn.hold then decide (room < o.hw) else decide (room < o.lw)
        let n := t.roster.length
        let body := [byteOf s.cause.code 0, byteOf t.fleet.status.code 0, byteOf t.fleet.carCount 0, byteOf n 0,
          byteOf t.fleet.skipped 0, byteOf (bit s.isc.identity.isWritten) 0, 0, 0]
        let first : Entry := { kind := .startUp, car := 255, drop := 0, uptime := s.ord.uptime, body := body }
        let copies := s.isc.scanEntries.map (fun e => copyStateEntry s.isc.scanUptime e.1 e.2.1 e.2.2)
        let v := ({ s with jrn := { s.jrn with r := o.ret, lw := o.lw, hw := o.hw, hold := hold } }).takeEntries (first :: copies)
        let back := fun (c : Car) (u : Long) (g : Nat) (unknown restart : Bool) =>
          (⟨.ssu, { kind := .carReturn, car := c.val, drop := 0, uptime := u,
                    body := le16 g ++ [byteOf (bit unknown + 2 * bit restart) 0, 0] }⟩ : EntryReq)
        let settled := fun c : Car =>
          if c.val < s.fleet.carCount ∧ c.val < t.fleet.carCount ∧ s.ssu[c].state = .present then
            some (s.ssu[c].held.elim (back c s.ord.uptime 0 false true)
              (fun u => back c u s.ssu[c].g s.ssu[c].unknown s.ssu[c].restart))
          else none
        t.jrn = { v.jrn with requests := s.jrn.requests ++ (List.finRange 6).filterMap settled }
          ∧ (∀ a : Nat, 0x6000 ≤ a → t.ramByte a = v.ramByte a)
          ∧ t.ntu.causes = (v.ntu.causes ||| if t.fleet.status = .loaded then 0 else 8) ∧ t.isc.scanEntries = []
          ∧ t.ord = { o with scanTimer := if o.scan = 0 then none else some o.scan, window := window }
          ∧ t.chan.ordRpl = s.sample.chan.ordRpl ∧ t.chan.ordPrm = s.sample.chan.ordPrm ∧ t.chan.ordJrn = []
          ∧ (JournalHeld s → ∀ c : Car,
            t.chan.jrnClc[c] = s.chan.jrnClc[c] ++ [hold] ++ (if t.jrn.hold = hold then [] else [t.jrn.hold])))
      ∧ ∀ c : Car,
        let was := decide (c.val < s.fleet.carCount)
        let is := decide (c.val < t.fleet.carCount)
        let r := s.ssu[c]
        (is = false → t.ssu[c] = SsuCar.reset ∧ t.chan.ssuRpl[c] = s.chan.ssuRpl[c])
          ∧ (is = true → was = false → t.ssu[c] = SsuCar.sample s.pins.csg[c] t.fleet.rq ∧ t.chan.ssuRpl[c] = s.chan.ssuRpl[c])
          ∧ (is = true → was = true → r.state = .present → r.held = none →
            t.ssu[c] = { r with g := 0, unknown := false, restart := true, pend := false, held := none }
              ∧ t.chan.ssuRpl[c] = s.chan.ssuRpl[c] ++ [.ret 0 false true s.ord.uptime]
              ∧ t.chan.ssuClc[c] = s.chan.ssuClc[c] ++ [.ret 0 false true s.ord.uptime]
              ∧ t.chan.ssuPrm[c] = s.chan.ssuPrm[c] ++ [.ret 0 false true s.ord.uptime])
          ∧ (∀ u, is = true → was = true → r.state = .present → r.held = some u →
            t.ssu[c] = { r with held := none }
              ∧ t.chan.ssuRpl[c] = s.chan.ssuRpl[c] ++ [.ret r.g r.unknown r.restart u]
              ∧ t.chan.ssuClc[c] = s.chan.ssuClc[c] ++ [.ret r.g r.unknown r.restart u]
              ∧ t.chan.ssuPrm[c] = s.chan.ssuPrm[c] ++ [.ret r.g r.unknown r.restart u])
          ∧ (is = true → was = true → r.state = .dipping →
            t.ssu[c] = { r with pend := true } ∧ t.chan.ssuRpl[c] = s.chan.ssuRpl[c])
          ∧ (is = true → was = true → r.state ≠ .present → r.state ≠ .dipping → t.ssu[c] = r)
    (s.isc.fleetCut = false ∨ block.fleet.status = .absent ∨ block.fleet.status = .bad → reading = block)
    ∧ (s.isc.fleetCut = true → block.fleet.status ≠ .absent → block.fleet.status ≠ .bad →
      reading.fleet = Fleet.defaulted (if b then .absent else .bad) ∧ reading.roster = [])
    ∧ ((∃ j, posted j = true) → s.ord.window = none → min 50 (leNat (s.ramBytes 0x102 2)) = 0 →
      ∃ t, exec (.returnToRunning b) s = .next t ∧ t.run = .running ∧ t.ord.window = none ∧ t.ord.batch = s.ord.batch + 1
        ∧ ∀ j : OrderSlot, posted j = true → t.ramByte (base j) ∈ [2, 3, 4] ∧ t.ramByte (base j + 1) = s.ramByte (base j + 1)
          ∧ leNat (t.ramBytes (base j + 6) 2) = (s.ord.batch + 1).toNat
          ∧ leNat (t.ramBytes (base j + 124) 4) = s.ord.uptime.toNat
          ∧ (t.ramByte (base j) = 2 ↔ t.ord.owed[j] = true)
          ∧ (t.ramByte (base j) = 2 ↔ (s.ramByte (base j + 1)).toNat ∈ [0x10, 0x11, 0x12, 0x13, 0x14, 0x18, 0x19, 0x1A, 0x1B]))
    ∧ ((∀ j, posted j = false) ∨ s.ord.window.isSome = true ∨ min 50 (leNat (s.ramBytes 0x102 2)) ≠ 0 →
      ∃ t, exec (.returnToRunning b) s = .next t
        ∧ returned t (if s.ord.window = none ∧ ∃ j, posted j = true then some t.ord.q else s.ord.window))
    ∧ ((∃ j, posted j = true) → s.ord.window = none → min 50 (leNat (s.ramBytes 0x102 2)) = 0 →
      ∃ u t x : State, returned u none ∧ Mem.wf 0 u.ram = true
        ∧ (∀ a : Nat, 0x200 ≤ a → a < 0x1200 → u.ramByte a = s.ramByte a)
        ∧ exec .quietWindowExpiry { u with ord := { u.ord with window := some 0 } } = .next x
        ∧ exec (.returnToRunning b) s = .next t ∧ t = { x with ram := t.ram } ∧ MirrorWritten t
        ∧ ∀ a : Nat, 0xC0 ≤ a → a < 0x1200 ∨ 0x2000 ≤ a → t.ramByte a = x.ramByte a)

/-! ## The image store (chapter 8) -/

/-- Each store order's tests, in their order; the first that holds refuses it. With them what they are made on: the active copy
of a slot, the targets of OPEN COPY and ACTIVATE COPY, the open copy, and the next activation sequence, one more than the highest
of the 32 records. An identity area reads erased too where both its places hold the number of erased bytes (R21). -/
def Obligations.StoreOrderTests : Prop :=
  (∀ (s : State) (k : Slot),
    let a := copyIx k .a
    let b := copyIx k .b
    let active := fun r : CopyIx => s.isc.records[r].state = .closed ∧ s.isc.records[r].seq ≠ 0
    a.val = 2 * k.val ∧ b.val = 2 * k.val + 1
      ∧ (active a → s.activeCopy k = some a ∧ s.openTarget k = b ∧ s.activateTarget k = b)
      ∧ (¬ active a → active b → s.activeCopy k = some b ∧ s.openTarget k = a ∧ s.activateTarget k = a)
      ∧ (¬ active a → ¬ active b → s.activeCopy k = none ∧ s.openTarget k = a
        ∧ s.activateTarget k = if s.isc.records[a].state = .closed then a else b)
      ∧ s.openOf k = s.isc.openCopy[k].map (fun x => if x = .a then a else b)
      ∧ (∀ r : CopyIx, s.isc.records[r].seq < s.nextSequence) ∧ ∃ r : CopyIx, s.nextSequence = s.isc.records[r].seq + 1)
    ∧ ∀ (s : State) (b : List Byte),
    let p := paramByte b
    let locked := fun n : Nat => s.isc.groupProtected ⟨n % 16 / 4, by omega⟩ && !s.pins.svcUnlock
    let slot := fun n : Nat => (⟨n % 16, Nat.mod_lt _ (by decide)⟩ : Slot)
    let use := fun r : CopyIx => s.isc.records[r].use
    let badOpen := 15 < p 0 ∨ paramWord b 2 = 0 ∨ 1 < p 1 ∨ paramLong b 6 = 0 ∨ 524288 < paramLong b 6 ∨ 8 < p 10
      ∨ ∃ x ∈ paramSpans b (p 10), x.len = 0 ∨ 65535 < x.len ∨ paramLong b 6 < x.off + x.len
    (badOpen → openTest s b = some .badParameter)
      ∧ (¬ badOpen → locked (p 0) = true → openTest s b = some .isProtected)
      ∧ (¬ badOpen → locked (p 0) = false → use (s.openTarget (slot (p 0))) ≠ 0 → openTest s b = some .inUse)
      ∧ (¬ badOpen → locked (p 0) = false → use (s.openTarget (slot (p 0))) = 0 → openTest s b = none)
      ∧ (7 < p 0 ∨ 15 < p 1 → stageTest s b = some .badParameter)
      ∧ (p 0 ≤ 7 → p 1 ≤ 15 → locked (p 1) = true → stageTest s b = some .isProtected)
      ∧ (p 0 ≤ 7 → p 1 ≤ 15 → locked (p 1) = false → s.openOf (slot (p 1)) = none → stageTest s b = some .notOpen)
      ∧ (p 0 ≤ 7 → p 1 ≤ 15 → locked (p 1) = false → ∀ r, s.openOf (slot (p 1)) = some r →
        stageTest s b = if s.isc.records[r].desc.segments ≤ paramWord b 2 then some .outOfRange
          else if s.isc.records[r].written.getLsbD (paramWord b 2) then some .alreadyWritten else none)
      ∧ (15 < p 0 → closeTest s b = some .badParameter ∧ activateTest s b = some .badParameter ∧ eraseTest s b = some .badParameter)
      ∧ (p 0 ≤ 15 → locked (p 0) = true → closeTest s b = some .isProtected)
      ∧ (p 0 ≤ 15 → locked (p 0) = false → s.openOf (slot (p 0)) = none → closeTest s b = some .notOpen)
      ∧ (p 0 ≤ 15 → locked (p 0) = false → ∀ r, s.openOf (slot (p 0)) = some r →
        ((∃ i < s.isc.records[r].desc.segments, s.isc.records[r].written.getLsbD i = false) →
            closeTest s b = some .incomplete)
          ∧ ((∀ i < s.isc.records[r].desc.segments, s.isc.records[r].written.getLsbD i = true) → closeTest s b = none))
      ∧ (p 0 ≤ 15 → 4294967294 < s.nextSequence → activateTest s b = some .badParameter)
      ∧ (p 0 ≤ 15 → s.nextSequence ≤ 4294967294 → locked (p 0) = true → activateTest s b = some .isProtected)
      ∧ (p 0 ≤ 15 → s.nextSequence ≤ 4294967294 → locked (p 0) = false →
        let r := s.activateTarget (slot (p 0))
        activateTest s b = if s.isc.records[r].state ≠ .closed then some .notClosed
          else if (s.activeCopy (slot (p 0))).any (fun x => decide (s.isc.records[x].desc.image = s.isc.records[r].desc.image
            ∧ s.isc.records[x].desc.version = s.isc.records[r].desc.version)) then some .alreadyActive else none)
      ∧ (p 0 ≤ 15 → p 1 ≤ 1 → locked (p 0) = false →
        let r := copyIx (slot (p 0)) (if p 1 = 0 then .a else .b)
        eraseTest s b = if s.isc.records[r].isActive then some .active else if use r ≠ 0 then some .inUse else none)
      ∧ (p 0 ≤ 15 → 1 < p 1 → eraseTest s b = some .badParameter)
      ∧ (p 0 ≤ 15 → p 1 ≤ 1 → locked (p 0) = true → eraseTest s b = some .isProtected)
      ∧ protectTest s b = (if 3 < p 0 then some .badParameter else none)
      ∧ unprotectTest s b = (if s.pins.svcUnlock then none else some .isProtected)
      ∧ identityTest s b = (if s.pins.svcUnlock = false then some .isProtected
          else if (s.flash.identity1 = .erased ∨ s.flash.identity1 = .value 4294967295)
            ∧ (s.flash.identity2 = .erased ∨ s.flash.identity2 = .value 4294967295) then none else some .alreadyWritten)

/-- The order at the head of the queue, with no order executing and no mark owed: refused by its tests it is answered and changes
nothing in flash or the directory; passing them it begins with its first operation, its target shown, the suspend count at 0. The
first operation waits only where a read of its bank is in progress. The tests, the targets and the sequence are those that
StoreOrderTests spells out. That state and target are shown from the taking on while it waits is the model's reading (log 12), as
are that one program writes both places of the identity (log 39), that a refused order sets the suspend count to 0 too (log 29),
and that OPEN COPY and ERASE COPY begin with the program of ERASE INTENT on a header that records it already (log 41). -/
def Obligations.StoreOrdersBegin : Prop :=
  ∀ (s : State) (o : StoreOrder) (rest : List StoreOrder) (unlock : Bool), s.isRunning = true → s.isc.work = none →
    s.isc.pendingMarks = [] → s.isc.queue = o :: rest →
    let s1 := { s with pins := { s.pins with svcUnlock := unlock }, isc := { s.isc with queue := rest, suspendCount := 0 } }
    let refused := fun (i : Instr) (e : RefusalCode) => exec i s = .next (publish s (s1.answer o.oslot o.bytes (.refused e)))
    let begins := fun (i : Instr) (target : Option CopyIx) (op : FlashOp) (x : StoreState) (data : List Byte) =>
      ∃ n : Isc, ∃ w : Work, exec i s = .next (publish s { s1 with isc := n })
        ∧ n = { s1.isc with work := some w, storeState := x, targetSlot := n.targetSlot, targetCopy := n.targetCopy }
        ∧ n.targetSlot = target.elim 255 (fun r => r.val / 2) ∧ n.targetCopy = target.elim 0 (fun r => r.val % 2)
        ∧ w.order = some o ∧ w.target = target ∧ w.data = data ∧ w.suspended = false ∧ w.failed = false
        ∧ (if ∃ q, s.isc.reading = some q ∧ op.bank = some q.bank then w.op = none ∧ w.due = some (op, .read)
          else w.op = some op ∧ w.due = none)
    let slot := fun n : Nat => (⟨paramByte o.bytes n % 16, Nat.mod_lt _ (by decide)⟩ : Slot)
    (o.kind = .openCopy → ∀ e, openTest s1 o.bytes = some e → refused (.openCopy unlock) e)
      ∧ (o.kind = .openCopy → openTest s1 o.bytes = none →
        begins (.openCopy unlock) (some (s.openTarget (slot 0))) (.mark (s.openTarget (slot 0)) .eraseIntent) .programming [])
      ∧ (o.kind = .stageSegment → ∀ e, stageTest s1 o.bytes = some e → refused (.stageSegment unlock) e)
      ∧ (o.kind = .stageSegment → stageTest s1 o.bytes = none → ∀ r, s.openOf (slot 1) = some r →
        begins (.stageSegment unlock) (some r) (.segment r (paramWord o.bytes 2)) .programming
          (s.ramBytes (0x2000 + 2048 * paramByte o.bytes 0) (segLen s.isc.records[r].desc (paramWord o.bytes 2))))
      ∧ (o.kind = .closeCopy → ∀ e, closeTest s1 o.bytes = some e → refused (.closeCopy unlock) e)
      ∧ (o.kind = .closeCopy → closeTest s1 o.bytes = none → ∀ r, s.openOf (slot 0) = some r →
        ∃ t, exec (.closeCopy unlock) s = .next t ∧ t.isc.storeState = .closing ∧ t.isc.queue = rest
          ∧ t.isc.requests = s.isc.requests ++ [⟨.closing, r, 0⟩] ∧ t.dge = { s.dge with closing := ⟨1, 0⟩, next := 0 }
          ∧ t.isc.records = s.isc.records ∧ t.flash = s.flash
          ∧ t.isc.work.bind Work.order = some o ∧ t.isc.work.map Work.expected = some (paramLong o.bytes 4))
      ∧ (o.kind = .activateCopy → ∀ e, activateTest s1 o.bytes = some e → refused (.activateCopy unlock) e)
      ∧ (o.kind = .activateCopy → activateTest s1 o.bytes = none →
        begins (.activateCopy unlock) (some (s.activateTarget (slot 0)))
          (.sequence (s.activateTarget (slot 0)) s.nextSequence) .programming [])
      ∧ (o.kind = .eraseCopy → ∀ e, eraseTest s1 o.bytes = some e → refused (.eraseCopy unlock) e)
      ∧ (o.kind = .eraseCopy → eraseTest s1 o.bytes = none →
        begins (.eraseCopy unlock) (some (eraseTarget o.bytes)) (.mark (eraseTarget o.bytes) .eraseIntent) .programming [])
      ∧ (o.kind = .protectGroup → 3 < paramByte o.bytes 0 → refused (.protectGroup unlock) .badParameter)
      ∧ (o.kind = .protectGroup → ∀ g : Fin 4, paramByte o.bytes 0 = g.val →
        (s.isc.groupProtected g = true →
            exec (.protectGroup unlock) s = .next (publish s (s1.answer o.oslot o.bytes (.done .ok []))))
          ∧ (s.isc.groupProtected g = false → begins (.protectGroup unlock) none (.protectMark g) .programming []))
      ∧ (o.kind = .unprotectAll → unlock = false → refused (.unprotectAll unlock) .isProtected)
      ∧ (o.kind = .unprotectAll → unlock = true → begins (.unprotectAll unlock) none .eraseProtect .erasing [])
      ∧ (o.kind = .writeIdentity → ∀ e, identityTest s1 o.bytes = some e → refused (.writeIdentity unlock) e)
      ∧ (o.kind = .writeIdentity → identityTest s1 o.bytes = none →
        begins (.writeIdentity unlock) none (.identity (paramLong o.bytes 0)) .programming [])
      ∧ (o.kind = .writeFleetTable →
        begins (.writeFleetTable unlock) none .eraseFleet .erasing (s.ramBytes 0x2000 272))

/-- What follows a program that has verified: ERASE INTENT makes the record ERASING and the data blocks follow; the description is
followed by OPENED, which makes it WRITING and the slot's open copy; a segment by its written mark, which is set in the map; the
closing programs end in CLOSED or REJECTED by the comparison of digests; the sequence makes the copy active and in the same step
retires the one before, whose RETIRED mark follows where there was one; a group's mark, the identity and the fleet table take
effect. The last program of an order answers it OK, a DAMAGED mark STORE FAULT. That one program writes both places of the
identity, the 272 bytes of the fleet table and each part of a header is the model's reading (log 39), and that an order naming the
number of erased bytes shows it written until the next reading (log 40). -/
def Obligations.VerifiedProgramsTakeEffect : Prop :=
  ∀ (s : State) (w : Work) (op : FlashOp), s.isRunning = true → s.isc.work = some w → w.op = some op →
    op.isErase = false →
    ∃ t, exec (.flashProgramEnd .verified) s = .next t
      ∧ t.flash = s.flash.program op w.data w.table s.dge.closing.digest .whole ∧ t.roster = s.roster ∧ t.lines = s.lines
      ∧ (let next := fun m : FlashOp => ∃ w', t.isc.work = some w' ∧ w'.order = w.order
          ∧ (w'.op = some m ∨ w'.due.map Prod.fst = some m)
        let ends := fun code : Byte => t.isc.work = none ∧ t.isc.storeState = .idle ∧ t.isc.targetSlot = 255
          ∧ ∀ o : StoreOrder, w.order = some o → t.ord.owed[o.oslot] = false ∧ t.ntu.causes.getLsbD 1 = true
            ∧ (Mem.wf 0 s.ram = true → t.ramByte (0x200 + 128 * o.oslot.val) = 3
              ∧ t.ramByte (0x200 + 128 * o.oslot.val + 4) = code)
        (∀ r : CopyIx, op = .mark r .eraseIntent → next (.eraseData r 0)
          ∧ t.isc.records = s.isc.records.set r { CopyRec.bare .erasing with use := s.isc.records[r].use }
          ∧ t.isc.openCopy[slotOf r] ≠ some (copyOf r))
        ∧ (∀ (r : CopyIx) (e : Desc), op = .description r e → next (.mark r .opened) ∧ t.isc.records = s.isc.records)
        ∧ (∀ (r : CopyIx) (o : StoreOrder), op = .mark r .opened → w.order = some o → ends 0
          ∧ (Mem.wf 0 s.ram = true → t.ramByte (0x200 + 128 * o.oslot.val + 64) = byteOf (r.val % 2) 0
            ∧ leNat (t.ramBytes (0x200 + 128 * o.oslot.val + 66) 2) = (openDesc o.bytes).segments % 65536)
          ∧ t.isc.records = s.isc.records.set r { CopyRec.bare .writing with desc := openDesc o.bytes, use := s.isc.records[r].use }
          ∧ t.isc.openCopy[slotOf r] = some (copyOf r))
        ∧ (∀ (r : CopyIx) (i : Nat), op = .segment r i → next (.writtenMark r i) ∧ t.isc.records = s.isc.records)
        ∧ (∀ (r : CopyIx) (i : Nat), op = .writtenMark r i → i < 256 → ends 0
          ∧ t.isc.records[r].written.getLsbD i = true
          ∧ ∀ k : Nat, k ≠ i → t.isc.records[r].written.getLsbD k = s.isc.records[r].written.getLsbD k)
        ∧ (∀ r : CopyIx, op = .tables r →
          next (.mark r (if s.dge.closing.digest.toNat = w.expected then .closed else .rejected)))
        ∧ (∀ r : CopyIx, op = .mark r .closed ∨ op = .mark r .rejected → ends (if op = .mark r .closed then 0 else 1)
          ∧ t.isc.records[r] = { s.isc.records[r] with state := if op = .mark r .closed then .closed else .rejected,
                                                       table := w.table, whole := s.dge.closing.digest, seq := 0 }
          ∧ t.isc.openCopy[slotOf r] ≠ some (copyOf r)
          ∧ ∀ o : StoreOrder, w.order = some o → Mem.wf 0 s.ram = true →
            leNat (t.ramBytes (0x200 + 128 * o.oslot.val + 64) 4) = s.dge.closing.digest.toNat)
        ∧ (∀ (r : CopyIx) (n : Nat), op = .sequence r n → s.isc.records[r].state = .closed → s.isc.records[r].seq = 0 → n ≠ 0 →
          t.isc.records[r].isActive = true ∧ t.isc.records[r].seq = n ∧ .activeChanged (slotOf r) ∈ t.chan.iscRpl
            ∧ (s.activeCopy (slotOf r) = none → ends 0)
            ∧ ∀ p : CopyIx, s.activeCopy (slotOf r) = some p → t.isc.records[p].state = .retired ∧ next (.mark p .retired))
        ∧ (∀ (p r : CopyIx) (o : StoreOrder), op = .mark p .retired → w.target = some r → w.order = some o → ends 0
          ∧ t.isc.records = s.isc.records
          ∧ (Mem.wf 0 s.ram = true → s.isc.records[r].seq < 4294967296 →
            t.ramByte (0x200 + 128 * o.oslot.val + 64) = byteOf (r.val % 2) 0
              ∧ leNat (t.ramBytes (0x200 + 128 * o.oslot.val + 68) 4) = s.isc.records[r].seq))
        ∧ (∀ r : CopyIx, op = .mark r .damaged → ends 2 ∧ t.isc.records = s.isc.records)
        ∧ (∀ g : Fin 4, op = .protectMark g → t.isc.groupProtected g = true ∧ ends 0)
        ∧ (∀ n : Nat, op = .identity n → t.isc.identity = .written n ∧ ends 0)
        ∧ (op = .fleet → t.isc.fleetUnreadable = false ∧ t.fleet = s.fleet ∧ ends 0))

/-- What follows a block erase that has verified, and a verify failure: blocks 0 to 7 and then the header; an erased header makes
an ERASE COPY's record BLANK, and is followed by the description in an OPEN COPY; the fleet block by its program, one of all 272
bytes (log 39); the protection block protects no group. A failure on a copy makes it DAMAGED with a VERIFY entry and its DAMAGED
mark to program; one on a block of the store marks it unreadable; one of a pending mark, or of the DAMAGED mark of an order that
has failed, marks nothing further and writes no further entry. The store state shown while the next block erase is only due is the
model's reading (log 12). That a block erase of which a suspension has been begun, and is not complete, ends as any other, the
suspension dropped and not counted, is its choice (log 56). -/
def Obligations.ErasesAndVerifyFailures : Prop :=
  ∀ (s : State) (w : Work) (op : FlashOp), s.isRunning = true → s.isc.work = some w → w.op = some op →
    let ends := fun (t : State) (code : Byte) => t.isc.work = none ∧ t.isc.storeState = .idle ∧ t.isc.targetSlot = 255
      ∧ ∀ o : StoreOrder, w.order = some o → t.ord.owed[o.oslot] = false ∧ t.ntu.causes.getLsbD 1 = true
        ∧ (Mem.wf 0 s.ram = true → t.ramByte (0x200 + 128 * o.oslot.val) = 3
          ∧ t.ramByte (0x200 + 128 * o.oslot.val + 4) = code)
    (op.isErase = true → w.suspended = false → ∃ t, exec (.blockEraseEnd .verified) s = .next t
        ∧ t.flash = s.flash.erase op ⟨.whole, []⟩
        ∧ (∀ (r : CopyIx) (k : Nat), op = .eraseData r k → ∃ w', t.isc.work = some w' ∧
          let n := if k < 7 then FlashOp.eraseData r (k + 1) else .eraseHeader r
          (w'.op = some n ∨ w'.due = some (n, .drain)) ∧ t.isc.records = s.isc.records
            ∧ (w.order.map StoreOrder.kind ≠ some .closeCopy → t.isc.storeState = .erasing))
        ∧ (∀ (r : CopyIx) (o : StoreOrder), op = .eraseHeader r → w.order = some o → o.kind = .eraseCopy → ends t 0
          ∧ t.isc.records = s.isc.records.set r { CopyRec.bare .blank with use := s.isc.records[r].use })
        ∧ (∀ (r : CopyIx) (o : StoreOrder), op = .eraseHeader r → w.order = some o → o.kind = .openCopy →
          t.isc.records = s.isc.records ∧ t.isc.storeState = .programming
            ∧ ∃ w', t.isc.work = some w' ∧ w'.order = w.order
              ∧ (w'.op = some (.description r (openDesc o.bytes)) ∨ w'.due = some (.description r (openDesc o.bytes), .read)))
        ∧ (op = .eraseFleet → ∃ w', t.isc.work = some w' ∧ w'.order = w.order ∧ w'.data = w.data
          ∧ (w'.op = some .fleet ∨ w'.due = some (.fleet, .read)))
        ∧ (op = .eraseProtect → (∀ g : Fin 4, t.isc.groupProtected g = false) ∧ ends t 0))
      ∧ ∀ (i : Instr),
        (∃ l, i = .flashProgramEnd (.failed l)) ∧ op.isErase = false
          ∨ (∃ cut, i = .blockEraseEnd (.failed cut)) ∧ op.isErase = true ∧ w.suspended = false →
        ∃ t, exec i s = .next t
          ∧ (∀ r : CopyIx, op.copy = some r → w.order.isSome = true → w.failed = false →
            t.isc.records[r].state = .damaged ∧ t.isc.records[r].use = s.isc.records[r].use
              ∧ t.jrn.requests = s.jrn.requests ++ [⟨.isc, copyStateEntry s.ord.uptime r .damaged .verify⟩]
              ∧ .damaged r ∈ t.chan.iscRpl
              ∧ ∃ w', t.isc.work = some w' ∧ w'.failed = true ∧ w'.order = w.order
                ∧ (w'.op = some (.mark r .damaged) ∨ w'.due.map Prod.fst = some (.mark r .damaged)))
          ∧ (∀ r : CopyIx, op.copy = some r → w.order = none ∨ w.failed = true → ends t 2
            ∧ t.isc.records = s.isc.records ∧ t.jrn = s.jrn ∧ t.chan = s.chan ∧ t.isc.pendingMarks = s.isc.pendingMarks
            ∧ (w.order = none → t.ntu = s.ntu) ∧ (w.order.isSome = true → t.ntu.causes.getLsbD 3 = true))
          ∧ (op.copy = none → t.isc.records = s.isc.records ∧ t.jrn = s.jrn ∧ ends t 2
            ∧ (w.order.isSome = true → t.ntu.causes.getLsbD 3 = true)
            ∧ (op = .eraseFleet ∨ op = .fleet → t.isc.fleetUnreadable = true)
            ∧ (op = .eraseProtect ∨ (∃ g, op = .protectMark g) → ∀ g : Fin 4, t.isc.groupProtected g = true)
            ∧ ((∃ n, op = .identity n) → t.isc.identity = .unreadable))

/-- A slice that ends with a read of the bank waiting begins a suspension, and one without does not; a request that arrives after
the slice has ended begins it; the suspension's completion counts one and writes ERASE SUSPENDED, the target and the count,
whatever they showed; when the last read of the bank has ended, or the last waiting one is withdrawn, the erase is resumed, shown
ERASING, with a new slice. A withdrawal leaves a suspension being begun as it is; one that completes with no read left counts all
the same, and the erase is resumed at once. A pending mark is programmed with no order executing. That an erase a read's end
resumes is resumed before a request that this read's end brings about is made is the model's choice (log 58). -/
def Obligations.SlicesSuspensionsAndMarks : Prop :=
  ∀ (s : State), s.isRunning = true →
    (∀ (w : Work) (op : FlashOp) (k : CopyId), s.isc.work = some w → w.op = some op → w.due = none → op.isErase = true →
        op.bank = some k →
        let asks := fun l : List ReadReq => l.any (fun q => decide (q.bank = k))
        let resumed := { w with suspended := false, suspending := false, sliceOver := false }
        let others := fun (c : Car) (y : Bool) => s.isc.requests.filter (fun q =>
          !(decide (q.who = .job c y .door) || decide (q.who = .job c y .info)))
        let shown := fun (t : State) (state : Byte) => Mem.wf 0 s.ram = true → t.ramByte 0x1A = state
          ∧ t.ramByte 0x1B = byteOf s.isc.targetCopy 0 ∧ t.ramByte 0x1C = byteOf s.isc.targetSlot 0
          ∧ leNat (t.ramBytes 0x1E 2) = min 65535 (s.isc.suspendCount + 1)
        (w.suspended = false → w.suspending = false → exec .eraseSliceEnd s = .next (publish s { s with isc := { s.isc with
            work := some { w with sliceOver := true, suspending := asks s.isc.requests } } }))
          ∧ (∀ q : ReadReq, w.suspended = false → w.suspending = false → q.bank = k → s.addRequest q = { s with
              isc := { s.isc with requests := s.isc.requests ++ [q], work := some { w with suspending := w.sliceOver } } })
          ∧ (w.suspended = false → w.suspending = true →
            asks s.isc.requests = true ∨ (∃ q, s.isc.reading = some q ∧ q.bank = k) →
            ∃ t, exec .eraseSuspensionComplete s = .next t
              ∧ t = { s with ram := t.ram, isc := { s.isc with
                  work := some { w with suspending := false, suspended := true }
                  storeState := .suspended
                  suspendCount := min 65535 (s.isc.suspendCount + 1) } }
              ∧ HostPagesKept s t
              ∧ shown t 2)
          ∧ (w.suspended = false → w.suspending = true → asks s.isc.requests = false →
            (∀ q, s.isc.reading = some q → q.bank ≠ k) →
            ∃ t, exec .eraseSuspensionComplete s = .next t
              ∧ t = { s with ram := t.ram, isc := { s.isc with
                  work := some resumed
                  storeState := .erasing
                  suspendCount := min 65535 (s.isc.suspendCount + 1) } }
              ∧ HostPagesKept s t
              ∧ shown t 1)
          ∧ (∀ (c : Car) (y : Bool), w.suspended = false → w.suspending = true →
            s.withdraw c y = { s with isc := { s.isc with requests := others c y } })
          ∧ (∀ (q : ReadReq) (decay : Decay) (c : Car) (y : Bool) (x : NodeClass), w.suspended = true →
            s.isc.reading = some q → q.bank = k → q.who = .job c y x → asks s.isc.requests = false →
            ∃ t, exec (.segmentReadEnd decay) s = .next t ∧ t.isc.work = some resumed ∧ t.isc.storeState = .erasing
              ∧ t.isc.suspendCount = s.isc.suspendCount)
          ∧ ∀ (c : Car) (y : Bool), w.suspended = true → (∀ q, s.isc.reading = some q → q.bank ≠ k) →
            s.withdraw c y = if asks (others c y) then { s with isc := { s.isc with requests := others c y } }
              else { s with isc := { s.isc with requests := others c y, work := some resumed, storeState := .erasing } })
      ∧ ∀ (r : CopyIx) (rest : List CopyIx), s.isc.work = none → s.isc.pendingMarks = r :: rest → s.isc.reading = none →
        ∃ w : Work, exec .pendingMarkProgram s = .next (publish s { s with isc := { s.isc with
            pendingMarks := rest, storeState := .programming, targetSlot := r.val / 2, targetCopy := r.val % 2
            work := some w } }) ∧ w.order = none ∧ w.op = some (.mark r .damaged)

/-- The arbiter begins a read, or refuses it by its copy's state: a bank is free but for a program, or an erase not suspended, on
it; with a DOOR request whose bank is free none of another
class is chosen, within a class the car that follows the last served in the round, and within a car the request made first. A
read that begins leaves the requests, sets the sums and the context and its buffer to FILLING; a refused one sets its buffer to
FAULT, which fails the holding job's attempt where the segment is next to be sent with no exchange in flight. That the failure
comes at once also while a round is in flight is the model's reading (log 50), and that READ_BEGIN with no request to choose
changes nothing its choice (log 2). -/
def Obligations.ReadsBegin : Prop :=
  ∀ (s : State), s.isRunning = true → s.isc.reading = none →
    (∀ k : CopyId, s.bankBusy k = true ↔ ∃ (w : Work) (op : FlashOp), s.isc.work = some w ∧ w.op = some op
        ∧ op.bank = some k ∧ ¬ (op.isErase = true ∧ w.suspended = true))
      ∧ (∀ q : ReadReq, s.chooseRequest = some q → q ∈ s.isc.requests ∧ s.bankBusy q.bank = false
        ∧ ((∃ p ∈ s.isc.requests, s.bankBusy p.bank = false ∧ ∃ c y, p.who = .job c y .door) → ∃ c y, q.who = .job c y .door)
        ∧ ((∃ p ∈ s.isc.requests, s.bankBusy p.bank = false ∧ ∃ c y k, p.who = .job c y k) → ∃ c y k, q.who = .job c y k)
        ∧ ∀ (c : Car) (y : Bool) (k : NodeClass), q.who = .job c y k →
          let last := if k = .door then s.isc.lastDoor else s.isc.lastInfo
          let turn := fun x : Car => (x.val + 5 - last.val) % 6
          (∀ p ∈ s.isc.requests, ∀ x z, s.bankBusy p.bank = false → p.who = .job x z k → turn c ≤ turn x)
            ∧ ∃ before after, s.isc.requests = before ++ q :: after
              ∧ ∀ p ∈ before, s.bankBusy p.bank = false → ∀ z, p.who ≠ .job c z k)
      ∧ (s.chooseRequest = none → (∀ p ∈ s.isc.requests, s.bankBusy p.bank = true) ∧ exec .readBegin s = .next s)
      ∧ ∀ (q : ReadReq), s.chooseRequest = some q →
        (∀ c y k, q.who = .job c y k →
            (s.isc.records[q.copy].state = .closed ∨ s.isc.records[q.copy].state = .retired → ∃ t, exec .readBegin s = .next t
                ∧ t.isc.reading = some q ∧ t.isc.requests = s.isc.requests.erase q
                ∧ t.dge = { s.dge with masked := ⟨1, 0⟩, unmasked := ⟨1, 0⟩, context := some (q.copy, q.index, true) }
                ∧ t.lines = s.lines.set c (s.lines[c].setBuf y { s.lines[c].buf y with state := .filling })
                ∧ (k = .door → t.isc.lastDoor = c ∧ t.isc.lastInfo = s.isc.lastInfo)
                ∧ (k = .info → t.isc.lastInfo = c ∧ t.isc.lastDoor = s.isc.lastDoor) ∧ t.isc.records = s.isc.records)
              ∧ (s.isc.records[q.copy].state ≠ .closed → s.isc.records[q.copy].state ≠ .retired →
                (s.lines[c].buf y).state = .waiting → ∃ t, exec .readBegin s = .next t
                ∧ t.isc.reading = none ∧ t.dge = s.dge ∧ t.isc.lastDoor = s.isc.lastDoor ∧ t.isc.lastInfo = s.isc.lastInfo
                ∧ (let l := s.lines[c]
                  let faulted := t.isc.requests = s.isc.requests.erase q
                    ∧ t.lines = s.lines.set c (l.setBuf y { l.buf y with state := .fault })
                  (l.holding = none → faulted)
                    ∧ ∀ j : LineJob, l.holding = some j →
                      (l.exch ≠ none ∨ l.ending ≠ .unset ∨ j.phase ≠ .load ∨ j.reload = [] → faulted)
                        ∧ (∀ (i : Nat) (rest : List Nat), l.exch = none → l.ending = .unset → j.phase = .load →
                          j.reload = i :: rest → (l.buf y).job = some j.jid →
                          ((l.buf y).index ≠ i → l.faultAt j.jid i = false → faulted)
                            ∧ ((l.buf y).index = i →
                              (s.chan.clcRpl[c] ++ [.failed j.jid .storeFault]) <+: t.chan.clcRpl[c]
                                ∧ ((∀ x ∈ l.queue, x.jid ≠ j.jid) → t.lines[c].holding.map LineJob.jid ≠ some j.jid))))))
          ∧ (q.who = .closing →
            (s.isc.storeState = .closing → s.isc.work.bind Work.target = some q.copy →
                ∃ t, exec .readBegin s = .next t ∧ t.isc.reading = some q ∧ t.dge.context = some (q.copy, q.index, false)
                  ∧ t.lines = s.lines)
              ∧ (s.isc.storeState ≠ .closing ∨ s.isc.work.bind Work.target ≠ some q.copy →
                ∃ t, exec .readBegin s = .next t ∧ t.isc.reading = none ∧ t.isc.requests = s.isc.requests.erase q
                  ∧ t.dge = s.dge ∧ t.lines = s.lines))

/-- A job read that ends, with whatever cells of the segment are then found changed in flash: with its masked digest equal to
the copy's table the buffer is FILLED with the data and its unmasked digest; with another the copy is DAMAGED once, its entry
asked for and its mark owed, and the buffer is FAULT, which fails the holding job's attempt where the segment is next to be
sent with no exchange in flight, at once also while a round is (the model's reading, log 50). Into a STALE buffer the check is
made all the same, but the data goes: the buffer is EMPTY, and a request that waited is made into it; that it waits for this
buffer is the model's reading (log 26), and that it is made after the resume of a suspended erase its choice (log 58). -/
def Obligations.JobReadsAreChecked : Prop :=
  ∀ (s : State) (q : ReadReq) (c : Car) (y : Bool) (k : NodeClass) (decay : Decay), s.isRunning = true →
    s.isc.reading = some q → q.who = .job c y k → s.dge.masked = ⟨1, 0⟩ → s.dge.unmasked = ⟨1, 0⟩ →
    let d := s.isc.records[q.copy].desc
    let len := segLen d q.index
    let bank := (s.flash.bank (copyOf q.copy)).decay (segmentAddr q.copy q.index) len decay
    let flash := s.flash.setBank (copyOf q.copy) bank
    let data := flash.segment q.copy q.index len
    let l := s.lines[c]
    let faulted := s.lines.set c (l.setBuf y { l.buf y with state := .fault })
    let same := s.isc.records[q.copy].table[q.index]? = some (digestOf (maskFrom d.spans (2048 * q.index) data))
    let checked := fun t : State => t.isc.reading = none ∧ t.flash = flash
      ∧ (same → t.isc.records = s.isc.records ∧ t.isc.pendingMarks = s.isc.pendingMarks ∧ t.jrn = s.jrn ∧ t.chan.iscRpl = s.chan.iscRpl)
      ∧ (¬ same → t.isc.records[q.copy].state = .damaged ∧ t.isc.records[q.copy].use = s.isc.records[q.copy].use
        ∧ (∀ r : CopyIx, r ≠ q.copy → t.isc.records[r] = s.isc.records[r])
        ∧ (s.isc.records[q.copy].state ≠ .damaged → t.isc.pendingMarks = s.isc.pendingMarks ++ [q.copy]
          ∧ t.jrn.requests = s.jrn.requests ++ [⟨.isc, copyStateEntry s.ord.uptime q.copy .damaged .readCheck⟩]
          ∧ .damaged q.copy ∈ t.chan.iscRpl)
        ∧ (s.isc.records[q.copy].state = .damaged → t.isc.pendingMarks = s.isc.pendingMarks ∧ t.jrn = s.jrn
          ∧ t.chan.iscRpl = s.chan.iscRpl))
    ((l.buf y).state = .filling → ∃ t, exec (.segmentReadEnd decay) s = .next t ∧ checked t
        ∧ (same → t.lines = s.lines.set c (l.setBuf y { l.buf y with state := .filled, data := data, digest := digestOf data }))
        ∧ (¬ same → (l.holding = none → t.lines = faulted)
          ∧ ∀ j : LineJob, l.holding = some j →
            (l.exch ≠ none ∨ l.ending ≠ .unset ∨ j.phase ≠ .load ∨ j.reload = [] → t.lines = faulted)
              ∧ (∀ (i : Nat) (rest : List Nat), l.exch = none → l.ending = .unset → j.phase = .load → j.reload = i :: rest →
                (l.buf y).job = some j.jid → (l.buf y).index = i →
                (s.chan.clcRpl[c] ++ [.failed j.jid .storeFault]) <+: t.chan.clcRpl[c]
                  ∧ ((∀ x ∈ l.queue, x.jid ≠ j.jid) → t.lines[c].holding.map LineJob.jid ≠ some j.jid))))
      ∧ ((l.buf y).state = .stale → ∃ t, exec (.segmentReadEnd decay) s = .next t ∧ checked t
        ∧ t.chan.clcRpl = s.chan.clcRpl
        ∧ (l.wantRead = none ∨ l.holding = none → t.isc.requests = s.isc.requests
          ∧ t.lines = s.lines.set c { l.setBuf y SegBuf.reset with wantRead := none })
        ∧ ∀ (i : Nat) (j : LineJob), l.wantRead = some i → l.holding = some j → (l.buf (!y)).state ≠ .empty →
          t.isc.requests = s.isc.requests ++ [⟨.job c y j.cls, j.copy, i⟩]
            ∧ (let b := { SegBuf.reset with state := .waiting, job := some j.jid, copy := j.copy, index := i
                                            len := segLen s.isc.records[j.copy].desc i }
              t.lines = s.lines.set c { l.setBuf y b with wantRead := none }))

/-- A closing read that ends, with whatever cells of the segment are then found changed in flash, gives the next table entry,
feeds its masked bytes to the closing sums in their turn, and the next segment is requested or, after the last, the digest
table is to be programmed. -/
def Obligations.ClosingReadsBuildTheTable : Prop :=
  ∀ (s : State) (q : ReadReq) (w : Work) (decay : Decay), s.isRunning = true → s.isc.reading = some q → q.who = .closing →
    s.isc.work = some w → s.dge.masked = ⟨1, 0⟩ → q.index = s.dge.next →
    let d := s.isc.records[q.copy].desc
    let len := segLen d q.index
    let bank := (s.flash.bank (copyOf q.copy)).decay (segmentAddr q.copy q.index) len decay
    let flash := s.flash.setBank (copyOf q.copy) bank
    let data := maskFrom d.spans (2048 * q.index) (flash.segment q.copy q.index len)
    ∃ t, exec (.closingReadEnd decay) s = .next t ∧ t.isc.reading = none ∧ t.flash = flash ∧ t.isc.records = s.isc.records
      ∧ t.dge.closing = s.dge.closing.feedAll data ∧ t.dge.next = s.dge.next + 1
      ∧ t.isc.work.map Work.table = some (w.table ++ [digestOf data])
      ∧ (q.index + 1 < d.segments → t.isc.requests = s.isc.requests ++ [⟨.closing, q.copy, q.index + 1⟩])
      ∧ (d.segments ≤ q.index + 1 → t.isc.requests = s.isc.requests
        ∧ ∃ w', t.isc.work = some w' ∧ (w'.op = some (.tables q.copy) ∨ w'.due.map Prod.fst = some (.tables q.copy)))

/-! ## The car lines (chapters 5 and 6) -/

/-- The grant and the release of a line: an IDLE line with no round due is granted to the first job of its queue that the
hold lets through, and to none otherwise; a grant in phase LOAD requests the lowest index of the reload set into the buffer X,
into Y where X is in use, or, with both in use, has it wait for one (log 26). A job that leaves releases the buffers, and the line
is then granted anew; that a round in flight keeps the line in ROLL CALL, though job and buffers are gone at once, is the model's
reading (log 50), and that a suspended erase is resumed by the withdrawals before the next job's request its choice (log 58). -/
def Obligations.GrantAndRelease : Prop :=
  ∀ (s : State) (c : Car),
    let l := s.lines[c]
    (l.state ≠ .idle ∨ l.slowDue = true ∨ (∃ d : Drop, 0 < l.owed[d]) ∨ (∀ j ∈ l.queue, l.hold = true ∧ j.cls = .info) →
        s.tryGrant c = s)
      ∧ (∀ (j : LineJob) (ahead behind : List LineJob), l.state = .idle → l.slowDue = false → (∀ d : Drop, l.owed[d] = 0) →
        l.queue = ahead ++ j :: behind → (∀ x ∈ ahead, l.hold = true ∧ x.cls = .info) → l.hold = false ∨ j.cls = .door →
        let t := s.tryGrant c
        let g := t.lines[c]
        LineFrame c s t ∧ t.jrn = s.jrn ∧ t.chan.clcRpl[c] = s.chan.clcRpl[c] ++ [.granted j.jid j.phase]
          ∧ g = { l with state := .serving, queue := ahead ++ behind, holding := some { j with s := 0 }, ending := .unset,
                         exch := none, exchangeFirst := false, bufX := g.bufX, bufY := g.bufY, wantRead := g.wantRead }
          ∧ (j.phase ≠ .load → g.bufX = l.bufX ∧ g.bufY = l.bufY ∧ g.wantRead = l.wantRead ∧ t.isc = s.isc)
          ∧ (∀ (i : Nat) (rest : List Nat), j.phase = .load → j.reload = i :: rest → l.bufX.state = .empty →
            l.holdsIndex j.jid i = false → g.bufX.state = .waiting ∧ g.bufX.index = i ∧ g.bufX.job = some j.jid
              ∧ g.bufY = l.bufY ∧ t.isc.requests = s.isc.requests ++ [⟨.job c false j.cls, j.copy, i⟩])
          ∧ (∀ (i : Nat) (rest : List Nat), j.phase = .load → j.reload = i :: rest → l.bufX.state ≠ .empty →
            l.holdsIndex j.jid i = false → g.bufX = l.bufX
              ∧ (l.bufY.state = .empty → g.bufY.state = .waiting ∧ g.bufY.index = i ∧ g.bufY.job = some j.jid
                ∧ g.wantRead = l.wantRead ∧ t.isc.requests = s.isc.requests ++ [⟨.job c true j.cls, j.copy, i⟩])
              ∧ (l.bufY.state ≠ .empty → g.bufY = l.bufY ∧ g.wantRead = some i ∧ t.isc = s.isc))
          ∧ (∀ (i : Nat) (rest : List Nat), j.phase = .load → j.reload = i :: rest → l.holdsIndex j.jid i = true →
            g.bufX = l.bufX ∧ g.bufY = l.bufY ∧ g.wantRead = l.wantRead ∧ t.isc = s.isc))
      ∧ ∀ requeue : Option LineJob, ∃ u : State, s.leaveLine c requeue = u.tryGrant c ∧ LineFrame c s u
        ∧ u.jrn = s.jrn ∧ u.chan = s.chan
        ∧ u.lines[c] = { l with
            state := if l.state = .serving then .idle else l.state
            holding := none, ending := .unset, exch := none, exchangeFirst := false, replyTimer := none
            queue := requeue.elim l.queue (fun j => insertJob j l.queue)
            bufX := l.bufX.released, bufY := l.bufY.released, wantRead := none }
        ∧ u.isc.requests = s.isc.requests.filter (fun q =>
            !(decide (l.bufX.state = .waiting) && [NodeClass.door, .info].any (fun k => decide (q.who = .job c false k))
              || decide (l.bufY.state = .waiting) && [NodeClass.door, .info].any (fun k => decide (q.who = .job c true k))))

/-- The line's timers: the boot timer begins the fast rounds; the slow timer makes a slow round due; the round timer ends
the round, or leaves that to the end of a frame in reception, its unheard drops counted down or reported, and a job with an
ending mark then leaves the line; the reply timer fails a try. That several drops whose owed rounds reach 0 at one round's end
are reported one by one in ascending order is the model's choice (log 51). -/
def Obligations.LineTimers : Prop :=
  ∀ (c : Car) (s : State), s.isRunning = true →
    let l := s.lines[c]
    let sets := fun x : Line => { s with lines := s.lines.set c x }
    let tells := fun (x : Line) (m : LineReport) =>
      { sets x with chan := { s.chan with clcRpl := s.chan.clcRpl.set c (s.chan.clcRpl[c] ++ [m]) } }
    let closed := { l with round := none, called := 0, roundTimer := none, roundOver := false }
    (l.state = .bootWait → l.bootTimer.isSome = true → exec (.bootTimerExpiry c) s
        = .next (sets { l with state := .rollCall, bootTimer := none, fastNo := 0, heard := 0 }))
      ∧ (l.slowTimer.isSome = true → exec (.slowTimerExpiry c) s = .next (sets { l with slowDue := true, slowTimer := some 500 }))
      ∧ (l.round.isSome = true → l.roundTimer.isSome = true → l.rx = .inFrame →
        exec (.roundTimerExpiry c) s = .next (sets { l with roundTimer := none, roundOver := true }))
      ∧ (l.round = some .fast → l.roundTimer.isSome = true → l.rx ≠ .inFrame →
        let u := allDrops.filter (fun d => (s.findNode c d).any (fun r => !r.isExcluded) && !DropSet.has l.heard d)
        let ended := { closed with fastNo := 0, heard := 0, state := .idle }
        (u ≠ [] → l.fastNo < 3 → exec (.roundTimerExpiry c) s = .next (sets { closed with fastNo := l.fastNo + 1 }))
          ∧ (u ≠ [] → l.fastNo = 3 →
            exec (.roundTimerExpiry c) s = .next (publish s ((tells ended (.unheard u false)).tryGrant c)))
          ∧ (u = [] → exec (.roundTimerExpiry c) s = .next (publish s ((sets ended).tryGrant c))))
      ∧ (l.round.isSome = true → l.roundTimer.isSome = true → l.rx ≠ .inFrame →
        ∃ t, exec (.roundTimerExpiry c) s = .next t ∧ RoundEnds c s t l [])
      ∧ ∀ (x : Exchange) (j : LineJob), l.replyTimer.isSome = true → l.exch = some x → x.stage = .awaiting →
        l.holding = some j →
        (l.ending = .unset → x.retry < 3 → exec (.replyTimerExpiry c) s = .next (tells
            { l with exch := some { x with retry := x.retry + 1, stage := .resend }, replyTimer := none }
            (.retry j.jid (x.retry + 1))))
          ∧ (l.ending = .unset → 3 ≤ x.retry → exec (.replyTimerExpiry c) s
            = .next (publish s ((s.report c (.failed j.jid .noReply)).leaveLine c none)))
          ∧ (l.ending = .ending → exec (.replyTimerExpiry c) s
            = .next (publish s ((s.report c (.released j.jid)).leaveLine c none)))
          ∧ (l.ending = .storeFault → exec (.replyTimerExpiry c) s
            = .next (publish s ((s.report c (.failed j.jid .storeFault)).leaveLine c none)))

/-- The frames the part sends: the ROLL CALL of the round that is due, with the silent set the complement of the drops
called; the request of the holding job's phase, once or again, a LOAD from whichever buffer holds its segment, which has the next
segment requested into the other; their ends start the round or reply timer; a lead byte taken
begins a frame and stops the reply timer. Each frame's bytes are those of section 5.3. That a next segment with both buffers in
use waits for a STALE one is the model's reading (log 26). -/
def Obligations.FramesAreSent : Prop :=
  ∀ (c : Car) (s : State), s.isRunning = true →
    let l := s.lines[c]
    let sets := fun x : Line => { s with lines := s.lines.set c x }
    let tells := fun (x : Line) (m : LineReport) =>
      { sets x with chan := { s.chan with clcRpl := s.chan.clcRpl.set c (s.chan.clcRpl[c] ++ [m]) } }
    let due := l.slowDue = true ∨ ∃ d : Drop, 0 < l.owed[d]
    (l.tx = none → l.rx ≠ .inFrame → l.round = none → l.state = .rollCall → exec (.rollCall c) s = .next (sets
        { l with round := some .fast, called := ~~~ l.heard, roundTimer := none, roundOver := false,
                 tx := some ⟨true, rollCallFrame l.heard⟩ }))
      ∧ (l.tx = none → l.rx ≠ .inFrame → l.round = none → due →
        l.state = .idle ∨ (l.state = .serving ∧ l.exch = none ∧ l.exchangeFirst = false) →
        ∃ k : DropSet, (∀ d : Drop, DropSet.has k d = (DropSet.has l.missing d || decide (0 < l.owed[d])))
          ∧ exec (.rollCall c) s = .next (sets
            { l with state := .rollCall, round := some .other, called := k, roundTimer := none, roundOver := false,
                     slowDue := false, tx := some ⟨true, rollCallFrame (~~~ k)⟩ }))
      ∧ (∀ j : LineJob, l.tx = none → l.rx ≠ .inFrame → l.round = none → l.state = .serving → l.ending = .unset →
        l.exch = none → l.holding = some j → ¬ due ∨ l.exchangeFirst = true →
        let k := s.isc.records[j.copy]
        let first := fun (q : Request) (b : List Byte) =>
          tells { l with exch := some ⟨q, b, 0, .sending⟩, tx := some ⟨false, b⟩ } (.retry j.jid 0)
        (j.phase = .survey →
            exec (.digestAsk c) s = .next (first (.digestAsk k.desc.segments) (digestAskFrame j.drop k.desc)))
          ∧ (j.phase = .start → exec (.start c) s = .next (first .start (startFrame j.drop k.desc k.whole)))
          ∧ (∀ (i : Nat) (rest : List Nat) (b : SegBuf), j.phase = .load → j.reload = i :: rest → l.filledBuf j.jid i = some b →
            let f := loadFrame j.drop i (if j.plan = .compare then clippedSpans k.desc i else []) b.data b.digest
            (rest = [] → exec (.load c) s = .next (first (.load i) f))
              ∧ (∀ (n : Nat) (more : List Nat), rest = n :: more → l.holdsIndex j.jid n = false → l.bufX = b →
                l.bufY.state = .empty → b.state = .filled → ∃ t, exec (.load c) s = .next t ∧ LineFrame c s t
                  ∧ t.chan = (first (.load i) f).chan ∧ t.lines[c].exch = some ⟨.load i, f, 0, .sending⟩
                  ∧ t.lines[c].tx = some ⟨false, f⟩ ∧ t.lines[c].bufX = b ∧ t.lines[c].bufY.state = .waiting
                  ∧ t.lines[c].bufY.index = n ∧ t.isc.requests = s.isc.requests ++ [⟨.job c true j.cls, j.copy, n⟩])
              ∧ (∀ (n : Nat) (more : List Nat), rest = n :: more → l.holdsIndex j.jid n = false → l.bufY = b →
                l.bufX.state = .empty → b.state = .filled → ∃ t, exec (.load c) s = .next t ∧ LineFrame c s t
                  ∧ t.chan = (first (.load i) f).chan ∧ t.lines[c].exch = some ⟨.load i, f, 0, .sending⟩
                  ∧ t.lines[c].tx = some ⟨false, f⟩ ∧ t.lines[c].bufY = b ∧ t.lines[c].bufX.state = .waiting
                  ∧ t.lines[c].bufX.index = n ∧ t.isc.requests = s.isc.requests ++ [⟨.job c false j.cls, j.copy, n⟩])
              ∧ (∀ (n : Nat) (more : List Nat), rest = n :: more →
                (l.holdsIndex j.jid n = true → exec (.load c) s = .next (first (.load i) f))
                  ∧ (l.holdsIndex j.jid n = false → l.bufX.state ≠ .empty → l.bufY.state ≠ .empty →
                    exec (.load c) s = .next (tells { l with
                      exch := some ⟨.load i, f, 0, .sending⟩, tx := some ⟨false, f⟩, wantRead := some n } (.retry j.jid 0))))))
      ∧ (∀ x : Exchange, l.tx = none → l.rx ≠ .inFrame → l.round = none → l.state = .serving → l.ending = .unset →
        l.exch = some x → x.stage = .resend →
        let again := sets { l with exch := some { x with stage := .sending }, tx := some ⟨false, x.bytes⟩ }
        (∀ n, x.req = .digestAsk n → exec (.digestAsk c) s = .next again)
          ∧ (∀ n, x.req = .load n → exec (.load c) s = .next again)
          ∧ (x.req = .start → exec (.start c) s = .next again))
      ∧ (∀ b : List Byte, l.tx = some ⟨true, b⟩ → exec (.txFrameEnd c) s = .next (sets { l with tx := none, roundTimer := some 20 }))
      ∧ (∀ (b : List Byte) (x : Exchange), l.tx = some ⟨false, b⟩ → l.exch = some x →
        let ends := fun n : Nat =>
          sets { l with tx := none, exch := some { x with stage := .awaiting }, replyTimer := some n }
        (∀ n, x.req = .digestAsk n → exec (.txFrameEnd c) s = .next (ends (5 + (n + 3) / 4)))
          ∧ (∀ n, x.req = .load n → exec (.txFrameEnd c) s = .next (ends 4))
          ∧ (x.req = .start → exec (.txFrameEnd c) s = .next (ends 20)))
      ∧ (l.state ≠ .off → l.tx = none → l.rx = .idle →
        exec (.leadByteTaken c) s = .next (sets { l with rx := .inFrame, replyTimer := none }))
      ∧ (∀ k : DropSet, rollCallFrame k = [0xA5, 0x0F, 0x10, 1, 0, k] ++ le16 (crc16 [0x0F, 0x10, 1, 0, k]).toNat)
      ∧ ∀ (d : Drop) (k : Desc) (whole digest : Long) (index : Nat) (keep : List Span) (data : List Byte),
        let frame := fun (kind : Byte) (p : List Byte) =>
          let body := [BitVec.ofNat 8 (d.val + 1), kind, byteOf p.length 0, byteOf p.length 1] ++ p
          [0xA5] ++ body ++ le16 (crc16 body).toNat
        let spans := fun l : List Span =>
          l.flatMap (fun x => [byteOf x.off 0, byteOf x.off 1, byteOf x.off 2, byteOf x.len 0, byteOf x.len 1])
        digestAskFrame d k = frame 0x20 (le16 k.image ++ [0, 0] ++ le16 k.segments ++ [byteOf k.spans.length 0] ++ spans k.spans)
          ∧ loadFrame d index keep data digest = frame 0x30 (le16 index ++ [byteOf keep.length 0] ++ spans keep
            ++ le16 data.length ++ data ++ le32 digest.toNat)
          ∧ startFrame d k whole = frame 0x40 (le16 k.image ++ le16 k.version ++ le16 k.segments ++ le32 whole.toNat)

/-- HELLOs and discarded frames: a HELLO of a drop in the round is heard, and handed on, ignored or a STRANGER entry by the
roster; one of a drop not called, one with a field out of range, and any frame taken with no round and no exchange is as a
discarded frame, and so is a reply taken in a round; the last called drop heard ends a round other than a fast one, with a job on
the line or none; a discarded frame is a line error, and one too long leaves the receiver waiting for an idle line. A round whose
timer has expired during a frame ends once that frame has been judged. That a drop heard in a fast round leaves the called set of
the round (log 27) is the model's reading, the order of several individual reports at one round's end its choice (log 51). -/
def Obligations.RoundFramesAreTaken : Prop :=
  ∀ (c : Car) (s : State), s.isRunning = true →
    let l := s.lines[c]
    let sets := fun x : Line => { s with lines := s.lines.set c x }
    (∀ (d : Drop) (cls ram boot : Byte) (image version segments : Word) (f : HelloFields), l.rx = .inFrame →
        cls = (if f.cls = .info then 1 else 0) → ram = (if f.ramLost then 1 else 0) → boot = (if f.digestCapable then 1 else 0) →
        f.image = image.toNat → f.version = version.toNat → f.segments = segments.toNat →
        DropSet.has l.called d = true → ∀ k : Round, l.round = some k →
        let x := { l with rx := .idle, called := DropSet.del l.called d
                          heard := if k = .fast then DropSet.add l.heard d else l.heard
                          owed := if k = .fast then l.owed else l.owed.set d 0 }
        let i := Instr.hello c d cls ram image version segments boot
        (l.roundOver = false → k = .fast ∨ DropSet.del l.called d ≠ 0 →
            (∀ r, s.findNode c d = some r → r.isExcluded = false → exec i s = .next { sets x with
                chan := { s.chan with clcRpl := s.chan.clcRpl.set c (s.chan.clcRpl[c] ++ [.hello d f]) } })
              ∧ (∀ r, s.findNode c d = some r → r.isExcluded = true → exec i s = .next (sets x))
              ∧ (s.findNode c d = none →
                let b := [byteOf f.cls.code 0, 0] ++ le16 f.image ++ le16 f.version ++ [0, 0]
                let e : Entry := { kind := .stranger, car := c.val, drop := d.val + 1, uptime := s.ord.uptime, body := b }
                exec i s = .next { sets x with jrn := { s.jrn with requests := s.jrn.requests ++ [⟨.clc c, e⟩] } }))
          ∧ (l.roundOver = true ∨ (k = .other ∧ DropSet.del l.called d = 0) → ∃ t, exec i s = .next t
            ∧ RoundEnds c s t x (if (s.findNode c d).any (fun r => !r.isExcluded) then [.hello d f] else [])))
      ∧ (∀ (d : Drop) (cls ram boot : Byte) (image version segments : Word) (b : List Byte), judgeBytes b = .bad false →
        (l.round.isSome = true ∧ DropSet.has l.called d = false) ∨ (l.round = none ∧ l.exch = none) →
        exec (.hello c d cls ram image version segments boot) s = exec (.discardedFrame c b) s)
      ∧ (∀ (d : Drop) (cls ram boot : Byte) (image version segments : Word) (b : List Byte), judgeBytes b = .bad false →
        1 < cls.toNat ∨ 1 < ram.toNat ∨ 1 < boot.toNat →
        exec (.hello c d cls ram image version segments boot) s = exec (.discardedFrame c b) s)
      ∧ (∀ (d : Drop) (first n : Word) (digests : List Long) (o : Byte) (b : List Byte), judgeBytes b = .bad false →
        l.round.isSome = true ∨ l.exch = none → exec (.digestList c d first n digests) s = exec (.discardedFrame c b) s
          ∧ exec (.loadAck c d n o) s = exec (.discardedFrame c b) s ∧ exec (.running c d o) s = exec (.discardedFrame c b) s)
      ∧ (∀ (b : List Byte) (o : Bool), l.rx = .inFrame → l.exch = none → l.round.isSome = true → l.roundOver = true →
        judgeBytes b = .bad o →
        let x := { l with rx := if o then .waitIdle else .idle, errors := min 65535 (l.errors + 1) }
        ∃ t, exec (.discardedFrame c b) s = .next t ∧ RoundEnds c s t x [] ∧ t.lines[c].errors = x.errors
          ∧ t.lines[c].rx = x.rx)
      ∧ (∀ (b : List Byte) (o : Bool), l.rx = .inFrame → l.exch = none → l.round = none ∨ l.roundOver = false → judgeBytes b = .bad o →
        let x := { l with rx := if o then .waitIdle else .idle, errors := min 65535 (l.errors + 1) }
        ∃ t, exec (.discardedFrame c b) s = .next t ∧ t = { sets x with ram := t.ram }
          ∧ HostPagesKept s t ∧ (Mem.wf 0 s.ram = true → l.errors < 65535 → leNat (t.ramBytes (0x6C + 16 * c.val) 2) = l.errors + 1))
      ∧ (l.rx = .inFrame → exec (.lineIdleTimeout c) s = exec (.discardedFrame c []) s)
      ∧ (l.rx = .waitIdle → exec (.lineIdleTimeout c) s = .next (sets { l with rx := .idle }))

/-- Replies, with no round open: one that agrees with the request ends the exchange by its outcome; one that disagrees, a rejected
LOAD or a discarded frame, one of another drop among these, is a failed try, sent again under a retry count of 3 and the fourth a
REPEATED REJECT; with an ending mark set the try was the last, whatever frame ends it, and nothing of the reply is handed on: the
job is released, or fails with STORE FAULT, and a discarded frame is still a line error. A job that yields leaves the line as any
other, one PREEMPTED entry asked for, and re-enters the queue by its key with its copy, its phase, its reload set and s kept. That
progress is reported ahead of the accepted LOAD, and that the line itself computes the reload set of a survey, is the model's
reading (log 4). -/
def Obligations.RepliesAreTaken : Prop :=
  ∀ (c : Car) (s : State) (j : LineJob) (x : Exchange), s.isRunning = true → s.lines[c].roundOver = false →
    s.lines[c].rx = .inFrame → s.lines[c].round = none → s.lines[c].holding = some j → s.lines[c].exch = some x →
    x.stage = .awaiting →
    let l := s.lines[c]
    let s1 := { s with lines := s.lines.set c { l with rx := .idle } }
    let tells := fun (y : Line) (m : List LineReport) => { s with
      lines := s.lines.set c y, chan := { s.chan with clcRpl := s.chan.clcRpl.set c (s.chan.clcRpl[c] ++ m) } }
    let moves := fun p : LineJob =>
      { l with rx := .idle, holding := some p, exch := none, exchangeFirst := false, replyTimer := none }
    let retried := fun i : Instr =>
      (x.retry < 3 → exec i s = .next (tells { l with rx := .idle, exch := some { x with retry := x.retry + 1, stage := .resend },
                                                      replyTimer := none } [.retry j.jid (x.retry + 1)]))
        ∧ (3 ≤ x.retry →
          exec i s = .next (publish s ((s1.report c (.failed j.jid .repeatedReject)).leaveLine c none)))
    let yields := fun (i : Instr) (told : List LineReport) (y : Line) (p : LineJob) (reason : Nat) =>
      let b := [byteOf reason 0, byteOf p.s 0] ++ le16 p.reload.length
      let e : Entry := { kind := .preempted, car := c.val, drop := j.drop.val + 1, uptime := s.ord.uptime, body := b }
      exec i s = .next (publish s (((tells y (told ++ [.yielded j.jid])).ask (.clc c) e).leaveLine c (some p)))
    let doors := ∃ q ∈ l.queue, q.cls = .door
    (∀ (n : Word) (digests : List Long), l.ending = .unset → x.req = .digestAsk n.toNat → digests.length = n.toNat →
        let e := (List.range digests.length).filter (fun i => decide (digests[i]? ≠ s.isc.records[j.copy].table[i]?))
        let i := Instr.digestList c j.drop 0 n digests
        let told : List LineReport := [.surveyEnded j.jid digests]
        let p := { j with reload := e, phase := .load }
        let preempted := s.fleet.holdLimit ≤ j.s ∧ doors
        (e = [] → exec i s = .next (tells (moves { j with reload := [], phase := .start }) told))
          ∧ (e ≠ [] → j.cls = .door ∨ (¬ preempted ∧ l.hold = false) →
            exec i s = .next (publish s ((tells (moves p) told).requestLowest c)))
          ∧ (e ≠ [] → j.cls = .info → preempted → yields i told (moves p) p 1)
          ∧ (e ≠ [] → j.cls = .info → ¬ preempted → l.hold = true → yields i told (moves p) p 2))
      ∧ (∀ (index : Word) (rest : List Nat), l.ending = .unset → x.req = .load index.toNat → j.reload = index.toNat :: rest →
        let i := Instr.loadAck c j.drop index
        let p := { j with reload := rest, s := j.s + 1, phase := if rest = [] then .start else .load }
        let told : List LineReport := [.progress j.jid (j.s + 1), .loadAccepted j.jid]
        let cleared := fun b : SegBuf => if b.isFor j.jid index.toNat [.filled] then SegBuf.reset else b
        let y := { moves p with bufX := cleared l.bufX, bufY := cleared l.bufY }
        let goes := ∃ t, exec (i 0) s = .next t ∧ LineFrame c s t ∧ t.isc = s.isc ∧ t.jrn = s.jrn
          ∧ t.chan = (tells l told).chan ∧ t.lines[c] = y
        let preempted := s.fleet.holdLimit ≤ j.s + 1 ∧ doors
        (rest = [] → goes)
          ∧ (∀ (n : Nat) (more : List Nat), rest = n :: more → j.cls = .door ∨ (¬ preempted ∧ l.hold = false) →
            (l.faultAt j.jid n = false → goes)
              ∧ (l.faultAt j.jid n = true → ∃ t, exec (i 0) s = .next t ∧ LineFrame c s t ∧ t.jrn = s.jrn
                ∧ (s.chan.clcRpl[c] ++ told ++ [.failed j.jid .storeFault]) <+: t.chan.clcRpl[c]))
          ∧ (rest ≠ [] → j.cls = .info → preempted → yields (i 0) told y p 1)
          ∧ (rest ≠ [] → j.cls = .info → ¬ preempted → l.hold = true → yields (i 0) told y p 2)
          ∧ retried (i 1) ∧ retried (i 2)
          ∧ exec (i 3) s = .next (publish s ((s1.report c (.failed j.jid .nodeRefused)).leaveLine c none)))
      ∧ (l.ending = .unset → x.req = .start →
        exec (.running c j.drop 0) s = .next (publish s ((s1.report c (.success j.jid)).leaveLine c none))
          ∧ exec (.running c j.drop 1) s = .next (publish s ((s1.report c (.failed j.jid .imageCheck)).leaveLine c none)))
      ∧ (∀ (index : Word) (o : Byte), l.ending = .unset →
        x.req ≠ .load index.toNat ∨ 3 < o.toNat → retried (.loadAck c j.drop index o))
      ∧ (∀ (first n : Word) (digests : List Long), l.ending = .unset →
        x.req ≠ .digestAsk n.toNat ∨ first ≠ 0 ∨ digests.length ≠ n.toNat → retried (.digestList c j.drop first n digests))
      ∧ (∀ o : Byte, l.ending = .unset → x.req ≠ .start ∨ 1 < o.toNat → retried (.running c j.drop o))
      ∧ (∀ (cls ram boot : Byte) (image version segments : Word), l.ending = .unset →
        cls.toNat ≤ 1 → ram.toNat ≤ 1 → boot.toNat ≤ 1 → retried (.hello c j.drop cls ram image version segments boot))
      ∧ (l.ending = .unset →
        let discarded := fun (i : Instr) (o : Bool) =>
          let y := { l with rx := if o then .waitIdle else .idle, errors := min 65535 (l.errors + 1) }
          (x.retry < 3 → exec i s = .next (publish s (tells { y with
              exch := some { x with retry := x.retry + 1, stage := .resend }, replyTimer := none } [.retry j.jid (x.retry + 1)])))
            ∧ (3 ≤ x.retry → exec i s = .next (publish s
              (({ s with lines := s.lines.set c y }.report c (.failed j.jid .repeatedReject)).leaveLine c none)))
        (∀ (b : List Byte) (o : Bool), judgeBytes b = .bad o → discarded (.discardedFrame c b) o)
          ∧ ∀ (d : Drop) (first n : Word) (digests : List Long) (o : Byte), d ≠ j.drop →
            discarded (.digestList c d first n digests) false ∧ discarded (.loadAck c d n o) false ∧ discarded (.running c d o) false
              ∧ ∀ (ram boot : Byte) (version : Word), discarded (.hello c d o ram first version n boot) false)
      ∧ (let ended := fun (i : Instr) (u : State) =>
          (l.ending = .ending → exec i s = .next (publish s ((u.report c (.released j.jid)).leaveLine c none)))
            ∧ (l.ending = .storeFault → exec i s = .next (publish s ((u.report c (.failed j.jid .storeFault)).leaveLine c none)))
        let counted := fun o : Bool => { s with lines := s.lines.set c { l with
          rx := if o then .waitIdle else .idle, errors := min 65535 (l.errors + 1) } }
        (∀ (first n : Word) (digests : List Long), ended (.digestList c j.drop first n digests) s1)
          ∧ (∀ (index : Word) (o : Byte), ended (.loadAck c j.drop index o) s1)
          ∧ (∀ o : Byte, ended (.running c j.drop o) s1)
          ∧ (∀ (cls ram boot : Byte) (image version segments : Word), cls.toNat ≤ 1 → ram.toNat ≤ 1 → boot.toNat ≤ 1 →
            ended (.hello c j.drop cls ram image version segments boot) s1)
          ∧ (∀ (b : List Byte) (o : Bool), judgeBytes b = .bad o → ended (.discardedFrame c b) (counted o))
          ∧ ∀ (d : Drop) (first n : Word) (digests : List Long) (o : Byte), d ≠ j.drop →
            ended (.digestList c d first n digests) (counted false) ∧ ended (.loadAck c d n o) (counted false)
              ∧ ended (.running c d o) (counted false))

/-- The line takes what the planner and the journal tell it: a job enters the queue at its key position, but not on a line in OFF;
nor, which is the model's reading (log 4), one of a planner that has still to take a CAR LOSS the line has taken; a job is ended at
once, or marked to end with its try or round; owed rounds are asked for and cancelled; the missing set, with its slow timer;
the hold flag. Of a job that the line does not hold, the release or the STORE FAULT is reported at once, whether it stood in the
queue or not: the model's reading (log 15); but nothing is reported where the planner has still to take a CAR LOSS that the line
has taken, which ends the job (R116). So are a cancel that leaves a round in flight with its called set (log 21), the
same of a request while that round is in flight (log 49), a tell of MISSING in OFF (log 36), and a STORE FAULT end at once with
a round in flight (log 50). -/
def Obligations.LineTakesNews : Prop :=
  ∀ (c : Car) (s : State) (rest : List LineOrder), s.isRunning = true →
    let l := s.lines[c]
    let taken := { s.chan with rplClc := s.chan.rplClc.set c rest }
    let sets := fun x : Line => { s with lines := s.lines.set c x, chan := taken }
    let news := fun m : LineOrder => s.chan.rplClc[c] = m :: rest
    let busy := l.round.isSome = true ∨ ∃ x, l.exch = some x ∧ x.stage ≠ .resend
    (∀ j, news (.jobEnters j) →
        (l.state = .off ∨ s.chan.handed[c] ≠ [] → exec (.clcJobEntersQueue c) s = .next { s with chan := taken })
          ∧ (l.state ≠ .off → s.chan.handed[c] = [] → exec (.clcJobEntersQueue c) s
            = .next (publish s ((sets { l with queue := insertJob j l.queue }).tryGrant c))))
      ∧ (∀ jid, news (.endJob jid) →
        (∀ j, l.holding = some j → j.jid = jid → busy → exec (.clcEndJob c) s = .next (sets { l with ending := .ending }))
          ∧ (∀ j, l.holding = some j → j.jid = jid → ¬ busy → exec (.clcEndJob c) s
            = .next (publish s (({ s with chan := taken }.report c (.released jid)).leaveLine c none)))
          ∧ ((∀ j, l.holding = some j → j.jid ≠ jid) →
            (s.chan.handed[c] ≠ [] → exec (.clcEndJob c) s = .next { s with chan := taken })
              ∧ (s.chan.handed[c] = [] → exec (.clcEndJob c) s = .next
                ((sets { l with queue := l.queue.filter (fun j => decide (j.jid ≠ jid)) }).report c (.released jid)))))
      ∧ (∀ jid, news (.storeFaultEnd jid) →
        (∀ j, l.holding = some j → j.jid = jid → l.ending = .ending →
            exec (.clcStoreFaultEnd c) s = .next { s with chan := taken })
          ∧ (∀ j x, l.holding = some j → j.jid = jid → l.ending ≠ .ending → l.exch = some x → x.stage ≠ .resend →
            exec (.clcStoreFaultEnd c) s = .next (sets { l with ending := .storeFault }))
          ∧ (∀ j, l.holding = some j → j.jid = jid → l.ending ≠ .ending → (∀ x, l.exch = some x → x.stage = .resend) →
            exec (.clcStoreFaultEnd c) s
              = .next (publish s (({ s with chan := taken }.report c (.failed jid .storeFault)).leaveLine c none)))
          ∧ ((∀ j, l.holding = some j → j.jid ≠ jid) →
            (s.chan.handed[c] ≠ [] → exec (.clcStoreFaultEnd c) s = .next { s with chan := taken })
              ∧ (s.chan.handed[c] = [] → exec (.clcStoreFaultEnd c) s = .next
                ((sets { l with queue := l.queue.filter (fun j => decide (j.jid ≠ jid)) }).report c (.failed jid .storeFault)))))
      ∧ (∀ d, news (.individual d) → exec (.individualRollCallRequest c) s = .next (sets
        (if l.state = .idle ∨ l.state = .serving ∨ (l.state = .rollCall ∧ l.round = some .other)
          then { l with owed := l.owed.set d 4 } else l)))
      ∧ (∀ d, news (.cancel d) → exec (.cancelRollCall c) s
        = .next (publish s ((sets { l with owed := l.owed.set d 0 }).tryGrant c)))
      ∧ (∀ d on, news (.missing d on) →
        let m := if on then DropSet.add l.missing d else DropSet.del l.missing d
        exec (.missingSetChange c) s = .next (publish s ((sets (if l.state = .off then l else { l with
          missing := m
          slowTimer := if m = 0 then none else if l.missing = 0 then some 500 else l.slowTimer
          slowDue := if m = 0 then false else l.slowDue })).tryGrant c)))
      ∧ ∀ (on : Bool) (more : List Bool), s.chan.jrnClc[c] = on :: more → exec (.holdTell c) s = .next (publish s
        (({ s with lines := s.lines.set c { l with hold := on },
                   chan := { s.chan with jrnClc := s.chan.jrnClc.set c more } }).tryGrant c))

/-! ## The restore planner (chapter 4) -/

/-- The planner takes a HELLO: of a node AWAITING, MISSING or polled in BACKOFF it records it and plans by the first of the nine
rows that holds, to FAILED or to a queued job with its copy pinned, an old job's copy unpinned, and reports a DOOR node's change
of state to the permits; of any other node it disregards it. That it also disregards one while the CLC has not taken a CAR LOSS
that the planner has is the model's reading (log 4). What that report carries of the car's door nodes is the model's reading (log
25). How a job is identified (each car's own number, one more after each planning) is the model's choice (log 10). -/
def Obligations.HelloIsPlanned : Prop :=
  ∀ (c : Car) (s : State) (d : Drop) (f : HelloFields) (rest : List LineReport) (r : NodeRec), s.isRunning = true →
    s.chan.clcRpl[c] = .hello d f :: rest → s.findNode c d = some r →
    let behind := ∃ u, .loss u ∈ s.chan.ssuClc[c].take (s.chan.ssuClc[c].length - s.chan.ssuRpl[c].length)
    let takes := ¬ behind ∧ (r.state = .awaiting ∨ r.state = .missing ∨ (r.state = .backoff ∧ r.backoffFrom = none))
    let marks := s.chan.handed.set c (s.chan.handed[c].map (fun n => n - 1))
    (¬ takes →
        exec (.rplHello c) s = .next { s with chan := { s.chan with clcRpl := s.chan.clcRpl.set c rest, handed := marks } })
      ∧ (takes → ∃ (t : State) (r' : NodeRec), exec (.rplHello c) s = .next t ∧ PlannerFrame c d s t
        ∧ t.findNode c d = some r' ∧ t.chan.clcRpl[c] = rest ∧ t.chan.handed = marks
        ∧ (r.state = .missing → .missing d false ∈ t.chan.rplClc[c])
        ∧ t.chan.rplPrm = s.chan.rplPrm ++ (if r.cls = .door then [⟨c, d, .state r.state r'.state, t.roster.all (fun n =>
            !(decide (n.car = c ∧ n.cls = .door) && !n.isExcluded) || decide (n.state = .ready))⟩] else [])
        ∧ (let entry := fun (k : EntryKind) (b : List Byte) =>
            ({ kind := k, car := c.val, drop := d.val + 1, uptime := s.ord.uptime, body := b } : Entry)
          let fails := fun reason : PlanReason =>
            r' = { r with hello := some f, plan := none, reason := reason, marginal := false, state := .failed, job := none,
                          backoffFrom := none, backoffShown := 0, cost := r'.cost, changedAt := s.ord.uptime }
              ∧ t.rpl[c].nextJob = s.rpl[c].nextJob ∧ t.ntu.causes.getLsbD 3 = true
              ∧ (∀ k : CopyIx, t.isc.records[k].use
                = s.isc.records[k].use - (if r.job.map RplJob.copy = some k then 1 else 0))
              ∧ (s.jrn.requests ++ [⟨.rpl, entry .nodeFailed [1, 1, byteOf reason.code 0, byteOf r.attempt 0]⟩]) <+: t.jrn.requests
          (r.cls ≠ f.cls → fails .classMismatch)
            ∧ (r.cls = f.cls → s.activeCopy r.slot = none → fails .noImage)
            ∧ ∀ k : CopyIx, r.cls = f.cls → s.activeCopy r.slot = some k →
              let e := s.isc.records[k].desc
              let h := if r.cls = .door then s.fleet.hDoor else s.fleet.hInfo
              let b := if r.cls = .door then s.fleet.bDoor else s.fleet.bInfo
              let g := s.rpl[c].gapG
              let reason : PlanReason :=
                if 0 < r.attempt ∧ r.fail = .imageCheck then .imageCheck
                else if f.ramLost then .ramLost
                else if f.image ≠ e.image ∨ f.version ≠ e.version ∨ f.segments ≠ e.segments then .otherImage
                else if f.digestCapable = false then .loadOnlyBoot
                else if h + b ≤ g then .beyondHoldUp
                else .compare
              let plan : Plan := if reason = .compare then .compare else .full
              let marginal := decide (reason = .compare) && decide (h - b ≤ g)
              (e.cls ≠ r.cls.code → fails .imageClass)
                ∧ (e.cls = r.cls.code → ∃ j : RplJob,
                  r' = { r with hello := some f, plan := some plan, reason := reason, marginal := marginal,
                                attempt := r.attempt + 1, state := .queued, job := some j, backoffFrom := none,
                                backoffShown := 0, cost := r'.cost, changedAt := s.ord.uptime }
                    ∧ j = { jid := s.rpl[c].nextJob, copy := k, place := .queue, s := 0, retry := 0, condemned := false
                            phase := some (if reason = .compare then .survey else .load)
                            reload := if reason = .compare then [] else List.range e.segments }
                    ∧ t.rpl[c].nextJob = s.rpl[c].nextJob + 1
                    ∧ (r.job = none → t.isc.records[k].use = s.isc.records[k].use + 1)
                    ∧ (∀ o, r.job = some o → o.copy = k → 0 < s.isc.records[k].use →
                      t.isc.records[k].use = s.isc.records[k].use)
                    ∧ (∀ o, r.job = some o → o.copy ≠ k → t.isc.records[k].use = s.isc.records[k].use + 1
                      ∧ t.isc.records[o.copy].use = s.isc.records[o.copy].use - 1)
                    ∧ (let x := [byteOf plan.code 0, byteOf reason.code 0, byteOf (bit marginal) 0, byteOf (r.attempt + 1) 0]
                      let a := le16 g ++ le16 h ++ le16 b ++ [byteOf r.cls.code 0, 0]
                      (s.jrn.requests ++ (if reason = .beyondHoldUp then [⟨.rpl, entry .anomaly a⟩] else [])
                        ++ [⟨.rpl, entry .nodePlanned x⟩]) <+: t.jrn.requests)
                    ∧ .jobEnters ⟨j.jid, d, r.cls, plan, k, if reason = .compare then .survey else .load, j.reload, 0⟩
                        ∈ t.chan.rplClc[c])))

/-- The reports of a live job move its node: grant, yield, retry count, progress, survey, accepted LOAD, success and
failure; the release of an EXCLUDED node's job unpins it; a report of a job no longer live is disregarded, and of a job that is
to end with STORE FAULT every report but that failure, which is charged as any other. With a change of
node or job the car's door counts, blocked flag and settlement are made afresh, and CAR DOORS READY is asked for as the doors
become settled. A DOOR node's change of state is reported to the permits; what the report carries of the car's door nodes is the
model's reading (log 25). -/
def Obligations.JobReportsMoveNodes : Prop :=
  ∀ (c : Car) (s : State) (m : LineReport) (rest : List LineReport), s.isRunning = true → s.chan.clcRpl[c] = m :: rest →
    let marks := s.chan.handed.set c (s.chan.handed[c].map (fun n => n - 1))
    let gone := { s with chan := { s.chan with clcRpl := s.chan.clcRpl.set c rest, handed := marks } }
    (∀ jid n p digests reason, s.findJob c jid = none →
        (m = .granted jid p ∨ m = .yielded jid ∨ m = .retry jid n ∨ m = .progress jid n ∨ m = .released jid →
            exec (.rplJobReport c) s = .next gone)
          ∧ (m = .surveyEnded jid digests → exec (.rplSurveyEnded c) s = .next gone)
          ∧ (m = .loadAccepted jid → exec (.rplLoadAccepted c) s = .next gone)
          ∧ (m = .success jid → exec (.rplRunningSuccess c) s = .next gone)
          ∧ (m = .failed jid reason → exec (.rplAttemptFailed c) s = .next gone))
      ∧ ∀ (jid : Nat) (d : Drop) (r : NodeRec) (j : RplJob), s.findJob c jid = some r → s.findNode c d = some r →
        r.job = some j →
        let counts := fun (t : State) (body : List EntryReq) =>
          let doors := t.roster.filter (fun n => decide (n.car = c ∧ n.cls = .door) && !n.isExcluded)
          let ready := (doors.filter (fun n => decide (n.state = .ready))).length
          let all := decide (ready = doors.length)
          let b := le16 (min 65535 s.rpl[c].clock) ++ [byteOf ready 0, 0]
          let e : Entry := { kind := .carDoorsReady, car := c.val, drop := 0, uptime := s.ord.uptime, body := b }
          t.rpl[c].total = doors.length
            ∧ (s.rpl[c].up = false → t.rpl[c].ready = 0 ∧ t.rpl[c].blocked = false ∧ t.jrn.requests = s.jrn.requests ++ body)
            ∧ (s.rpl[c].up = true → t.rpl[c].ready = ready ∧ t.rpl[c].blocked = doors.any (fun n => decide (n.state = .failed))
              ∧ t.rpl[c].settled = all ∧ t.rpl[c].clock = s.rpl[c].clock
              ∧ t.rpl[c].clockOn = (if all = s.rpl[c].settled then s.rpl[c].clockOn else !all)
              ∧ (all = true → s.rpl[c].settled = false → doors ≠ [] →
                (s.jrn.requests ++ body ++ [⟨.rpl, e⟩]) <+: t.jrn.requests)
              ∧ (all = false ∨ s.rpl[c].settled = true ∨ doors = [] →
                ∀ q ∈ t.jrn.requests, q.entry.kind = .carDoorsReady → q ∈ s.jrn.requests))
        let reaches := fun (i : Instr) (x : NodeRec) (more : List EntryReq) (unpins : Bool) =>
          ∃ (t : State) (r' : NodeRec), exec i s = .next t ∧ PlannerFrame c d s t ∧ t.chan.clcRpl[c] = rest
            ∧ t.chan.handed = marks ∧ t.findNode c d = some r' ∧ r' = { x with cost := r'.cost, changedAt := r'.changedAt }
            ∧ (r'.changedAt = if x.state = r.state then r.changedAt else s.ord.uptime)
            ∧ (s.jrn.requests ++ more) <+: t.jrn.requests
            ∧ (∀ k : CopyIx, t.isc.records[k].use = s.isc.records[k].use - (if unpins ∧ k = j.copy then 1 else 0))
            ∧ (x.state = .failed → t.ntu.causes.getLsbD 3 = true)
            ∧ t.chan.rplPrm = s.chan.rplPrm ++ (if r.cls = .door ∧ x.state ≠ r.state then
              [⟨c, d, .state r.state x.state, t.roster.all (fun n =>
                !(decide (n.car = c ∧ n.cls = .door) && !n.isExcluded) || decide (n.state = .ready))⟩] else [])
            ∧ ((∀ n, m ≠ .retry jid n ∧ m ≠ .progress jid n) → counts t more)
        let entry := fun (k : EntryKind) (b : List Byte) =>
          (⟨.rpl, { kind := k, car := c.val, drop := d.val + 1, uptime := s.ord.uptime, body := b }⟩ : EntryReq)
        (r.state = .excluded → m = .released jid → reaches (.rplJobReport c) { r with job := none } [] true)
          ∧ (r.state ≠ .excluded → j.place ≠ .backoff → j.condemned = true →
            (∀ n p, m = .granted jid p ∨ m = .yielded jid ∨ m = .retry jid n ∨ m = .progress jid n ∨ m = .released jid →
                exec (.rplJobReport c) s = .next gone)
              ∧ (∀ digests, m = .surveyEnded jid digests → exec (.rplSurveyEnded c) s = .next gone)
              ∧ (m = .loadAccepted jid → exec (.rplLoadAccepted c) s = .next gone)
              ∧ (m = .success jid → exec (.rplRunningSuccess c) s = .next gone)
              ∧ (∀ reason, reason ≠ .storeFault → m = .failed jid reason → exec (.rplAttemptFailed c) s = .next gone))
          ∧ (r.state ≠ .excluded → r.state ≠ .failed → j.place ≠ .backoff →
            ∀ reason, m = .failed jid reason → j.condemned = false ∨ reason = .storeFault →
              (r.attempt < s.fleet.attemptLimit →
                  let q := { j with place := .backoff, phase := none, reload := [], s := 0, retry := 0, condemned := false }
                  reaches (.rplAttemptFailed c) { r with fail := reason, state := .backoff, job := some q,
                                                         backoffFrom := some s.ord.uptime, backoffShown := 1000 }
                    [entry .nodeFailed [0, 0, byteOf reason.code 0, byteOf r.attempt 0]] false)
                ∧ (s.fleet.attemptLimit ≤ r.attempt →
                  reaches (.rplAttemptFailed c) { r with fail := reason, state := .failed, job := none }
                    [entry .nodeFailed [1, 0, byteOf reason.code 0, byteOf r.attempt 0]] true))
          ∧ (r.state ≠ .excluded → r.state ≠ .failed → j.place ≠ .backoff → j.condemned = false →
            (∀ p : Phase, m = .granted jid p →
                let n : NodeState := match p with
                  | .survey => .surveying
                  | .load => .loading
                  | .start => .starting
                reaches (.rplJobReport c) { r with state := n, job := some { j with place := .line, phase := some p, s := 0 } } [] false)
              ∧ (m = .yielded jid →
                reaches (.rplJobReport c) { r with state := .queued, job := some { j with place := .queue } } [] false)
              ∧ (∀ n, m = .retry jid n → reaches (.rplJobReport c) { r with job := some { j with retry := n } } [] false)
              ∧ (∀ n, m = .progress jid n → reaches (.rplJobReport c) { r with job := some { j with s := n } } [] false)
              ∧ (∀ digests, m = .surveyEnded jid digests →
                let l := (List.range digests.length).filter (fun i => decide (digests[i]? ≠ s.isc.records[j.copy].table[i]?))
                let x := if l = []
                  then { r with state := .starting, job := some { j with phase := some .start, reload := [] } }
                  else { r with state := .loading, job := some { j with phase := some .load, reload := l } }
                let b := le16 l.length ++ [byteOf (min 24 l.length) 0, 0] ++ pad4 ((l.take 24).map (fun i => byteOf i 0))
                reaches (.rplSurveyEnded c) x [entry .surveyResult b] false)
              ∧ (∀ i l, m = .loadAccepted jid → j.reload = i :: l →
                let x := if l = []
                  then { r with state := .starting, job := some { j with phase := some .start, reload := [] } }
                  else { r with state := .loading, job := some { j with phase := some .load, reload := l } }
                reaches (.rplLoadAccepted c) x [] false)
              ∧ (m = .success jid →
                let b := [byteOf (r.plan.elim 0 Plan.code) 0, byteOf r.attempt 0, byteOf (j.copy.val / 2) 0, byteOf (j.copy.val % 2) 0]
                reaches (.rplRunningSuccess c) { r with state := .ready, job := none } [entry .nodeReady b] true))

/-- Nodes reported unheard go MISSING where they are AWAITING or polled in BACKOFF, their backoff job ended and its copy
unpinned, and each DOOR node's change is reported to the permits, as of a car with a node not READY; the backoff timer's expiry
leaves the node in BACKOFF with nothing remaining and asks for an individual roll call. What a report carries of the car's door
nodes is the model's reading (log 25), as is that a roll call of a cycle whose CAR LOSS the planner, but not yet the CLC, has taken
sends no node MISSING (log 4); that a report made before a cancel sends a node MISSING that has been excluded and included since is
its choice (log 57). -/
def Obligations.UnheardAndBackoff : Prop :=
  ∀ (c : Car) (s : State), s.isRunning = true → RosterOrdered s →
    (∀ (ds : List Drop) (one : Bool) (rest : List LineReport) (i : Instr), s.chan.clcRpl[c] = .unheard ds one :: rest →
        (i = .rplUnheardReport c ∧ (one = false ∨ ∀ d ∈ ds, ∀ r, s.findNode c d = some r → r.state ≠ .backoff))
          ∨ (i = .backoffRollCallUnheard c ∧ one = true ∧ ∃ d ∈ ds, ∃ r, s.findNode c d = some r ∧ r.state = .backoff) →
        let behind := (s.chan.ssuClc[c].take (s.chan.ssuClc[c].length - s.chan.ssuRpl[c].length)).any CarEvent.isLoss
        let gone := s.roster.filter (fun r => !behind && decide (r.car = c ∧ r.drop ∈ ds)
          && (decide (r.state = .awaiting) || decide (r.state = .backoff ∧ r.backoffFrom = none)))
        ∃ t, exec i s = .next t ∧ t.roster.length = s.roster.length ∧ t.chan.clcRpl = s.chan.clcRpl.set c rest
          ∧ t.chan.handed = s.chan.handed.set c (s.chan.handed[c].map (fun n => n - 1))
          ∧ (∀ k : CopyIx, t.isc.records[k].use = s.isc.records[k].use
            - (gone.filter (fun r => decide (r.job.map RplJob.copy = some k))).length)
          ∧ s.chan.rplPrm <+: t.chan.rplPrm
          ∧ t.chan.rplPrm.length = s.chan.rplPrm.length + (gone.filter (fun r => decide (r.cls = .door))).length
          ∧ (∀ r ∈ gone, r.cls = .door →
            ∃ all : Bool, ⟨c, r.drop, .state r.state .missing, all⟩ ∈ t.chan.rplPrm ∧ (r.isExcluded = false → all = false))
          ∧ ∀ (n : Nat) (r : NodeRec), s.roster[n]? = some r → ∃ r', t.roster[n]? = some r'
            ∧ (let goes := behind = false ∧ r.car = c ∧ r.drop ∈ ds ∧ (r.state = .awaiting ∨ (r.state = .backoff ∧ r.backoffFrom = none))
              let b := [byteOf r.attempt 0, byteOf r.fail.code 0, 0, 0]
              let e : Entry :=
                { kind := .nodeMissing, car := c.val, drop := r.drop.val + 1, uptime := s.ord.uptime, body := b }
              (goes → r' = { r with state := .missing, job := none, backoffFrom := none, backoffShown := 0, cost := r'.cost,
                                    changedAt := s.ord.uptime }
                  ∧ .missing r.drop true ∈ t.chan.rplClc[c] ∧ ⟨.rpl, e⟩ ∈ t.jrn.requests)
                ∧ (¬ goes → r' = { r with cost := r'.cost } ∧ (r.car ≠ c → r' = r)))
          ∧ (∀ x : Car, x ≠ c → t.rpl[x] = s.rpl[x]) ∧ t.lines = s.lines ∧ t.ssu = s.ssu ∧ t.prm = s.prm ∧ t.ord = s.ord
          ∧ t.flash = s.flash ∧ HostPagesKept s t)
      ∧ ∀ (d : Drop) (r : NodeRec), s.findNode c d = some r → r.state = .backoff → r.backoffFrom.isSome = true →
        let l := s.roster.map (fun x => if x.car = c ∧ x.drop = d then { r with backoffFrom := none, backoffShown := 0 } else x)
        exec (.backoffTimerExpiry c d) s = .next (publish s { s.setRoster l with
          chan := { s.chan with rplClc := s.chan.rplClc.set c (s.chan.rplClc[c] ++ [.individual d]) } })

/-- The planner at a scan tick, at sampled budgets and at the store's news: remaining backoff and estimates as of the tick;
each budget recorded and an up car judged by it, though its doors be settled, which is the model's reading (log 54); the jobs of a
damaged copy failed in the queue, each with its NODE FAILED entry and, at the final attempt, its pin released, and condemned on the
line; a slot's change of active copy reprices the cars that await it. An estimate is the rounded-up sum of the remaining costs of
the car's included door nodes and of the INFO job on its line; LATE, with ALERT, or ON TIME is asked for where the late flag
changes, by one command in ascending order of cars, which is the model's choice (log 45). What is recomputed is written to the
car's summary, changed or not. Backoff left in whole ms, its difference of uptimes modulo 2^32, is the model's reading (log 5). -/
def Obligations.TicksBudgetsAndStoreNews : Prop :=
  ∀ (s : State), s.isRunning = true →
    let others := fun t : State => t.lines = s.lines ∧ t.ssu = s.ssu ∧ t.prm = s.prm ∧ t.ord = s.ord ∧ t.flash = s.flash
      ∧ t.fleet = s.fleet ∧ HostPagesKept s t
    let tt := s.fleet.tt
    let seg := fun (d : Desc) (compare : Bool) (i : Nat) =>
      10 * (26 + 5 * (if compare then (clippedSpans d i).length else 0) + segLen d i) + 2 * tt
    let segs := fun (d : Desc) (compare : Bool) (l : List Nat) => (l.map (seg d compare)).sum
    let full := fun d : Desc => segs d false (List.range d.segments)
    let survey := fun d : Desc => 10 * (25 + 5 * d.spans.length + 4 * d.segments) + 2 * tt + 250 * d.segments
    let start := 10 * 25 + 2 * tt + 10000
    let desc := fun k : CopyIx => s.isc.records[k].desc
    let compares := fun r : NodeRec => decide (r.plan = some .compare)
    let left := fun r : NodeRec => r.backoffFrom.elim 0 (fun u => 1000 - (s.ord.uptime - u).toNat)
    let worked := fun (r : NodeRec) (j : RplJob) => match j.phase with
      | some .survey => survey (desc j.copy) + segs (desc j.copy) true (List.range (desc j.copy).segments) + start
      | some .load => segs (desc j.copy) (compares r) j.reload + start
      | some .start => start
      | none => 0
    let cost := fun r : NodeRec =>
      if r.isExcluded then 0
      else if r.state = .awaiting ∨ r.state = .missing then (s.activeCopy r.slot).elim 0 (fun k => full (desc k) + start)
      else if r.state ∈ [.queued, .surveying, .loading, .starting] then r.job.elim 0 (worked r)
      else if r.state = .backoff then r.job.elim 0 (fun j => 1000 * left r + full (desc j.copy) + start)
      else 0
    let owed := fun (r : NodeRec) (j : RplJob) => match j.phase with
      | some .survey => survey (desc j.copy)
      | some .load => segs (desc j.copy) (compares r)
          (j.reload.take (min (max (s.fleet.holdLimit - j.s) 1) j.reload.length))
      | some .start => start
      | none => 0
    let sum := fun c : Car =>
      ((s.roster.filter (fun r => r.includedDoor c)).map cost).sum
        + ((s.roster.filter (fun r => decide (r.car = c ∧ r.cls = .info) && !r.isExcluded
            && decide (r.job.map RplJob.place = some .line))).map (fun r => r.job.elim 0 (owed r))).sum
    let priced := fun (t : State) (c : Car) => ∀ (n : Nat) (r : NodeRec), s.roster[n]? = some r → r.car = c →
      (t.roster[n]?).map NodeRec.cost = some (if r.cls = .door then cost r else r.cost)
    let repriced := fun t : State => t.roster.length = s.roster.length
      ∧ ∀ (n : Nat) (r : NodeRec), s.roster[n]? = some r → ∃ x, t.roster[n]? = some { r with cost := x }
    let estimated := fun (c : Car) (p q : RplCar) (t : State) =>
      let e := if p.settled then 0 else min 65535 ((sum c + 999) / 1000)
      let elapsed := min 65535 p.clock
      let total := min 65535 (elapsed + e)
      q = { p with e := e, elapsed := elapsed, p := total, late := decide (p.budget ≠ 0 ∧ p.budget < total) } ∧ priced t c
        ∧ (Mem.wf 0 s.ram = true → leNat (t.ramBytes (0x64 + 16 * c.val) 2) = e
          ∧ leNat (t.ramBytes (0x66 + 16 * c.val) 2) = total ∧ leNat (t.ramBytes (0x68 + 16 * c.val) 2) = elapsed)
    let judged := fun t : State =>
      let turned := (List.finRange 6).filter (fun c => decide (t.rpl[c].late ≠ s.rpl[c].late))
      let kind := fun c : Car => if t.rpl[c].late then EntryKind.late else .onTime
      let body := fun c : Car => le16 t.rpl[c].p ++ le16 t.rpl[c].budget
      let entry := fun c : Car =>
        (⟨.rpl, { kind := kind c, car := c.val, drop := 0, uptime := s.ord.uptime, body := body c }⟩ : EntryReq)
      t.jrn = { s.jrn with requests := s.jrn.requests ++ (turned.map entry) }
        ∧ t.ntu = { s.ntu with causes := if ∀ c ∈ turned, t.rpl[c].late = false then s.ntu.causes else s.ntu.causes ||| 8 }
    (∀ rest, s.chan.ordRpl = .scanTick :: rest → ∃ t, exec .rplScanTick s = .next t ∧ others t ∧ t.isc = s.isc
        ∧ t.chan = { s.chan with ordRpl := rest } ∧ t.roster.length = s.roster.length
        ∧ (∀ (n : Nat) (r : NodeRec), s.roster[n]? = some r → ∃ x, t.roster[n]? = some { r with
            cost := x
            backoffShown := match r.backoffFrom with
              | some u => if r.state = .backoff then 1000 - (s.ord.uptime - u).toNat else r.backoffShown
              | none => r.backoffShown })
        ∧ judged t
        ∧ ∀ c : Car, (s.rpl[c].up = false → t.rpl[c] = s.rpl[c]) ∧ (s.rpl[c].up = true → estimated c s.rpl[c] t.rpl[c] t))
      ∧ (∀ b rest, s.chan.ordRpl = .budgets b :: rest → ∃ t, exec .rplBudgetSample s = .next t ∧ others t ∧ t.isc = s.isc
        ∧ t.chan = { s.chan with ordRpl := rest } ∧ repriced t ∧ judged t
        ∧ ∀ c : Car, (b[c] = s.rpl[c].budget → t.rpl[c] = s.rpl[c])
          ∧ (b[c] ≠ s.rpl[c].budget → s.rpl[c].up = false → t.rpl[c] = { s.rpl[c] with budget := b[c] })
          ∧ (b[c] ≠ s.rpl[c].budget → s.rpl[c].up = true →
            estimated c { s.rpl[c] with budget := b[c] } t.rpl[c] t))
      ∧ (∀ k rest, s.chan.iscRpl = .activeChanged k :: rest → ∃ t, exec .activeCopyChange s = .next t ∧ others t
        ∧ t.isc = s.isc ∧ t.chan = { s.chan with iscRpl := rest } ∧ repriced t ∧ judged t
        ∧ ∀ c : Car,
          let waits := ∃ r ∈ s.roster, r.includedDoor c = true ∧ r.slot = k ∧ (r.state = .awaiting ∨ r.state = .missing)
          (waits → s.rpl[c].up = true → estimated c s.rpl[c] t.rpl[c] t) ∧ (¬ waits ∨ s.rpl[c].up = false → t.rpl[c] = s.rpl[c]))
      ∧ ∀ k rest, s.chan.iscRpl = .damaged k :: rest → RosterOrdered s → ∃ t, exec .rplCopyDamaged s = .next t ∧ others t
        ∧ t.chan.iscRpl = rest ∧ t.roster.length = s.roster.length
        ∧ (let final := s.roster.filter (fun r => decide (r.state ≠ .excluded ∧ s.fleet.attemptLimit ≤ r.attempt)
            && r.job.any (fun j => decide (j.copy = k ∧ j.place = .queue ∧ j.condemned = false)))
          t.isc = { s.isc with records := t.isc.records }
            ∧ ∀ x : CopyIx, t.isc.records[x] = { s.isc.records[x] with use := s.isc.records[x].use
              - (if x = k then final.length else 0) })
        ∧ ∀ (n : Nat) (r : NodeRec), s.roster[n]? = some r → ∃ r', t.roster[n]? = some r'
          ∧ (∀ j, r.job = some j → j.copy = k → r.state ≠ .excluded → r.state ≠ .backoff → r.state ≠ .failed →
            j.condemned = false →
            (j.place = .queue → .storeFaultEnd j.jid ∈ t.chan.rplClc[r.car]
                ∧ (let final := decide (s.fleet.attemptLimit ≤ r.attempt)
                  let b := [byteOf (bit final) 0, 0, byteOf FailReason.storeFault.code 0, byteOf r.attempt 0]
                  let e : Entry :=
                    { kind := .nodeFailed, car := r.car.val, drop := r.drop.val + 1, uptime := s.ord.uptime, body := b }
                  ⟨.rpl, e⟩ ∈ t.jrn.requests)
                ∧ (r.attempt < s.fleet.attemptLimit →
                  let q := { j with place := .backoff, phase := none, reload := [], s := 0, retry := 0, condemned := false }
                  r' = { r with fail := .storeFault, state := .backoff, job := some q, backoffFrom := some s.ord.uptime,
                                backoffShown := 1000, cost := r'.cost, changedAt := s.ord.uptime })
                ∧ (s.fleet.attemptLimit ≤ r.attempt →
                  r' = { r with fail := .storeFault, state := .failed, job := none, cost := r'.cost,
                                changedAt := s.ord.uptime } ∧ t.ntu.causes.getLsbD 3 = true))
              ∧ (j.place = .line → .storeFaultEnd j.jid ∈ t.chan.rplClc[r.car]
                ∧ r' = { r with job := some { j with condemned := true }, cost := r'.cost }))
          ∧ ((∀ j, r.job = some j → j.copy ≠ k ∨ r.state = .excluded ∨ j.place = .backoff ∨ j.condemned = true) →
            r' = { r with cost := r'.cost })

/-! ## The start-up scan and the fleet table (chapters 2 and 8) -/

/-- What a scan finds of each header, by the first row of R150 that applies; a CLOSED or RETIRED description that does not
pass its check makes the copy DAMAGED, the lesser of two active copies is RETIRED, the marks of both are programmed, and the
entries stand in record order. The reading of a fleet block: absent, bad or of another vehicle it is defaulted; accepted, each
parameter is clamped and its sound entries, the first of a pair, make the roster, and the others are counted. The identity is the
number both places hold, not written where every byte reads erased, and otherwise unreadable. That a header is
a record of marks and fields is the model's choice (log 7), and that the rows go in their order for a DAMAGED copy under ERASE
INTENT too is its reading (log 14). -/
def Obligations.ScanAndFleetTable : Prop :=
  (∀ (f : Flash),
    let x := f.scan []
    let h := fun r : CopyIx => f.headers[r]
    let part := fun r : CopyIx => (h r).eraseIntent = .part ∨ (h r).opened = .part ∨ (h r).closed = .part
      ∨ (h r).rejected = .part ∨ (h r).retired = .part ∨ (h r).damaged = .part ∨ (h r).writtenPart = true ∨ (h r).seq = .part
    let found := fun r : CopyIx =>
      if h r = Header.blank then CopyState.blank
      else if part r then .torn
      else if (h r).damaged = .recorded then .damaged
      else if (h r).eraseIntent = .recorded then .torn
      else if (h r).retired = .recorded then .retired
      else if (h r).rejected = .recorded then .rejected
      else if (h r).closed = .recorded then .closed
      else .torn
    let desc := fun r : CopyIx => (h r).desc.getD Desc.none
    let seq : CopyIx → Nat := fun r => match (h r).seq with
      | .value n => n
      | _ => 0
    let unsound := fun r : CopyIx => (found r = .closed ∨ found r = .retired)
      ∧ (1 < (desc r).cls ∨ (desc r).length = 0 ∨ 524288 < (desc r).length ∨ 8 < (desc r).spans.length
        ∨ ∃ y ∈ (desc r).spans, (desc r).length < y.off + y.len)
    let active := fun r : CopyIx => found r = .closed ∧ ¬ unsound r ∧ seq r ≠ 0
    let other := fun r : CopyIx => copyIx (slotOf r) (copyOf r).other
    let lesser := fun r : CopyIx =>
      active r ∧ active (other r) ∧ (seq r < seq (other r) ∨ (seq r = seq (other r) ∧ copyOf r = .b))
    let entry := fun r : CopyIx =>
      if found r = .torn then some (r, CopyState.torn, CopyCause.scanTorn)
      else if unsound r then some (r, .damaged, .scanFields)
      else if lesser r then some (r, .retired, .scanRepair) else none
    (∀ r : CopyIx,
        let v : CopyRec := if found r = .blank ∨ found r = .torn then CopyRec.bare (found r)
          else { state := found r, desc := desc r, written := (h r).written, table := (h r).tables.elim [] Prod.fst,
                 whole := (h r).tables.elim 0 Prod.snd, seq := seq r, use := 0 }
        (unsound r → x.records[r] = { v with state := .damaged }
            ∧ x.flash.headers[r] = { h r with damaged := .recorded })
          ∧ (lesser r → x.records[r] = { v with state := .retired } ∧ x.flash.headers[r] = { h r with retired := .recorded })
          ∧ (¬ unsound r → ¬ lesser r → x.records[r] = v ∧ x.flash.headers[r] = h r))
      ∧ x.entries = (List.finRange 32).filterMap entry
      ∧ x.flash = { f with headers := x.flash.headers })
    ∧ (∀ f : Flash,
      let holds : Field → Option Nat := fun p => match p with
        | .erased => some 4294967295
        | .value n => some n
        | .part => none
      f.readIdentity = match holds f.identity1, holds f.identity2 with
        | some m, some n => if m ≠ n then .unreadable else if m = 4294967295 then .notWritten else .written m
        | _, _ => .unreadable)
    ∧ ∀ (l : List Byte) (unreadable : Bool) (i : Identity), l.length = 272 →
      let b := byteAt l
      let n := b 5
      let x := readFleet l unreadable i
      let defaulted := fun st : FleetStatus => x.roster = [] ∧ x.fleet =
        { status := st, skipped := 0, carCount := 0, hDoor := 800, bDoor := 100, hInfo := 300, bInfo := 100, rq := 20,
          boot := 50, attemptLimit := 3, holdLimit := 32, tt := 50, flags := Vector.replicate 6 false }
      let erased := ∀ y ∈ l, y = 0xFF
      let sound := unreadable = false ∧ n ≤ 48 ∧ (digestOf (l.take (28 + 5 * n))).toNat = longAt l (28 + 5 * n)
      let agrees := i = .notWritten ∨ i = .written (longAt l 0)
      let within := fun lo hi v : Nat => max lo (min hi v)
      let cars := within 1 6 (b 4)
      let good := fun j : Nat => b (28 + 5 * j) < cars ∧ 1 ≤ b (29 + 5 * j) ∧ b (29 + 5 * j) ≤ 8 ∧ b (30 + 5 * j) ≤ 1
        ∧ b (31 + 5 * j) < 16 ∧ (b (30 + 5 * j) = 0 → b (22 + b (28 + 5 * j)) ≠ 0)
      let kept := fun j : Nat => good j
        ∧ ∀ k < j, good k → ¬ (b (28 + 5 * k) = b (28 + 5 * j) ∧ b (29 + 5 * k) = b (29 + 5 * j))
      (erased → defaulted .absent)
        ∧ (¬ erased → ¬ sound → defaulted .bad)
        ∧ (¬ erased → sound → ¬ agrees → defaulted .mismatch)
        ∧ (¬ erased → sound → agrees →
          x.fleet = { status := .loaded, skipped := x.fleet.skipped, carCount := cars,
                      hDoor := within 0 60000 (wordAt l 6), bDoor := within 0 5000 (wordAt l 8),
                      hInfo := within 0 60000 (wordAt l 10), bInfo := within 0 5000 (wordAt l 12),
                      rq := within 5 200 (wordAt l 14), boot := within 10 500 (wordAt l 16),
                      attemptLimit := within 1 7 (b 18), holdLimit := within 1 255 (b 19), tt := within 10 500 (wordAt l 20),
                      flags := Vector.ofFn (fun c : Car => decide (b (22 + c.val) ≠ 0)) }
            ∧ x.fleet.skipped + x.roster.length = n
            ∧ x.roster.Pairwise (fun r q => r.before q = true)
            ∧ ∀ r : NodeRec, r ∈ x.roster ↔ ∃ j : Nat, j < n ∧ kept j
              ∧ r.car.val = b (28 + 5 * j) ∧ r.drop.val + 1 = b (29 + 5 * j) ∧ r.cls.code = b (30 + 5 * j)
              ∧ r.slot.val = b (31 + 5 * j) ∧ r.fleetExcl = decide (b (32 + 5 * j) ≠ 0)
              ∧ r = NodeRec.built r.car r.drop r.cls r.slot r.fleetExcl ∧ r.override = .unset ∧ r.job = none
              ∧ r.attempt = 0 ∧ r.plan = none ∧ r.hello = none ∧ r.state = (if r.fleetExcl then .excluded else .dark))

/-! ## What every step keeps -/

/-- Every step keeps the three memories in their canonical form. -/
def Obligations.MemoryStaysCanonical : Prop :=
  ∀ s t : State, MemoryCanonical s → step s = .next t → MemoryCanonical t

/-- Every step keeps the permit outputs driven by the permit states, and no permit ACTIVE of a car that is down, withheld
or without a door node, nor any outside RUNNING; and of a car whose permit is ACTIVE every included door node READY, but while the
report of one that has left READY or been included is on its way to the PRM. That news passes from block to block, so that such a
report may be under way (log 4), and what a report brings about (log 25) are the model's reading. -/
def Obligations.PermitsStayHeld : Prop :=
  (∀ s t : State, PermitsHeld s → step s = .next t → PermitsHeld t)
    ∧ ∀ s t : State, PermitsHeld s → PermitsAwaitDoors s → step s = .next t → PermitsAwaitDoors t

/-- Every step keeps the journal's marks on whole entries inside the journal, the water marks apart, the backlog within its
16 places, and the hold flag set only below HW and clear only at or above LW. -/
def Obligations.JournalStaysHeld : Prop :=
  ∀ s t : State, JournalHeld s → step s = .next t → JournalHeld t

/-- Every step keeps each slot to at most one active copy, whatever the flash array holds at a start; the roster at no more than
48 records in ascending order of car and drop with none twice; and every line's queue in the order of its key. -/
def Obligations.CopiesRosterAndQueuesStayOrdered : Prop :=
  (
      ∀ s t : State, OneActiveCopy s → step s = .next t → OneActiveCopy t)
    ∧ (
      ∀ s t : State, step s = .next t → (RosterOrdered s → RosterOrdered t) ∧ (QueuesOrdered s → QueuesOrdered t))

/-- The state after a power start on erased flash meets every one of these conditions. -/
def Obligations.ResetMeetsConditions : Prop :=
  MemoryCanonical State.reset ∧ NoticeLinesDriven State.reset ∧ PermitsHeld State.reset ∧ PermitsAwaitDoors State.reset
    ∧ JournalHeld State.reset
    ∧ OneActiveCopy State.reset ∧ RosterOrdered State.reset ∧ QueuesOrdered State.reset
end

