-- ==== Sys2Proof/Laws/Memory.lean ====
section
/-! SUPPORT. Laws of the canonical memories: what a read gives after a write, and that every operation keeps the form. -/

namespace Sys2Proof.Machine

set_option Elab.async false

/-- A bound may be lowered. -/
theorem Mem.wfFrom_mono {d : Byte} {m : Memory} {lo lo' : Nat} (h : lo' ≤ lo) (hm : Mem.wfFrom d lo m = true) :
    Mem.wfFrom d lo' m = true := by
  cases m with
  | nil => rfl
  | cons e rest =>
    obtain ⟨k, v⟩ := e
    simp only [Mem.wfFrom, Bool.and_eq_true, decide_eq_true_eq] at hm ⊢
    exact ⟨⟨by omega, hm.1.2⟩, hm.2⟩

/-- An address below every entry reads the default. -/
theorem Mem.read_below {d : Byte} {m : Memory} {lo a : Nat} (hm : Mem.wfFrom d lo m = true) (h : a < lo) :
    Mem.read d m a = d := by
  induction m generalizing lo with
  | nil => rfl
  | cons e rest ih =>
    obtain ⟨k, v⟩ := e
    simp only [Mem.wfFrom, Bool.and_eq_true, decide_eq_true_eq] at hm
    simp only [Mem.read]
    rw [if_neg (by omega)]
    exact ih hm.2 (by omega)

/-- A write keeps the canonical form. -/
theorem Mem.wfFrom_write {d : Byte} {m : Memory} {lo a : Nat} (b : Byte) (hm : Mem.wfFrom d lo m = true) (h : lo ≤ a) :
    Mem.wfFrom d lo (Mem.write d m a b) = true := by
  induction m generalizing lo with
  | nil =>
    simp only [Mem.write]
    split
    · rfl
    · simp_all [Mem.wfFrom]
  | cons e rest ih =>
    obtain ⟨k, v⟩ := e
    simp only [Mem.wfFrom, Bool.and_eq_true, decide_eq_true_eq] at hm
    simp only [Mem.write]
    split
    · split
      · simp [Mem.wfFrom, hm]
      · rename_i h1 h2
        simp only [Mem.wfFrom, Bool.and_eq_true, decide_eq_true_eq]
        exact ⟨⟨h, h2⟩, ⟨by omega, hm.1.2⟩, hm.2⟩
    · split
      · split
        · exact Mem.wfFrom_mono (by omega) hm.2
        · rename_i h1 h2 h3
          simp only [Mem.wfFrom, Bool.and_eq_true, decide_eq_true_eq]
          exact ⟨⟨h, h3⟩, by rw [h2]; exact hm.2⟩
      · simp only [Mem.wfFrom, Bool.and_eq_true, decide_eq_true_eq]
        exact ⟨hm.1, ih hm.2 (by omega)⟩

/-- A write keeps the canonical form. -/
theorem Mem.wf_write {d : Byte} {m : Memory} (a : Nat) (b : Byte) (hm : Mem.wf d m = true) :
    Mem.wf d (Mem.write d m a b) = true := Mem.wfFrom_write b hm (Nat.zero_le a)

/-- Consecutive writes keep the canonical form. -/
theorem Mem.wf_writeBytes {d : Byte} {m : Memory} (a : Nat) (l : List Byte) (hm : Mem.wf d m = true) :
    Mem.wf d (Mem.writeBytes d m a l) = true := by
  induction l generalizing m a with
  | nil => exact hm
  | cons b rest ih => exact ih (a + 1) (Mem.wf_write a b hm)

/-- Removing entries keeps the canonical form. -/
theorem Mem.wfFrom_filter {d : Byte} {m : Memory} {lo : Nat} (p : Host.Cell → Bool) (hm : Mem.wfFrom d lo m = true) :
    Mem.wfFrom d lo (m.filter p) = true := by
  induction m generalizing lo with
  | nil => rfl
  | cons e rest ih =>
    obtain ⟨k, v⟩ := e
    simp only [Mem.wfFrom, Bool.and_eq_true, decide_eq_true_eq] at hm
    simp only [List.filter_cons]
    split
    · simp only [Mem.wfFrom, Bool.and_eq_true, decide_eq_true_eq]
      exact ⟨hm.1, ih hm.2⟩
    · exact Mem.wfFrom_mono (by omega) (ih hm.2)

/-- An erase of a range keeps the canonical form. -/
theorem Mem.wf_clear {d : Byte} {m : Memory} (lo n : Nat) (hm : Mem.wf d m = true) :
    Mem.wf d (Mem.clear m lo n) = true := Mem.wfFrom_filter _ hm

/-- What a read gives after a write, wherever the bound of the form lies. -/
theorem Mem.read_write_from {d : Byte} {m : Memory} {lo : Nat} (a a' : Nat) (b : Byte) (hm : Mem.wfFrom d lo m = true)
    (h : lo ≤ a) : Mem.read d (Mem.write d m a b) a' = if a' = a then b else Mem.read d m a' := by
  induction m generalizing lo with
  | nil =>
    simp only [Mem.write]
    by_cases ha : a = a'
    · subst ha; split <;> simp_all [Mem.read]
    · rw [if_neg (Ne.symm ha)]
      split
      · rfl
      · simp only [Mem.read]; rw [if_neg ha]
  | cons e rest ih =>
    obtain ⟨k, v⟩ := e
    simp only [Mem.wfFrom, Bool.and_eq_true, decide_eq_true_eq] at hm
    simp only [Mem.write]
    split
    · rename_i h1
      split
      · rename_i h2
        split
        · rename_i h3
          have : Mem.read d rest a = d := Mem.read_below hm.2 (by omega)
          simp only [Mem.read]
          rw [if_neg (by omega), h3, this, h2]
        · rfl
      · by_cases ha : a = a'
        · subst ha; simp only [Mem.read, if_true]
        · simp only [Mem.read, if_neg ha, if_neg (Ne.symm ha)]
    · split
      · rename_i h1 h2
        split
        · rename_i h3
          split
          · rename_i h4
            rw [h4, Mem.read_below hm.2 (by omega), h3]
          · rename_i h4
            simp only [Mem.read]
            rw [if_neg (by omega)]
        · rw [Mem.read, Mem.read, h2]
          by_cases hk : k = a'
          · rw [if_pos hk, if_pos hk.symm]
          · rw [if_neg hk, if_neg (Ne.symm hk), if_neg hk]
      · rename_i h1 h2
        simp only [Mem.read]
        by_cases hk : k = a'
        · rw [if_pos hk, if_pos hk, if_neg (by omega)]
        · rw [if_neg hk, if_neg hk]
          exact ih hm.2 (by omega)

/-- A read after a write (R154: each access is taken whole). -/
theorem Mem.read_write {d : Byte} {m : Memory} (a a' : Nat) (b : Byte) (hm : Mem.wf d m = true) :
    Mem.read d (Mem.write d m a b) a' = if a' = a then b else Mem.read d m a' :=
  Mem.read_write_from a a' b hm (Nat.zero_le a)

/-- A write leaves every other address alone, whatever the memory. -/
theorem Mem.read_write_other {d : Byte} (m : Memory) {a a' : Nat} (b : Byte) (h : a' ≠ a) :
    Mem.read d (Mem.write d m a b) a' = Mem.read d m a' := by
  induction m with
  | nil =>
    simp only [Mem.write]
    split
    · rfl
    · simp only [Mem.read]; rw [if_neg (Ne.symm h)]
  | cons e rest ih =>
    obtain ⟨k, v⟩ := e
    simp only [Mem.write]
    split
    · split
      · rfl
      · rw [Mem.read, if_neg (Ne.symm h)]
    · split
      · rename_i h2
        have hk : k ≠ a' := by omega
        split
        · rw [Mem.read, if_neg hk]
        · rw [Mem.read, Mem.read, if_neg hk, if_neg (Ne.symm h)]
      · simp only [Mem.read, ih]

/-- Consecutive writes leave every address outside them alone. -/
theorem Mem.read_writeBytes_other {d : Byte} (m : Memory) {a a' : Nat} (l : List Byte)
    (h : a' < a ∨ a + l.length ≤ a') : Mem.read d (Mem.writeBytes d m a l) a' = Mem.read d m a' := by
  induction l generalizing m a with
  | nil => rfl
  | cons b rest ih =>
    simp only [List.length_cons] at h
    rw [Mem.writeBytes, ih _ (by omega), Mem.read_write_other _ _ (by omega)]

/-- Consecutive writes give each of their addresses its byte. -/
theorem Mem.read_writeBytes {d : Byte} {m : Memory} {a i : Nat} {l : List Byte} (hm : Mem.wf d m = true)
    (h : i < l.length) : Mem.read d (Mem.writeBytes d m a l) (a + i) = l[i] := by
  induction l generalizing m a i with
  | nil => simp at h
  | cons b rest ih =>
    rw [Mem.writeBytes]
    cases i with
    | zero =>
      rw [Mem.read_writeBytes_other _ _ (by omega), Nat.add_zero, Mem.read_write _ _ _ hm]
      simp
    | succ i =>
      have := ih (m := Mem.write d m a b) (a := a + 1) (i := i) (Mem.wf_write a b hm) (by simpa using h)
      rw [show a + (i + 1) = a + 1 + i by omega, this]
      rfl

/-- Writing words keeps the canonical form. -/
theorem wf_putWord {m : Memory} (a v : Nat) (hm : Mem.wf 0 m = true) : Mem.wf 0 (Mem.writeBytes 0 m a (le16 v)) = true :=
  Mem.wf_writeBytes a _ hm

end Sys2Proof.Machine
end

