-- ==== Sys2Proof/Laws/State.lean ====
section
/-! SUPPORT. One lemma per field per update of the state: what the field holds after it. -/

namespace Sys2Proof.Machine

set_option Elab.async false

variable (s : State)

/-! ## State.setSsu -/

@[simp] theorem State.setSsu_power (c : Car) (r : SsuCar) : (s.setSsu c r).power = s.power := rfl
@[simp] theorem State.setSsu_resetIn (c : Car) (r : SsuCar) : (s.setSsu c r).resetIn = s.resetIn := rfl
@[simp] theorem State.setSsu_run (c : Car) (r : SsuCar) : (s.setSsu c r).run = s.run := rfl
@[simp] theorem State.setSsu_cause (c : Car) (r : SsuCar) : (s.setSsu c r).cause = s.cause := rfl
@[simp] theorem State.setSsu_pins (c : Car) (r : SsuCar) : (s.setSsu c r).pins = s.pins := rfl
@[simp] theorem State.setSsu_ram (c : Car) (r : SsuCar) : (s.setSsu c r).ram = s.ram := rfl
@[simp] theorem State.setSsu_ord (c : Car) (r : SsuCar) : (s.setSsu c r).ord = s.ord := rfl
@[simp] theorem State.setSsu_ntu (c : Car) (r : SsuCar) : (s.setSsu c r).ntu = s.ntu := rfl
@[simp] theorem State.setSsu_jrn (c : Car) (r : SsuCar) : (s.setSsu c r).jrn = s.jrn := rfl
@[simp] theorem State.setSsu_ssu (c : Car) (r : SsuCar) : (s.setSsu c r).ssu = s.ssu.set c r := rfl
@[simp] theorem State.setSsu_fleet (c : Car) (r : SsuCar) : (s.setSsu c r).fleet = s.fleet := rfl
@[simp] theorem State.setSsu_roster (c : Car) (r : SsuCar) : (s.setSsu c r).roster = s.roster := rfl
@[simp] theorem State.setSsu_mirrorCount (c : Car) (r : SsuCar) : (s.setSsu c r).mirrorCount = s.mirrorCount := rfl
@[simp] theorem State.setSsu_rpl (c : Car) (r : SsuCar) : (s.setSsu c r).rpl = s.rpl := rfl
@[simp] theorem State.setSsu_lines (c : Car) (r : SsuCar) : (s.setSsu c r).lines = s.lines := rfl
@[simp] theorem State.setSsu_prm (c : Car) (r : SsuCar) : (s.setSsu c r).prm = s.prm := rfl
@[simp] theorem State.setSsu_dge (c : Car) (r : SsuCar) : (s.setSsu c r).dge = s.dge := rfl
@[simp] theorem State.setSsu_isc (c : Car) (r : SsuCar) : (s.setSsu c r).isc = s.isc := rfl
@[simp] theorem State.setSsu_flash (c : Car) (r : SsuCar) : (s.setSsu c r).flash = s.flash := rfl
@[simp] theorem State.setSsu_chan (c : Car) (r : SsuCar) : (s.setSsu c r).chan = s.chan := rfl
@[simp] theorem State.setSsu_pending (c : Car) (r : SsuCar) : (s.setSsu c r).pending = s.pending := rfl
@[simp] theorem State.setSsu_isRunning (c : Car) (r : SsuCar) : (s.setSsu c r).isRunning = s.isRunning := rfl

/-! ## State.setRpl -/

@[simp] theorem State.setRpl_power (c : Car) (r : RplCar) : (s.setRpl c r).power = s.power := rfl
@[simp] theorem State.setRpl_resetIn (c : Car) (r : RplCar) : (s.setRpl c r).resetIn = s.resetIn := rfl
@[simp] theorem State.setRpl_run (c : Car) (r : RplCar) : (s.setRpl c r).run = s.run := rfl
@[simp] theorem State.setRpl_cause (c : Car) (r : RplCar) : (s.setRpl c r).cause = s.cause := rfl
@[simp] theorem State.setRpl_pins (c : Car) (r : RplCar) : (s.setRpl c r).pins = s.pins := rfl
@[simp] theorem State.setRpl_ord (c : Car) (r : RplCar) : (s.setRpl c r).ord = s.ord := rfl
@[simp] theorem State.setRpl_ntu (c : Car) (r : RplCar) : (s.setRpl c r).ntu = s.ntu := rfl
@[simp] theorem State.setRpl_jrn (c : Car) (r : RplCar) : (s.setRpl c r).jrn = s.jrn := rfl
@[simp] theorem State.setRpl_ssu (c : Car) (r : RplCar) : (s.setRpl c r).ssu = s.ssu := rfl
@[simp] theorem State.setRpl_fleet (c : Car) (r : RplCar) : (s.setRpl c r).fleet = s.fleet := rfl
@[simp] theorem State.setRpl_roster (c : Car) (r : RplCar) : (s.setRpl c r).roster = s.roster := rfl
@[simp] theorem State.setRpl_mirrorCount (c : Car) (r : RplCar) : (s.setRpl c r).mirrorCount = s.mirrorCount := rfl
@[simp] theorem State.setRpl_rpl (c : Car) (r : RplCar) : (s.setRpl c r).rpl = s.rpl.set c r := rfl
@[simp] theorem State.setRpl_lines (c : Car) (r : RplCar) : (s.setRpl c r).lines = s.lines := rfl
@[simp] theorem State.setRpl_prm (c : Car) (r : RplCar) : (s.setRpl c r).prm = s.prm := rfl
@[simp] theorem State.setRpl_dge (c : Car) (r : RplCar) : (s.setRpl c r).dge = s.dge := rfl
@[simp] theorem State.setRpl_isc (c : Car) (r : RplCar) : (s.setRpl c r).isc = s.isc := rfl
@[simp] theorem State.setRpl_flash (c : Car) (r : RplCar) : (s.setRpl c r).flash = s.flash := rfl
@[simp] theorem State.setRpl_chan (c : Car) (r : RplCar) : (s.setRpl c r).chan = s.chan := rfl
@[simp] theorem State.setRpl_pending (c : Car) (r : RplCar) : (s.setRpl c r).pending = s.pending := rfl
@[simp] theorem State.setRpl_isRunning (c : Car) (r : RplCar) : (s.setRpl c r).isRunning = s.isRunning := rfl

/-! ## State.setLine -/

@[simp] theorem State.setLine_power (c : Car) (l : Line) : (s.setLine c l).power = s.power := rfl
@[simp] theorem State.setLine_resetIn (c : Car) (l : Line) : (s.setLine c l).resetIn = s.resetIn := rfl
@[simp] theorem State.setLine_run (c : Car) (l : Line) : (s.setLine c l).run = s.run := rfl
@[simp] theorem State.setLine_cause (c : Car) (l : Line) : (s.setLine c l).cause = s.cause := rfl
@[simp] theorem State.setLine_pins (c : Car) (l : Line) : (s.setLine c l).pins = s.pins := rfl
@[simp] theorem State.setLine_ram (c : Car) (l : Line) : (s.setLine c l).ram = s.ram := rfl
@[simp] theorem State.setLine_ord (c : Car) (l : Line) : (s.setLine c l).ord = s.ord := rfl
@[simp] theorem State.setLine_ntu (c : Car) (l : Line) : (s.setLine c l).ntu = s.ntu := rfl
@[simp] theorem State.setLine_jrn (c : Car) (l : Line) : (s.setLine c l).jrn = s.jrn := rfl
@[simp] theorem State.setLine_ssu (c : Car) (l : Line) : (s.setLine c l).ssu = s.ssu := rfl
@[simp] theorem State.setLine_fleet (c : Car) (l : Line) : (s.setLine c l).fleet = s.fleet := rfl
@[simp] theorem State.setLine_roster (c : Car) (l : Line) : (s.setLine c l).roster = s.roster := rfl
@[simp] theorem State.setLine_mirrorCount (c : Car) (l : Line) : (s.setLine c l).mirrorCount = s.mirrorCount := rfl
@[simp] theorem State.setLine_rpl (c : Car) (l : Line) : (s.setLine c l).rpl = s.rpl := rfl
@[simp] theorem State.setLine_lines (c : Car) (l : Line) : (s.setLine c l).lines = s.lines.set c l := rfl
@[simp] theorem State.setLine_prm (c : Car) (l : Line) : (s.setLine c l).prm = s.prm := rfl
@[simp] theorem State.setLine_dge (c : Car) (l : Line) : (s.setLine c l).dge = s.dge := rfl
@[simp] theorem State.setLine_isc (c : Car) (l : Line) : (s.setLine c l).isc = s.isc := rfl
@[simp] theorem State.setLine_flash (c : Car) (l : Line) : (s.setLine c l).flash = s.flash := rfl
@[simp] theorem State.setLine_chan (c : Car) (l : Line) : (s.setLine c l).chan = s.chan := rfl
@[simp] theorem State.setLine_pending (c : Car) (l : Line) : (s.setLine c l).pending = s.pending := rfl
@[simp] theorem State.setLine_isRunning (c : Car) (l : Line) : (s.setLine c l).isRunning = s.isRunning := rfl

/-! ## State.setPrm -/

@[simp] theorem State.setPrm_power (c : Car) (r : PrmCar) : (s.setPrm c r).power = s.power := rfl
@[simp] theorem State.setPrm_resetIn (c : Car) (r : PrmCar) : (s.setPrm c r).resetIn = s.resetIn := rfl
@[simp] theorem State.setPrm_run (c : Car) (r : PrmCar) : (s.setPrm c r).run = s.run := rfl
@[simp] theorem State.setPrm_cause (c : Car) (r : PrmCar) : (s.setPrm c r).cause = s.cause := rfl
@[simp] theorem State.setPrm_pins (c : Car) (r : PrmCar) : (s.setPrm c r).pins = s.pins := rfl
@[simp] theorem State.setPrm_ram (c : Car) (r : PrmCar) : (s.setPrm c r).ram = s.ram := rfl
@[simp] theorem State.setPrm_ord (c : Car) (r : PrmCar) : (s.setPrm c r).ord = s.ord := rfl
@[simp] theorem State.setPrm_ntu (c : Car) (r : PrmCar) : (s.setPrm c r).ntu = s.ntu := rfl
@[simp] theorem State.setPrm_jrn (c : Car) (r : PrmCar) : (s.setPrm c r).jrn = s.jrn := rfl
@[simp] theorem State.setPrm_ssu (c : Car) (r : PrmCar) : (s.setPrm c r).ssu = s.ssu := rfl
@[simp] theorem State.setPrm_fleet (c : Car) (r : PrmCar) : (s.setPrm c r).fleet = s.fleet := rfl
@[simp] theorem State.setPrm_roster (c : Car) (r : PrmCar) : (s.setPrm c r).roster = s.roster := rfl
@[simp] theorem State.setPrm_mirrorCount (c : Car) (r : PrmCar) : (s.setPrm c r).mirrorCount = s.mirrorCount := rfl
@[simp] theorem State.setPrm_rpl (c : Car) (r : PrmCar) : (s.setPrm c r).rpl = s.rpl := rfl
@[simp] theorem State.setPrm_lines (c : Car) (r : PrmCar) : (s.setPrm c r).lines = s.lines := rfl
@[simp] theorem State.setPrm_prm (c : Car) (r : PrmCar) : (s.setPrm c r).prm = s.prm.set c r := rfl
@[simp] theorem State.setPrm_dge (c : Car) (r : PrmCar) : (s.setPrm c r).dge = s.dge := rfl
@[simp] theorem State.setPrm_isc (c : Car) (r : PrmCar) : (s.setPrm c r).isc = s.isc := rfl
@[simp] theorem State.setPrm_flash (c : Car) (r : PrmCar) : (s.setPrm c r).flash = s.flash := rfl
@[simp] theorem State.setPrm_chan (c : Car) (r : PrmCar) : (s.setPrm c r).chan = s.chan := rfl
@[simp] theorem State.setPrm_pending (c : Car) (r : PrmCar) : (s.setPrm c r).pending = s.pending := rfl
@[simp] theorem State.setPrm_isRunning (c : Car) (r : PrmCar) : (s.setPrm c r).isRunning = s.isRunning := rfl

/-! ## State.setCsg -/

@[simp] theorem State.setCsg_power (c : Car) (b : Bool) : (s.setCsg c b).power = s.power := rfl
@[simp] theorem State.setCsg_resetIn (c : Car) (b : Bool) : (s.setCsg c b).resetIn = s.resetIn := rfl
@[simp] theorem State.setCsg_run (c : Car) (b : Bool) : (s.setCsg c b).run = s.run := rfl
@[simp] theorem State.setCsg_cause (c : Car) (b : Bool) : (s.setCsg c b).cause = s.cause := rfl
@[simp] theorem State.setCsg_pins (c : Car) (b : Bool) : (s.setCsg c b).pins = { s.pins with csg := s.pins.csg.set c b } := rfl
@[simp] theorem State.setCsg_ram (c : Car) (b : Bool) : (s.setCsg c b).ram = s.ram := rfl
@[simp] theorem State.setCsg_ord (c : Car) (b : Bool) : (s.setCsg c b).ord = s.ord := rfl
@[simp] theorem State.setCsg_ntu (c : Car) (b : Bool) : (s.setCsg c b).ntu = s.ntu := rfl
@[simp] theorem State.setCsg_jrn (c : Car) (b : Bool) : (s.setCsg c b).jrn = s.jrn := rfl
@[simp] theorem State.setCsg_ssu (c : Car) (b : Bool) : (s.setCsg c b).ssu = s.ssu := rfl
@[simp] theorem State.setCsg_fleet (c : Car) (b : Bool) : (s.setCsg c b).fleet = s.fleet := rfl
@[simp] theorem State.setCsg_roster (c : Car) (b : Bool) : (s.setCsg c b).roster = s.roster := rfl
@[simp] theorem State.setCsg_mirrorCount (c : Car) (b : Bool) : (s.setCsg c b).mirrorCount = s.mirrorCount := rfl
@[simp] theorem State.setCsg_rpl (c : Car) (b : Bool) : (s.setCsg c b).rpl = s.rpl := rfl
@[simp] theorem State.setCsg_lines (c : Car) (b : Bool) : (s.setCsg c b).lines = s.lines := rfl
@[simp] theorem State.setCsg_prm (c : Car) (b : Bool) : (s.setCsg c b).prm = s.prm := rfl
@[simp] theorem State.setCsg_dge (c : Car) (b : Bool) : (s.setCsg c b).dge = s.dge := rfl
@[simp] theorem State.setCsg_isc (c : Car) (b : Bool) : (s.setCsg c b).isc = s.isc := rfl
@[simp] theorem State.setCsg_flash (c : Car) (b : Bool) : (s.setCsg c b).flash = s.flash := rfl
@[simp] theorem State.setCsg_chan (c : Car) (b : Bool) : (s.setCsg c b).chan = s.chan := rfl
@[simp] theorem State.setCsg_pending (c : Car) (b : Bool) : (s.setCsg c b).pending = s.pending := rfl
@[simp] theorem State.setCsg_isRunning (c : Car) (b : Bool) : (s.setCsg c b).isRunning = s.isRunning := rfl

/-! ## State.deliver -/

@[simp] theorem State.deliver_power (c : Car) (e : CarEvent) : (s.deliver c e).power = s.power := rfl
@[simp] theorem State.deliver_resetIn (c : Car) (e : CarEvent) : (s.deliver c e).resetIn = s.resetIn := rfl
@[simp] theorem State.deliver_run (c : Car) (e : CarEvent) : (s.deliver c e).run = s.run := rfl
@[simp] theorem State.deliver_cause (c : Car) (e : CarEvent) : (s.deliver c e).cause = s.cause := rfl
@[simp] theorem State.deliver_pins (c : Car) (e : CarEvent) : (s.deliver c e).pins = s.pins := rfl
@[simp] theorem State.deliver_ram (c : Car) (e : CarEvent) : (s.deliver c e).ram = s.ram := rfl
@[simp] theorem State.deliver_ord (c : Car) (e : CarEvent) : (s.deliver c e).ord = s.ord := rfl
@[simp] theorem State.deliver_ntu (c : Car) (e : CarEvent) : (s.deliver c e).ntu = s.ntu := rfl
@[simp] theorem State.deliver_jrn (c : Car) (e : CarEvent) : (s.deliver c e).jrn = s.jrn := rfl
@[simp] theorem State.deliver_ssu (c : Car) (e : CarEvent) : (s.deliver c e).ssu = s.ssu := rfl
@[simp] theorem State.deliver_fleet (c : Car) (e : CarEvent) : (s.deliver c e).fleet = s.fleet := rfl
@[simp] theorem State.deliver_roster (c : Car) (e : CarEvent) : (s.deliver c e).roster = s.roster := rfl
@[simp] theorem State.deliver_mirrorCount (c : Car) (e : CarEvent) : (s.deliver c e).mirrorCount = s.mirrorCount := rfl
@[simp] theorem State.deliver_rpl (c : Car) (e : CarEvent) : (s.deliver c e).rpl = s.rpl := rfl
@[simp] theorem State.deliver_lines (c : Car) (e : CarEvent) : (s.deliver c e).lines = s.lines := rfl
@[simp] theorem State.deliver_prm (c : Car) (e : CarEvent) : (s.deliver c e).prm = s.prm := rfl
@[simp] theorem State.deliver_dge (c : Car) (e : CarEvent) : (s.deliver c e).dge = s.dge := rfl
@[simp] theorem State.deliver_isc (c : Car) (e : CarEvent) : (s.deliver c e).isc = s.isc := rfl
@[simp] theorem State.deliver_flash (c : Car) (e : CarEvent) : (s.deliver c e).flash = s.flash := rfl
@[simp] theorem State.deliver_chan (c : Car) (e : CarEvent) : (s.deliver c e).chan = { s.chan with ssuRpl := appendAt s.chan.ssuRpl c e, ssuClc := appendAt s.chan.ssuClc c e, ssuPrm := appendAt s.chan.ssuPrm c e } := rfl
@[simp] theorem State.deliver_pending (c : Car) (e : CarEvent) : (s.deliver c e).pending = s.pending := rfl
@[simp] theorem State.deliver_isRunning (c : Car) (e : CarEvent) : (s.deliver c e).isRunning = s.isRunning := rfl

/-! ## State.report -/

@[simp] theorem State.report_power (c : Car) (m : LineReport) : (s.report c m).power = s.power := rfl
@[simp] theorem State.report_resetIn (c : Car) (m : LineReport) : (s.report c m).resetIn = s.resetIn := rfl
@[simp] theorem State.report_run (c : Car) (m : LineReport) : (s.report c m).run = s.run := rfl
@[simp] theorem State.report_cause (c : Car) (m : LineReport) : (s.report c m).cause = s.cause := rfl
@[simp] theorem State.report_pins (c : Car) (m : LineReport) : (s.report c m).pins = s.pins := rfl
@[simp] theorem State.report_ram (c : Car) (m : LineReport) : (s.report c m).ram = s.ram := rfl
@[simp] theorem State.report_ord (c : Car) (m : LineReport) : (s.report c m).ord = s.ord := rfl
@[simp] theorem State.report_ntu (c : Car) (m : LineReport) : (s.report c m).ntu = s.ntu := rfl
@[simp] theorem State.report_jrn (c : Car) (m : LineReport) : (s.report c m).jrn = s.jrn := rfl
@[simp] theorem State.report_ssu (c : Car) (m : LineReport) : (s.report c m).ssu = s.ssu := rfl
@[simp] theorem State.report_fleet (c : Car) (m : LineReport) : (s.report c m).fleet = s.fleet := rfl
@[simp] theorem State.report_roster (c : Car) (m : LineReport) : (s.report c m).roster = s.roster := rfl
@[simp] theorem State.report_mirrorCount (c : Car) (m : LineReport) : (s.report c m).mirrorCount = s.mirrorCount := rfl
@[simp] theorem State.report_rpl (c : Car) (m : LineReport) : (s.report c m).rpl = s.rpl := rfl
@[simp] theorem State.report_lines (c : Car) (m : LineReport) : (s.report c m).lines = s.lines := rfl
@[simp] theorem State.report_prm (c : Car) (m : LineReport) : (s.report c m).prm = s.prm := rfl
@[simp] theorem State.report_dge (c : Car) (m : LineReport) : (s.report c m).dge = s.dge := rfl
@[simp] theorem State.report_isc (c : Car) (m : LineReport) : (s.report c m).isc = s.isc := rfl
@[simp] theorem State.report_flash (c : Car) (m : LineReport) : (s.report c m).flash = s.flash := rfl
@[simp] theorem State.report_chan (c : Car) (m : LineReport) : (s.report c m).chan = { s.chan with clcRpl := appendAt s.chan.clcRpl c m } := rfl
@[simp] theorem State.report_pending (c : Car) (m : LineReport) : (s.report c m).pending = s.pending := rfl
@[simp] theorem State.report_isRunning (c : Car) (m : LineReport) : (s.report c m).isRunning = s.isRunning := rfl

/-! ## State.tell -/

@[simp] theorem State.tell_power (c : Car) (m : LineOrder) : (s.tell c m).power = s.power := rfl
@[simp] theorem State.tell_resetIn (c : Car) (m : LineOrder) : (s.tell c m).resetIn = s.resetIn := rfl
@[simp] theorem State.tell_run (c : Car) (m : LineOrder) : (s.tell c m).run = s.run := rfl
@[simp] theorem State.tell_cause (c : Car) (m : LineOrder) : (s.tell c m).cause = s.cause := rfl
@[simp] theorem State.tell_pins (c : Car) (m : LineOrder) : (s.tell c m).pins = s.pins := rfl
@[simp] theorem State.tell_ram (c : Car) (m : LineOrder) : (s.tell c m).ram = s.ram := rfl
@[simp] theorem State.tell_ord (c : Car) (m : LineOrder) : (s.tell c m).ord = s.ord := rfl
@[simp] theorem State.tell_ntu (c : Car) (m : LineOrder) : (s.tell c m).ntu = s.ntu := rfl
@[simp] theorem State.tell_jrn (c : Car) (m : LineOrder) : (s.tell c m).jrn = s.jrn := rfl
@[simp] theorem State.tell_ssu (c : Car) (m : LineOrder) : (s.tell c m).ssu = s.ssu := rfl
@[simp] theorem State.tell_fleet (c : Car) (m : LineOrder) : (s.tell c m).fleet = s.fleet := rfl
@[simp] theorem State.tell_roster (c : Car) (m : LineOrder) : (s.tell c m).roster = s.roster := rfl
@[simp] theorem State.tell_mirrorCount (c : Car) (m : LineOrder) : (s.tell c m).mirrorCount = s.mirrorCount := rfl
@[simp] theorem State.tell_rpl (c : Car) (m : LineOrder) : (s.tell c m).rpl = s.rpl := rfl
@[simp] theorem State.tell_lines (c : Car) (m : LineOrder) : (s.tell c m).lines = s.lines := rfl
@[simp] theorem State.tell_prm (c : Car) (m : LineOrder) : (s.tell c m).prm = s.prm := rfl
@[simp] theorem State.tell_dge (c : Car) (m : LineOrder) : (s.tell c m).dge = s.dge := rfl
@[simp] theorem State.tell_isc (c : Car) (m : LineOrder) : (s.tell c m).isc = s.isc := rfl
@[simp] theorem State.tell_flash (c : Car) (m : LineOrder) : (s.tell c m).flash = s.flash := rfl
@[simp] theorem State.tell_chan (c : Car) (m : LineOrder) : (s.tell c m).chan = { s.chan with rplClc := appendAt s.chan.rplClc c m } := rfl
@[simp] theorem State.tell_pending (c : Car) (m : LineOrder) : (s.tell c m).pending = s.pending := rfl
@[simp] theorem State.tell_isRunning (c : Car) (m : LineOrder) : (s.tell c m).isRunning = s.isRunning := rfl

/-! ## State.reportDoor -/

@[simp] theorem State.reportDoor_power (r : DoorReport) : (s.reportDoor r).power = s.power := rfl
@[simp] theorem State.reportDoor_resetIn (r : DoorReport) : (s.reportDoor r).resetIn = s.resetIn := rfl
@[simp] theorem State.reportDoor_run (r : DoorReport) : (s.reportDoor r).run = s.run := rfl
@[simp] theorem State.reportDoor_cause (r : DoorReport) : (s.reportDoor r).cause = s.cause := rfl
@[simp] theorem State.reportDoor_pins (r : DoorReport) : (s.reportDoor r).pins = s.pins := rfl
@[simp] theorem State.reportDoor_ram (r : DoorReport) : (s.reportDoor r).ram = s.ram := rfl
@[simp] theorem State.reportDoor_ord (r : DoorReport) : (s.reportDoor r).ord = s.ord := rfl
@[simp] theorem State.reportDoor_ntu (r : DoorReport) : (s.reportDoor r).ntu = s.ntu := rfl
@[simp] theorem State.reportDoor_jrn (r : DoorReport) : (s.reportDoor r).jrn = s.jrn := rfl
@[simp] theorem State.reportDoor_ssu (r : DoorReport) : (s.reportDoor r).ssu = s.ssu := rfl
@[simp] theorem State.reportDoor_fleet (r : DoorReport) : (s.reportDoor r).fleet = s.fleet := rfl
@[simp] theorem State.reportDoor_roster (r : DoorReport) : (s.reportDoor r).roster = s.roster := rfl
@[simp] theorem State.reportDoor_mirrorCount (r : DoorReport) : (s.reportDoor r).mirrorCount = s.mirrorCount := rfl
@[simp] theorem State.reportDoor_rpl (r : DoorReport) : (s.reportDoor r).rpl = s.rpl := rfl
@[simp] theorem State.reportDoor_lines (r : DoorReport) : (s.reportDoor r).lines = s.lines := rfl
@[simp] theorem State.reportDoor_prm (r : DoorReport) : (s.reportDoor r).prm = s.prm := rfl
@[simp] theorem State.reportDoor_dge (r : DoorReport) : (s.reportDoor r).dge = s.dge := rfl
@[simp] theorem State.reportDoor_isc (r : DoorReport) : (s.reportDoor r).isc = s.isc := rfl
@[simp] theorem State.reportDoor_flash (r : DoorReport) : (s.reportDoor r).flash = s.flash := rfl
@[simp] theorem State.reportDoor_chan (r : DoorReport) : (s.reportDoor r).chan = { s.chan with rplPrm := s.chan.rplPrm ++ [r] } := rfl
@[simp] theorem State.reportDoor_pending (r : DoorReport) : (s.reportDoor r).pending = s.pending := rfl
@[simp] theorem State.reportDoor_isRunning (r : DoorReport) : (s.reportDoor r).isRunning = s.isRunning := rfl

/-! ## State.storeTells -/

@[simp] theorem State.storeTells_power (n : StoreNews) : (s.storeTells n).power = s.power := rfl
@[simp] theorem State.storeTells_resetIn (n : StoreNews) : (s.storeTells n).resetIn = s.resetIn := rfl
@[simp] theorem State.storeTells_run (n : StoreNews) : (s.storeTells n).run = s.run := rfl
@[simp] theorem State.storeTells_cause (n : StoreNews) : (s.storeTells n).cause = s.cause := rfl
@[simp] theorem State.storeTells_pins (n : StoreNews) : (s.storeTells n).pins = s.pins := rfl
@[simp] theorem State.storeTells_ram (n : StoreNews) : (s.storeTells n).ram = s.ram := rfl
@[simp] theorem State.storeTells_ord (n : StoreNews) : (s.storeTells n).ord = s.ord := rfl
@[simp] theorem State.storeTells_ntu (n : StoreNews) : (s.storeTells n).ntu = s.ntu := rfl
@[simp] theorem State.storeTells_jrn (n : StoreNews) : (s.storeTells n).jrn = s.jrn := rfl
@[simp] theorem State.storeTells_ssu (n : StoreNews) : (s.storeTells n).ssu = s.ssu := rfl
@[simp] theorem State.storeTells_fleet (n : StoreNews) : (s.storeTells n).fleet = s.fleet := rfl
@[simp] theorem State.storeTells_roster (n : StoreNews) : (s.storeTells n).roster = s.roster := rfl
@[simp] theorem State.storeTells_mirrorCount (n : StoreNews) : (s.storeTells n).mirrorCount = s.mirrorCount := rfl
@[simp] theorem State.storeTells_rpl (n : StoreNews) : (s.storeTells n).rpl = s.rpl := rfl
@[simp] theorem State.storeTells_lines (n : StoreNews) : (s.storeTells n).lines = s.lines := rfl
@[simp] theorem State.storeTells_prm (n : StoreNews) : (s.storeTells n).prm = s.prm := rfl
@[simp] theorem State.storeTells_dge (n : StoreNews) : (s.storeTells n).dge = s.dge := rfl
@[simp] theorem State.storeTells_isc (n : StoreNews) : (s.storeTells n).isc = s.isc := rfl
@[simp] theorem State.storeTells_flash (n : StoreNews) : (s.storeTells n).flash = s.flash := rfl
@[simp] theorem State.storeTells_chan (n : StoreNews) : (s.storeTells n).chan = { s.chan with iscRpl := s.chan.iscRpl ++ [n] } := rfl
@[simp] theorem State.storeTells_pending (n : StoreNews) : (s.storeTells n).pending = s.pending := rfl
@[simp] theorem State.storeTells_isRunning (n : StoreNews) : (s.storeTells n).isRunning = s.isRunning := rfl

/-! ## State.tellHold -/

@[simp] theorem State.tellHold_power (b : Bool) : (s.tellHold b).power = s.power := rfl
@[simp] theorem State.tellHold_resetIn (b : Bool) : (s.tellHold b).resetIn = s.resetIn := rfl
@[simp] theorem State.tellHold_run (b : Bool) : (s.tellHold b).run = s.run := rfl
@[simp] theorem State.tellHold_cause (b : Bool) : (s.tellHold b).cause = s.cause := rfl
@[simp] theorem State.tellHold_pins (b : Bool) : (s.tellHold b).pins = s.pins := rfl
@[simp] theorem State.tellHold_ram (b : Bool) : (s.tellHold b).ram = s.ram := rfl
@[simp] theorem State.tellHold_ord (b : Bool) : (s.tellHold b).ord = s.ord := rfl
@[simp] theorem State.tellHold_ntu (b : Bool) : (s.tellHold b).ntu = s.ntu := rfl
@[simp] theorem State.tellHold_jrn (b : Bool) : (s.tellHold b).jrn = s.jrn := rfl
@[simp] theorem State.tellHold_ssu (b : Bool) : (s.tellHold b).ssu = s.ssu := rfl
@[simp] theorem State.tellHold_fleet (b : Bool) : (s.tellHold b).fleet = s.fleet := rfl
@[simp] theorem State.tellHold_roster (b : Bool) : (s.tellHold b).roster = s.roster := rfl
@[simp] theorem State.tellHold_mirrorCount (b : Bool) : (s.tellHold b).mirrorCount = s.mirrorCount := rfl
@[simp] theorem State.tellHold_rpl (b : Bool) : (s.tellHold b).rpl = s.rpl := rfl
@[simp] theorem State.tellHold_lines (b : Bool) : (s.tellHold b).lines = s.lines := rfl
@[simp] theorem State.tellHold_prm (b : Bool) : (s.tellHold b).prm = s.prm := rfl
@[simp] theorem State.tellHold_dge (b : Bool) : (s.tellHold b).dge = s.dge := rfl
@[simp] theorem State.tellHold_isc (b : Bool) : (s.tellHold b).isc = s.isc := rfl
@[simp] theorem State.tellHold_flash (b : Bool) : (s.tellHold b).flash = s.flash := rfl
@[simp] theorem State.tellHold_chan (b : Bool) : (s.tellHold b).chan = { s.chan with jrnClc := Vector.ofFn (fun c : Car => s.chan.jrnClc[c] ++ [b]) } := rfl
@[simp] theorem State.tellHold_pending (b : Bool) : (s.tellHold b).pending = s.pending := rfl
@[simp] theorem State.tellHold_isRunning (b : Bool) : (s.tellHold b).isRunning = s.isRunning := rfl

/-! ## State.dropReport -/

@[simp] theorem State.dropReport_power (c : Car) : (s.dropReport c).power = s.power := rfl
@[simp] theorem State.dropReport_resetIn (c : Car) : (s.dropReport c).resetIn = s.resetIn := rfl
@[simp] theorem State.dropReport_run (c : Car) : (s.dropReport c).run = s.run := rfl
@[simp] theorem State.dropReport_cause (c : Car) : (s.dropReport c).cause = s.cause := rfl
@[simp] theorem State.dropReport_pins (c : Car) : (s.dropReport c).pins = s.pins := rfl
@[simp] theorem State.dropReport_ram (c : Car) : (s.dropReport c).ram = s.ram := rfl
@[simp] theorem State.dropReport_ord (c : Car) : (s.dropReport c).ord = s.ord := rfl
@[simp] theorem State.dropReport_ntu (c : Car) : (s.dropReport c).ntu = s.ntu := rfl
@[simp] theorem State.dropReport_jrn (c : Car) : (s.dropReport c).jrn = s.jrn := rfl
@[simp] theorem State.dropReport_ssu (c : Car) : (s.dropReport c).ssu = s.ssu := rfl
@[simp] theorem State.dropReport_fleet (c : Car) : (s.dropReport c).fleet = s.fleet := rfl
@[simp] theorem State.dropReport_roster (c : Car) : (s.dropReport c).roster = s.roster := rfl
@[simp] theorem State.dropReport_mirrorCount (c : Car) : (s.dropReport c).mirrorCount = s.mirrorCount := rfl
@[simp] theorem State.dropReport_rpl (c : Car) : (s.dropReport c).rpl = s.rpl := rfl
@[simp] theorem State.dropReport_lines (c : Car) : (s.dropReport c).lines = s.lines := rfl
@[simp] theorem State.dropReport_prm (c : Car) : (s.dropReport c).prm = s.prm := rfl
@[simp] theorem State.dropReport_dge (c : Car) : (s.dropReport c).dge = s.dge := rfl
@[simp] theorem State.dropReport_isc (c : Car) : (s.dropReport c).isc = s.isc := rfl
@[simp] theorem State.dropReport_flash (c : Car) : (s.dropReport c).flash = s.flash := rfl
@[simp] theorem State.dropReport_chan (c : Car) : (s.dropReport c).chan = { s.chan with clcRpl := dropAt s.chan.clcRpl c, handed := s.chan.handed.set c (s.chan.handed[c].map (fun n => n - 1)) } := rfl
@[simp] theorem State.dropReport_pending (c : Car) : (s.dropReport c).pending = s.pending := rfl
@[simp] theorem State.dropReport_isRunning (c : Car) : (s.dropReport c).isRunning = s.isRunning := rfl

/-! ## State.dropTell -/

@[simp] theorem State.dropTell_power (c : Car) : (s.dropTell c).power = s.power := rfl
@[simp] theorem State.dropTell_resetIn (c : Car) : (s.dropTell c).resetIn = s.resetIn := rfl
@[simp] theorem State.dropTell_run (c : Car) : (s.dropTell c).run = s.run := rfl
@[simp] theorem State.dropTell_cause (c : Car) : (s.dropTell c).cause = s.cause := rfl
@[simp] theorem State.dropTell_pins (c : Car) : (s.dropTell c).pins = s.pins := rfl
@[simp] theorem State.dropTell_ram (c : Car) : (s.dropTell c).ram = s.ram := rfl
@[simp] theorem State.dropTell_ord (c : Car) : (s.dropTell c).ord = s.ord := rfl
@[simp] theorem State.dropTell_ntu (c : Car) : (s.dropTell c).ntu = s.ntu := rfl
@[simp] theorem State.dropTell_jrn (c : Car) : (s.dropTell c).jrn = s.jrn := rfl
@[simp] theorem State.dropTell_ssu (c : Car) : (s.dropTell c).ssu = s.ssu := rfl
@[simp] theorem State.dropTell_fleet (c : Car) : (s.dropTell c).fleet = s.fleet := rfl
@[simp] theorem State.dropTell_roster (c : Car) : (s.dropTell c).roster = s.roster := rfl
@[simp] theorem State.dropTell_mirrorCount (c : Car) : (s.dropTell c).mirrorCount = s.mirrorCount := rfl
@[simp] theorem State.dropTell_rpl (c : Car) : (s.dropTell c).rpl = s.rpl := rfl
@[simp] theorem State.dropTell_lines (c : Car) : (s.dropTell c).lines = s.lines := rfl
@[simp] theorem State.dropTell_prm (c : Car) : (s.dropTell c).prm = s.prm := rfl
@[simp] theorem State.dropTell_dge (c : Car) : (s.dropTell c).dge = s.dge := rfl
@[simp] theorem State.dropTell_isc (c : Car) : (s.dropTell c).isc = s.isc := rfl
@[simp] theorem State.dropTell_flash (c : Car) : (s.dropTell c).flash = s.flash := rfl
@[simp] theorem State.dropTell_chan (c : Car) : (s.dropTell c).chan = { s.chan with rplClc := dropAt s.chan.rplClc c } := rfl
@[simp] theorem State.dropTell_pending (c : Car) : (s.dropTell c).pending = s.pending := rfl
@[simp] theorem State.dropTell_isRunning (c : Car) : (s.dropTell c).isRunning = s.isRunning := rfl

/-! ## State.dropRplEvent -/

@[simp] theorem State.dropRplEvent_power (c : Car) : (s.dropRplEvent c).power = s.power := rfl
@[simp] theorem State.dropRplEvent_resetIn (c : Car) : (s.dropRplEvent c).resetIn = s.resetIn := rfl
@[simp] theorem State.dropRplEvent_run (c : Car) : (s.dropRplEvent c).run = s.run := rfl
@[simp] theorem State.dropRplEvent_cause (c : Car) : (s.dropRplEvent c).cause = s.cause := rfl
@[simp] theorem State.dropRplEvent_pins (c : Car) : (s.dropRplEvent c).pins = s.pins := rfl
@[simp] theorem State.dropRplEvent_ram (c : Car) : (s.dropRplEvent c).ram = s.ram := rfl
@[simp] theorem State.dropRplEvent_ord (c : Car) : (s.dropRplEvent c).ord = s.ord := rfl
@[simp] theorem State.dropRplEvent_ntu (c : Car) : (s.dropRplEvent c).ntu = s.ntu := rfl
@[simp] theorem State.dropRplEvent_jrn (c : Car) : (s.dropRplEvent c).jrn = s.jrn := rfl
@[simp] theorem State.dropRplEvent_ssu (c : Car) : (s.dropRplEvent c).ssu = s.ssu := rfl
@[simp] theorem State.dropRplEvent_fleet (c : Car) : (s.dropRplEvent c).fleet = s.fleet := rfl
@[simp] theorem State.dropRplEvent_roster (c : Car) : (s.dropRplEvent c).roster = s.roster := rfl
@[simp] theorem State.dropRplEvent_mirrorCount (c : Car) : (s.dropRplEvent c).mirrorCount = s.mirrorCount := rfl
@[simp] theorem State.dropRplEvent_rpl (c : Car) : (s.dropRplEvent c).rpl = s.rpl := rfl
@[simp] theorem State.dropRplEvent_lines (c : Car) : (s.dropRplEvent c).lines = s.lines := rfl
@[simp] theorem State.dropRplEvent_prm (c : Car) : (s.dropRplEvent c).prm = s.prm := rfl
@[simp] theorem State.dropRplEvent_dge (c : Car) : (s.dropRplEvent c).dge = s.dge := rfl
@[simp] theorem State.dropRplEvent_isc (c : Car) : (s.dropRplEvent c).isc = s.isc := rfl
@[simp] theorem State.dropRplEvent_flash (c : Car) : (s.dropRplEvent c).flash = s.flash := rfl
@[simp] theorem State.dropRplEvent_chan (c : Car) : (s.dropRplEvent c).chan = { s.chan with ssuRpl := dropAt s.chan.ssuRpl c } := rfl
@[simp] theorem State.dropRplEvent_pending (c : Car) : (s.dropRplEvent c).pending = s.pending := rfl
@[simp] theorem State.dropRplEvent_isRunning (c : Car) : (s.dropRplEvent c).isRunning = s.isRunning := rfl

/-! ## State.dropPrmEvent -/

@[simp] theorem State.dropPrmEvent_power (c : Car) : (s.dropPrmEvent c).power = s.power := rfl
@[simp] theorem State.dropPrmEvent_resetIn (c : Car) : (s.dropPrmEvent c).resetIn = s.resetIn := rfl
@[simp] theorem State.dropPrmEvent_run (c : Car) : (s.dropPrmEvent c).run = s.run := rfl
@[simp] theorem State.dropPrmEvent_cause (c : Car) : (s.dropPrmEvent c).cause = s.cause := rfl
@[simp] theorem State.dropPrmEvent_pins (c : Car) : (s.dropPrmEvent c).pins = s.pins := rfl
@[simp] theorem State.dropPrmEvent_ram (c : Car) : (s.dropPrmEvent c).ram = s.ram := rfl
@[simp] theorem State.dropPrmEvent_ord (c : Car) : (s.dropPrmEvent c).ord = s.ord := rfl
@[simp] theorem State.dropPrmEvent_ntu (c : Car) : (s.dropPrmEvent c).ntu = s.ntu := rfl
@[simp] theorem State.dropPrmEvent_jrn (c : Car) : (s.dropPrmEvent c).jrn = s.jrn := rfl
@[simp] theorem State.dropPrmEvent_ssu (c : Car) : (s.dropPrmEvent c).ssu = s.ssu := rfl
@[simp] theorem State.dropPrmEvent_fleet (c : Car) : (s.dropPrmEvent c).fleet = s.fleet := rfl
@[simp] theorem State.dropPrmEvent_roster (c : Car) : (s.dropPrmEvent c).roster = s.roster := rfl
@[simp] theorem State.dropPrmEvent_mirrorCount (c : Car) : (s.dropPrmEvent c).mirrorCount = s.mirrorCount := rfl
@[simp] theorem State.dropPrmEvent_rpl (c : Car) : (s.dropPrmEvent c).rpl = s.rpl := rfl
@[simp] theorem State.dropPrmEvent_lines (c : Car) : (s.dropPrmEvent c).lines = s.lines := rfl
@[simp] theorem State.dropPrmEvent_prm (c : Car) : (s.dropPrmEvent c).prm = s.prm := rfl
@[simp] theorem State.dropPrmEvent_dge (c : Car) : (s.dropPrmEvent c).dge = s.dge := rfl
@[simp] theorem State.dropPrmEvent_isc (c : Car) : (s.dropPrmEvent c).isc = s.isc := rfl
@[simp] theorem State.dropPrmEvent_flash (c : Car) : (s.dropPrmEvent c).flash = s.flash := rfl
@[simp] theorem State.dropPrmEvent_chan (c : Car) : (s.dropPrmEvent c).chan = { s.chan with ssuPrm := dropAt s.chan.ssuPrm c } := rfl
@[simp] theorem State.dropPrmEvent_pending (c : Car) : (s.dropPrmEvent c).pending = s.pending := rfl
@[simp] theorem State.dropPrmEvent_isRunning (c : Car) : (s.dropPrmEvent c).isRunning = s.isRunning := rfl

/-! ## State.purgeTells -/

@[simp] theorem State.purgeTells_power (c : Car) (left : List Drop) : (s.purgeTells c left).power = s.power := rfl
@[simp] theorem State.purgeTells_resetIn (c : Car) (left : List Drop) : (s.purgeTells c left).resetIn = s.resetIn := rfl
@[simp] theorem State.purgeTells_run (c : Car) (left : List Drop) : (s.purgeTells c left).run = s.run := rfl
@[simp] theorem State.purgeTells_cause (c : Car) (left : List Drop) : (s.purgeTells c left).cause = s.cause := rfl
@[simp] theorem State.purgeTells_pins (c : Car) (left : List Drop) : (s.purgeTells c left).pins = s.pins := rfl
@[simp] theorem State.purgeTells_ram (c : Car) (left : List Drop) : (s.purgeTells c left).ram = s.ram := rfl
@[simp] theorem State.purgeTells_ord (c : Car) (left : List Drop) : (s.purgeTells c left).ord = s.ord := rfl
@[simp] theorem State.purgeTells_ntu (c : Car) (left : List Drop) : (s.purgeTells c left).ntu = s.ntu := rfl
@[simp] theorem State.purgeTells_jrn (c : Car) (left : List Drop) : (s.purgeTells c left).jrn = s.jrn := rfl
@[simp] theorem State.purgeTells_ssu (c : Car) (left : List Drop) : (s.purgeTells c left).ssu = s.ssu := rfl
@[simp] theorem State.purgeTells_fleet (c : Car) (left : List Drop) : (s.purgeTells c left).fleet = s.fleet := rfl
@[simp] theorem State.purgeTells_roster (c : Car) (left : List Drop) : (s.purgeTells c left).roster = s.roster := rfl
@[simp] theorem State.purgeTells_mirrorCount (c : Car) (left : List Drop) : (s.purgeTells c left).mirrorCount = s.mirrorCount := rfl
@[simp] theorem State.purgeTells_rpl (c : Car) (left : List Drop) : (s.purgeTells c left).rpl = s.rpl := rfl
@[simp] theorem State.purgeTells_lines (c : Car) (left : List Drop) : (s.purgeTells c left).lines = s.lines := rfl
@[simp] theorem State.purgeTells_prm (c : Car) (left : List Drop) : (s.purgeTells c left).prm = s.prm := rfl
@[simp] theorem State.purgeTells_dge (c : Car) (left : List Drop) : (s.purgeTells c left).dge = s.dge := rfl
@[simp] theorem State.purgeTells_isc (c : Car) (left : List Drop) : (s.purgeTells c left).isc = s.isc := rfl
@[simp] theorem State.purgeTells_flash (c : Car) (left : List Drop) : (s.purgeTells c left).flash = s.flash := rfl
@[simp] theorem State.purgeTells_chan (c : Car) (left : List Drop) : (s.purgeTells c left).chan = { s.chan with rplClc := s.chan.rplClc.set c (s.chan.rplClc[c].filter LineOrder.ofMissing ++ left.map (fun d => .missing d false)) } := rfl
@[simp] theorem State.purgeTells_pending (c : Car) (left : List Drop) : (s.purgeTells c left).pending = s.pending := rfl
@[simp] theorem State.purgeTells_isRunning (c : Car) (left : List Drop) : (s.purgeTells c left).isRunning = s.isRunning := rfl

/-! ## State.purgeReports -/

@[simp] theorem State.purgeReports_power (c : Car) : (s.purgeReports c).power = s.power := rfl
@[simp] theorem State.purgeReports_resetIn (c : Car) : (s.purgeReports c).resetIn = s.resetIn := rfl
@[simp] theorem State.purgeReports_run (c : Car) : (s.purgeReports c).run = s.run := rfl
@[simp] theorem State.purgeReports_cause (c : Car) : (s.purgeReports c).cause = s.cause := rfl
@[simp] theorem State.purgeReports_pins (c : Car) : (s.purgeReports c).pins = s.pins := rfl
@[simp] theorem State.purgeReports_ram (c : Car) : (s.purgeReports c).ram = s.ram := rfl
@[simp] theorem State.purgeReports_ord (c : Car) : (s.purgeReports c).ord = s.ord := rfl
@[simp] theorem State.purgeReports_ntu (c : Car) : (s.purgeReports c).ntu = s.ntu := rfl
@[simp] theorem State.purgeReports_jrn (c : Car) : (s.purgeReports c).jrn = s.jrn := rfl
@[simp] theorem State.purgeReports_ssu (c : Car) : (s.purgeReports c).ssu = s.ssu := rfl
@[simp] theorem State.purgeReports_fleet (c : Car) : (s.purgeReports c).fleet = s.fleet := rfl
@[simp] theorem State.purgeReports_roster (c : Car) : (s.purgeReports c).roster = s.roster := rfl
@[simp] theorem State.purgeReports_mirrorCount (c : Car) : (s.purgeReports c).mirrorCount = s.mirrorCount := rfl
@[simp] theorem State.purgeReports_rpl (c : Car) : (s.purgeReports c).rpl = s.rpl := rfl
@[simp] theorem State.purgeReports_lines (c : Car) : (s.purgeReports c).lines = s.lines := rfl
@[simp] theorem State.purgeReports_prm (c : Car) : (s.purgeReports c).prm = s.prm := rfl
@[simp] theorem State.purgeReports_dge (c : Car) : (s.purgeReports c).dge = s.dge := rfl
@[simp] theorem State.purgeReports_isc (c : Car) : (s.purgeReports c).isc = s.isc := rfl
@[simp] theorem State.purgeReports_flash (c : Car) : (s.purgeReports c).flash = s.flash := rfl
@[simp] theorem State.purgeReports_chan (c : Car) : (s.purgeReports c).chan = { s.chan with clcRpl := s.chan.clcRpl.set c (s.chan.clcRpl[c].drop (s.chan.handed[c].head?.getD s.chan.clcRpl[c].length)), handed := s.chan.handed.set c (s.chan.handed[c].tail.map (fun k => k - s.chan.handed[c].head?.getD s.chan.clcRpl[c].length)) } := rfl
@[simp] theorem State.purgeReports_pending (c : Car) : (s.purgeReports c).pending = s.pending := rfl
@[simp] theorem State.purgeReports_isRunning (c : Car) : (s.purgeReports c).isRunning = s.isRunning := rfl

/-- At a CAR LOSS that the CLC has not taken, every report waiting is of the cycle that ends (log 4). -/
theorem State.purgeReports_of_untaken {s : State} {c : Car} (h : s.chan.handed[c] = []) :
    (s.purgeReports c).chan = { s.chan with clcRpl := s.chan.clcRpl.set c [], handed := s.chan.handed.set c [] } := by
  rw [State.purgeReports_chan, h]; simp

/-- At a CAR LOSS that the CLC has taken, the reports handed before it go and those of the next cycle stay (log 4). -/
theorem State.purgeReports_of_taken {s : State} {c : Car} {n : Nat} {later : List Nat} (h : s.chan.handed[c] = n :: later) :
    (s.purgeReports c).chan = { s.chan with
      clcRpl := s.chan.clcRpl.set c (s.chan.clcRpl[c].drop n)
      handed := s.chan.handed.set c (later.map (fun k => k - n)) } := by
  rw [State.purgeReports_chan, h]; rfl

/-! ## State.closeReports -/

@[simp] theorem State.closeReports_power (c : Car) : (s.closeReports c).power = s.power := rfl
@[simp] theorem State.closeReports_resetIn (c : Car) : (s.closeReports c).resetIn = s.resetIn := rfl
@[simp] theorem State.closeReports_run (c : Car) : (s.closeReports c).run = s.run := rfl
@[simp] theorem State.closeReports_cause (c : Car) : (s.closeReports c).cause = s.cause := rfl
@[simp] theorem State.closeReports_pins (c : Car) : (s.closeReports c).pins = s.pins := rfl
@[simp] theorem State.closeReports_ram (c : Car) : (s.closeReports c).ram = s.ram := rfl
@[simp] theorem State.closeReports_ord (c : Car) : (s.closeReports c).ord = s.ord := rfl
@[simp] theorem State.closeReports_ntu (c : Car) : (s.closeReports c).ntu = s.ntu := rfl
@[simp] theorem State.closeReports_jrn (c : Car) : (s.closeReports c).jrn = s.jrn := rfl
@[simp] theorem State.closeReports_ssu (c : Car) : (s.closeReports c).ssu = s.ssu := rfl
@[simp] theorem State.closeReports_fleet (c : Car) : (s.closeReports c).fleet = s.fleet := rfl
@[simp] theorem State.closeReports_roster (c : Car) : (s.closeReports c).roster = s.roster := rfl
@[simp] theorem State.closeReports_mirrorCount (c : Car) : (s.closeReports c).mirrorCount = s.mirrorCount := rfl
@[simp] theorem State.closeReports_rpl (c : Car) : (s.closeReports c).rpl = s.rpl := rfl
@[simp] theorem State.closeReports_lines (c : Car) : (s.closeReports c).lines = s.lines := rfl
@[simp] theorem State.closeReports_prm (c : Car) : (s.closeReports c).prm = s.prm := rfl
@[simp] theorem State.closeReports_dge (c : Car) : (s.closeReports c).dge = s.dge := rfl
@[simp] theorem State.closeReports_isc (c : Car) : (s.closeReports c).isc = s.isc := rfl
@[simp] theorem State.closeReports_flash (c : Car) : (s.closeReports c).flash = s.flash := rfl
@[simp] theorem State.closeReports_chan (c : Car) : (s.closeReports c).chan = { s.chan with clcRpl := s.chan.clcRpl.set c (if decide (s.chan.ssuRpl[c].length < s.chan.ssuClc[c].length) = true then [] else s.chan.clcRpl[c]), handed := s.chan.handed.set c (if decide (s.chan.ssuRpl[c].length < s.chan.ssuClc[c].length) = true then [] else s.chan.handed[c] ++ [s.chan.clcRpl[c].length]) } := rfl
@[simp] theorem State.closeReports_pending (c : Car) : (s.closeReports c).pending = s.pending := rfl
@[simp] theorem State.closeReports_isRunning (c : Car) : (s.closeReports c).isRunning = s.isRunning := rfl

/-! ## State.dropClcEvent -/

@[simp] theorem State.dropClcEvent_power (c : Car) : (s.dropClcEvent c).power = s.power := rfl
@[simp] theorem State.dropClcEvent_resetIn (c : Car) : (s.dropClcEvent c).resetIn = s.resetIn := rfl
@[simp] theorem State.dropClcEvent_run (c : Car) : (s.dropClcEvent c).run = s.run := rfl
@[simp] theorem State.dropClcEvent_cause (c : Car) : (s.dropClcEvent c).cause = s.cause := rfl
@[simp] theorem State.dropClcEvent_pins (c : Car) : (s.dropClcEvent c).pins = s.pins := rfl
@[simp] theorem State.dropClcEvent_ram (c : Car) : (s.dropClcEvent c).ram = s.ram := rfl
@[simp] theorem State.dropClcEvent_ord (c : Car) : (s.dropClcEvent c).ord = s.ord := rfl
@[simp] theorem State.dropClcEvent_ntu (c : Car) : (s.dropClcEvent c).ntu = s.ntu := rfl
@[simp] theorem State.dropClcEvent_jrn (c : Car) : (s.dropClcEvent c).jrn = s.jrn := rfl
@[simp] theorem State.dropClcEvent_ssu (c : Car) : (s.dropClcEvent c).ssu = s.ssu := rfl
@[simp] theorem State.dropClcEvent_fleet (c : Car) : (s.dropClcEvent c).fleet = s.fleet := rfl
@[simp] theorem State.dropClcEvent_roster (c : Car) : (s.dropClcEvent c).roster = s.roster := rfl
@[simp] theorem State.dropClcEvent_mirrorCount (c : Car) : (s.dropClcEvent c).mirrorCount = s.mirrorCount := rfl
@[simp] theorem State.dropClcEvent_rpl (c : Car) : (s.dropClcEvent c).rpl = s.rpl := rfl
@[simp] theorem State.dropClcEvent_lines (c : Car) : (s.dropClcEvent c).lines = s.lines := rfl
@[simp] theorem State.dropClcEvent_prm (c : Car) : (s.dropClcEvent c).prm = s.prm := rfl
@[simp] theorem State.dropClcEvent_dge (c : Car) : (s.dropClcEvent c).dge = s.dge := rfl
@[simp] theorem State.dropClcEvent_isc (c : Car) : (s.dropClcEvent c).isc = s.isc := rfl
@[simp] theorem State.dropClcEvent_flash (c : Car) : (s.dropClcEvent c).flash = s.flash := rfl
@[simp] theorem State.dropClcEvent_chan (c : Car) : (s.dropClcEvent c).chan = { s.chan with ssuClc := dropAt s.chan.ssuClc c } := rfl
@[simp] theorem State.dropClcEvent_pending (c : Car) : (s.dropClcEvent c).pending = s.pending := rfl
@[simp] theorem State.dropClcEvent_isRunning (c : Car) : (s.dropClcEvent c).isRunning = s.isRunning := rfl

/-! ## State.ask -/

@[simp] theorem State.ask_power (src : Source) (e : Entry) : (s.ask src e).power = s.power := rfl
@[simp] theorem State.ask_resetIn (src : Source) (e : Entry) : (s.ask src e).resetIn = s.resetIn := rfl
@[simp] theorem State.ask_run (src : Source) (e : Entry) : (s.ask src e).run = s.run := rfl
@[simp] theorem State.ask_cause (src : Source) (e : Entry) : (s.ask src e).cause = s.cause := rfl
@[simp] theorem State.ask_pins (src : Source) (e : Entry) : (s.ask src e).pins = s.pins := rfl
@[simp] theorem State.ask_ram (src : Source) (e : Entry) : (s.ask src e).ram = s.ram := rfl
@[simp] theorem State.ask_ord (src : Source) (e : Entry) : (s.ask src e).ord = s.ord := rfl
@[simp] theorem State.ask_ntu (src : Source) (e : Entry) : (s.ask src e).ntu = s.ntu := rfl
@[simp] theorem State.ask_jrn (src : Source) (e : Entry) : (s.ask src e).jrn = { s.jrn with requests := s.jrn.requests ++ [⟨src, e⟩] } := rfl
@[simp] theorem State.ask_ssu (src : Source) (e : Entry) : (s.ask src e).ssu = s.ssu := rfl
@[simp] theorem State.ask_fleet (src : Source) (e : Entry) : (s.ask src e).fleet = s.fleet := rfl
@[simp] theorem State.ask_roster (src : Source) (e : Entry) : (s.ask src e).roster = s.roster := rfl
@[simp] theorem State.ask_mirrorCount (src : Source) (e : Entry) : (s.ask src e).mirrorCount = s.mirrorCount := rfl
@[simp] theorem State.ask_rpl (src : Source) (e : Entry) : (s.ask src e).rpl = s.rpl := rfl
@[simp] theorem State.ask_lines (src : Source) (e : Entry) : (s.ask src e).lines = s.lines := rfl
@[simp] theorem State.ask_prm (src : Source) (e : Entry) : (s.ask src e).prm = s.prm := rfl
@[simp] theorem State.ask_dge (src : Source) (e : Entry) : (s.ask src e).dge = s.dge := rfl
@[simp] theorem State.ask_isc (src : Source) (e : Entry) : (s.ask src e).isc = s.isc := rfl
@[simp] theorem State.ask_flash (src : Source) (e : Entry) : (s.ask src e).flash = s.flash := rfl
@[simp] theorem State.ask_chan (src : Source) (e : Entry) : (s.ask src e).chan = s.chan := rfl
@[simp] theorem State.ask_pending (src : Source) (e : Entry) : (s.ask src e).pending = s.pending := rfl
@[simp] theorem State.ask_isRunning (src : Source) (e : Entry) : (s.ask src e).isRunning = s.isRunning := rfl

/-! ## State.setRoster -/

@[simp] theorem State.setRoster_power (l : List NodeRec) : (s.setRoster l).power = s.power := rfl
@[simp] theorem State.setRoster_resetIn (l : List NodeRec) : (s.setRoster l).resetIn = s.resetIn := rfl
@[simp] theorem State.setRoster_run (l : List NodeRec) : (s.setRoster l).run = s.run := rfl
@[simp] theorem State.setRoster_cause (l : List NodeRec) : (s.setRoster l).cause = s.cause := rfl
@[simp] theorem State.setRoster_pins (l : List NodeRec) : (s.setRoster l).pins = s.pins := rfl
@[simp] theorem State.setRoster_ord (l : List NodeRec) : (s.setRoster l).ord = s.ord := rfl
@[simp] theorem State.setRoster_ntu (l : List NodeRec) : (s.setRoster l).ntu = s.ntu := rfl
@[simp] theorem State.setRoster_jrn (l : List NodeRec) : (s.setRoster l).jrn = s.jrn := rfl
@[simp] theorem State.setRoster_ssu (l : List NodeRec) : (s.setRoster l).ssu = s.ssu := rfl
@[simp] theorem State.setRoster_fleet (l : List NodeRec) : (s.setRoster l).fleet = s.fleet := rfl
@[simp] theorem State.setRoster_roster (l : List NodeRec) : (s.setRoster l).roster = l := rfl
@[simp] theorem State.setRoster_mirrorCount (l : List NodeRec) : (s.setRoster l).mirrorCount = Vector.ofFn (fun i : Fin 48 => if shownDiffers s.roster[i.val]? (l)[i.val]? then s.mirrorCount[i] + 2 else s.mirrorCount[i]) := rfl
@[simp] theorem State.setRoster_rpl (l : List NodeRec) : (s.setRoster l).rpl = s.rpl := rfl
@[simp] theorem State.setRoster_lines (l : List NodeRec) : (s.setRoster l).lines = s.lines := rfl
@[simp] theorem State.setRoster_prm (l : List NodeRec) : (s.setRoster l).prm = s.prm := rfl
@[simp] theorem State.setRoster_dge (l : List NodeRec) : (s.setRoster l).dge = s.dge := rfl
@[simp] theorem State.setRoster_isc (l : List NodeRec) : (s.setRoster l).isc = s.isc := rfl
@[simp] theorem State.setRoster_flash (l : List NodeRec) : (s.setRoster l).flash = s.flash := rfl
@[simp] theorem State.setRoster_chan (l : List NodeRec) : (s.setRoster l).chan = s.chan := rfl
@[simp] theorem State.setRoster_pending (l : List NodeRec) : (s.setRoster l).pending = s.pending := rfl
@[simp] theorem State.setRoster_isRunning (l : List NodeRec) : (s.setRoster l).isRunning = s.isRunning := rfl

/-! ## State.setNode -/

@[simp] theorem State.setNode_power (c : Car) (d : Drop) (n : NodeRec) : (s.setNode c d n).power = s.power := rfl
@[simp] theorem State.setNode_resetIn (c : Car) (d : Drop) (n : NodeRec) : (s.setNode c d n).resetIn = s.resetIn := rfl
@[simp] theorem State.setNode_run (c : Car) (d : Drop) (n : NodeRec) : (s.setNode c d n).run = s.run := rfl
@[simp] theorem State.setNode_cause (c : Car) (d : Drop) (n : NodeRec) : (s.setNode c d n).cause = s.cause := rfl
@[simp] theorem State.setNode_pins (c : Car) (d : Drop) (n : NodeRec) : (s.setNode c d n).pins = s.pins := rfl
@[simp] theorem State.setNode_ord (c : Car) (d : Drop) (n : NodeRec) : (s.setNode c d n).ord = s.ord := rfl
@[simp] theorem State.setNode_ntu (c : Car) (d : Drop) (n : NodeRec) : (s.setNode c d n).ntu = s.ntu := rfl
@[simp] theorem State.setNode_jrn (c : Car) (d : Drop) (n : NodeRec) : (s.setNode c d n).jrn = s.jrn := rfl
@[simp] theorem State.setNode_ssu (c : Car) (d : Drop) (n : NodeRec) : (s.setNode c d n).ssu = s.ssu := rfl
@[simp] theorem State.setNode_fleet (c : Car) (d : Drop) (n : NodeRec) : (s.setNode c d n).fleet = s.fleet := rfl
@[simp] theorem State.setNode_roster (c : Car) (d : Drop) (n : NodeRec) : (s.setNode c d n).roster = s.roster.map (fun r => if r.names c d then n else r) := rfl
@[simp] theorem State.setNode_mirrorCount (c : Car) (d : Drop) (n : NodeRec) : (s.setNode c d n).mirrorCount = Vector.ofFn (fun i : Fin 48 => if shownDiffers s.roster[i.val]? (s.roster.map (fun r => if r.names c d then n else r))[i.val]? then s.mirrorCount[i] + 2 else s.mirrorCount[i]) := rfl
@[simp] theorem State.setNode_rpl (c : Car) (d : Drop) (n : NodeRec) : (s.setNode c d n).rpl = s.rpl := rfl
@[simp] theorem State.setNode_lines (c : Car) (d : Drop) (n : NodeRec) : (s.setNode c d n).lines = s.lines := rfl
@[simp] theorem State.setNode_prm (c : Car) (d : Drop) (n : NodeRec) : (s.setNode c d n).prm = s.prm := rfl
@[simp] theorem State.setNode_dge (c : Car) (d : Drop) (n : NodeRec) : (s.setNode c d n).dge = s.dge := rfl
@[simp] theorem State.setNode_isc (c : Car) (d : Drop) (n : NodeRec) : (s.setNode c d n).isc = s.isc := rfl
@[simp] theorem State.setNode_flash (c : Car) (d : Drop) (n : NodeRec) : (s.setNode c d n).flash = s.flash := rfl
@[simp] theorem State.setNode_chan (c : Car) (d : Drop) (n : NodeRec) : (s.setNode c d n).chan = s.chan := rfl
@[simp] theorem State.setNode_pending (c : Car) (d : Drop) (n : NodeRec) : (s.setNode c d n).pending = s.pending := rfl
@[simp] theorem State.setNode_isRunning (c : Car) (d : Drop) (n : NodeRec) : (s.setNode c d n).isRunning = s.isRunning := rfl

/-! ## State.tickClocks -/

@[simp] theorem State.tickClocks_power  : (s.tickClocks ).power = s.power := rfl
@[simp] theorem State.tickClocks_resetIn  : (s.tickClocks ).resetIn = s.resetIn := rfl
@[simp] theorem State.tickClocks_run  : (s.tickClocks ).run = s.run := rfl
@[simp] theorem State.tickClocks_cause  : (s.tickClocks ).cause = s.cause := rfl
@[simp] theorem State.tickClocks_pins  : (s.tickClocks ).pins = s.pins := rfl
@[simp] theorem State.tickClocks_ram  : (s.tickClocks ).ram = s.ram := rfl
@[simp] theorem State.tickClocks_ord  : (s.tickClocks ).ord = s.ord := rfl
@[simp] theorem State.tickClocks_ntu  : (s.tickClocks ).ntu = s.ntu := rfl
@[simp] theorem State.tickClocks_jrn  : (s.tickClocks ).jrn = s.jrn := rfl
@[simp] theorem State.tickClocks_ssu  : (s.tickClocks ).ssu = s.ssu := rfl
@[simp] theorem State.tickClocks_fleet  : (s.tickClocks ).fleet = s.fleet := rfl
@[simp] theorem State.tickClocks_roster  : (s.tickClocks ).roster = s.roster := rfl
@[simp] theorem State.tickClocks_mirrorCount  : (s.tickClocks ).mirrorCount = s.mirrorCount := rfl
@[simp] theorem State.tickClocks_rpl  : (s.tickClocks ).rpl = Vector.ofFn (fun c : Car => s.rpl[c].tick) := rfl
@[simp] theorem State.tickClocks_lines  : (s.tickClocks ).lines = s.lines := rfl
@[simp] theorem State.tickClocks_prm  : (s.tickClocks ).prm = s.prm := rfl
@[simp] theorem State.tickClocks_dge  : (s.tickClocks ).dge = s.dge := rfl
@[simp] theorem State.tickClocks_isc  : (s.tickClocks ).isc = s.isc := rfl
@[simp] theorem State.tickClocks_flash  : (s.tickClocks ).flash = s.flash := rfl
@[simp] theorem State.tickClocks_chan  : (s.tickClocks ).chan = s.chan := rfl
@[simp] theorem State.tickClocks_pending  : (s.tickClocks ).pending = s.pending := rfl
@[simp] theorem State.tickClocks_isRunning  : (s.tickClocks ).isRunning = s.isRunning := rfl

/-! ## State.setRecord -/

@[simp] theorem State.setRecord_power (r : CopyIx) (v : CopyRec) : (s.setRecord r v).power = s.power := rfl
@[simp] theorem State.setRecord_resetIn (r : CopyIx) (v : CopyRec) : (s.setRecord r v).resetIn = s.resetIn := rfl
@[simp] theorem State.setRecord_run (r : CopyIx) (v : CopyRec) : (s.setRecord r v).run = s.run := rfl
@[simp] theorem State.setRecord_cause (r : CopyIx) (v : CopyRec) : (s.setRecord r v).cause = s.cause := rfl
@[simp] theorem State.setRecord_pins (r : CopyIx) (v : CopyRec) : (s.setRecord r v).pins = s.pins := rfl
@[simp] theorem State.setRecord_ord (r : CopyIx) (v : CopyRec) : (s.setRecord r v).ord = s.ord := rfl
@[simp] theorem State.setRecord_ntu (r : CopyIx) (v : CopyRec) : (s.setRecord r v).ntu = s.ntu := rfl
@[simp] theorem State.setRecord_jrn (r : CopyIx) (v : CopyRec) : (s.setRecord r v).jrn = s.jrn := rfl
@[simp] theorem State.setRecord_ssu (r : CopyIx) (v : CopyRec) : (s.setRecord r v).ssu = s.ssu := rfl
@[simp] theorem State.setRecord_fleet (r : CopyIx) (v : CopyRec) : (s.setRecord r v).fleet = s.fleet := rfl
@[simp] theorem State.setRecord_roster (r : CopyIx) (v : CopyRec) : (s.setRecord r v).roster = s.roster := rfl
@[simp] theorem State.setRecord_mirrorCount (r : CopyIx) (v : CopyRec) : (s.setRecord r v).mirrorCount = s.mirrorCount := rfl
@[simp] theorem State.setRecord_rpl (r : CopyIx) (v : CopyRec) : (s.setRecord r v).rpl = s.rpl := rfl
@[simp] theorem State.setRecord_lines (r : CopyIx) (v : CopyRec) : (s.setRecord r v).lines = s.lines := rfl
@[simp] theorem State.setRecord_prm (r : CopyIx) (v : CopyRec) : (s.setRecord r v).prm = s.prm := rfl
@[simp] theorem State.setRecord_dge (r : CopyIx) (v : CopyRec) : (s.setRecord r v).dge = s.dge := rfl
@[simp] theorem State.setRecord_isc (r : CopyIx) (v : CopyRec) : (s.setRecord r v).isc = { s.isc with records := s.isc.records.set r v } := rfl
@[simp] theorem State.setRecord_flash (r : CopyIx) (v : CopyRec) : (s.setRecord r v).flash = s.flash := rfl
@[simp] theorem State.setRecord_chan (r : CopyIx) (v : CopyRec) : (s.setRecord r v).chan = s.chan := rfl
@[simp] theorem State.setRecord_pending (r : CopyIx) (v : CopyRec) : (s.setRecord r v).pending = s.pending := rfl
@[simp] theorem State.setRecord_isRunning (r : CopyIx) (v : CopyRec) : (s.setRecord r v).isRunning = s.isRunning := rfl

/-! ## State.putBytes -/

@[simp] theorem State.putBytes_power (a : Nat) (l : List Byte) : (s.putBytes a l).power = s.power := rfl
@[simp] theorem State.putBytes_resetIn (a : Nat) (l : List Byte) : (s.putBytes a l).resetIn = s.resetIn := rfl
@[simp] theorem State.putBytes_run (a : Nat) (l : List Byte) : (s.putBytes a l).run = s.run := rfl
@[simp] theorem State.putBytes_cause (a : Nat) (l : List Byte) : (s.putBytes a l).cause = s.cause := rfl
@[simp] theorem State.putBytes_pins (a : Nat) (l : List Byte) : (s.putBytes a l).pins = s.pins := rfl
@[simp] theorem State.putBytes_ram (a : Nat) (l : List Byte) : (s.putBytes a l).ram = Mem.writeBytes 0 s.ram a l := rfl
@[simp] theorem State.putBytes_ord (a : Nat) (l : List Byte) : (s.putBytes a l).ord = s.ord := rfl
@[simp] theorem State.putBytes_ntu (a : Nat) (l : List Byte) : (s.putBytes a l).ntu = s.ntu := rfl
@[simp] theorem State.putBytes_jrn (a : Nat) (l : List Byte) : (s.putBytes a l).jrn = s.jrn := rfl
@[simp] theorem State.putBytes_ssu (a : Nat) (l : List Byte) : (s.putBytes a l).ssu = s.ssu := rfl
@[simp] theorem State.putBytes_fleet (a : Nat) (l : List Byte) : (s.putBytes a l).fleet = s.fleet := rfl
@[simp] theorem State.putBytes_roster (a : Nat) (l : List Byte) : (s.putBytes a l).roster = s.roster := rfl
@[simp] theorem State.putBytes_mirrorCount (a : Nat) (l : List Byte) : (s.putBytes a l).mirrorCount = s.mirrorCount := rfl
@[simp] theorem State.putBytes_rpl (a : Nat) (l : List Byte) : (s.putBytes a l).rpl = s.rpl := rfl
@[simp] theorem State.putBytes_lines (a : Nat) (l : List Byte) : (s.putBytes a l).lines = s.lines := rfl
@[simp] theorem State.putBytes_prm (a : Nat) (l : List Byte) : (s.putBytes a l).prm = s.prm := rfl
@[simp] theorem State.putBytes_dge (a : Nat) (l : List Byte) : (s.putBytes a l).dge = s.dge := rfl
@[simp] theorem State.putBytes_isc (a : Nat) (l : List Byte) : (s.putBytes a l).isc = s.isc := rfl
@[simp] theorem State.putBytes_flash (a : Nat) (l : List Byte) : (s.putBytes a l).flash = s.flash := rfl
@[simp] theorem State.putBytes_chan (a : Nat) (l : List Byte) : (s.putBytes a l).chan = s.chan := rfl
@[simp] theorem State.putBytes_pending (a : Nat) (l : List Byte) : (s.putBytes a l).pending = s.pending := rfl
@[simp] theorem State.putBytes_isRunning (a : Nat) (l : List Byte) : (s.putBytes a l).isRunning = s.isRunning := rfl

/-! ## State.setNtu -/

@[simp] theorem State.setNtu_power (n : Ntu) : (s.setNtu n).power = s.power := rfl
@[simp] theorem State.setNtu_resetIn (n : Ntu) : (s.setNtu n).resetIn = s.resetIn := rfl
@[simp] theorem State.setNtu_run (n : Ntu) : (s.setNtu n).run = s.run := rfl
@[simp] theorem State.setNtu_cause (n : Ntu) : (s.setNtu n).cause = s.cause := rfl
@[simp] theorem State.setNtu_pins (n : Ntu) : (s.setNtu n).pins = { s.pins with noticeA := n.lineA, noticeB := n.lineB } := rfl
@[simp] theorem State.setNtu_ram (n : Ntu) : (s.setNtu n).ram = s.ram := rfl
@[simp] theorem State.setNtu_ord (n : Ntu) : (s.setNtu n).ord = s.ord := rfl
@[simp] theorem State.setNtu_ntu (n : Ntu) : (s.setNtu n).ntu = n := rfl
@[simp] theorem State.setNtu_jrn (n : Ntu) : (s.setNtu n).jrn = s.jrn := rfl
@[simp] theorem State.setNtu_ssu (n : Ntu) : (s.setNtu n).ssu = s.ssu := rfl
@[simp] theorem State.setNtu_fleet (n : Ntu) : (s.setNtu n).fleet = s.fleet := rfl
@[simp] theorem State.setNtu_roster (n : Ntu) : (s.setNtu n).roster = s.roster := rfl
@[simp] theorem State.setNtu_mirrorCount (n : Ntu) : (s.setNtu n).mirrorCount = s.mirrorCount := rfl
@[simp] theorem State.setNtu_rpl (n : Ntu) : (s.setNtu n).rpl = s.rpl := rfl
@[simp] theorem State.setNtu_lines (n : Ntu) : (s.setNtu n).lines = s.lines := rfl
@[simp] theorem State.setNtu_prm (n : Ntu) : (s.setNtu n).prm = s.prm := rfl
@[simp] theorem State.setNtu_dge (n : Ntu) : (s.setNtu n).dge = s.dge := rfl
@[simp] theorem State.setNtu_isc (n : Ntu) : (s.setNtu n).isc = s.isc := rfl
@[simp] theorem State.setNtu_flash (n : Ntu) : (s.setNtu n).flash = s.flash := rfl
@[simp] theorem State.setNtu_chan (n : Ntu) : (s.setNtu n).chan = s.chan := rfl
@[simp] theorem State.setNtu_pending (n : Ntu) : (s.setNtu n).pending = s.pending := rfl
@[simp] theorem State.setNtu_isRunning (n : Ntu) : (s.setNtu n).isRunning = s.isRunning := rfl

/-! ## State.setWork -/

@[simp] theorem State.setWork_power (w : Option Work) : (s.setWork w).power = s.power := rfl
@[simp] theorem State.setWork_resetIn (w : Option Work) : (s.setWork w).resetIn = s.resetIn := rfl
@[simp] theorem State.setWork_run (w : Option Work) : (s.setWork w).run = s.run := rfl
@[simp] theorem State.setWork_cause (w : Option Work) : (s.setWork w).cause = s.cause := rfl
@[simp] theorem State.setWork_pins (w : Option Work) : (s.setWork w).pins = s.pins := rfl
@[simp] theorem State.setWork_ram (w : Option Work) : (s.setWork w).ram = s.ram := rfl
@[simp] theorem State.setWork_ord (w : Option Work) : (s.setWork w).ord = s.ord := rfl
@[simp] theorem State.setWork_ntu (w : Option Work) : (s.setWork w).ntu = s.ntu := rfl
@[simp] theorem State.setWork_jrn (w : Option Work) : (s.setWork w).jrn = s.jrn := rfl
@[simp] theorem State.setWork_ssu (w : Option Work) : (s.setWork w).ssu = s.ssu := rfl
@[simp] theorem State.setWork_fleet (w : Option Work) : (s.setWork w).fleet = s.fleet := rfl
@[simp] theorem State.setWork_roster (w : Option Work) : (s.setWork w).roster = s.roster := rfl
@[simp] theorem State.setWork_mirrorCount (w : Option Work) : (s.setWork w).mirrorCount = s.mirrorCount := rfl
@[simp] theorem State.setWork_rpl (w : Option Work) : (s.setWork w).rpl = s.rpl := rfl
@[simp] theorem State.setWork_lines (w : Option Work) : (s.setWork w).lines = s.lines := rfl
@[simp] theorem State.setWork_prm (w : Option Work) : (s.setWork w).prm = s.prm := rfl
@[simp] theorem State.setWork_dge (w : Option Work) : (s.setWork w).dge = s.dge := rfl
@[simp] theorem State.setWork_isc (w : Option Work) : (s.setWork w).isc = { s.isc with work := w } := rfl
@[simp] theorem State.setWork_flash (w : Option Work) : (s.setWork w).flash = s.flash := rfl
@[simp] theorem State.setWork_chan (w : Option Work) : (s.setWork w).chan = s.chan := rfl
@[simp] theorem State.setWork_pending (w : Option Work) : (s.setWork w).pending = s.pending := rfl
@[simp] theorem State.setWork_isRunning (w : Option Work) : (s.setWork w).isRunning = s.isRunning := rfl

/-! ## State.setStoreState -/

@[simp] theorem State.setStoreState_power (x : StoreState) : (s.setStoreState x).power = s.power := rfl
@[simp] theorem State.setStoreState_resetIn (x : StoreState) : (s.setStoreState x).resetIn = s.resetIn := rfl
@[simp] theorem State.setStoreState_run (x : StoreState) : (s.setStoreState x).run = s.run := rfl
@[simp] theorem State.setStoreState_cause (x : StoreState) : (s.setStoreState x).cause = s.cause := rfl
@[simp] theorem State.setStoreState_pins (x : StoreState) : (s.setStoreState x).pins = s.pins := rfl
@[simp] theorem State.setStoreState_ram (x : StoreState) : (s.setStoreState x).ram = s.ram := rfl
@[simp] theorem State.setStoreState_ord (x : StoreState) : (s.setStoreState x).ord = s.ord := rfl
@[simp] theorem State.setStoreState_ntu (x : StoreState) : (s.setStoreState x).ntu = s.ntu := rfl
@[simp] theorem State.setStoreState_jrn (x : StoreState) : (s.setStoreState x).jrn = s.jrn := rfl
@[simp] theorem State.setStoreState_ssu (x : StoreState) : (s.setStoreState x).ssu = s.ssu := rfl
@[simp] theorem State.setStoreState_fleet (x : StoreState) : (s.setStoreState x).fleet = s.fleet := rfl
@[simp] theorem State.setStoreState_roster (x : StoreState) : (s.setStoreState x).roster = s.roster := rfl
@[simp] theorem State.setStoreState_mirrorCount (x : StoreState) : (s.setStoreState x).mirrorCount = s.mirrorCount := rfl
@[simp] theorem State.setStoreState_rpl (x : StoreState) : (s.setStoreState x).rpl = s.rpl := rfl
@[simp] theorem State.setStoreState_lines (x : StoreState) : (s.setStoreState x).lines = s.lines := rfl
@[simp] theorem State.setStoreState_prm (x : StoreState) : (s.setStoreState x).prm = s.prm := rfl
@[simp] theorem State.setStoreState_dge (x : StoreState) : (s.setStoreState x).dge = s.dge := rfl
@[simp] theorem State.setStoreState_isc (x : StoreState) : (s.setStoreState x).isc = { s.isc with storeState := x } := rfl
@[simp] theorem State.setStoreState_flash (x : StoreState) : (s.setStoreState x).flash = s.flash := rfl
@[simp] theorem State.setStoreState_chan (x : StoreState) : (s.setStoreState x).chan = s.chan := rfl
@[simp] theorem State.setStoreState_pending (x : StoreState) : (s.setStoreState x).pending = s.pending := rfl
@[simp] theorem State.setStoreState_isRunning (x : StoreState) : (s.setStoreState x).isRunning = s.isRunning := rfl

end Sys2Proof.Machine
end

