-- ==== Sys2Proof/Laws/Publish.lean ====
section
/-! SUPPORT. What publishing does: which bytes it may change, what the changed words then hold, and that it keeps the canonical
form. -/

namespace Sys2Proof.Machine

set_option Elab.async false

/-! ## Publishing touches the Exchange RAM only -/

theorem publish_eq (s t : State) : publish s t = { t with ram := (publish s t).ram } := rfl

section fields
variable (s t : State)
@[simp] theorem publish_power : (publish s t).power = t.power := rfl
@[simp] theorem publish_resetIn : (publish s t).resetIn = t.resetIn := rfl
@[simp] theorem publish_run : (publish s t).run = t.run := rfl
@[simp] theorem publish_cause : (publish s t).cause = t.cause := rfl
@[simp] theorem publish_pins : (publish s t).pins = t.pins := rfl
@[simp] theorem publish_ord : (publish s t).ord = t.ord := rfl
@[simp] theorem publish_ntu : (publish s t).ntu = t.ntu := rfl
@[simp] theorem publish_jrn : (publish s t).jrn = t.jrn := rfl
@[simp] theorem publish_ssu : (publish s t).ssu = t.ssu := rfl
@[simp] theorem publish_fleet : (publish s t).fleet = t.fleet := rfl
@[simp] theorem publish_roster : (publish s t).roster = t.roster := rfl
@[simp] theorem publish_mirrorCount : (publish s t).mirrorCount = t.mirrorCount := rfl
@[simp] theorem publish_rpl : (publish s t).rpl = t.rpl := rfl
@[simp] theorem publish_lines : (publish s t).lines = t.lines := rfl
@[simp] theorem publish_prm : (publish s t).prm = t.prm := rfl
@[simp] theorem publish_dge : (publish s t).dge = t.dge := rfl
@[simp] theorem publish_isc : (publish s t).isc = t.isc := rfl
@[simp] theorem publish_flash : (publish s t).flash = t.flash := rfl
@[simp] theorem publish_chan : (publish s t).chan = t.chan := rfl
@[simp] theorem publish_pending : (publish s t).pending = t.pending := rfl
@[simp] theorem publish_isRunning : (publish s t).isRunning = t.isRunning := rfl
end fields

/-! ## Words and where they lie -/

/-- A byte address lies in no word of a list. -/
def Clear (a : Nat) (l : List (Nat × Nat)) : Prop := ∀ w ∈ l, a ≠ w.1 ∧ a ≠ w.1 + 1

theorem read_putWord_other (m : Memory) {a k : Nat} (v : Nat) (h : k ≠ a ∧ k ≠ a + 1) :
    Mem.read 0 (putWord m a v) k = Mem.read 0 m k :=
  Mem.read_writeBytes_other m (le16 v) (by simp only [le16, List.length_cons, List.length_nil]; omega)

theorem read_putWords_other (l : List (Nat × Nat)) (m : Memory) {k : Nat} (h : Clear k l) :
    Mem.read 0 (putWords m l) k = Mem.read 0 m k := by
  induction l generalizing m with
  | nil => rfl
  | cons w rest ih =>
    obtain ⟨a, v⟩ := w
    rw [putWords, ih _ (fun x hx => h x (List.mem_cons_of_mem _ hx)),
      read_putWord_other _ _ (h (a, v) List.mem_cons_self)]

theorem wf_putWords (l : List (Nat × Nat)) {m : Memory} (h : Mem.wf 0 m = true) : Mem.wf 0 (putWords m l) = true := by
  induction l generalizing m with
  | nil => exact h
  | cons w rest ih => exact ih (wf_putWord _ _ h)

/-- The words of an item among those of a list that holds it. -/
theorem wordsFrom_subset {x : Item} {l : List Item} (h : x ∈ l) : ∀ w ∈ wordsFrom x.1 x.2, w ∈ itemWords l :=
  fun _ hw => List.mem_flatMap.mpr ⟨x, h, hw⟩

theorem read_syncItems_other (olds news : List Item) (m : Memory) {k : Nat} (h : Clear k (itemWords news)) :
    Mem.read 0 (syncItems m olds news) k = Mem.read 0 m k := by
  induction olds generalizing m news with
  | nil => rfl
  | cons o olds ih =>
    cases news with
    | nil => rfl
    | cons y news =>
      rw [syncItems, ih _ _ (fun x hx => h x (by simp only [itemWords, List.flatMap_cons, List.mem_append] at hx ⊢; exact .inr hx))]
      split
      · rfl
      · exact read_putWords_other _ _ (fun x hx => h x (wordsFrom_subset List.mem_cons_self x hx))

theorem wf_syncItems (olds news : List Item) {m : Memory} (h : Mem.wf 0 m = true) :
    Mem.wf 0 (syncItems m olds news) = true := by
  induction olds generalizing m news with
  | nil => exact h
  | cons o olds ih =>
    cases news with
    | nil => exact h
    | cons y news =>
      rw [syncItems]
      apply ih
      split
      · exact h
      · exact wf_putWords _ h

theorem syncItems_self (l : List Item) (m : Memory) : syncItems m l l = m := by
  induction l generalizing m with
  | nil => rfl
  | cons w rest ih => rw [syncItems, if_pos rfl, ih]

/-- A property of memories that each step of a fold keeps. -/
theorem foldl_keeps {α β : Type} {P : α → Prop} (f : α → β → α) (l : List β) (h : ∀ x b, P x → P (f x b)) (x : α)
    (hx : P x) : P (l.foldl f x) := by
  induction l generalizing x with
  | nil => exact hx
  | cons b rest ih => exact ih _ (h x b hx)

/-! ## The regions -/

/-- The words of an item lie in the bytes it takes up. -/
theorem wordsFrom_within (l : List Nat) (a : Nat) : ∀ w ∈ wordsFrom a l, a ≤ w.1 ∧ w.1 + 1 < a + 2 * l.length := by
  induction l generalizing a with
  | nil => intro w hw; cases hw
  | cons v rest ih =>
    intro w hw
    rcases List.mem_cons.mp hw with h | h
    · rw [h]; simp only [List.length_cons]; omega
    · have := ih (a + 2) w h; simp only [List.length_cons]; omega

/-- Items that lie in a range have their words in it. -/
theorem itemWords_within {l : List Item} {lo hi : Nat} (h : ∀ x ∈ l, lo ≤ x.1 ∧ x.1 + 2 * x.2.length ≤ hi) :
    ∀ w ∈ itemWords l, lo ≤ w.1 ∧ w.1 + 1 < hi := by
  intro w hw
  obtain ⟨x, hx, hw⟩ := List.mem_flatMap.mp hw
  have := wordsFrom_within _ _ w hw
  have := h x hx
  omega

theorem statusItems_within (s : State) : ∀ x ∈ statusItems s, 0 ≤ x.1 ∧ x.1 + 2 * x.2.length ≤ 0x60 := by
  simp [statusItems, longWords]

theorem carItems_within (s : State) (c : Car) :
    ∀ x ∈ carItems s c, 0x60 + 16 * c.val ≤ x.1 ∧ x.1 + 2 * x.2.length ≤ 0x60 + 16 * c.val + 16 := by
  simp [carItems]

theorem statusPage_below (s : State) : ∀ w ∈ statusPage s, w.1 + 1 < 0xC0 := by
  intro w hw
  refine (itemWords_within (lo := 0) (fun x hx => ?_) w hw).2
  rcases List.mem_append.mp hx with h | h
  · have := statusItems_within s x h; omega
  · obtain ⟨c, -, h⟩ := List.mem_flatMap.mp h
    have := carItems_within s c x h
    have := c.isLt
    omega

theorem nodeItems_within (r : Option NodeRec) : ∀ x ∈ nodeItems r, 0 ≤ x.1 ∧ x.1 + 2 * x.2.length ≤ 40 := by
  cases r <;> simp [nodeItems, longWords]

theorem mirrorWords_within (s : State) (i : Fin 48) :
    ∀ w ∈ mirrorWords s i, 0x1200 + 64 * i.val ≤ w.1 ∧ w.1 + 1 < 0x1200 + 64 * i.val + 40 := by
  refine itemWords_within (fun x hx => ?_)
  simp only [mirrorItems, List.mem_map] at hx
  obtain ⟨y, hy, rfl⟩ := hx
  simp only [Config.nodeMirrorBase]
  rcases List.mem_cons.mp hy with h | h
  · rw [h]; simp only [List.length_cons, List.length_nil]; omega
  · have := nodeItems_within _ y h; omega

theorem reservedWords_within (i : Fin 48) :
    ∀ w ∈ reservedWords i, 0x1200 + 64 * i.val + 40 ≤ w.1 ∧ w.1 + 1 < 0x1200 + 64 * i.val + 64 := by
  intro w hw
  have := wordsFrom_within _ _ w hw
  simp only [List.length_replicate, Config.nodeMirrorBase] at this
  omega

theorem recordWords_within (r : CopyIx) (k : CopyRec) :
    ∀ w ∈ recordWords r k, 0x1E00 + 16 * r.val ≤ w.1 ∧ w.1 + 1 < 0x1E00 + 16 * r.val + 16 :=
  itemWords_within (by simp [recordItems, longWords, Config.directoryMirrorBase])

/-! ## What publishing leaves alone, and the canonical form -/

/-- The bytes of the Exchange RAM that publishing may write. -/
def Shown (a : Nat) : Prop := a < 0xC0 ∨ (0x1200 ≤ a ∧ a < 0x2000)

theorem read_syncEntry_other (s t : State) (m : Memory) (i : Fin 48) {a : Nat}
    (h : a < 0x1200 + 64 * i.val ∨ 0x1200 + 64 * i.val + 64 ≤ a) :
    Mem.read 0 (syncEntry s t m i) a = Mem.read 0 m a := by
  unfold syncEntry
  split
  · rfl
  · exact read_syncItems_other _ _ _ (fun w hw => by have := mirrorWords_within _ i w hw; omega)

theorem read_syncRecord_other (s t : State) (m : Memory) (r : CopyIx) {a : Nat}
    (h : a < 0x1E00 + 16 * r.val ∨ 0x1E00 + 16 * r.val + 16 ≤ a) :
    Mem.read 0 (syncRecord s t m r) a = Mem.read 0 m a := by
  unfold syncRecord
  split
  · rfl
  · exact read_syncItems_other _ _ _ (fun w hw => by have := recordWords_within r _ w hw; omega)

/-- Publishing writes the Status Page and the two mirrors only (R154). -/
theorem publish_ramByte_other (s t : State) {a : Nat} (h : ¬ Shown a) : (publish s t).ramByte a = t.ramByte a := by
  have h1 : ∀ m, Mem.read 0 ((List.finRange 32).foldl (syncRecord s t) m) a = Mem.read 0 m a := by
    intro m
    refine foldl_keeps (P := fun x => Mem.read 0 x a = Mem.read 0 m a) _ _ (fun x r hx => ?_) m rfl
    rw [read_syncRecord_other _ _ _ _ (by have := r.isLt; simp only [Shown] at h; omega), hx]
  have h2 : ∀ m, Mem.read 0 ((List.finRange 48).foldl (syncEntry s t) m) a = Mem.read 0 m a := by
    intro m
    refine foldl_keeps (P := fun x => Mem.read 0 x a = Mem.read 0 m a) _ _ (fun x i hx => ?_) m rfl
    rw [read_syncEntry_other _ _ _ _ (by have := i.isLt; simp only [Shown] at h; omega), hx]
  show Mem.read 0 (publish s t).ram a = Mem.read 0 t.ram a
  unfold publish
  simp only
  rw [h1, h2, read_syncItems_other _ _ _ (fun w hw => by
    have := statusPage_below _ w hw; simp only [Shown] at h; omega)]

theorem wf_syncEntry (s t : State) {m : Memory} (i : Fin 48) (h : Mem.wf 0 m = true) : Mem.wf 0 (syncEntry s t m i) = true := by
  unfold syncEntry
  split
  · exact h
  · exact wf_syncItems _ _ h

theorem wf_syncRecord (s t : State) {m : Memory} (r : CopyIx) (h : Mem.wf 0 m = true) :
    Mem.wf 0 (syncRecord s t m r) = true := by
  unfold syncRecord
  split
  · exact h
  · exact wf_syncItems _ _ h

/-- Publishing keeps the canonical form. -/
theorem wf_publish (s t : State) (h : Mem.wf 0 t.ram = true) : Mem.wf 0 (publish s t).ram = true := by
  unfold publish
  simp only
  refine foldl_keeps (P := fun x => Mem.wf 0 x = true) _ _ (fun x r hx => wf_syncRecord s t r hx) _
    (foldl_keeps (P := fun x => Mem.wf 0 x = true) _ _ (fun x i hx => wf_syncEntry s t i hx) _ (wf_syncItems _ _ h))

/-! ## Changes that write what they show -/

theorem carWords_shown (s : State) (c : Car) : ∀ w ∈ itemWords (carItems s c), w.1 + 1 < 0xC0 := by
  intro w hw
  have := itemWords_within (carItems_within s c) w hw
  have := c.isLt
  omega

theorem endedBackoff_within (s t : State) (i : Fin 48) :
    ∀ w ∈ endedBackoff s t i, 0x1200 + 64 * i.val ≤ w.1 ∧ w.1 + 1 < 0x1200 + 64 * i.val + 40 := by
  intro w hw
  unfold endedBackoff at hw
  split at hw
  · obtain ⟨x, hx, hw⟩ := List.mem_flatMap.mp hw
    exact mirrorWords_within t i w (wordsFrom_subset (List.mem_of_mem_filter hx) w hw)
  · cases hw

theorem State.setRpl_ramByte_other (s : State) (c : Car) (r : RplCar) {a : Nat} (h : ¬ Shown a) :
    (s.setRpl c r).ramByte a = s.ramByte a :=
  read_syncItems_other _ _ _ (fun w hw => by have := carWords_shown _ c w hw; simp only [Shown] at h; omega)

theorem State.setRoster_ramByte_other (s : State) (l : List NodeRec) {a : Nat} (h : ¬ Shown a) :
    (s.setRoster l).ramByte a = s.ramByte a := by
  show Mem.read 0 (s.setRoster l).ram a = Mem.read 0 s.ram a
  unfold State.setRoster
  dsimp only
  refine foldl_keeps (P := fun x => Mem.read 0 x a = Mem.read 0 s.ram a) _ _ (fun x i hx => ?_) s.ram rfl
  have := i.isLt
  rw [read_putWords_other _ _ (fun w hw => by
      have := endedBackoff_within _ _ i w hw; simp only [Shown] at h; omega),
    read_syncEntry_other _ _ _ _ (by simp only [Shown] at h; omega), hx]

theorem State.setRecord_ramByte_other (s : State) (r : CopyIx) (v : CopyRec) {a : Nat} (h : ¬ Shown a) :
    (s.setRecord r v).ramByte a = s.ramByte a :=
  read_syncRecord_other _ _ _ _ (by have := r.isLt; simp only [Shown] at h; omega)

theorem wf_setRpl (s : State) (c : Car) (r : RplCar) (h : Mem.wf 0 s.ram = true) : Mem.wf 0 (s.setRpl c r).ram = true :=
  wf_syncItems _ _ h

theorem wf_setRoster (s : State) (l : List NodeRec) (h : Mem.wf 0 s.ram = true) : Mem.wf 0 (s.setRoster l).ram = true :=
  foldl_keeps (P := fun x => Mem.wf 0 x = true) _ _ (fun _ i hx => wf_putWords _ (wf_syncEntry _ _ i hx)) _ h

theorem wf_setRecord (s : State) (r : CopyIx) (v : CopyRec) (h : Mem.wf 0 s.ram = true) :
    Mem.wf 0 (s.setRecord r v).ram = true :=
  wf_syncRecord _ _ r h

/-! ## What is written whether or not it has changed -/

theorem State.showWords_eq (s : State) (p : Nat → Bool) : s.showWords p = { s with ram := (s.showWords p).ram } := rfl

theorem State.showField_eq (s : State) (p : NodeRec → Bool) (n : Nat) :
    s.showField p n = { s with ram := (s.showField p n).ram } := rfl

theorem State.showEstimate_eq (s : State) (c : Car) : s.showEstimate c = { s with ram := (s.showEstimate c).ram } := rfl

theorem State.showWords_ramByte_other (s : State) (p : Nat → Bool) {a : Nat} (h : ¬ Shown a) :
    (s.showWords p).ramByte a = s.ramByte a :=
  read_putWords_other _ _ (fun w hw => by
    have := statusPage_below _ w (List.mem_of_mem_filter hw); simp only [Shown] at h; omega)

theorem State.showField_ramByte_other (s : State) (p : NodeRec → Bool) (n : Nat) {a : Nat} (h : ¬ Shown a) :
    (s.showField p n).ramByte a = s.ramByte a := by
  refine read_putWords_other _ _ (fun w hw => ?_)
  obtain ⟨i, -, hi⟩ := List.mem_flatMap.mp hw
  split at hi
  · obtain ⟨x, hx, hw⟩ := List.mem_flatMap.mp hi
    have h2 := mirrorWords_within s i w (wordsFrom_subset (List.mem_of_mem_filter hx) w hw)
    have := i.isLt
    simp only [Shown] at h
    omega
  · cases hi

theorem State.showEstimate_ramByte_other (s : State) (c : Car) {a : Nat} (h : ¬ Shown a) :
    (s.showEstimate c).ramByte a = s.ramByte a :=
  (State.showField_ramByte_other _ _ _ h).trans (State.showWords_ramByte_other s _ h)

/-! ## A change that is not shown -/

/-- Two states that show the same: nothing is written. -/
theorem publish_unshown (s t : State) (h1 : pageItems s = pageItems t) (h2 : s.roster = t.roster)
    (h3 : s.isc.records = t.isc.records) (h4 : s.mirrorCount = t.mirrorCount) : publish s t = t := by
  unfold publish
  simp only [h1, syncItems_self]
  have e1 : ∀ m, (List.finRange 48).foldl (syncEntry s t) m = m := by
    intro m
    refine foldl_keeps (P := fun x => x = m) _ _ (fun x i hx => ?_) m rfl
    simp [syncEntry, h2, h4, hx]
  have e2 : ∀ m, (List.finRange 32).foldl (syncRecord s t) m = m := by
    intro m
    refine foldl_keeps (P := fun x => x = m) _ _ (fun x r hx => ?_) m rfl
    simp [syncRecord, h3, hx]
  rw [e1, e2]

theorem publish_self (s : State) : publish s s = s := publish_unshown s s rfl rfl rfl rfl

/-- A line that keeps its error count shows nothing new; neither does news in transit. -/
theorem publish_line (s : State) (c : Car) (l : Line) (x : Channels) (h : l.errors = s.lines[c].errors) :
    publish s { s with lines := s.lines.set c l, chan := x } = { s with lines := s.lines.set c l, chan := x } := by
  refine publish_unshown _ _ ?_ rfl rfl rfl
  have he : ∀ d : Car, (s.lines.set c l)[d].errors = s.lines[d].errors := by
    intro d
    by_cases hd : c = d
    · subst hd; simpa using h
    · have : (s.lines.set c l)[d] = s.lines[d] := by
        simp only [Fin.getElem_fin]; rw [Vector.getElem_set_ne]; intro hh; exact hd (Fin.ext hh)
      rw [this]
  have hw : ∀ d : Car, carItems { s with lines := s.lines.set c l, chan := x } d = carItems s d := by
    intro d
    simp only [carItems, he d, carFlags]
  have hp : statusItems { s with lines := s.lines.set c l, chan := x } = statusItems s := rfl
  simp only [pageItems, hp, funext hw]

end Sys2Proof.Machine
end

