-- ==== Sys2Proof/Laws/Keeps.lean ====
section
/-! SUPPORT. The relation between a state and what an operation makes of it that carries every whole-machine condition over,
and the plain updates of a record that stand in it. -/

namespace Sys2Proof.Machine

set_option Elab.async false

/-- Each condition but the journal's that holds of `s` holds of `t`. -/
structure KeepsRest (s t : State) : Prop where
  memory : MemoryCanonical s → MemoryCanonical t := by exact id
  notice : NoticeLinesDriven s → NoticeLinesDriven t := by exact id
  permits : PermitsHeld s → PermitsHeld t := by exact id
  active : OneActiveCopy s → OneActiveCopy t := by exact id
  roster : RosterOrdered s → RosterOrdered t := by exact id
  queues : QueuesOrdered s → QueuesOrdered t := by exact id

/-- Each condition that holds of `s` holds of `t`. -/
structure Keeps (s t : State) : Prop extends KeepsRest s t where
  journal : JournalHeld s → JournalHeld t := by exact fun h => ⟨h.1, h.2, h.3, h.4, h.5, h.6, h.7, h.8, h.9, h.10⟩

theorem KeepsRest.refl (s : State) : KeepsRest s s := {}

theorem KeepsRest.trans {s t u : State} (h : KeepsRest s t) (k : KeepsRest t u) : KeepsRest s u where
  memory := k.memory ∘ h.memory
  notice := k.notice ∘ h.notice
  permits := k.permits ∘ h.permits
  active := k.active ∘ h.active
  roster := k.roster ∘ h.roster
  queues := k.queues ∘ h.queues

theorem Keeps.refl (s : State) : Keeps s s := {}

theorem Keeps.trans {s t u : State} (h : Keeps s t) (k : Keeps t u) : Keeps s u :=
  { h.toKeepsRest.trans k.toKeepsRest with journal := k.journal ∘ h.journal }

theorem KeepsRest.ite {p : Prop} [Decidable p] {s t u : State} (h : p → KeepsRest s t) (k : ¬ p → KeepsRest s u) :
    KeepsRest s (if p then t else u) := by
  split
  · exact h ‹_›
  · exact k ‹_›

theorem Keeps.ite {p : Prop} [Decidable p] {s t u : State} (h : p → Keeps s t) (k : ¬ p → Keeps s u) :
    Keeps s (if p then t else u) := by
  split
  · exact h ‹_›
  · exact k ‹_›

theorem KeepsRest.withJrn (s : State) (j : Jrn) : KeepsRest s { s with jrn := j } := {}

/-- Every step of a fold keeps, so the fold does. -/
theorem Keeps.foldl {β : Type} (f : State → β → State) (h : ∀ s b, Keeps s (f s b)) (l : List β) (s : State) :
    Keeps s (l.foldl f s) := by
  induction l generalizing s with
  | nil => exact Keeps.refl s
  | cons b rest ih => exact (h s b).trans (ih _)

theorem Keeps.withRam (s : State) {m : Memory} (h : Mem.wf 0 s.ram = true → Mem.wf 0 m = true) : Keeps s { s with ram := m } where
  memory hm := ⟨h hm.1, hm.2⟩

theorem Keeps.showWords (s : State) (p : Nat → Bool) : Keeps s (s.showWords p) := Keeps.withRam s (wf_putWords _)

theorem Keeps.showField (s : State) (p : NodeRec → Bool) (n : Nat) : Keeps s (s.showField p n) :=
  Keeps.withRam s (wf_putWords _)

/-- Publishing keeps. -/
theorem Keeps.publish (s t : State) : Keeps t (publish s t) where
  memory h := by
    refine ⟨wf_publish s t h.1, ?_, ?_⟩
    · rw [publish_flash]; exact h.2.1
    · rw [publish_flash]; exact h.2.2
  notice h := by
    unfold NoticeLinesDriven at *
    rwa [publish_pins, publish_ntu]
  permits h := by
    intro c
    have := h c
    unfold PermitHeld at *
    rwa [publish_pins, publish_prm, publish_isRunning]
  journal h := by
    obtain ⟨h1, h2, h3, h4, h5, h6, h7, h8, h9, h10⟩ := h
    constructor <;> simp only [publish_jrn, publish_ord, publish_chan] <;> assumption
  active h := by
    unfold OneActiveCopy at *
    rwa [publish_isc]
  roster h := by
    unfold RosterOrdered at *
    rwa [publish_roster]
  queues h := by
    unfold QueuesOrdered at *
    rwa [publish_lines]

/-! ## Plain updates -/

section updates
variable (s : State)

theorem Keeps.setSsu (c : Car) (r : SsuCar) : Keeps s (s.setSsu c r) := {}
theorem Keeps.setRpl (c : Car) (r : RplCar) : Keeps s (s.setRpl c r) where
  memory h := ⟨wf_setRpl s c r h.1, h.2⟩
theorem Keeps.setCsg (c : Car) (b : Bool) : Keeps s (s.setCsg c b) := {}
theorem Keeps.deliver (c : Car) (e : CarEvent) : Keeps s (s.deliver c e) := {}
theorem Keeps.report (c : Car) (m : LineReport) : Keeps s (s.report c m) := {}
theorem Keeps.tell (c : Car) (m : LineOrder) : Keeps s (s.tell c m) := {}
theorem Keeps.reportDoor (r : DoorReport) : Keeps s (s.reportDoor r) := {}
theorem Keeps.storeTells (n : StoreNews) : Keeps s (s.storeTells n) := {}
theorem Keeps.tellHold (b : Bool) : Keeps s (s.tellHold b) := {}
theorem Keeps.dropReport (c : Car) : Keeps s (s.dropReport c) := {}
theorem Keeps.dropTell (c : Car) : Keeps s (s.dropTell c) := {}
theorem Keeps.dropRplEvent (c : Car) : Keeps s (s.dropRplEvent c) := {}
theorem Keeps.dropPrmEvent (c : Car) : Keeps s (s.dropPrmEvent c) := {}
theorem Keeps.purgeTells (c : Car) (left : List Drop) : Keeps s (s.purgeTells c left) := {}
theorem Keeps.purgeReports (c : Car) : Keeps s (s.purgeReports c) := {}
theorem Keeps.closeReports (c : Car) : Keeps s (s.closeReports c) := {}
theorem Keeps.dropClcEvent (c : Car) : Keeps s (s.dropClcEvent c) := {}
theorem Keeps.tickClocks : Keeps s s.tickClocks := {}
theorem Keeps.setWork (w : Option Work) : Keeps s (s.setWork w) := {}
theorem Keeps.setStoreState (x : StoreState) : Keeps s (s.setStoreState x) := {}

theorem Keeps.setTarget (r : Option CopyIx) : Keeps s (s.setTarget r) := by
  cases r <;> exact {}

theorem Keeps.clearOpen (r : CopyIx) : Keeps s (s.clearOpen r) := by
  unfold State.clearOpen; split
  · exact {}
  · exact Keeps.refl s

theorem Keeps.putBytes (a : Nat) (l : List Byte) : Keeps s (s.putBytes a l) where
  memory h := ⟨Mem.wf_writeBytes a l h.1, h.2⟩

theorem Keeps.setNtu (n : Ntu) : Keeps s (s.setNtu n) where
  notice _ := ⟨rfl, rfl⟩

theorem Keeps.raise (x : Cause) : Keeps s (s.raise x) := Keeps.setNtu s _
theorem Keeps.clearCauses (v : Word) : Keeps s (s.clearCauses v) := Keeps.setNtu s _
theorem Keeps.setEnables (v : Word) : Keeps s (s.setEnables v) := Keeps.setNtu s _

/-- An entry of a length that is a multiple of 4 may be asked for. -/
theorem Keeps.ask (src : Source) {e : Entry} (he : e.sized) : Keeps s (s.ask src e) where
  journal h := ⟨h.1, h.2, h.3, h.4, h.5, by
      intro q hq
      rcases List.mem_append.mp hq with hq | hq
      · exact h.asked q hq
      · rw [List.mem_singleton.mp hq]; exact he, h.7, h.8, h.9, h.10⟩

/-- A line whose queue stays in key order may take any other value. -/
theorem Keeps.setLine (c : Car) {l : Line}
    (h : s.lines[c].queue.Pairwise (fun a b => b.before a = false) → l.queue.Pairwise (fun a b => b.before a = false)) :
    Keeps s (s.setLine c l) where
  queues hq := by
    intro d
    rw [State.setLine_lines]
    by_cases hd : c = d
    · subst hd; simpa using h (hq c)
    · have : (s.lines.set c l)[d] = s.lines[d] := by
        simp only [Fin.getElem_fin]; rw [Vector.getElem_set_ne]; intro hh; exact hd (Fin.ext hh)
      rw [this]; exact hq d

/-- A line that keeps its queue. -/
theorem Keeps.setLine_same (c : Car) {l : Line} (h : l.queue = s.lines[c].queue := by rfl) : Keeps s (s.setLine c l) :=
  Keeps.setLine s c (fun hq => by rwa [h])

/-- Roster order depends on car and drop only. -/
theorem NodeRec.before_congr {a a' b b' : NodeRec} (h1 : a'.car = a.car ∧ a'.drop = a.drop)
    (h2 : b'.car = b.car ∧ b'.drop = b.drop) : a'.before b' = a.before b := by
  simp only [NodeRec.before, h1.1, h1.2, h2.1, h2.2]

/-- Replacing records by ones of the same car and drop keeps the roster's order. -/
theorem RosterOrdered.map {s t : State} (g : NodeRec → NodeRec) (hg : ∀ r, (g r).car = r.car ∧ (g r).drop = r.drop)
    (ht : t.roster = s.roster.map g) (h : RosterOrdered s) : RosterOrdered t := by
  unfold RosterOrdered at *
  rw [ht]
  refine ⟨by simpa using h.1, ?_⟩
  rw [List.pairwise_map]
  exact h.2.imp (fun {a b} hab => by rw [NodeRec.before_congr (hg a) (hg b)]; exact hab)

/-- A roster of the same cars and drops in the same places. -/
theorem Keeps.setRoster (g : NodeRec → NodeRec) (hg : ∀ r, (g r).car = r.car ∧ (g r).drop = r.drop) :
    Keeps s (s.setRoster (s.roster.map g)) where
  memory h := ⟨wf_setRoster s _ h.1, h.2⟩
  roster := RosterOrdered.map g hg rfl

theorem Keeps.setNode (c : Car) (d : Drop) {n : NodeRec} (h : n.car = c ∧ n.drop = d) : Keeps s (s.setNode c d n) :=
  Keeps.setRoster s _ (fun r => by
    split
    · rename_i hr
      simp only [NodeRec.names, Bool.and_eq_true, decide_eq_true_eq] at hr
      exact ⟨h.1.trans hr.1.symm, h.2.trans hr.2.symm⟩
    · exact ⟨rfl, rfl⟩)

/-- A record of the directory that is not made active keeps the slots' active copies. -/
theorem Keeps.setRecord (r : CopyIx) {v : CopyRec} (h : v.isActive = true → s.isc.records[r].isActive = true) :
    Keeps s (s.setRecord r v) where
  memory h := ⟨wf_setRecord s r v h.1, h.2⟩
  active ha := by
    have hx : ∀ x : CopyIx, (s.setRecord r v).isc.records[x].isActive = true → s.isc.records[x].isActive = true := by
      intro x
      rw [State.setRecord_isc]
      by_cases hr : r = x
      · subst hr; simpa using h
      · have : (s.isc.records.set r v)[x] = s.isc.records[x] := by
          simp only [Fin.getElem_fin]; rw [Vector.getElem_set_ne]; intro hh; exact hr (Fin.ext hh)
        simp only [this]; exact id
    intro k hk
    exact ha k ⟨hx _ hk.1, hx _ hk.2⟩

theorem Keeps.setRecord_state (r : CopyIx) {v : CopyRec} (h : v.state ≠ .closed) : Keeps s (s.setRecord r v) :=
  Keeps.setRecord s r (fun hv => by simp [CopyRec.isActive, h] at hv)

theorem Keeps.pin (r : CopyIx) : Keeps s (s.pin r) := Keeps.setRecord s r (fun h => h)
theorem Keeps.unpin (r : CopyIx) : Keeps s (s.unpin r) := Keeps.setRecord s r (fun h => h)

theorem Keeps.repin (old : Option RplJob) (r : CopyIx) : Keeps s (s.repin old r) := by
  unfold State.repin
  split
  · exact Keeps.pin s r
  · exact Keeps.ite (fun _ => Keeps.setRecord s r (fun h => h)) (fun _ => (Keeps.unpin s _).trans (Keeps.pin _ r))

end updates

end Sys2Proof.Machine
end

