-- ==== Sys2Proof/Laws/KeepsJournal.lean ====
section
/-! SUPPORT. The Journal Writer's operations keep the whole-machine conditions (R170 to R176). -/

namespace Sys2Proof.Machine

set_option Elab.async false

/-- The journal's condition but for the hold flag. -/
structure MarksHeld (s : State) : Prop where
  mark : s.jrn.w % 4 = 0 ∧ s.jrn.w < Config.journalBytes
  ret : ReturnMarkOk s.jrn.r
  waters : s.jrn.lw + 256 ≤ s.jrn.hw
  backlog : s.jrn.backlog.length ≤ Config.backlogMax
  waiting : ∀ e ∈ s.jrn.backlog, e.sized
  asked : ∀ q ∈ s.jrn.requests, q.entry.sized
  inForce : ReturnMarkOk s.ord.ret ∧ s.ord.lw + 256 ≤ s.ord.hw
  handed : ∀ v ∈ s.chan.ordJrn, ReturnMarkOk v.ret ∧ v.lw + 256 ≤ v.hw

theorem JournalHeld.marks {s : State} (h : JournalHeld s) : MarksHeld s :=
  ⟨h.1, h.2, h.3, h.4, h.5, h.6, h.9, h.10⟩

/-- States with the same journal, steering values and samples on their way. -/
theorem MarksHeld.same {s t : State} (h : MarksHeld s) (hj : t.jrn = s.jrn := by rfl) (ho : t.ord = s.ord := by rfl)
    (hc : t.chan.ordJrn = s.chan.ordJrn := by rfl) : MarksHeld t := by
  obtain ⟨h1, h2, h3, h4, h5, h6, h7, h8⟩ := h
  constructor <;> simp only [hj, ho, hc] <;> assumption

theorem Jrn.room_lt (j : Jrn) : j.room < Config.journalBytes := Nat.mod_lt _ (by decide)

/-- W stays a multiple of 4 inside the journal (R170, R171). -/
theorem markAfter_ok {j : Jrn} {e : Entry} (hw : j.w % 4 = 0 ∧ j.w < Config.journalBytes) (he : e.sized)
    (hr : j.hasRoom e = true) :
    markAfter j.w e.length % 4 = 0 ∧ markAfter j.w e.length < Config.journalBytes := by
  have hroom := j.room_lt
  simp only [Jrn.hasRoom, neededRoom, fitsBefore, decide_eq_true_eq] at hr
  simp only [Entry.sized] at he
  simp only [markAfter, fitsBefore, Entry.length, Config.journalBytes] at *
  by_cases h : j.w + (8 + e.body.length) ≤ 8192
  · simp only [h, decide_true, if_true]; omega
  · simp only [h, decide_false, Bool.false_eq_true, if_false] at hr ⊢; omega

theorem KeepsRest.writeEntry (s : State) (e : Entry) : KeepsRest s (s.writeEntry e) := by
  unfold State.writeEntry
  refine KeepsRest.trans (t := if fitsBefore s.jrn.w e.length then s.putBytes (Config.journalBase + s.jrn.w) e.bytes
    else (s.putBytes (Config.journalBase + s.jrn.w) wrapFiller).putBytes Config.journalBase e.bytes) ?_ ?_
  · split
    · exact (Keeps.putBytes s _ _).toKeepsRest
    · exact ((Keeps.putBytes s _ _).trans (Keeps.putBytes _ _ _)).toKeepsRest
  · exact (KeepsRest.withJrn _ _).trans (Keeps.raise _ _).toKeepsRest

/-- What writing an entry leaves of the journal's record (R171). -/
theorem State.writeEntry_jrn (s : State) (e : Entry) :
    (s.writeEntry e).jrn = { s.jrn with w := markAfter s.jrn.w e.length } := by
  unfold State.writeEntry; split <;> rfl
theorem State.writeEntry_ord (s : State) (e : Entry) : (s.writeEntry e).ord = s.ord := by
  unfold State.writeEntry; split <;> rfl
theorem State.writeEntry_chan (s : State) (e : Entry) : (s.writeEntry e).chan = s.chan := by
  unfold State.writeEntry; split <;> rfl
theorem State.writeEntry_isRunning (s : State) (e : Entry) : (s.writeEntry e).isRunning = s.isRunning := by
  unfold State.writeEntry; split <;> rfl

theorem MarksHeld.writeEntry {s : State} {e : Entry} (h : MarksHeld s) (he : e.sized) (hr : s.jrn.hasRoom e = true) :
    MarksHeld (s.writeEntry e) := by
  obtain ⟨h1, h2, h3, h4, h5, h6, h7, h8⟩ := h
  constructor <;> simp only [State.writeEntry_jrn, State.writeEntry_ord, State.writeEntry_chan] <;> try assumption
  exact markAfter_ok h1 he hr

theorem KeepsRest.placeEssential (s : State) (e : Entry) : KeepsRest s (s.placeEssential e) := by
  unfold State.placeEssential
  split
  · exact KeepsRest.writeEntry s e
  · split
    · exact {}
    · exact (KeepsRest.withJrn s _).trans (Keeps.raise _ _).toKeepsRest

theorem MarksHeld.placeEssential {s : State} {e : Entry} (h : MarksHeld s) (he : e.sized) :
    MarksHeld (s.placeEssential e) := by
  unfold State.placeEssential
  split
  · rename_i hb; exact h.writeEntry he hb.2
  · split
    · rename_i hb hl
      exact ⟨h.1, h.2, h.3, by simp only [List.length_append, List.length_singleton]; exact hl,
        fun x hx => (List.mem_append.mp hx).elim (h.waiting x) (fun hx => by rw [List.mem_singleton.mp hx]; exact he),
        h.6, h.7, h.8⟩
    · exact ⟨h.1, h.2, h.3, h.4, h.5, h.6, h.7, h.8⟩

theorem lostEntry_sized (u : Long) (n : Nat) : (lostEntry u n).sized := by
  simp only [Entry.sized, lostEntry, pad4, le16, List.length_append, List.length_cons, List.length_nil,
    List.length_replicate]

theorem KeepsRest.placeLost (s : State) : KeepsRest s s.placeLost := by
  unfold State.placeLost
  split
  · exact (KeepsRest.withJrn s _).trans (KeepsRest.placeEssential _ _)
  · exact KeepsRest.refl s

theorem MarksHeld.placeLost {s : State} (h : MarksHeld s) : MarksHeld s.placeLost := by
  unfold State.placeLost
  split
  · refine MarksHeld.placeEssential ?_ (lostEntry_sized _ _)
    exact ⟨h.1, h.2, h.3, h.4, h.5, h.6, h.7, h.8⟩
  · exact h

theorem KeepsRest.placeProgress (s : State) (e : Entry) : KeepsRest s (s.placeProgress e) := by
  unfold State.placeProgress
  split
  · exact KeepsRest.writeEntry s e
  · exact {}

theorem MarksHeld.placeProgress {s : State} {e : Entry} (h : MarksHeld s) (he : e.sized) :
    MarksHeld (s.placeProgress e) := by
  unfold State.placeProgress
  split
  · rename_i hb; exact h.writeEntry he hb.2.1
  · exact ⟨h.1, h.2, h.3, h.4, h.5, h.6, h.7, h.8⟩

/-- The hold flag after a test lies as R175 gives. -/
theorem holdAfter_held (j : Jrn) (h : j.lw + 256 ≤ j.hw) :
    (j.holdAfter = true → j.room < j.hw) ∧ (j.holdAfter = false → j.lw ≤ j.room) := by
  unfold Jrn.holdAfter
  split <;> simp only [decide_eq_true_eq, decide_eq_false_iff_not] <;> omega

theorem KeepsRest.testHold (s : State) : KeepsRest s s.testHold := by
  unfold State.testHold
  split
  · exact KeepsRest.refl s
  · exact (KeepsRest.withJrn s _).trans (Keeps.tellHold _ _).toKeepsRest

theorem MarksHeld.testHold {s : State} (h : MarksHeld s) : JournalHeld s.testHold := by
  have hh := holdAfter_held s.jrn h.waters
  unfold State.testHold
  split
  · rename_i he
    rw [he] at hh
    exact ⟨h.1, h.2, h.3, h.4, h.5, h.6, hh.1, hh.2, h.7, h.8⟩
  · exact ⟨h.1, h.2, h.3, h.4, h.5, h.6, hh.1, hh.2, h.7, h.8⟩

theorem KeepsRest.takeEntry (s : State) (e : Entry) : KeepsRest s (s.takeEntry e) := by
  unfold State.takeEntry
  refine KeepsRest.trans (KeepsRest.ite (p := e.alerts = true) (fun _ => (Keeps.raise s .alert).toKeepsRest) (fun _ => KeepsRest.refl s)) ?_
  refine (KeepsRest.placeLost _).trans (KeepsRest.trans ?_ (KeepsRest.testHold _))
  exact KeepsRest.ite (p := e.kind.isProgress = true) (fun _ => KeepsRest.placeProgress _ e) (fun _ => KeepsRest.placeEssential _ e)

/-- The JRN's taking of an entry keeps (R171 to R175). -/
theorem Keeps.takeEntry (s : State) {e : Entry} (he : e.sized) : Keeps s (s.takeEntry e) := by
  refine { KeepsRest.takeEntry s e with journal := fun h => ?_ }
  have h1 : MarksHeld (if e.alerts then s.raise .alert else s) := by
    split
    · exact h.marks.same
    · exact h.marks
  have h2 := h1.placeLost
  refine MarksHeld.testHold ?_
  split
  · exact h2.placeProgress he
  · exact h2.placeEssential he

theorem Keeps.takeEntries (l : List Entry) (hl : ∀ e ∈ l, e.sized) (s : State) : Keeps s (s.takeEntries l) := by
  unfold State.takeEntries
  induction l generalizing s with
  | nil => exact Keeps.refl s
  | cons e rest ih =>
    exact (Keeps.takeEntry s (hl e List.mem_cons_self)).trans (ih (fun x hx => hl x (List.mem_cons_of_mem _ hx)) _)

theorem KeepsRest.drainBacklog (n : Nat) (s : State) : KeepsRest s (s.drainBacklog n) := by
  induction n generalizing s with
  | zero => exact KeepsRest.refl s
  | succ n ih =>
    unfold State.drainBacklog
    split
    · exact KeepsRest.refl s
    · rename_i e rest hb
      split
      · refine KeepsRest.trans ?_ (ih _)
        refine KeepsRest.trans (t := ({ s with jrn := { s.jrn with backlog := rest } } : State).writeEntry e)
          ((KeepsRest.withJrn s _).trans (KeepsRest.writeEntry _ _)) ?_
        split
        · exact KeepsRest.refl _
        · exact KeepsRest.withJrn _ _
      · exact KeepsRest.refl s

theorem MarksHeld.drainBacklog (n : Nat) {s : State} (h : MarksHeld s) : MarksHeld (s.drainBacklog n) := by
  induction n generalizing s with
  | zero => exact h
  | succ n ih =>
    unfold State.drainBacklog
    split
    · exact h
    · rename_i e rest hb
      split
      · rename_i hr
        have hbl := h.backlog
        have hw := h.waiting
        rw [hb] at hbl hw
        simp only [List.length_cons] at hbl
        have h1 : MarksHeld { s with jrn := { s.jrn with backlog := rest } } :=
          ⟨h.1, h.2, h.3, by show rest.length ≤ _; omega, fun x hx => hw x (List.mem_cons_of_mem _ hx), h.6, h.7, h.8⟩
        have h2 := h1.writeEntry (hw e List.mem_cons_self) hr
        apply ih
        split
        · exact h2
        · refine ⟨h2.1, h2.2, h2.3, ?_, ?_, h2.6, h2.7, h2.8⟩
          · simp only [State.writeEntry_jrn, List.length_append, List.length_singleton]; omega
          · intro x hx
            rcases List.mem_append.mp hx with hx | hx
            · exact h2.waiting x hx
            · rw [List.mem_singleton.mp hx]; exact lostEntry_sized _ _
      · exact h

theorem KeepsRest.takeSteering (s : State) (v : Steering) : KeepsRest s (s.takeSteering v) :=
  (KeepsRest.withJrn s _).trans (KeepsRest.trans (KeepsRest.drainBacklog _ _) (KeepsRest.testHold _))

/-- The JRN's taking of steering values keeps (R170, R172, R175). -/
theorem MarksHeld.takeSteering {s : State} (h : MarksHeld s) {v : Steering} (hv : ReturnMarkOk v.ret ∧ v.lw + 256 ≤ v.hw) :
    JournalHeld (s.takeSteering v) :=
  MarksHeld.testHold (MarksHeld.drainBacklog _ ⟨h.1, hv.1, hv.2, h.4, h.5, h.6, h.7, h.8⟩)

/-! ## Requests -/

theorem pickRequest_sized (src : Source) (l before : List EntryReq) (hl : ∀ q ∈ l, q.entry.sized)
    (hb : ∀ q ∈ before, q.entry.sized) {e : Entry} {rest : List EntryReq} (h : pickRequest src before l = some (e, rest)) :
    e.sized ∧ ∀ q ∈ rest, q.entry.sized := by
  induction l generalizing before with
  | nil => simp [pickRequest] at h
  | cons q l ih =>
    have hq := hl q List.mem_cons_self
    have hr := fun x hx => hl x (List.mem_cons_of_mem q hx)
    unfold pickRequest at h
    split at h
    · split at h
      · simp at h
      · simp only [Option.some.injEq, Prod.mk.injEq] at h
        obtain ⟨rfl, rfl⟩ := h
        refine ⟨hq, fun x hx => ?_⟩
        rcases List.mem_append.mp hx with hx | hx
        · exact hb x (List.mem_reverse.mp hx)
        · exact hr x hx
    · refine ih (q :: before) hr (fun x hx => ?_) h
      rcases List.mem_cons.mp hx with rfl | hx
      · exact hq
      · exact hb x hx

/-- A request taken keeps (R171). -/
theorem Keeps.jrnTakesRequest (s : State) (src : Source) : Keeps s (s.jrnTakesRequest src) := by
  unfold State.jrnTakesRequest
  split
  · exact Keeps.refl s
  · rename_i e rest h
    refine { (KeepsRest.withJrn s _).trans (KeepsRest.takeEntry _ e) with journal := fun hj => ?_ }
    obtain ⟨he, hr⟩ := pickRequest_sized src _ [] hj.asked (by simp) h
    exact (Keeps.takeEntry _ he).journal ⟨hj.1, hj.2, hj.3, hj.4, hj.5, hr, hj.7, hj.8, hj.9, hj.10⟩

end Sys2Proof.Machine
end

