-- ==== Sys2Proof/Laws/KeepsStore.lean ====
section
/-! SUPPORT. The Image Store Controller's operations keep the whole-machine conditions (chapter 8). -/

namespace Sys2Proof.Machine

set_option Elab.async false

/-! ## Flash -/

/-- Both banks in canonical form. -/
def Flash.canonical (f : Flash) : Prop := Mem.wf 0xFF f.a.cells = true ∧ Mem.wf 0xFF f.b.cells = true

theorem FlashBank.wf_program (v : FlashBank) (n a : Nat) (l : List Byte) (x : Left) (h : Mem.wf 0xFF v.cells = true) :
    Mem.wf 0xFF (v.program n a l x).cells = true := by
  cases x
  · exact h
  · exact h
  · exact Mem.wf_writeBytes _ _ h

theorem FlashBank.wf_erase (v : FlashBank) (n blk : Nat) (x : Left) (h : Mem.wf 0xFF v.cells = true) :
    Mem.wf 0xFF (v.erase n blk x).cells = true := by
  cases x <;> simp only [FlashBank.erase]
  · exact h
  · exact h
  · exact Mem.wf_clear (Config.blockBytes * blk) Config.blockBytes h

theorem FlashBank.wf_decay (v : FlashBank) (a len : Nat) (d : Decay) (h : Mem.wf 0xFF v.cells = true) :
    Mem.wf 0xFF (v.decay a len d).cells = true := by
  refine foldl_keeps (P := fun m => Mem.wf 0xFF m = true) _ _ (fun m x hm => ?_) _ h
  split
  · exact Mem.wf_write _ _ hm
  · exact hm

theorem Flash.canonical_setBank {f : Flash} (h : f.canonical) (k : CopyId) {v : FlashBank}
    (hv : Mem.wf 0xFF (f.bank k).cells = true → Mem.wf 0xFF v.cells = true) : (f.setBank k v).canonical := by
  cases k
  · exact ⟨hv h.1, h.2⟩
  · exact ⟨h.1, hv h.2⟩

theorem Flash.canonical_program {f : Flash} (h : f.canonical) (op : FlashOp) (d : List Byte) (t : List Long) (w : Long)
    (l : Left) : (f.program op d t w l).canonical := by
  have h1 : ∀ g : Flash, g.canonical → (if l = .whole then g else { g with epoch := g.epoch + 1 } : Flash).canonical := by
    intro g hg; split <;> exact hg
  unfold Flash.program
  apply h1
  cases op <;> try exact h
  · exact Flash.canonical_setBank h _ (FlashBank.wf_program _ _ _ _ _)
  · exact ⟨FlashBank.wf_program _ _ _ _ _ h.1, h.2⟩

theorem Flash.canonical_erase {f : Flash} (h : f.canonical) (op : FlashOp) (cut : Cut) : (f.erase op cut).canonical := by
  have h1 : ∀ g : Flash, g.canonical → (if cut.left = .whole then g else { g with epoch := g.epoch + 1 } : Flash).canonical := by
    intro g hg; split <;> exact hg
  unfold Flash.erase
  apply h1
  cases op <;> try exact h
  · exact Flash.canonical_setBank h _ (FlashBank.wf_erase _ _ _ _)
  · exact ⟨FlashBank.wf_erase _ _ _ _ h.1, h.2⟩

/-- The identity reads as not written exactly where both places read erased (R148). -/
theorem Flash.readIdentity_notWritten (f : Flash) : f.readIdentity = .notWritten ↔ f.identityUsed = false := by
  unfold Flash.readIdentity
  split
  · simp [*]
  · rename_i h
    split <;> cases f.identity1.vehicle <;> simp [h]

theorem Flash.canonical_stopErase {f : Flash} (h : f.canonical) (op : FlashOp) (cut : Cut) :
    (f.stopErase op cut).canonical := by
  unfold Flash.stopErase
  split
  · exact h
  · exact Flash.canonical_erase h _ _

theorem Flash.canonical_cutOp {f : Flash} (h : f.canonical) (op : FlashOp) (d : List Byte) (t : List Long) (w : Long)
    (cut : Cut) : (f.cutOp op d t w cut).canonical := by
  unfold Flash.cutOp
  split
  · exact Flash.canonical_erase h _ _
  · exact Flash.canonical_program h _ _ _ _ _

/-- A change of flash that keeps the banks' form. -/
theorem Keeps.withFlash (s : State) {f : Flash} (h : s.flash.canonical → f.canonical) : Keeps s { s with flash := f } where
  memory hm := ⟨hm.1, h hm.2⟩

/-! ## The scan -/

theorem Scan.canonical_programMark {x : Scan} (h : x.flash.canonical) (r : CopyIx) (k : MarkKind) (st : CopyState)
    (c : CopyCause) : (x.programMark r k st c).flash.canonical := Flash.canonical_program h _ _ _ _ _

theorem Scan.canonical_header {x : Scan} (h : x.flash.canonical) (r : CopyIx) : (x.header r).flash.canonical := by
  unfold Scan.header
  dsimp only
  split
  · exact h
  · split
    · exact Flash.canonical_program h _ _ _ _ _
    · exact h

theorem Scan.canonical_pair {x : Scan} (h : x.flash.canonical) (k : Slot) : (x.pair k).flash.canonical := by
  unfold Scan.pair
  dsimp only
  split
  · exact Scan.canonical_programMark h _ _ _ _
  · exact h

/-- The pair of a slot after its repair. -/
def PairOk (v : Vector CopyRec 32) (k : Slot) : Prop :=
  ¬ (v[copyIx k .a].isActive = true ∧ v[copyIx k .b].isActive = true)

theorem copyIx_ne {k k' : Slot} (h : k ≠ k') (x y : CopyId) : (copyIx k x).val ≠ (copyIx k' y).val := by
  have : k.val ≠ k'.val := fun hh => h (Fin.ext hh)
  cases x <;> cases y <;> simp only [copyIx] <;> omega

theorem Scan.programMark_pairOk {x : Scan} (k : Slot) (y : CopyId) (m : MarkKind) {st : CopyState} (hst : st ≠ .closed)
    (c : CopyCause) : PairOk (x.programMark (copyIx k y) m st c).records k := by
  have hs : (x.programMark (copyIx k y) m st c).records[copyIx k y].isActive = false := by
    unfold Scan.programMark
    simp only [Fin.getElem_fin, Vector.getElem_set_self, CopyRec.isActive]
    split <;> simp [hst]
  rintro ⟨h1, h2⟩
  cases y
  · rw [hs] at h1; exact absurd h1 (by decide)
  · rw [hs] at h2; exact absurd h2 (by decide)

theorem Scan.pair_ok (x : Scan) (k : Slot) : PairOk (x.pair k).records k := by
  unfold Scan.pair
  dsimp only
  split
  · rw [show (if x.records[copyIx k .a].seq < x.records[copyIx k .b].seq then copyIx k .a else copyIx k .b)
      = copyIx k (if x.records[copyIx k .a].seq < x.records[copyIx k .b].seq then .a else .b) by split <;> rfl]
    exact Scan.programMark_pairOk k _ _ (by decide) _
  · rename_i h
    simpa [PairOk] using h

theorem Scan.pair_other {x : Scan} {k k' : Slot} (h : k ≠ k') (hk : PairOk x.records k') : PairOk (x.pair k).records k' := by
  have hm : ∀ y, PairOk (x.programMark (copyIx k y) .retired .retired .scanRepair).records k' := by
    intro y
    have e : ∀ z, (x.programMark (copyIx k y) .retired .retired .scanRepair).records[copyIx k' z] = x.records[copyIx k' z] := by
      intro z
      unfold Scan.programMark
      simp only [Fin.getElem_fin]
      rw [Vector.getElem_set_ne]
      exact copyIx_ne h y z
    unfold PairOk
    rw [e, e]
    exact hk
  unfold Scan.pair
  dsimp only
  split
  · split
    · exact hm .a
    · exact hm .b
  · exact hk

theorem Scan.pairs_ok (l : List Slot) (x : Scan) (k : Slot) (h : k ∈ l ∨ PairOk x.records k) :
    PairOk (l.foldl Scan.pair x).records k := by
  induction l generalizing x with
  | nil => simpa using h
  | cons k' rest ih =>
    simp only [List.foldl_cons]
    apply ih
    by_cases e : k' = k
    · subst e; exact Or.inr (Scan.pair_ok x k')
    · rcases h with h | h
      · rcases List.mem_cons.mp h with h | h
        · exact absurd h.symm e
        · exact Or.inl h
      · exact Or.inr (Scan.pair_other e h)

/-- A scan leaves each slot at most one active copy (R151). -/
theorem Flash.scan_ok (f : Flash) (ends : List ProgEnd) (k : Slot) : PairOk (f.scan ends).records k := by
  unfold Flash.scan
  simp only
  generalize List.foldl Scan.header _ _ = x
  exact Scan.pairs_ok _ x k (Or.inl (List.mem_finRange k))

theorem Flash.canonical_scan {f : Flash} (h : f.canonical) (ends : List ProgEnd) : (f.scan ends).flash.canonical := by
  unfold Flash.scan
  simp only
  refine foldl_keeps (P := fun x : Scan => x.flash.canonical) _ _ (fun x k hx => Scan.canonical_pair hx k) _ ?_
  exact foldl_keeps (P := fun x : Scan => x.flash.canonical) _ _ (fun x k hx => Scan.canonical_header hx k) _ h

/-- A scan keeps, and puts the active copies right whatever they were (R150, R151). -/
theorem Keeps.withFlashIsc (s : State) {f : Flash} {i : Isc} (h : s.flash.canonical → f.canonical)
    (hi : ∀ k, PairOk i.records k) : Keeps s { s with flash := f, isc := i } where
  memory hm := ⟨hm.1, h hm.2⟩
  active _ := hi

theorem Keeps.startScan (s : State) (ends : List ProgEnd) : Keeps s (s.startScan ends) := by
  have h1 := fun h => Flash.canonical_scan (f := s.flash) h ends
  have h2 := fun k => Flash.scan_ok s.flash ends k
  unfold State.startScan
  revert h1 h2
  generalize s.flash.scan ends = x
  intro h1 h2
  exact Keeps.withFlashIsc s h1 h2

/-! ## The arbiter and the operation in flight -/

theorem Keeps.withIsc (s : State) {i : Isc} (h : i.records = s.isc.records := by rfl) : Keeps s { s with isc := i } where
  active ha := by
    intro k hk
    simp only [h] at hk
    exact ha k hk

theorem Keeps.settleStore (s : State) : Keeps s s.settleStore := by
  unfold State.settleStore
  split
  · exact Keeps.refl s
  · split
    · exact Keeps.ite (fun _ => Keeps.setWork s _) (fun _ => Keeps.refl s)
    · exact Keeps.ite (fun _ => (Keeps.setWork s _).trans (Keeps.setStoreState _ _))
        (fun _ => Keeps.ite (fun _ => Keeps.setWork s _) (fun _ => Keeps.refl s))

theorem Keeps.addRequest (s : State) (q : ReadReq) : Keeps s (s.addRequest q) :=
  (Keeps.withIsc s).trans (Keeps.settleStore _)

theorem Keeps.withdraw (s : State) (c : Car) (y : Bool) : Keeps s (s.withdraw c y) :=
  (Keeps.withIsc s).trans (Keeps.settleStore _)

theorem copyStateEntry_sized (u : Long) (r : CopyIx) (st : CopyState) (c : CopyCause) : (copyStateEntry u r st c).sized := by
  simp only [Entry.sized, copyStateEntry, List.length_cons, List.length_nil]

theorem Keeps.markDamaged (s : State) (r : CopyIx) (v : CopyRec) (c : CopyCause) : Keeps s (s.markDamaged r v c) := by
  unfold State.markDamaged
  have h : Keeps s ((((s.setRecord r { v with state := .damaged, use := s.isc.records[r].use }).clearOpen r).ask .isc
      (copyStateEntry s.ord.uptime r .damaged c)).storeTells (.damaged r)) :=
    (((Keeps.setRecord_state s r (by simp)).trans (Keeps.clearOpen _ r)).trans
      (Keeps.ask _ _ (copyStateEntry_sized _ _ _ _))).trans (Keeps.storeTells _ _)
  exact Keeps.ite (fun _ => h.trans (Keeps.storeTells _ _)) (fun _ => h)

theorem Keeps.failReadCheck (s : State) (r : CopyIx) : Keeps s (s.failReadCheck r) := by
  unfold State.failReadCheck
  exact Keeps.ite (fun _ => Keeps.refl s) (fun _ => (Keeps.markDamaged s r _ _).trans (Keeps.withIsc _))

/-! ## Answers -/

theorem Keeps.answer (s : State) (j : OrderSlot) (b : List Byte) (a : Answer) : Keeps s (s.answer j b a) := by
  have h : ∀ t : State, Keeps t ({ t with ord := { t.ord with owed := t.ord.owed.set j false } }) := fun t => {}
  have k : Keeps s ((({ ((s.putBytes (orderAddr j + 64) (evenBytes a.results)).putBytes (orderAddr j)
      ([byteOf a.hand 0, b.getD 1 0, b.getD 2 0, b.getD 3 0, byteOf a.code 0, byteOf a.results.length 0])) with
      ord := { s.ord with owed := s.ord.owed.set j false } } : State)).raise .order) :=
    (((Keeps.putBytes s _ _).trans (Keeps.putBytes _ _ _)).trans (h _)).trans (Keeps.raise _ _)
  unfold State.answer
  split
  · exact k.trans (Keeps.raise _ _)
  · exact k

theorem Keeps.finishWork (s : State) (w : Work) (a : Answer) : Keeps s (s.finishWork w a) := by
  unfold State.finishWork
  have h : Keeps s (((s.setWork none).setStoreState .idle).setTarget none) :=
    ((Keeps.setWork s _).trans (Keeps.setStoreState _ _)).trans (Keeps.setTarget _ _)
  split
  · exact h
  · exact h.trans (Keeps.answer _ _ _ _)

theorem Keeps.schedule (s : State) (w : Work) (op : FlashOp) (x : Wait) : Keeps s (s.schedule w op x) :=
  ((Keeps.setWork s _).trans (Keeps.setStoreState _ _)).trans (Keeps.settleStore _)

theorem Keeps.startWork (s : State) (w : Work) (op : FlashOp) : Keeps s (s.startWork w op) :=
  (Keeps.setTarget s _).trans (Keeps.schedule _ _ _ _)

/-! ## Orders -/

theorem Keeps.beginOrder (s : State) (k : StoreKind) (u : Bool) (test : State → List Byte → Option RefusalCode)
    {start : State → StoreOrder → State} (h : ∀ t o, Keeps t (start t o)) : Keeps s (s.beginOrder k u test start) := by
  unfold State.beginOrder
  split
  · exact Keeps.refl s
  · rename_i o rest _
    have h1 : Keeps s { s with pins := { s.pins with svcUnlock := u }, isc := { s.isc with queue := rest, suspendCount := 0 } } := {}
    dsimp only
    split
    · exact h1.trans (Keeps.answer _ _ _ _)
    · exact h1.trans (h _ _)

theorem Keeps.startOpen (s : State) (o : StoreOrder) : Keeps s (startOpen s o) := Keeps.startWork s _ _
theorem Keeps.startActivate (s : State) (o : StoreOrder) : Keeps s (startActivate s o) := Keeps.startWork s _ _
theorem Keeps.startErase (s : State) (o : StoreOrder) : Keeps s (startErase s o) := Keeps.startWork s _ _
theorem Keeps.startUnprotect (s : State) (o : StoreOrder) : Keeps s (startUnprotect s o) := Keeps.startWork s _ _
theorem Keeps.startIdentity (s : State) (o : StoreOrder) : Keeps s (startIdentity s o) := Keeps.startWork s _ _
theorem Keeps.startFleet (s : State) (o : StoreOrder) : Keeps s (startFleet s o) := Keeps.startWork s _ _

theorem Keeps.startStage (s : State) (o : StoreOrder) : Keeps s (startStage s o) := by
  unfold Machine.startStage
  split
  · exact Keeps.refl s
  · exact Keeps.startWork s _ _

theorem Keeps.startClose (s : State) (o : StoreOrder) : Keeps s (startClose s o) := by
  unfold Machine.startClose
  split
  · exact Keeps.refl s
  · rename_i r _
    have h : Keeps s { s with dge := { s.dge with closing := Sums.init, next := 0 } } := {}
    exact (((h.trans (Keeps.setTarget _ _)).trans (Keeps.setWork _ _)).trans (Keeps.setStoreState _ _)).trans (Keeps.addRequest _ _)

theorem Keeps.startProtect (s : State) (o : StoreOrder) : Keeps s (startProtect s o) := by
  unfold Machine.startProtect
  exact Keeps.ite (fun _ => Keeps.answer _ _ _ _) (fun _ => Keeps.startWork _ _ _)

theorem Keeps.beginMark (s : State) : Keeps s s.beginMark := by
  unfold State.beginMark
  split
  · exact (Keeps.withIsc s).trans (Keeps.startWork _ _ _)
  · exact Keeps.refl s

/-! ## Steps -/

theorem Keeps.intentRecorded (s : State) (w : Work) (r : CopyIx) : Keeps s (s.intentRecorded w r) :=
  ((Keeps.setRecord_state s r (by simp [CopyRec.bare])).trans (Keeps.clearOpen _ r)).trans (Keeps.schedule _ _ _ _)

theorem Keeps.headerErased (s : State) (w : Work) (r : CopyIx) : Keeps s (s.headerErased w r) := by
  unfold State.headerErased
  split
  · exact Keeps.ite (fun _ => Keeps.schedule _ _ _ _)
      (fun _ => (Keeps.setRecord_state s r (by simp [CopyRec.bare])).trans (Keeps.finishWork _ _ _))
  · exact Keeps.finishWork _ _ _

theorem Keeps.opened (s : State) (w : Work) (r : CopyIx) : Keeps s (s.opened w r) := by
  unfold State.opened
  exact ((Keeps.setRecord_state s r (by simp [CopyRec.bare])).trans (Keeps.withIsc _)).trans (Keeps.finishWork _ _ _)

theorem Keeps.closed (s : State) (w : Work) (r : CopyIx) (st : CopyState) : Keeps s (s.closed w r st) := by
  unfold State.closed
  exact ((Keeps.setRecord s r (fun h => by simp [CopyRec.isActive] at h)).trans (Keeps.clearOpen _ _)).trans
    (Keeps.finishWork _ _ _)

/-- What an activation's step in RAM leaves of the slots' active copies (R130). -/
theorem Keeps.sequenceRecorded (s : State) (w : Work) (r : CopyIx) (n : Nat) : Keeps s (s.sequenceRecorded w r n) := by
  have hslot : ∀ k : Slot, ∀ y, slotOf (copyIx k y) = k := by
    intro k y; cases y <;> simp only [slotOf, copyIx, Fin.ext_iff] <;> omega
  have hcase : r = copyIx (slotOf r) .a ∨ r = copyIx (slotOf r) .b := by
    simp only [Fin.ext_iff, copyIx, slotOf]; omega
  have other : ∀ (t : State) (q : CopyIx) (v : CopyRec) (x : CopyIx), q ≠ x →
      (t.setRecord q v).isc.records[x] = t.isc.records[x] := by
    intro t q v x hx
    simp only [State.setRecord_isc, Fin.getElem_fin]
    rw [Vector.getElem_set_ne]
    exact fun hh => hx (Fin.ext hh)
  have same : ∀ (t : State) (q : CopyIx) (v : CopyRec), (t.setRecord q v).isc.records[q] = v := by
    intro t q v; simp
  unfold State.sequenceRecorded
  dsimp only
  split
  · rename_i hp
    have hn : s.isc.records[copyIx (slotOf r) .a].isActive = false ∧ s.isc.records[copyIx (slotOf r) .b].isActive = false := by
      unfold State.activeCopy at hp
      split at hp
      · simp at hp
      · split at hp
        · simp at hp
        · rename_i h1 h2; exact ⟨by simpa using h1, by simpa using h2⟩
    refine Keeps.trans (t := s.setRecord r { s.isc.records[r] with seq := n }) ?_
      ((Keeps.storeTells _ _).trans (Keeps.finishWork _ _ _))
    refine { memory := fun h => ⟨wf_setRecord s r _ h.1, h.2⟩, active := fun ha k hk => ?_ }
    by_cases hk' : slotOf r = k
    · subst hk'
      rcases hcase with e | e
      · have hne : r ≠ copyIx (slotOf r) .b := by rw [e, hslot]; simp [copyIx]
        rw [other _ _ _ _ hne, hn.2] at hk
        exact absurd hk.2 (by decide)
      · have hne : r ≠ copyIx (slotOf r) .a := by rw [e, hslot]; simp [copyIx]
        rw [other _ _ _ _ hne, hn.1] at hk
        exact absurd hk.1 (by decide)
    · have hne : ∀ y, r ≠ copyIx k y := fun y hh => hk' (by rw [hh, hslot])
      rw [other _ _ _ _ (hne _), other _ _ _ _ (hne _)] at hk
      exact ha k hk
  · rename_i p hp
    have hpa : p = copyIx (slotOf r) .a ∨ p = copyIx (slotOf r) .b := by
      unfold State.activeCopy at hp
      split at hp
      · left; simpa using hp.symm
      · split at hp
        · right; simpa using hp.symm
        · simp at hp
    have hpb : s.isc.records[copyIx (slotOf r) .a].isActive = true → p = copyIx (slotOf r) .a := by
      intro h
      unfold State.activeCopy at hp
      rw [if_pos h] at hp
      simpa using hp.symm
    refine Keeps.trans (t := (s.setRecord r { s.isc.records[r] with seq := n }).setRecord p
      { (s.setRecord r { s.isc.records[r] with seq := n }).isc.records[p] with state := .retired }) ?_
      ((Keeps.storeTells _ _).trans (Keeps.schedule _ _ _ _))
    refine { memory := fun h => ⟨wf_setRecord _ p _ (wf_setRecord s r _ h.1), h.2⟩, active := fun ha k hk => ?_ }
    by_cases hk' : slotOf r = k
    · subst hk'
      have hk1 : ∀ x, p = x → ¬ ((s.setRecord r { s.isc.records[r] with seq := n }).setRecord p
          { (s.setRecord r { s.isc.records[r] with seq := n }).isc.records[p] with state := .retired }).isc.records[x].isActive = true := by
        intro x hx; subst hx; rw [same]; simp [CopyRec.isActive]
      rcases hpa with e | e
      · exact hk1 _ e hk.1
      · exact hk1 _ e hk.2
    · have hne : ∀ y, r ≠ copyIx k y := fun y hh => hk' (by rw [hh, hslot])
      have hnp : ∀ y, p ≠ copyIx k y := by
        intro y hh
        apply hk'
        rcases hpa with e | e <;> rw [← hslot k y, ← hh, e, hslot]
      rw [other _ _ _ _ (hnp _), other _ _ _ _ (hnp _), other _ _ _ _ (hne _), other _ _ _ _ (hne _)] at hk
      exact ha k hk

theorem Keeps.afterMark (s : State) (w : Work) (r : CopyIx) (k : MarkKind) : Keeps s (s.afterMark w r k) := by
  cases k
  · exact Keeps.intentRecorded _ _ _
  · exact Keeps.opened _ _ _
  · exact Keeps.closed _ _ _ _
  · exact Keeps.closed _ _ _ _
  · exact Keeps.finishWork _ _ _
  · exact Keeps.finishWork _ _ _

theorem Keeps.nextStep (s : State) (w : Work) (op : FlashOp) : Keeps s (s.nextStep w op) := by
  cases op <;> unfold State.nextStep
  case mark => exact Keeps.afterMark _ _ _ _
  case writtenMark r i =>
    refine Keeps.trans ?_ (Keeps.finishWork _ _ _)
    exact Keeps.setRecord s r (fun h => by simpa only [CopyRec.isActive] using h)
  case sequence => exact Keeps.sequenceRecorded _ _ _ _
  case eraseHeader => exact Keeps.headerErased _ _ _
  case eraseProtect => exact (Keeps.withIsc s).trans (Keeps.finishWork _ _ _)
  case protectMark => exact (Keeps.withIsc s).trans (Keeps.finishWork _ _ _)
  case identity => exact (Keeps.withIsc s).trans (Keeps.finishWork _ _ _)
  case fleet => exact (Keeps.withIsc s).trans (Keeps.finishWork _ _ _)
  all_goals exact Keeps.schedule _ _ _ _

theorem Keeps.failBlock (s : State) (op : FlashOp) : Keeps s (s.failBlock op) := by
  cases op <;> first | exact Keeps.refl s | exact Keeps.withIsc s

theorem Keeps.failStep (s : State) (w : Work) (op : FlashOp) (h : Header) : Keeps s (s.failStep w op h) := by
  unfold State.failStep
  split
  · exact (Keeps.failBlock s op).trans (Keeps.finishWork _ _ _)
  · exact Keeps.ite (fun _ => Keeps.finishWork _ _ _) (fun _ => (Keeps.markDamaged s _ _ _).trans (Keeps.schedule _ _ _ _))

theorem Keeps.programEnds (s : State) (w : Work) (op : FlashOp) (e : ProgEnd) : Keeps s (s.programEnds w op e) := by
  unfold State.programEnds
  have h := Keeps.withFlash s (fun h => Flash.canonical_program h op w.data w.table s.dge.closing.digest (op.leftBy e))
  exact Keeps.ite (fun _ => h.trans (Keeps.nextStep _ _ _)) (fun _ => h.trans (Keeps.failStep _ _ _ _))

theorem Keeps.eraseEnds (s : State) (w : Work) (op : FlashOp) (e : EraseEnd) : Keeps s (s.eraseEnds w op e) := by
  unfold State.eraseEnds
  have h := Keeps.withFlash s (fun h => Flash.canonical_erase h op (eraseCut e))
  exact Keeps.ite (fun _ => h.trans (Keeps.nextStep _ _ _)) (fun _ => h.trans (Keeps.failStep _ _ _ _))

/-! ## Reads -/

theorem Keeps.readPassed (s : State) (q : ReadReq) (d : Decay) : Keeps s (s.readPassed q d) where
  memory h := ⟨h.1, Flash.canonical_setBank (f := s.flash) h.2 _ (FlashBank.wf_decay _ _ _ _)⟩

theorem Keeps.closingReadEnds (s : State) (q : ReadReq) (w : Work) (d : Decay) : Keeps s (s.closingReadEnds q w d) := by
  unfold State.closingReadEnds
  have h : ∀ (t : State) (g : Dge), Keeps t { t with dge := g } := fun t g => {}
  have k : ∀ g x, Keeps s (({ s.readPassed q d with dge := g } : State).setWork x) :=
    fun g x => ((Keeps.readPassed s q d).trans (h _ g)).trans (Keeps.setWork _ x)
  exact Keeps.ite (fun _ => (k _ _).trans (Keeps.addRequest _ _)) (fun _ => (k _ _).trans (Keeps.schedule _ _ _ _))

end Sys2Proof.Machine
end

