-- ==== Sys2Proof/Laws/KeepsLines.lean ====
section
/-! SUPPORT. The Car Line Controllers' operations keep the whole-machine conditions (chapters 5 and 6). -/

namespace Sys2Proof.Machine

set_option Elab.async false

/-! ## The work queue (R97) -/

/-- A queue in key order. -/
abbrev InOrder (l : List LineJob) : Prop := l.Pairwise (fun a b => b.before a = false)

/-- The key of R97 as a number. -/
def LineJob.key (j : LineJob) : Nat := 8 * j.cls.code + j.drop.val

theorem LineJob.before_iff (x y : LineJob) : x.before y = true ↔ x.key < y.key := by
  have hx := x.drop.isLt
  have hy := y.drop.isLt
  unfold LineJob.before LineJob.key
  cases hc : x.cls <;> cases hd : y.cls <;> simp [NodeClass.code] <;> omega

theorem LineJob.before_false_iff (x y : LineJob) : x.before y = false ↔ y.key ≤ x.key := by
  have := LineJob.before_iff x y
  cases h : x.before y <;> simp [h] at this <;> simp <;> omega

theorem insertJob_mem (j : LineJob) (l : List LineJob) (x : LineJob) : x ∈ insertJob j l ↔ x = j ∨ x ∈ l := by
  induction l with
  | nil => simp [insertJob]
  | cons y rest ih =>
    unfold insertJob
    split
    · simp
    · simp only [List.mem_cons, ih]; tauto

/-- A job placed at its key position leaves the queue in key order. -/
theorem InOrder.insertJob (j : LineJob) {l : List LineJob} (h : InOrder l) : InOrder (insertJob j l) := by
  induction l with
  | nil => simp [Machine.insertJob, InOrder]
  | cons y rest ih =>
    rw [InOrder, List.pairwise_cons] at h
    unfold Machine.insertJob
    split
    · rename_i hb
      rw [LineJob.before_iff] at hb
      rw [InOrder, List.pairwise_cons, List.pairwise_cons]
      refine ⟨fun x hx => ?_, h.1, h.2⟩
      rw [LineJob.before_false_iff]
      rcases List.mem_cons.mp hx with rfl | hx
      · omega
      · have := (LineJob.before_false_iff _ _).mp (h.1 x hx); omega
    · rename_i hb
      rw [Bool.not_eq_true, LineJob.before_false_iff] at hb
      rw [InOrder, List.pairwise_cons]
      refine ⟨fun x hx => ?_, ih h.2⟩
      rcases (insertJob_mem _ _ _).mp hx with rfl | hx
      · rwa [LineJob.before_false_iff]
      · exact h.1 x hx

theorem InOrder.erase {l : List LineJob} (j : LineJob) (h : InOrder l) : InOrder (l.erase j) :=
  h.sublist (List.erase_sublist)

theorem InOrder.removeJob {l : List LineJob} (jid : Nat) (h : InOrder l) : InOrder (removeJob l jid) :=
  h.sublist (List.filter_sublist)

/-! ## Buffers and read requests -/

theorem Line.setBuf_queue (l : Line) (y : Bool) (b : SegBuf) : (l.setBuf y b).queue = l.queue := by
  cases y <;> rfl

theorem Keeps.setBuf (s : State) (c : Car) (y : Bool) (b : SegBuf) : Keeps s (s.setLine c (s.lines[c].setBuf y b)) :=
  Keeps.setLine_same s c (Line.setBuf_queue _ _ _)

theorem Keeps.requestRead (s : State) (c : Car) (i : Nat) : Keeps s (s.requestRead c i) := by
  unfold State.requestRead
  dsimp only
  split
  · exact Keeps.refl s
  · split
    · exact Keeps.setLine_same s c
    · exact (Keeps.setBuf s c _ _).trans (Keeps.addRequest _ _)

theorem Keeps.requestLowest (s : State) (c : Car) : Keeps s (s.requestLowest c) := by
  unfold State.requestLowest
  dsimp only
  split
  · exact Keeps.refl s
  · split
    · exact Keeps.refl s
    · exact Keeps.ite (fun _ => Keeps.refl s) (fun _ => Keeps.requestRead s c _)

theorem Keeps.requestNext (s : State) (c : Car) : Keeps s (s.requestNext c) := by
  unfold State.requestNext
  dsimp only
  split
  · exact Keeps.refl s
  · split
    · exact Keeps.ite (fun _ => Keeps.refl s) (fun _ => Keeps.requestRead s c _)
    · exact Keeps.refl s

theorem Keeps.releaseBuffer (s : State) (c : Car) (y : Bool) : Keeps s (s.releaseBuffer c y) := by
  unfold State.releaseBuffer
  exact Keeps.ite (fun _ => (Keeps.setBuf s c _ _).trans (Keeps.withdraw _ _ _)) (fun _ => Keeps.setBuf s c _ _)

theorem Keeps.releaseBuffers (s : State) (c : Car) : Keeps s (s.releaseBuffers c) := by
  unfold State.releaseBuffers
  exact ((Keeps.releaseBuffer s c _).trans (Keeps.releaseBuffer _ c _)).trans (Keeps.setLine_same _ c)

/-! ## Grant and release -/

theorem Keeps.tryGrant (s : State) (c : Car) : Keeps s (s.tryGrant c) := by
  unfold State.tryGrant
  dsimp only
  split
  · split
    · exact Keeps.refl s
    · rename_i j _
      have h : Keeps s ((s.setLine c (s.lines[c].granted j)).report c (.granted j.jid j.phase)) :=
        (Keeps.setLine s c (fun hq => InOrder.erase j hq)).trans (Keeps.report _ _ _)
      exact Keeps.ite (fun _ => h.trans (Keeps.requestLowest _ c)) (fun _ => h)
  · exact Keeps.refl s

/-- A line its job leaves, with or without going back to the queue, keeps the queue in key order. -/
theorem InOrder.vacated (l : Line) (q : Option LineJob) (h : InOrder l.queue) : InOrder (l.vacated q).queue := by
  cases q with
  | none => exact h
  | some j => exact InOrder.insertJob j h

theorem Keeps.leaveLine (s : State) (c : Car) (q : Option LineJob) : Keeps s (s.leaveLine c q) := by
  unfold State.leaveLine
  exact ((Keeps.releaseBuffers s c).trans (Keeps.setLine _ c (InOrder.vacated _ q))).trans (Keeps.tryGrant _ c)

theorem Keeps.attemptFails (s : State) (c : Car) (r : FailReason) : Keeps s (s.attemptFails c r) := by
  unfold State.attemptFails
  split
  · exact Keeps.refl s
  · exact (Keeps.report s c _).trans (Keeps.leaveLine _ c _)

theorem Keeps.endHolding (s : State) (c : Car) : Keeps s (s.endHolding c) := by
  unfold State.endHolding
  split
  · exact (Keeps.report s c _).trans (Keeps.leaveLine _ c _)
  · exact (Keeps.report s c _).trans (Keeps.leaveLine _ c _)
  · exact Keeps.refl s

theorem Keeps.exchangeDone (s : State) (c : Car) (j : LineJob) : Keeps s (s.exchangeDone c j) := Keeps.setLine_same s c

/-! ## Exchanges -/

theorem Keeps.failedTry (s : State) (c : Car) (b : Bool) : Keeps s (s.failedTry c b) := by
  unfold State.failedTry
  dsimp only
  split
  · exact Keeps.ite (fun _ => Keeps.endHolding s c) (fun _ => Keeps.ite
      (fun _ => (Keeps.setLine_same s c).trans (Keeps.report _ _ _)) (fun _ => Keeps.attemptFails s c _))
  · exact Keeps.refl s

theorem preemptedEntry_sized (c : Car) (j : LineJob) (n : Nat) (u : Long) : (preemptedEntry c j n u).sized := by
  simp only [Entry.sized, preemptedEntry, le16, List.length_append, List.length_cons, List.length_nil]

theorem Keeps.yieldJob (s : State) (c : Car) (j : LineJob) (n : Nat) : Keeps s (s.yieldJob c j n) :=
  ((Keeps.report s c _).trans (Keeps.ask _ _ (preemptedEntry_sized _ _ _ _))).trans (Keeps.leaveLine _ c _)

theorem Keeps.surveyDone (s : State) (c : Car) (j : LineJob) (l : List Long) : Keeps s (s.surveyDone c j l) := by
  unfold State.surveyDone
  dsimp only
  have h : ∀ x, Keeps s ((s.exchangeDone c x).report c (.surveyEnded j.jid l)) :=
    fun x => (Keeps.exchangeDone s c x).trans (Keeps.report _ _ _)
  refine Keeps.ite (fun _ => h _) (fun _ => ?_)
  split
  · exact (h _).trans (Keeps.yieldJob _ _ _ _)
  · exact (h _).trans (Keeps.requestLowest _ _)

theorem Line.emptied_queue (l : Line) (jid i : Nat) : (l.emptied jid i).queue = l.queue := by
  unfold Line.emptied
  dsimp only
  split <;> split <;> rfl

theorem Keeps.accepted (s : State) (c : Car) (j : LineJob) : Keeps s (s.accepted c j) := by
  unfold State.accepted
  dsimp only
  have h : ∀ x m n, Keeps s (((((s.exchangeDone c x).setLine c ((s.exchangeDone c x).lines[c].emptied j.jid
      (j.reload.headD 0))).report c m)).report c n) := fun x m n =>
    (((Keeps.exchangeDone s c x).trans (Keeps.setLine_same _ c (Line.emptied_queue _ _ _))).trans
      (Keeps.report _ _ _)).trans (Keeps.report _ _ _)
  split
  · exact h _ _ _
  · split
    · exact (h _ _ _).trans (Keeps.yieldJob _ _ _ _)
    · exact Keeps.ite (fun _ => (h _ _ _).trans (Keeps.attemptFails _ _ _)) (fun _ => h _ _ _)

theorem Keeps.takeReply (s : State) (c : Car) (j : LineJob) (b : RxBody) : Keeps s (s.takeReply c j b) := by
  unfold State.takeReply
  refine Keeps.ite (fun _ => Keeps.endHolding s c) (fun _ => ?_)
  split
  · exact Keeps.surveyDone s c j _
  · exact Keeps.ite (fun _ => Keeps.accepted s c j) (fun _ => Keeps.ite (fun _ => Keeps.attemptFails s c _)
      (fun _ => Keeps.failedTry s c _))
  · exact Keeps.ite (fun _ => (Keeps.report s c _).trans (Keeps.leaveLine _ c _)) (fun _ => Keeps.attemptFails s c _)
  · exact Keeps.failedTry s c _

/-! ## Rounds -/

theorem Keeps.endFastRound (s : State) (c : Car) : Keeps s (s.endFastRound c) := by
  unfold State.endFastRound
  dsimp only
  refine Keeps.ite (fun _ => ?_) (fun _ => Keeps.setLine_same s c)
  refine Keeps.trans ?_ (Keeps.tryGrant _ c)
  exact Keeps.ite (fun _ => Keeps.setLine_same s c) (fun _ => (Keeps.setLine_same s c).trans (Keeps.report _ _ _))

theorem Keeps.fallOwed (c : Car) (s : State) (d : Drop) : Keeps s (State.fallOwed c s d) := by
  unfold State.fallOwed
  exact Keeps.ite (fun _ => Keeps.refl s) (fun _ => Keeps.ite
    (fun _ => (Keeps.setLine_same s c).trans (Keeps.report _ _ _)) (fun _ => Keeps.setLine_same s c))

theorem Keeps.endOtherRound (s : State) (c : Car) : Keeps s (s.endOtherRound c) := by
  unfold State.endOtherRound
  dsimp only
  refine Keeps.trans (Keeps.foldl _ (Keeps.fallOwed c) (allDrops.filter (fun d => DropSet.has s.lines[c].called d)) s) ?_
  refine Keeps.ite (fun _ => (Keeps.setLine_same _ c).trans (Keeps.endHolding _ c))
    (fun _ => (Keeps.setLine_same _ c).trans (Keeps.tryGrant _ c))

theorem Keeps.endRound (s : State) (c : Car) : Keeps s (s.endRound c) := by
  unfold State.endRound
  split
  · exact Keeps.refl s
  · exact Keeps.endFastRound s c
  · exact Keeps.endOtherRound s c

/-! ## Frames -/

theorem strangerEntry_sized (c : Car) (d : Drop) (f : HelloFields) (u : Long) : (strangerEntry c d f u).sized := by
  simp only [Entry.sized, strangerEntry, le16, List.length_append, List.length_cons, List.length_nil]

theorem Line.hear_queue (l : Line) (d : Drop) : (l.hear d).queue = l.queue := by
  unfold Line.hear
  dsimp only
  split <;> rfl

theorem Keeps.takeHello (s : State) (c : Car) (d : Drop) (f : HelloFields) : Keeps s (s.takeHello c d f) := by
  have h : Keeps s (s.setLine c (s.lines[c].hear d)) := Keeps.setLine_same s c (Line.hear_queue _ _)
  have k : Keeps s (match (s.setLine c (s.lines[c].hear d)).findNode c d with
    | none => (s.setLine c (s.lines[c].hear d)).ask (.clc c) (strangerEntry c d f (s.setLine c (s.lines[c].hear d)).ord.uptime)
    | some r => if r.isExcluded then s.setLine c (s.lines[c].hear d)
      else (s.setLine c (s.lines[c].hear d)).report c (.hello d f)) := by
    split
    · exact h.trans (Keeps.ask _ _ (strangerEntry_sized _ _ _ _))
    · exact Keeps.ite (fun _ => h) (fun _ => h.trans (Keeps.report _ _ _))
  unfold State.takeHello
  exact Keeps.ite (fun _ => k.trans (Keeps.endRound _ c)) (fun _ => k)

theorem Keeps.discardFrame (s : State) (c : Car) : Keeps s (s.discardFrame c) := by
  unfold State.discardFrame
  exact Keeps.ite (fun _ => (Keeps.setLine_same s c).trans (Keeps.failedTry _ c _)) (fun _ => Keeps.setLine_same s c)

theorem Keeps.frameInRound (s : State) (c : Car) (d : Drop) (b : RxBody) : Keeps s (s.frameInRound c d b) := by
  unfold State.frameInRound
  split
  · split
    · exact Keeps.discardFrame s c
    · exact Keeps.ite (fun _ => Keeps.takeHello s c d _) (fun _ => Keeps.discardFrame s c)
  · exact Keeps.discardFrame s c

theorem Keeps.frameInExchange (s : State) (c : Car) (d : Drop) (b : RxBody) : Keeps s (s.frameInExchange c d b) := by
  unfold State.frameInExchange
  split
  · refine Keeps.ite (fun _ => ?_) (fun _ => Keeps.discardFrame s c)
    split
    · exact Keeps.ite (fun _ => Keeps.discardFrame s c) (fun _ => Keeps.failedTry s c _)
    · exact Keeps.ite (fun _ => Keeps.takeReply s c _ _) (fun _ => Keeps.failedTry s c _)
  · exact Keeps.discardFrame s c

theorem Keeps.judgeFrame (s : State) (c : Car) (f : Judged) : Keeps s (s.judgeFrame c f) := by
  unfold State.judgeFrame
  split
  · exact Keeps.discardFrame s c
  · exact Keeps.ite (fun _ => Keeps.frameInRound s c _ _) (fun _ => Keeps.frameInExchange s c _ _)

theorem Keeps.takeFrame (s : State) (c : Car) (f : Judged) : Keeps s (s.takeFrame c f) := by
  unfold State.takeFrame
  refine Keeps.ite (fun _ => ?_) (fun _ => Keeps.refl s)
  dsimp only
  refine Keeps.trans (t := (s.setLine c { s.lines[c] with rx := if f.overlong then .waitIdle else .idle }).judgeFrame c f)
    ((Keeps.setLine_same s c).trans (Keeps.judgeFrame _ c f)) ?_
  exact Keeps.ite (fun _ => Keeps.endRound _ c) (fun _ => Keeps.refl _)

theorem Keeps.endsFrame (s : State) (c : Car) (f : Judged) : Keeps s (s.endsFrame c f) :=
  Keeps.ite (fun _ => Keeps.takeFrame s c f) (fun _ => Keeps.refl s)

/-! ## Ends of reads -/

theorem Keeps.checkFault (s : State) (c : Car) : Keeps s (s.checkFault c) := by
  unfold State.checkFault
  dsimp only
  split
  · exact Keeps.refl s
  · exact Keeps.ite (fun _ => Keeps.attemptFails s c _) (fun _ => Keeps.refl s)

theorem Keeps.emptyStale (s : State) (c : Car) (y : Bool) : Keeps s (s.emptyStale c y) := by
  have h : Keeps s (s.setLine c { s.lines[c].setBuf y SegBuf.reset with wantRead := none }) :=
    Keeps.setLine_same s c (Line.setBuf_queue _ _ _)
  unfold State.emptyStale
  dsimp only
  split
  · exact h
  · exact h.trans (Keeps.requestRead _ c _)

theorem Keeps.bufferFilled (s : State) (c : Car) (y : Bool) (l : List Byte) (d : Long) : Keeps s (s.bufferFilled c y l d) :=
  Keeps.ite (fun _ => Keeps.emptyStale s c y) (fun _ => Keeps.setBuf s c y _)

theorem Keeps.bufferFaulted (s : State) (c : Car) (y : Bool) : Keeps s (s.bufferFaulted c y) :=
  Keeps.ite (fun _ => Keeps.emptyStale s c y) (fun _ => (Keeps.setBuf s c y _).trans (Keeps.checkFault _ c))

theorem Keeps.lineOff (s : State) (c : Car) : Keeps s (s.lineOff c) :=
  (Keeps.releaseBuffers s c).trans (Keeps.setLine _ c (fun _ => List.Pairwise.nil))

theorem Keeps.bufferFilling (s : State) (q : ReadReq) : Keeps s (s.bufferFilling q) := by
  unfold State.bufferFilling
  split
  · exact Keeps.setBuf s _ _ _
  · exact Keeps.refl s

theorem Isc.served_records (i : Isc) (q : ReadReq) : (i.served q).records = i.records := by
  unfold Isc.served; split <;> rfl

theorem Keeps.beginRead (s : State) (q : ReadReq) : Keeps s (s.beginRead q) := by
  unfold State.beginRead
  dsimp only
  refine Keeps.trans ?_ ((Keeps.bufferFilling _ q).trans (Keeps.settleStore _))
  exact { active := fun ha k hk => ha k (by simpa only [Isc.served_records] using hk) }

theorem Keeps.refuseRead (s : State) (q : ReadReq) : Keeps s (s.refuseRead q) := by
  have h : Keeps s ({ s with isc := { s.isc with requests := s.isc.requests.erase q } } : State).settleStore :=
    (Keeps.withIsc s).trans (Keeps.settleStore _)
  unfold State.refuseRead
  dsimp only
  split
  · exact h.trans (Keeps.bufferFaulted _ _ _)
  · exact h

theorem Keeps.jobReadEnds (s : State) (q : ReadReq) (c : Car) (y : Bool) (d : Decay) : Keeps s (s.jobReadEnds q c y d) := by
  have h := (Keeps.readPassed s q d).trans (Keeps.settleStore _)
  unfold State.jobReadEnds
  exact Keeps.ite (fun _ => h.trans (Keeps.bufferFilled _ _ _ _ _))
    (fun _ => (h.trans (Keeps.failReadCheck _ _)).trans (Keeps.bufferFaulted _ _ _))

/-! ## Sending and the news a line takes -/

theorem Line.sendRound_queue (l : Line) : l.sendRound.queue = l.queue := by
  unfold Line.sendRound
  split
  · split
    · rfl
    · split <;> rfl
  · rfl

theorem Line.frameSent_queue (l : Line) : l.frameSent.queue = l.queue := by
  unfold Line.frameSent
  split
  · rfl
  · dsimp only
    split
    · rfl
    · split <;> rfl

theorem Line.leadByte_queue (l : Line) : l.leadByte.queue = l.queue := by unfold Line.leadByte; split <;> rfl
theorem Line.bootWait_queue (l : Line) (n : Nat) : (l.bootWait n).queue = l.queue := by unfold Line.bootWait; split <;> rfl

theorem Line.individual_queue (l : Line) (d : Drop) : (l.individual d).queue = l.queue := by
  unfold Line.individual
  split
  · rfl
  · rfl
  · split <;> rfl
  · rfl

theorem Line.setMissing_queue (l : Line) (d : Drop) (b : Bool) : (l.setMissing d b).queue = l.queue := by
  unfold Line.setMissing
  generalize (if b then DropSet.add l.missing d else DropSet.del l.missing d) = m
  split
  · rfl
  · dsimp only
    split
    · rfl
    · split <;> rfl

theorem Keeps.sendRequest (s : State) (c : Car) (p : Phase) : Keeps s (s.sendRequest c p) := by
  unfold State.sendRequest
  refine Keeps.ite (fun _ => ?_) (fun _ => Keeps.refl s)
  split
  · exact Keeps.ite (fun _ => Keeps.setLine_same s c) (fun _ => Keeps.refl s)
  · split
    · refine Keeps.ite (fun _ => ?_) (fun _ => Keeps.refl s)
      exact Keeps.ite (fun _ => ((Keeps.setLine_same s c).trans (Keeps.report _ _ _)).trans (Keeps.requestNext _ c))
        (fun _ => (Keeps.setLine_same s c).trans (Keeps.report _ _ _))
    · exact Keeps.refl s

theorem Keeps.jobEnters (s : State) (c : Car) (j : LineJob) : Keeps s (s.jobEnters c j) :=
  Keeps.ite (fun _ => Keeps.refl s) (fun _ => (Keeps.setLine s c (InOrder.insertJob j)).trans (Keeps.tryGrant _ c))

theorem Keeps.endJob (s : State) (c : Car) (jid : Nat) : Keeps s (s.endJob c jid) := by
  unfold State.endJob
  refine Keeps.ite (fun _ => ?_) (fun _ => Keeps.ite (fun _ => Keeps.refl s)
    (fun _ => (Keeps.setLine s c (InOrder.removeJob jid)).trans (Keeps.report _ _ _)))
  exact Keeps.ite (fun _ => Keeps.setLine_same s c) (fun _ => (Keeps.report s c _).trans (Keeps.leaveLine _ c _))

theorem Keeps.storeFaultEnd (s : State) (c : Car) (jid : Nat) : Keeps s (s.storeFaultEnd c jid) := by
  unfold State.storeFaultEnd
  refine Keeps.ite (fun _ => ?_) (fun _ => Keeps.ite (fun _ => Keeps.refl s)
    (fun _ => (Keeps.setLine s c (InOrder.removeJob jid)).trans (Keeps.report _ _ _)))
  exact Keeps.ite (fun _ => Keeps.refl s) (fun _ => Keeps.ite (fun _ => Keeps.setLine_same s c)
    (fun _ => Keeps.attemptFails s c _))

end Sys2Proof.Machine
end

