-- ==== Sys2Proof/Laws/KeepsPlanner.lean ====
section
/-! SUPPORT. The Restore Planner's operations keep the whole-machine conditions (chapter 4). -/

namespace Sys2Proof.Machine

set_option Elab.async false

/-! ## Entries -/

theorem Keeps.nodeEntry (s : State) (k : EntryKind) (r : NodeRec) {l : List Byte} (h : l.length % 4 = 0) :
    Keeps s (s.nodeEntry k r l) := Keeps.ask s _ h

theorem Keeps.carEntry (s : State) (k : EntryKind) (c : Car) (u : Long) {l : List Byte} (h : l.length % 4 = 0) :
    Keeps s (s.carEntry k c u l) := Keeps.ask s _ h

theorem pad4_sized (l : List Byte) : (pad4 l).length % 4 = 0 := by
  simp only [pad4, List.length_append, List.length_replicate]; omega

theorem Keeps.nodeFailedEntry (s : State) (r : NodeRec) (b : Bool) (m n : Nat) : Keeps s (s.nodeFailedEntry r b m n) := by
  have h : Keeps s (s.nodeEntry .nodeFailed r [byteOf (bit b) 0, byteOf m 0, byteOf n 0, byteOf r.attempt 0]) :=
    Keeps.nodeEntry s _ r (by simp only [List.length_cons, List.length_nil])
  exact Keeps.ite (fun _ => h.trans (Keeps.raise _ _)) (fun _ => h)

theorem Keeps.nodeMissingEntry (s : State) (r : NodeRec) : Keeps s (s.nodeMissingEntry r) :=
  Keeps.nodeEntry s _ r (by simp only [List.length_cons, List.length_nil])

theorem Keeps.anomalyEntry (s : State) (r : NodeRec) : Keeps s (s.anomalyEntry r) :=
  Keeps.nodeEntry s _ r (by simp only [le16, List.length_append, List.length_cons, List.length_nil])

/-! ## Records -/

theorem NodeRec.stamped_names (n o : NodeRec) (u : Long) :
    (n.stamped o u).car = n.car ∧ (n.stamped o u).drop = n.drop := by
  unfold NodeRec.stamped; split <;> exact ⟨rfl, rfl⟩

theorem Keeps.writeNode (s : State) {o n : NodeRec} (h : n.car = o.car ∧ n.drop = o.drop) : Keeps s (s.writeNode o n) := by
  have hn := NodeRec.stamped_names n o s.ord.uptime
  have h1 : Keeps s (s.setNode o.car o.drop (n.stamped o s.ord.uptime)) :=
    Keeps.setNode s _ _ ⟨hn.1.trans h.1, hn.2.trans h.2⟩
  exact Keeps.ite (fun _ => h1) (fun _ => h1.trans (Keeps.tell _ _ _))

theorem Keeps.putNode (s : State) {o n : NodeRec} (h : n.car = o.car ∧ n.drop = o.drop := by exact ⟨rfl, rfl⟩) :
    Keeps s (s.putNode o n) := by
  unfold State.putNode
  exact Keeps.ite (fun _ => (Keeps.writeNode s h).trans (Keeps.reportDoor _ _)) (fun _ => Keeps.writeNode s h)

theorem Keeps.unpinJob (s : State) (r : NodeRec) : Keeps s (s.unpinJob r) := by
  unfold State.unpinJob
  split
  · exact Keeps.refl s
  · exact Keeps.unpin s _

/-! ## Door readiness and the estimate -/

theorem Keeps.updateDoors (s : State) (c : Car) : Keeps s (s.updateDoors c) := by
  unfold State.updateDoors
  dsimp only
  refine Keeps.ite (fun _ => ?_) (fun _ => Keeps.setRpl s c _)
  refine Keeps.ite (fun _ => (Keeps.setRpl s c _).trans (Keeps.carEntry _ _ _ _ ?_)) (fun _ => Keeps.setRpl s c _)
  simp only [le16, List.length_append, List.length_cons, List.length_nil]

theorem Keeps.judgeLate (s : State) (c : Car) (u : Long) : Keeps s (s.judgeLate c u) := by
  unfold State.judgeLate
  have h : ∀ a b, (le16 a ++ le16 b).length % 4 = 0 := by
    intro a b; simp only [le16, List.length_append, List.length_cons, List.length_nil]
  refine Keeps.ite (fun _ => Keeps.refl s) (fun _ => Keeps.ite (fun _ => ?_) (fun _ => ?_))
  · exact ((Keeps.setRpl s c _).trans (Keeps.carEntry _ _ _ _ (h _ _))).trans (Keeps.raise _ _)
  · exact (Keeps.setRpl s c _).trans (Keeps.carEntry _ _ _ _ (h _ _))

theorem State.repriced_names (s : State) (c : Car) (r : NodeRec) :
    (s.repriced c r).car = r.car ∧ (s.repriced c r).drop = r.drop := by
  unfold State.repriced; split <;> exact ⟨rfl, rfl⟩

theorem Keeps.showEstimate (s : State) (c : Car) : Keeps s (s.showEstimate c) :=
  (Keeps.showWords s _).trans (Keeps.showField _ _ _)

theorem Keeps.estimateAt (s : State) (c : Car) (u : Long) : Keeps s (s.estimateAt c u) := by
  unfold State.estimateAt
  dsimp only
  refine Keeps.ite (fun _ => ?_) (fun _ => Keeps.refl s)
  refine Keeps.trans ?_ (Keeps.showEstimate _ c)
  refine Keeps.trans ?_ (Keeps.judgeLate _ c u)
  refine Keeps.trans ?_ (Keeps.setRpl _ c _)
  exact Keeps.setRoster s _ (State.repriced_names s c)

theorem Keeps.estimate (s : State) (c : Car) : Keeps s (s.estimate c) := Keeps.estimateAt s c _

theorem Keeps.changed (s : State) (c : Car) : Keeps s (s.changed c) := (Keeps.updateDoors s c).trans (Keeps.estimate _ c)

/-! ## Planning and attempts -/

theorem Keeps.applyPlan (s : State) {o r : NodeRec} (h : r.car = o.car ∧ r.drop = o.drop) (p : Planning) :
    Keeps s (s.applyPlan o r p) := by
  cases p
  · refine Keeps.trans ?_ (Keeps.changed _ _)
    refine Keeps.trans ?_ (Keeps.nodeFailedEntry _ _ _ _ _)
    exact Keeps.trans (Keeps.unpinJob s o) (Keeps.putNode _ h)
  · rename_i plan reason copy marginal
    unfold State.applyPlan
    dsimp only
    refine Keeps.trans (Keeps.trans ?_ (Keeps.tell _ _ _)) (Keeps.changed _ _)
    refine Keeps.trans ?_ (Keeps.nodeEntry _ _ _ (by simp only [List.length_cons, List.length_nil]))
    have h1 : ∀ n v, n.car = o.car ∧ n.drop = o.drop → Keeps s (((s.repin o.job copy).setRpl o.car v).putNode o n) :=
      fun n v hn => ((Keeps.repin s _ _).trans (Keeps.setRpl _ _ _)).trans (Keeps.putNode _ hn)
    refine Keeps.ite (fun _ => ?_) (fun _ => h1 _ _ ?_)
    · refine Keeps.trans ?_ (Keeps.anomalyEntry _ _)
      exact h1 _ _ h
    · exact h

theorem Keeps.failAttempt (s : State) (r : NodeRec) (j : RplJob) (e : FailReason) : Keeps s (s.failAttempt r j e) := by
  unfold State.failAttempt
  exact Keeps.ite
    (fun _ => ((Keeps.putNode s).trans (Keeps.nodeFailedEntry _ _ _ _ _)).trans (Keeps.changed _ _))
    (fun _ => (((Keeps.unpin s _).trans (Keeps.putNode _)).trans (Keeps.nodeFailedEntry _ _ _ _ _)).trans (Keeps.changed _ _))

theorem Keeps.missNode (s : State) (r : NodeRec) : Keeps s (s.missNode r) :=
  (((Keeps.unpinJob s r).trans (Keeps.putNode _)).trans (Keeps.nodeMissingEntry _ _)).trans (Keeps.changed _ _)

theorem Keeps.takeFailure (s : State) (c : Car) (jid : Nat) (e : FailReason) : Keeps s (s.takeFailure c jid e) := by
  unfold State.takeFailure
  split
  · exact Keeps.refl s
  · split
    · exact Keeps.refl s
    · exact Keeps.ite (fun _ => Keeps.refl s) (fun _ => Keeps.failAttempt s _ _ _)

theorem Keeps.takeRelease (s : State) (c : Car) (jid : Nat) : Keeps s (s.takeRelease c jid) := by
  unfold State.takeRelease
  split
  · exact Keeps.refl s
  · exact Keeps.ite (fun _ => ((Keeps.unpinJob s _).trans (Keeps.putNode _)).trans (Keeps.changed _ _)) (fun _ => Keeps.refl s)

/-! ## Car events -/

theorem Keeps.unpinCar (s : State) (c : Car) : Keeps s (s.unpinCar c) := Keeps.foldl _ Keeps.unpinJob _ s

theorem Keeps.mapCar (s : State) (c : Car) {g : NodeRec → NodeRec} (hg : ∀ r, (g r).car = r.car ∧ (g r).drop = r.drop) :
    Keeps s (s.mapCar c g) := by
  refine Keeps.trans (t := s.setRoster (s.roster.map (fun r => if r.car = c then g r else r)))
    (Keeps.setRoster s _ (fun r => ?_)) {}
  split
  · exact hg r
  · exact ⟨rfl, rfl⟩

theorem NodeRec.darkened_names (u : Long) (r : NodeRec) : (r.darkened u).car = r.car ∧ (r.darkened u).drop = r.drop := by
  unfold NodeRec.darkened; exact NodeRec.stamped_names _ _ _

theorem NodeRec.awaited_names (u : Long) (r : NodeRec) : (r.awaited u).car = r.car ∧ (r.awaited u).drop = r.drop := by
  unfold NodeRec.awaited; split <;> exact ⟨rfl, rfl⟩

theorem Keeps.rplLoss (s : State) (c : Car) (u : Long) : Keeps s (s.rplLoss c u) := by
  unfold State.rplLoss
  refine ((((Keeps.unpinCar s c).trans (Keeps.mapCar _ c (NodeRec.darkened_names _))).trans (Keeps.setRpl _ c _)).trans
    (Keeps.ask _ _ ?_)).trans ((Keeps.purgeReports _ c).trans (Keeps.purgeTells _ c _))
  exact pad4_sized _

theorem Keeps.rplReturn (s : State) (c : Car) (g : Nat) (x y : Bool) (u : Long) : Keeps s (s.rplReturn c g x y u) := by
  unfold State.rplReturn
  dsimp only
  refine Keeps.trans ?_ (Keeps.estimateAt _ c _)
  refine Keeps.trans ?_ (Keeps.setRpl _ c _)
  exact Keeps.mapCar s c (NodeRec.awaited_names _)

/-! ## HELLOs, roll calls and reports -/

theorem Keeps.rplHello (s : State) (c : Car) (d : Drop) (f : HelloFields) : Keeps s (s.rplHello c d f) := by
  unfold State.rplHello
  refine Keeps.ite (fun _ => Keeps.refl s) (fun _ => ?_)
  split
  · exact Keeps.refl s
  · refine Keeps.ite (fun _ => ?_) (fun _ => Keeps.refl s)
    refine Keeps.applyPlan s ?_ _
    exact ⟨rfl, rfl⟩

theorem Keeps.takeUnheard (c : Car) (s : State) (d : Drop) : Keeps s (State.takeUnheard c s d) := by
  unfold State.takeUnheard
  refine Keeps.ite (fun _ => Keeps.refl s) (fun _ => ?_)
  split
  · exact Keeps.refl s
  · exact Keeps.ite (fun _ => Keeps.missNode s _) (fun _ => Keeps.refl s)

theorem Keeps.takeGrant (s : State) (c : Car) (jid : Nat) (p : Phase) : Keeps s (s.takeGrant c jid p) := by
  unfold State.takeGrant
  split
  · exact Keeps.refl s
  · exact (Keeps.putNode s).trans (Keeps.changed _ _)

theorem Keeps.takeYield (s : State) (c : Car) (jid : Nat) : Keeps s (s.takeYield c jid) := by
  unfold State.takeYield
  split
  · exact Keeps.refl s
  · exact (Keeps.putNode s).trans (Keeps.changed _ _)

theorem Keeps.takeRetry (s : State) (c : Car) (jid n : Nat) : Keeps s (s.takeRetry c jid n) := by
  unfold State.takeRetry
  split
  · exact Keeps.refl s
  · exact Keeps.putNode s

theorem Keeps.takeProgress (s : State) (c : Car) (jid n : Nat) : Keeps s (s.takeProgress c jid n) := by
  unfold State.takeProgress
  split
  · exact Keeps.refl s
  · exact Keeps.putNode s

theorem surveyBody_sized (l : List Nat) : (surveyBody l).length % 4 = 0 := by
  have := pad4_sized ((l.take 24).map (fun i => byteOf i 0))
  simp only [surveyBody, le16, List.length_append, List.length_cons, List.length_nil]
  omega

theorem Keeps.takeSurvey (s : State) (c : Car) (jid : Nat) (l : List Long) : Keeps s (s.takeSurvey c jid l) := by
  unfold State.takeSurvey
  split
  · exact Keeps.refl s
  · exact ((Keeps.putNode s).trans (Keeps.nodeEntry _ _ _ (surveyBody_sized _))).trans (Keeps.changed _ _)

theorem Keeps.takeAccepted (s : State) (c : Car) (jid : Nat) : Keeps s (s.takeAccepted c jid) := by
  unfold State.takeAccepted
  split
  · exact Keeps.refl s
  · exact (Keeps.putNode s).trans (Keeps.changed _ _)

theorem Keeps.takeSuccess (s : State) (c : Car) (jid : Nat) : Keeps s (s.takeSuccess c jid) := by
  unfold State.takeSuccess
  split
  · exact Keeps.refl s
  · refine (((Keeps.unpin s _).trans (Keeps.putNode _)).trans (Keeps.nodeEntry _ _ _ ?_)).trans (Keeps.changed _ _)
    simp only [readyBody, List.length_cons, List.length_nil]

/-! ## Ticks, budgets and the store's news -/

theorem NodeRec.shownBackoff_names (u : Long) (r : NodeRec) :
    (r.shownBackoff u).car = r.car ∧ (r.shownBackoff u).drop = r.drop := by
  unfold NodeRec.shownBackoff; split <;> exact ⟨rfl, rfl⟩

theorem Keeps.takeBudget (b : Vector Nat 6) (s : State) (c : Car) : Keeps s (State.takeBudget b s c) :=
  Keeps.ite (fun _ => Keeps.refl s) (fun _ => (Keeps.setRpl s c _).trans (Keeps.estimate _ c))

theorem Keeps.faultJob (s : State) (r : NodeRec) (j : RplJob) : Keeps s (s.faultJob r j) := by
  unfold State.faultJob
  refine Keeps.ite (fun _ => Keeps.refl s) (fun _ => ?_)
  split
  · exact Keeps.refl s
  · exact (Keeps.tell s _ _).trans (Keeps.failAttempt _ _ _ _)
  · exact (Keeps.putNode s).trans (Keeps.tell _ _ _)

theorem Keeps.markedCopy (k : CopyIx) (s : State) (x : Car × Drop) : Keeps s (State.markedCopy k s x) := by
  unfold State.markedCopy
  split
  · exact Keeps.refl s
  · split
    · exact Keeps.refl s
    · exact Keeps.ite (fun _ => Keeps.faultJob s _ _) (fun _ => Keeps.refl s)

end Sys2Proof.Machine
end

