-- ==== Sys2Proof/Laws/KeepsOrders.lean ====
section
/-! SUPPORT. The Order Unit's operations keep the whole-machine conditions (chapter 9). -/

namespace Sys2Proof.Machine

set_option Elab.async false

/-! ## The sample -/

theorem clamp_le {lo hi : Nat} (v : Nat) (h : lo ≤ hi) : clamp lo hi v ≤ hi := by
  unfold clamp; split <;> [exact h; (split <;> omega)]

theorem le_clamp {lo hi : Nat} (v : Nat) (h : lo ≤ hi) : lo ≤ clamp lo hi v := by
  unfold clamp; split <;> [omega; (split <;> omega)]

theorem Ord.nextReturn_ok (o : Ord) (v : Nat) (h : ReturnMarkOk o.ret) : ReturnMarkOk (o.nextReturn v) := by
  unfold Ord.nextReturn
  split
  · exact h
  · unfold ReturnMarkOk; omega

/-- The values a sample puts in force lie as R157 gives. -/
theorem State.sampled_ok (s : State) (h : ReturnMarkOk s.ord.ret) :
    ReturnMarkOk s.sampled.ret ∧ s.sampled.lw + 256 ≤ s.sampled.hw := by
  refine ⟨Ord.nextReturn_ok _ _ h, ?_⟩
  refine le_clamp _ ?_
  have := clamp_le (s.steeringWord 6) (lo := 256) (hi := 4096) (by decide)
  show clamp 256 4096 (s.steeringWord 6) + 256 ≤ 8188
  omega

theorem Keeps.sample (s : State) : Keeps s s.sample where
  journal h := by
    have hs := s.sampled_ok h.inForce.1
    refine ⟨h.1, h.2, h.3, h.4, h.5, h.6, h.7, h.8, hs, ?_⟩
    intro v hv
    rcases List.mem_append.mp hv with hv | hv
    · exact h.handed v hv
    · rw [List.mem_singleton.mp hv]; exact hs

/-- An ORD record of the same steering values. -/
theorem Keeps.withOrd (s : State) {o : Ord} (h1 : o.ret = s.ord.ret := by rfl) (h2 : o.lw = s.ord.lw := by rfl)
    (h3 : o.hw = s.ord.hw := by rfl) : Keeps s { s with ord := o } where
  journal h := ⟨h.1, h.2, h.3, h.4, h.5, h.6, h.7, h.8, by
    show ReturnMarkOk o.ret ∧ o.lw + 256 ≤ o.hw
    rw [h1, h2, h3]; exact h.9, h.10⟩

/-! ## Node orders -/

theorem Keeps.restore (s : State) (c : Car) (d : Drop) (p : Plan) : Keeps s (s.restore c d p).1 := by
  unfold State.restore
  split
  · exact Keeps.refl s
  · rename_i r _
    split
    · exact Keeps.refl s
    · exact Keeps.refl s
    · rename_i f _ _
      have h : Keeps s ((s.tell c (.cancel d)).applyPlan r { r with attempt := 0 } (s.planOrder r f p)) := by
        refine Keeps.trans (Keeps.tell s c (.cancel d)) ?_
        refine Keeps.applyPlan _ ?_ _
        exact ⟨rfl, rfl⟩
      dsimp only
      split <;> exact h

theorem Keeps.restoreNode (s : State) (b : List Byte) : Keeps s (s.restoreNode b).1 := by
  unfold State.restoreNode
  split
  · rename_i c d p _ _ _
    have h := Keeps.restore s c d p
    split <;> rename_i he <;> rw [he] at h <;> exact h
  · exact Keeps.refl s

theorem Keeps.restoreDrops (c : Car) (p : Plan) (l : List Drop) (s : State) : Keeps s (s.restoreDrops c p l).1 := by
  induction l generalizing s with
  | nil => exact Keeps.refl s
  | cons d rest ih => exact (Keeps.restore s c d p).trans (ih _)

theorem Keeps.restoreCar (s : State) (b : List Byte) : Keeps s (s.restoreCar b).1 := by
  unfold State.restoreCar
  split
  · rename_i c p _ _
    split
    · have h := Keeps.restoreDrops c p allDrops s
      generalize s.restoreDrops c p allDrops = x at h ⊢
      exact h
    · exact Keeps.refl s
  · exact Keeps.refl s

theorem Keeps.putInclusion (s : State) {o n : NodeRec} (h : n.car = o.car ∧ n.drop = o.drop) (x : DoorChange) :
    Keeps s (s.putInclusion o n x) := by
  unfold State.putInclusion
  exact Keeps.ite (fun _ => (Keeps.writeNode s h).trans (Keeps.reportDoor _ _)) (fun _ => Keeps.writeNode s h)

theorem Keeps.tellExclusion (s : State) (r : NodeRec) : Keeps s (s.tellExclusion r) := by
  unfold State.tellExclusion
  dsimp only
  split
  · exact Keeps.tell s _ _
  · exact Keeps.ite (fun _ => (Keeps.tell s _ _).trans (Keeps.tell _ _ _)) (fun _ => Keeps.tell s _ _)

theorem Keeps.exclude (s : State) (r : NodeRec) : Keeps s (s.exclude r) := by
  unfold State.exclude
  refine Keeps.trans ?_ (Keeps.changed _ _)
  refine Keeps.trans ?_ (Keeps.tellExclusion _ _)
  refine Keeps.trans (t := if decide (r.disposition = 2) = true then s else s.unpinJob r)
    (Keeps.ite (fun _ => Keeps.refl s) (fun _ => Keeps.unpinJob s r)) ?_
  refine Keeps.putInclusion _ ?_ _
  exact ⟨rfl, rfl⟩

theorem Keeps.excludeNode (s : State) (b : List Byte) : Keeps s (s.excludeNode b).1 := by
  unfold State.excludeNode
  split
  · split
    · exact Keeps.refl s
    · split
      · exact Keeps.refl s
      · exact Keeps.exclude s _
  · exact Keeps.refl s

theorem Keeps.callIncluded (s : State) (c : Car) (d : Drop) : Keeps s (s.callIncluded c d) := by
  unfold State.callIncluded
  exact Keeps.ite (fun _ => Keeps.setLine_same s c) (fun _ => Keeps.tell s _ _)

theorem Keeps.include (s : State) (r : NodeRec) : Keeps s (s.include r) := by
  unfold State.include
  refine Keeps.trans ?_ (Keeps.changed _ _)
  have h : ∀ n : NodeRec, n.car = r.car ∧ n.drop = r.drop → Keeps s (s.putInclusion r n .included) :=
    fun n hn => Keeps.putInclusion s hn _
  refine Keeps.ite (fun _ => ?_) (fun _ => h _ ⟨rfl, rfl⟩)
  refine Keeps.trans (h _ ?_) (Keeps.callIncluded _ _ _)
  exact ⟨rfl, rfl⟩

theorem Keeps.includeNode (s : State) (b : List Byte) : Keeps s (s.includeNode b).1 := by
  unfold State.includeNode
  split
  · split
    · exact Keeps.refl s
    · split
      · exact Keeps.refl s
      · split
        · exact Keeps.refl s
        · exact Keeps.include s _
  · exact Keeps.refl s

/-! ## Batches -/

theorem Keeps.route (s : State) (j : OrderSlot) (b : List Byte) : Keeps s (s.route j b) := by
  unfold State.route
  split
  · exact (Keeps.restoreNode s b).trans (Keeps.answer _ _ _ _)
  · exact (Keeps.restoreCar s b).trans (Keeps.answer _ _ _ _)
  · exact (Keeps.excludeNode s b).trans (Keeps.answer _ _ _ _)
  · exact (Keeps.includeNode s b).trans (Keeps.answer _ _ _ _)
  · exact Keeps.withIsc s
  · exact Keeps.answer s _ _ _

theorem Keeps.takeSlot (s : State) (j : OrderSlot) : Keeps s (s.takeSlot j) := by
  unfold State.takeSlot
  refine Keeps.ite (fun _ => ?_) (fun _ => Keeps.refl s)
  refine Keeps.trans ?_ (Keeps.route _ _ _)
  refine Keeps.trans ?_ (Keeps.withOrd _)
  refine Keeps.trans ?_ (Keeps.putBytes _ _ _)
  refine Keeps.trans ?_ (Keeps.putBytes _ _ _)
  exact Keeps.putBytes _ _ _

theorem Keeps.expireWindow (s : State) : Keeps s s.expireWindow := by
  unfold State.expireWindow
  have h : Keeps s { s with ord := { s.ord with window := none } } := Keeps.withOrd s
  refine Keeps.ite (fun _ => ?_) (fun _ => h)
  refine Keeps.trans h (Keeps.trans ?_ (Keeps.foldl _ Keeps.takeSlot allSlots _))
  exact Keeps.withOrd _

theorem Keeps.startWindow (s : State) : Keeps s s.startWindow := by
  unfold State.startWindow
  exact Keeps.ite (fun _ => Keeps.expireWindow s) (fun _ => Keeps.withOrd s)

theorem Keeps.slotCheck (s : State) (b : Bool) : Keeps s (s.slotCheck b) := by
  unfold State.slotCheck
  split
  · exact Keeps.ite (fun _ => Keeps.startWindow s) (fun _ => Keeps.refl s)
  · exact Keeps.ite (fun _ => Keeps.startWindow s) (fun _ => Keeps.refl s)

theorem Keeps.startScanTimer (s : State) : Keeps s s.startScanTimer := Keeps.withOrd s

/-! ## The host's accesses -/

theorem Keeps.busAccess (s : State) (a : BusAccess) : Keeps s (s.busAccess a) := by
  cases a
  · exact {}
  · unfold State.busAccess
    exact Keeps.ite (fun _ => Keeps.refl s) (fun _ => Keeps.putBytes s _ _)
  · exact {}

end Sys2Proof.Machine
end

