-- ==== Sys2Proof/Laws/KeepsSupply.lean ====
section
/-! SUPPORT. The Supply Sense Unit's and the permits' operations keep the whole-machine conditions (chapters 1 and 7). -/

namespace Sys2Proof.Machine

set_option Elab.async false

/-! ## Supply sensing -/

theorem carReturnEntry_sized (c : Car) (g : Nat) (x y : Bool) (u : Long) : (carReturnEntry c g x y u).sized := by
  simp only [Entry.sized, carReturnEntry, le16, List.length_append, List.length_cons, List.length_nil]

theorem Keeps.deliverReturn (s : State) (c : Car) (u : Long) : Keeps s (s.deliverReturn c u) :=
  (Keeps.deliver s c _).trans (Keeps.ask _ _ (carReturnEntry_sized _ _ _ _ _))

theorem Keeps.setCsgPin (s : State) (c : Car) (b : Bool) : Keeps s (s.setCsg c b) := {}

theorem Keeps.qualifyLoss (s : State) (c : Car) : Keeps s (s.qualifyLoss c) := by
  unfold State.qualifyLoss
  exact Keeps.ite (fun _ => (Keeps.setSsu s c _).trans (Keeps.deliver _ _ _)) (fun _ => Keeps.setSsu s c _)

theorem Keeps.ssuTick (s : State) (c : Car) : Keeps s (s.ssuTick c) := by
  unfold State.ssuTick
  exact Keeps.ite (fun _ => Keeps.qualifyLoss s c)
    (fun _ => Keeps.ite (fun _ => Keeps.setSsu s c _) (fun _ => Keeps.refl s))

theorem Keeps.withSsu (s : State) (v : Vector SsuCar 6) : Keeps s { s with ssu := v } := {}

theorem Keeps.settleCar (was : Car → Bool) (s : State) (c : Car) : Keeps s (State.settleCar was s c) := by
  unfold State.settleCar
  refine Keeps.ite (fun _ => Keeps.setSsu s c _) (fun _ => Keeps.ite (fun _ => Keeps.setSsu s c _) (fun _ => ?_))
  split
  · split
    · exact (Keeps.deliverReturn s c _).trans (Keeps.setSsu _ _ _)
    · exact (Keeps.setSsu s c _).trans (Keeps.deliverReturn _ _ _)
  · exact Keeps.setSsu s c _
  · exact Keeps.refl s

/-! ## Permits -/

theorem permitEntry_sized (c : Car) (b : Bool) (x : PermitCause) (u : Long) : (permitEntry c b x u).sized := by
  simp only [Entry.sized, permitEntry, List.length_cons, List.length_nil]

theorem getElem_set_car {α : Type} (v : Vector α 6) (c d : Car) (x : α) :
    (v.set c x)[d] = if c = d then x else v[d] := by
  split
  · rename_i h; subst h; simp
  · rename_i h
    simp only [Fin.getElem_fin]
    rw [Vector.getElem_set_ne]
    intro hh; exact h (Fin.ext hh)

/-- Setting a field of a car's permit record and evaluating it leaves the permit of that car as R118 to
R123 give, whatever the field was, and everything of the other cars alone. -/
theorem Keeps.evaluated (s : State) (c : Car) {r : PrmCar} (hr : r.active = s.prm[c].active) (hrun : s.isRunning = true)
    (doors : Bool) (x y : PermitCause) (u : Long) : Keeps s ((s.setPrm c r).evaluatePermit c doors x y u) := by
  have hset : ((s.setPrm c r).prm[c]) = r := by simp [State.setPrm]
  unfold State.evaluatePermit
  dsimp only
  refine Keeps.ite (fun h => ?_) (fun h => ?_)
  · -- no change of state
    refine { memory := id, notice := id, active := id, roster := id, queues := id, permits := fun hp => ?_ }
    intro d
    have hd := hp d
    unfold PermitHeld at *
    by_cases hcd : c = d
    · subst hcd
      have hrun' : (s.setPrm c r).isRunning = true := hrun
      refine ⟨?_, ?_, fun hf => absurd hrun' (by simp [hf])⟩
      · show s.pins.dp[c] = _
        rw [hset, hr]; exact hd.1
      · rw [hset] at h ⊢
        intro ha
        rw [ha] at h
        simp only [PrmCar.holds, Bool.and_eq_true, Bool.not_eq_true', decide_eq_true_eq] at h
        exact ⟨h.1.1.1, h.1.1.2, h.1.2⟩
    · have : (s.setPrm c r).prm[d] = s.prm[d] := by
        rw [show (s.setPrm c r).prm = s.prm.set c r from rfl, getElem_set_car, if_neg hcd]
      rw [this]; exact hd
  · -- a change
    unfold State.changePermit
    generalize hv : (s.setPrm c r).prm[c].holds doors = v at h ⊢
    refine Keeps.trans ?_ (Keeps.raise _ _)
    refine Keeps.trans ?_ (Keeps.ask _ _ (permitEntry_sized _ _ _ _))
    refine { memory := id, notice := id, active := id, roster := id, queues := id, permits := fun hp => ?_ }
    intro d
    have hd := hp d
    unfold PermitHeld at *
    by_cases hcd : c = d
    · subst hcd
      refine ⟨?_, ?_, fun hf => absurd (show _ = true from hrun) (by simp only [Bool.not_eq_true]; exact hf)⟩
      · simp [State.setPrm]
      · simp only [State.setPrm, Fin.getElem_fin, Vector.getElem_set_self]
        intro ha
        subst ha
        simp only [PrmCar.holds, hset, Bool.and_eq_true, Bool.not_eq_true', decide_eq_true_eq] at hv
        exact ⟨hv.1.1.1, hv.1.1.2, hv.1.2⟩
    · have h1 : (((s.setPrm c r).setPrm c { (s.setPrm c r).prm[c] with active := v }).prm[d]) = s.prm[d] := by
        simp only [State.setPrm, getElem_set_car, if_neg hcd]
      have h2 : ((s.setPrm c r).pins.dp.set c v)[d] = s.pins.dp[d] := by
        rw [getElem_set_car, if_neg hcd]; rfl
      refine ⟨?_, ?_, ?_⟩
      · show ((s.setPrm c r).pins.dp.set c v)[d] = _
        rw [h2]; exact hd.1.trans (by rw [← h1])
      · show (((s.setPrm c r).setPrm c { (s.setPrm c r).prm[c] with active := v }).prm[d]).active = true → _
        rw [h1]; exact hd.2.1
      · intro hf
        have := hd.2.2 hf
        rw [← h1] at this; exact this

theorem Keeps.takeWithhold (flags : Vector Bool 6) (s : State) (c : Car) (hrun : s.isRunning = true) :
    Keeps s (State.takeWithhold flags s c) := by
  unfold State.takeWithhold
  exact Keeps.ite (fun _ => Keeps.refl s) (fun _ => Keeps.evaluated s c (by rfl) hrun _ _ _ _)

/-! ## What a door report may do (R121) -/

/-- The fourth term at a report holds only if it holds of the RPL's states, and the report's row does not withdraw. -/
theorem State.reportedDoors_true {s : State} {r : DoorReport} (h : s.reportedDoors r = true) :
    s.doorTerm r.car = true ∧ r.withdraws = false ∧ (s.prm[r.car].active = true ∨ r.allReady = true) := by
  simpa [State.reportedDoors, and_comm, and_left_comm, and_assoc] using h

end Sys2Proof.Machine
end

