-- ==== Sys2Proof/Laws/KeepsStarts.lean ====
section
/-! SUPPORT. The roster build, the starts and the warm restart keep the whole-machine conditions (R17, R159, R160). -/

namespace Sys2Proof.Machine

set_option Elab.async false

/-! ## The roster in order (R17, R25) -/

/-- Roster order as a number. -/
def NodeRec.key (r : NodeRec) : Nat := 8 * r.car.val + r.drop.val

theorem NodeRec.before_iff (x y : NodeRec) : x.before y = true ↔ x.key < y.key := by
  have hx := x.drop.isLt
  have hy := y.drop.isLt
  simp only [NodeRec.before, NodeRec.key, Bool.or_eq_true, Bool.and_eq_true, decide_eq_true_eq, Fin.ext_iff]
  omega

theorem NodeRec.names_iff (x : NodeRec) (c : Car) (d : Drop) : x.names c d = true ↔ x.key = 8 * c.val + d.val := by
  have hx := x.drop.isLt
  have hd := d.isLt
  simp only [NodeRec.names, NodeRec.key, Bool.and_eq_true, decide_eq_true_eq, Fin.ext_iff]
  omega

theorem insertNode_mem (r : NodeRec) (l : List NodeRec) (x : NodeRec) : x ∈ insertNode r l ↔ x = r ∨ x ∈ l := by
  induction l with
  | nil => simp [insertNode]
  | cons y rest ih =>
    unfold insertNode
    split
    · simp
    · simp only [List.mem_cons, ih]; tauto

theorem insertNode_length (r : NodeRec) (l : List NodeRec) : (insertNode r l).length = l.length + 1 := by
  induction l with
  | nil => rfl
  | cons y rest ih =>
    unfold insertNode
    split
    · rfl
    · simp only [List.length_cons, ih]

/-- Inserting a record of a pair not yet there keeps the order. -/
theorem insertNode_ordered (r : NodeRec) {l : List NodeRec} (h : l.Pairwise (fun a b => a.before b = true))
    (hn : ∀ x ∈ l, x.key ≠ r.key) : (insertNode r l).Pairwise (fun a b => a.before b = true) := by
  induction l with
  | nil => simp [insertNode]
  | cons y rest ih =>
    rw [List.pairwise_cons] at h
    unfold insertNode
    split
    · rename_i hy
      rw [NodeRec.before_iff] at hy
      refine List.pairwise_cons.mpr ⟨fun x hx => ?_, List.pairwise_cons.mpr h⟩
      rw [NodeRec.before_iff]
      rcases List.mem_cons.mp hx with rfl | hx
      · exact hy
      · exact hy.trans ((NodeRec.before_iff _ _).mp (h.1 x hx))
    · rename_i hy
      rw [NodeRec.before_iff] at hy
      refine List.pairwise_cons.mpr ⟨fun x hx => ?_, ih h.2 (fun x hx => hn x (List.mem_cons_of_mem _ hx))⟩
      rcases (insertNode_mem r rest x).mp hx with rfl | hx
      · rw [NodeRec.before_iff]
        have := hn y List.mem_cons_self
        omega
      · exact h.1 x hx

/-- The records have distinct pairs of car and drop. -/
def Distinct (l : List NodeRec) : Prop := l.Pairwise (fun a b => a.key ≠ b.key)

theorem sortNodes_mem (l : List NodeRec) (x : NodeRec) : x ∈ sortNodes l ↔ x ∈ l := by
  induction l with
  | nil => simp [sortNodes]
  | cons y rest ih =>
    show x ∈ insertNode y (sortNodes rest) ↔ _
    rw [insertNode_mem, ih, List.mem_cons]

theorem sortNodes_length (l : List NodeRec) : (sortNodes l).length = l.length := by
  induction l with
  | nil => rfl
  | cons y rest ih =>
    show (insertNode y (sortNodes rest)).length = _
    rw [insertNode_length, ih, List.length_cons]

theorem sortNodes_ordered {l : List NodeRec} (h : Distinct l) :
    (sortNodes l).Pairwise (fun a b => a.before b = true) := by
  induction l with
  | nil => exact List.Pairwise.nil
  | cons y rest ih =>
    have hc := List.pairwise_cons.mp h
    exact insertNode_ordered y (ih hc.2) (fun x hx => (hc.1 x ((sortNodes_mem _ _).mp hx)).symm)

/-- Screening keeps records of distinct pairs, at most one for each entry (R25). -/
theorem screen_ok (f : Fleet) (l : List Byte) (js : List Nat) (acc : List NodeRec × Nat) (h : Distinct acc.1) :
    Distinct (screen f l js acc).1 ∧ (screen f l js acc).1.length ≤ acc.1.length + js.length := by
  induction js generalizing acc with
  | nil => exact ⟨h, Nat.le_refl _⟩
  | cons j rest ih =>
    obtain ⟨kept, skipped⟩ := acc
    unfold screen
    split
    · obtain ⟨h1, h2⟩ := ih (kept, skipped + 1) h
      exact ⟨h1, by simp only [List.length_cons] at *; omega⟩
    · rename_i r _
      split
      · obtain ⟨h1, h2⟩ := ih (kept, skipped + 1) h
        exact ⟨h1, by simp only [List.length_cons] at *; omega⟩
      · rename_i hk
        have hd : Distinct (kept ++ [r]) := by
          refine List.pairwise_append.mpr ⟨h, List.pairwise_singleton _ _, fun a ha b hb => ?_⟩
          rw [List.mem_singleton.mp hb]
          intro he
          refine hk (List.any_eq_true.mpr ⟨a, ha, ?_⟩)
          rw [NodeRec.names_iff, he]; rfl
        obtain ⟨h1, h2⟩ := ih (kept ++ [r], skipped) hd
        refine ⟨h1, ?_⟩
        simp only [List.length_append, List.length_cons, List.length_nil] at *
        omega

/-- What a reading gives is ordered and no longer than the table may be (R17, R21, R25). -/
theorem readFleet_ordered (l : List Byte) (u : Bool) (i : Identity) :
    (readFleet l u i).roster.length ≤ Config.rosterMax
      ∧ (readFleet l u i).roster.Pairwise (fun a b => a.before b = true) := by
  have h0 : ∀ st x, (defaultedReading st x).roster.length ≤ Config.rosterMax
      ∧ (defaultedReading st x).roster.Pairwise (fun a b => a.before b = true) :=
    fun _ _ => ⟨Nat.zero_le _, List.Pairwise.nil⟩
  unfold readFleet
  dsimp only
  split
  · exact h0 _ _
  · split
    · exact h0 _ _
    · rename_i hn
      split
      · exact h0 _ _
      · split
        · exact h0 _ _
        · have h := screen_ok (acceptedFleet l) l (List.range (byteAt l 5)) ([], 0) List.Pairwise.nil
          generalize screen (acceptedFleet l) l (List.range (byteAt l 5)) ([], 0) = x at h ⊢
          simp only [Bool.or_eq_true, decide_eq_true_eq, not_or, Nat.not_lt] at hn
          refine ⟨?_, sortNodes_ordered h.1⟩
          show (sortNodes x.1).length ≤ _
          rw [sortNodes_length]
          have := h.2
          simp only [List.length_nil, List.length_range] at this
          omega

theorem State.blockReading_ordered (s : State) :
    s.blockReading.roster.length ≤ Config.rosterMax
      ∧ s.blockReading.roster.Pairwise (fun x y => x.before y = true) := readFleet_ordered _ _ _

theorem State.fleetReading_ordered (s : State) (b : Bool) :
    (s.fleetReading b).roster.length ≤ Config.rosterMax
      ∧ (s.fleetReading b).roster.Pairwise (fun x y => x.before y = true) := by
  unfold State.fleetReading
  dsimp only
  split
  · exact ⟨Nat.zero_le _, List.Pairwise.nil⟩
  · exact s.blockReading_ordered

/-- The roster is built only outside RUNNING, where no permit stands. -/
theorem Keeps.buildRoster (s : State) (hrun : s.isRunning = false) {x : FleetReading}
    (hr : x.roster.length ≤ Config.rosterMax ∧ x.roster.Pairwise (fun x y => x.before y = true)) :
    Keeps s (s.buildRoster x) := by
  unfold State.buildRoster
  refine { memory := id, notice := id, active := id, queues := id, journal := fun h => ⟨h.1, h.2, h.3, h.4, h.5, h.6, h.7, h.8, h.9, h.10⟩,
           roster := fun _ => hr, permits := fun h c => ?_ }
  have hc := h c
  have h0 := hc.2.2 hrun
  unfold PermitHeld at *
  simp only [Fin.getElem_fin, Vector.getElem_ofFn] at *
  exact ⟨hc.1, fun ha => by rw [h0.1] at ha; exact absurd ha (by decide), fun _ => h0⟩

/-! ## What is shown -/

theorem Keeps.showAll (s : State) : Keeps s s.showAll := Keeps.withRam s (wf_putWords _)

theorem Keeps.showMirror (s : State) : Keeps s s.showMirror := by
  refine Keeps.withRam s (fun h => ?_)
  exact foldl_keeps (P := fun m => Mem.wf 0 m = true) _ _ (fun m i hm => wf_putWords _ hm) _ h


theorem Keeps.showStore (s : State) : Keeps s s.showStore :=
  (Keeps.showWords s _).trans (Keeps.withRam _ (wf_putWords _))

theorem Keeps.withCounts (s : State) (v : Vector Word 48) : Keeps s { s with mirrorCount := v } := {}
theorem Keeps.bumpCounts (s : State) : Keeps s s.bumpCounts := Keeps.withCounts s _

/-! ## Power and RESET_IN starts -/

theorem Keeps.abandonFlash (s : State) (cut : Cut) : Keeps s (s.abandonFlash cut) := by
  unfold State.abandonFlash
  split
  · exact Keeps.refl s
  · exact Keeps.withFlash s (fun h => Flash.canonical_cutOp h _ _ _ _ _)

/-- A start leaves every condition true, whatever held before, but for the flash array's. -/
theorem Keeps.blank (s : State) (x : ResetCause) : Keeps s (s.blank x) where
  memory h := ⟨by show Mem.wf 0 initialRam = true; decide, h.2⟩
  notice _ := by
    have h1 : (s.blank x).ntu = Ntu.reset := rfl
    have h2 : (s.blank x).pins.noticeA = false := rfl
    have h3 : (s.blank x).pins.noticeB = false := rfl
    unfold NoticeLinesDriven
    rw [h1, h2, h3]
    decide
  permits _ := by
    intro c
    refine ⟨?_, ?_, fun _ => ⟨?_, ?_⟩⟩ <;>
      simp [State.blank, State.reset, Pins.reset, PrmCar.reset]
  journal _ := by
    have h1 : (s.blank x).jrn = Jrn.reset := rfl
    have h2 : (s.blank x).ord = Ord.reset := rfl
    refine ⟨?_, ?_, ?_, ?_, ?_, ?_, ?_, ?_, ?_, ?_⟩
    · rw [h1]; decide
    · rw [h1]; unfold ReturnMarkOk; decide
    · rw [h1]; decide
    · rw [h1]; decide
    · exact fun e he => absurd he List.not_mem_nil
    · exact fun e he => absurd he List.not_mem_nil
    · rw [h1]; decide
    · rw [h1]; decide
    · rw [h2]; unfold ReturnMarkOk; decide
    · exact fun e he => absurd he List.not_mem_nil
  active _ := by
    intro k hk
    have : ∀ r : CopyIx, (s.blank x).isc.records[r] = CopyRec.bare .blank := by
      intro r; simp [State.blank, State.reset, Isc.reset]
    rw [this] at hk
    exact absurd hk.1 (by decide)
  roster _ := ⟨Nat.zero_le _, List.Pairwise.nil⟩
  queues _ := by
    intro c
    simp [State.blank, State.reset, Line.reset]

theorem Keeps.startUp (s : State) (o : StartOutcome) (hrun : s.isRunning = false) : Keeps s (s.startUp o) := by
  unfold State.startUp
  refine Keeps.trans ?_ (Keeps.showMirror _)
  refine Keeps.trans ?_ (Keeps.showAll _)
  refine (Keeps.startScan s _).trans (Keeps.buildRoster _ ?_ (State.blockReading_ordered _))
  unfold State.startScan
  generalize s.flash.scan o.marks = x
  exact hrun

/-! ## Entering RUNNING -/

theorem Keeps.enterRun (s : State) : Keeps s { s with run := .running } where
  permits h c := by
    refine ⟨(h c).1, (h c).2.1, fun hr => (h c).2.2 ?_⟩
    simp only [State.isRunning, State.live] at hr ⊢
    simp only [decide_true, Bool.and_true] at hr
    rw [hr]; rfl

theorem Keeps.startEntries (s : State) : Keeps s s.startEntries := by
  unfold State.startEntries
  dsimp only
  refine Keeps.trans ?_ (Keeps.withIsc _)
  have h1 : Keeps s (s.takeEntry s.startUpEntry) :=
    Keeps.takeEntry s (by simp only [Entry.sized, State.startUpEntry, List.length_cons, List.length_nil])
  have h2 : Keeps s (if s.fleet.status = .loaded then s.takeEntry s.startUpEntry else (s.takeEntry s.startUpEntry).raise .alert) :=
    Keeps.ite (fun _ => h1) (fun _ => h1.trans (Keeps.raise _ _))
  refine Keeps.trans h2 (Keeps.takeEntries _ ?_ _)
  intro e he
  simp only [State.scanEntryList, List.mem_map] at he
  obtain ⟨x, _, rfl⟩ := he
  exact copyStateEntry_sized _ _ _ _

theorem Keeps.sampleCars (s : State) : Keeps s s.sampleCars := Keeps.withSsu s _

/-! ## The warm restart -/

theorem State.writeEntry_prm (s : State) (e : Entry) : (s.writeEntry e).prm = s.prm := by
  unfold State.writeEntry; split <;> rfl
theorem State.placeEssential_prm (s : State) (e : Entry) : (s.placeEssential e).prm = s.prm := by
  unfold State.placeEssential
  split
  · exact State.writeEntry_prm s e
  · split <;> rfl
theorem State.placeLost_prm (s : State) : s.placeLost.prm = s.prm := by
  unfold State.placeLost
  split
  · exact State.placeEssential_prm _ _
  · rfl
theorem State.placeProgress_prm (s : State) (e : Entry) : (s.placeProgress e).prm = s.prm := by
  unfold State.placeProgress
  split
  · exact State.writeEntry_prm s e
  · rfl
theorem State.testHold_prm (s : State) : s.testHold.prm = s.prm := by
  unfold State.testHold; split <;> rfl

theorem State.takeEntry_prm (s : State) (e : Entry) : (s.takeEntry e).prm = s.prm := by
  unfold State.takeEntry
  dsimp only
  rw [State.testHold_prm]
  have h : ∀ t : State, (if e.kind.isProgress = true then t.placeProgress e else t.placeEssential e).prm = t.prm := by
    intro t; split
    · exact State.placeProgress_prm t e
    · exact State.placeEssential_prm t e
  rw [h, State.placeLost_prm]
  split <;> rfl

theorem State.takeEntries_prm (s : State) (l : List Entry) : (s.takeEntries l).prm = s.prm := by
  unfold State.takeEntries
  induction l generalizing s with
  | nil => rfl
  | cons e rest ih => exact (ih _).trans (State.takeEntry_prm s e)

theorem State.flushRequests_prm (s : State) : s.flushRequests.prm = s.prm := State.takeEntries_prm _ _

theorem Keeps.dropPermits (s : State) : Keeps s s.dropPermits := by
  refine Keeps.trans ?_ (Keeps.showWords _ isFlagsWord)
  exact { permits := fun _ c => by refine ⟨?_, ?_, fun _ => ⟨?_, ?_⟩⟩ <;> simp }

theorem Keeps.flushRequests (s : State) : Keeps s s.flushRequests := by
  unfold State.flushRequests
  have h : ∀ e ∈ s.jrn.requests.map EntryReq.entry, JournalHeld s → e.sized := by
    intro e he hj
    obtain ⟨q, hq, rfl⟩ := List.mem_map.mp he
    exact hj.asked q hq
  have hrest : ∀ (l : List Entry) (t : State), KeepsRest t (t.takeEntries l) := by
    intro l
    unfold State.takeEntries
    induction l with
    | nil => exact fun t => KeepsRest.refl t
    | cons e rest ih => exact fun t => (KeepsRest.takeEntry t e).trans (ih _)
  refine { (KeepsRest.withJrn s _).trans (hrest _ _) with journal := fun hj => ?_ }
  refine (Keeps.takeEntries _ (fun e he => h e he hj) _).journal ?_
  exact ⟨hj.1, hj.2, hj.3, hj.4, hj.5, fun q hq => absurd hq List.not_mem_nil, hj.7, hj.8, hj.9, hj.10⟩

theorem State.recordLosses_prm (s : State) : s.recordLosses.prm = s.prm := by
  unfold State.recordLosses
  generalize allCars.flatMap s.untakenLosses = l
  induction l generalizing s with
  | nil => rfl
  | cons e rest ih => exact ih _

/-- Every entry recorded for an untaken loss is well formed. -/
theorem State.untakenLosses_sized (s : State) (c : Car) : ∀ e ∈ s.untakenLosses c, e.sized := by
  unfold State.untakenLosses
  split
  · simp
  · intro e he
    rcases List.mem_cons.mp he with rfl | he
    · exact pad4_sized _
    · obtain ⟨v, _, rfl⟩ := List.mem_map.mp he
      exact pad4_sized _

theorem Keeps.asks (l : List Entry) (h : ∀ e ∈ l, e.sized) (s : State) : Keeps s (l.foldl (fun t e => t.ask .rpl e) s) := by
  induction l generalizing s with
  | nil => exact Keeps.refl s
  | cons e rest ih =>
    exact (Keeps.ask s .rpl (h e List.mem_cons_self)).trans (ih (fun x hx => h x (List.mem_cons_of_mem _ hx)) _)

theorem Keeps.recordLosses (s : State) : Keeps s s.recordLosses := by
  refine Keeps.asks _ (fun e he => ?_) s
  obtain ⟨c, _, hc⟩ := List.mem_flatMap.mp he
  exact s.untakenLosses_sized c e hc

theorem Keeps.loseBacklog (s : State) : Keeps s s.loseBacklog := by
  have h : Keeps s { s with jrn := { s.jrn with
      tally := saturate 65535 (s.jrn.tally + s.jrn.backlog.length), lost := saturate 65535 (s.jrn.lost + s.jrn.backlog.length),
      backlog := [] } } :=
    { journal := fun h => ⟨h.1, h.2, h.3, Nat.zero_le _, fun e he => absurd he List.not_mem_nil, h.6, h.7, h.8, h.9, h.10⟩ }
  unfold State.loseBacklog
  exact Keeps.ite (fun _ => h) (fun _ => h.trans (Keeps.showWords _ _))

theorem State.clearCauses_prm (s : State) (v : Word) : (s.clearCauses v).prm = s.prm := rfl

theorem State.loseBacklog_prm (s : State) : s.loseBacklog.prm = s.prm := by
  unfold State.loseBacklog
  dsimp only
  split <;> rfl

/-- RESTARTING begins with no permit ACTIVE, no car up and nothing in transit (R124, R160). -/
theorem Keeps.stop (s : State) (hp : ∀ c : Car, s.prm[c].active = false ∧ s.prm[c].up = false) {o : Ord} {x : ResetCause}
    (h1 : o.ret = s.ord.ret) (h2 : o.lw = s.ord.lw) (h3 : o.hw = s.ord.hw) :
    Keeps s { s with run := .restarting, cause := x, chan := Channels.empty, ord := o } where
  permits h c := ⟨(h c).1, (h c).2.1, fun _ => hp c⟩
  journal h := ⟨h.1, h.2, h.3, h.4, h.5, h.6, h.7, h.8, by
    show ReturnMarkOk o.ret ∧ o.lw + 256 ≤ o.hw
    rw [h1, h2, h3]; exact h.9, fun v hv => absurd hv List.not_mem_nil⟩

theorem Keeps.dropOwedReturns (s : State) : Keeps s s.dropOwedReturns := Keeps.withSsu s _

theorem Keeps.dropLines (s : State) : Keeps s s.dropLines where
  queues _ := by
    intro c
    simp [State.dropLines, Line.reset]

theorem Keeps.settleFlash (s : State) (o : RestartOutcome) : Keeps s (s.settleFlash o) := by
  unfold State.settleFlash
  split
  · exact Keeps.refl s
  · rename_i w op _
    have h1 : Keeps s { s with isc := { s.isc with fleetCut := s.isc.fleetCut || op.onFleet } } := Keeps.withIsc s
    split
    · exact h1.trans (Keeps.withFlash _ (fun h => Flash.canonical_stopErase h _ _))
    · refine Keeps.ite (fun _ => ?_) (fun _ => ?_)
      · exact h1.trans (Keeps.withFlash _ (fun h => Flash.canonical_program h _ _ _ _ _))
      · refine Keeps.trans ?_ (Keeps.failBlock _ _)
        exact h1.trans (Keeps.withFlash _ (fun h => Flash.canonical_program h _ _ _ _ _))

theorem Keeps.reclaimMark (s : State) : Keeps s s.reclaimMark := by
  unfold State.reclaimMark
  split
  · exact Keeps.refl s
  · split
    · exact Keeps.withIsc s
    · exact Keeps.refl s

theorem Keeps.interrupt (s : State) : Keeps s s.interrupt := by
  unfold State.interrupt
  split
  · exact Keeps.refl s
  · exact Keeps.finishWork s _ _

theorem Keeps.refuseQueue (s : State) : Keeps s s.refuseQueue := by
  unfold State.refuseQueue
  refine Keeps.trans ?_ (Keeps.foldl _ (fun t o => Keeps.answer t _ _ _) _ _)
  exact Keeps.withIsc s

theorem Flash.canonical_programMarks (l : List CopyIx) (ends : List ProgEnd) {f : Flash} (h : f.canonical) :
    (programMarks f l ends).1.canonical := by
  induction l generalizing f ends with
  | nil => exact h
  | cons r rest ih => exact ih _ (Flash.canonical_program h _ _ _ _ _)

theorem Keeps.withIscDge (s : State) {i : Isc} {g : Dge} (h : i.records = s.isc.records) :
    Keeps s { s with isc := i, dge := g } where
  active ha := by
    have h' : ∀ r : CopyIx, i.records[r] = s.isc.records[r] := fun r => by rw [h]
    intro k hk
    refine ha k ?_
    rw [← h', ← h']
    exact hk

theorem Keeps.restartStore (s : State) (o : RestartOutcome) : Keeps s (s.restartStore o) := by
  have h : ∀ t : State, Keeps s t →
      Keeps s { t with isc := { t.isc with lastDoor := 5, lastInfo := 5, work := none }, dge := Dge.reset } :=
    fun t ht => ht.trans (Keeps.withIscDge t rfl)
  unfold State.restartStore
  dsimp only
  refine h _ ?_
  refine Keeps.trans ?_ (Keeps.setTarget _ _)
  refine Keeps.trans ?_ (Keeps.setStoreState _ _)
  refine Keeps.trans ?_ (Keeps.startScan _ _)
  refine Keeps.trans (t := { (s.settleFlash o).reclaimMark.interrupt.refuseQueue with
    isc := { (s.settleFlash o).reclaimMark.interrupt.refuseQueue.isc with requests := [], reading := none } }) ?_ ?_
  · refine Keeps.trans ?_ (Keeps.withIsc _)
    exact (((Keeps.settleFlash s o).trans (Keeps.reclaimMark _)).trans (Keeps.interrupt _)).trans (Keeps.refuseQueue _)
  · exact Keeps.withFlash _ (fun h => Flash.canonical_programMarks _ _ h)

theorem Keeps.restart (s : State) (o : RestartOutcome) : Keeps s (s.restart o) := by
  unfold State.restart
  dsimp only
  refine Keeps.trans ?_ (Keeps.restartStore _ _)
  refine Keeps.trans ?_ (Keeps.dropLines _)
  refine Keeps.trans ?_ (Keeps.dropOwedReturns _)
  have h1 : Keeps s ((((s.dropPermits).recordLosses.flushRequests).loseBacklog).clearCauses 15) :=
    ((((Keeps.dropPermits s).trans (Keeps.recordLosses _)).trans (Keeps.flushRequests _)).trans (Keeps.loseBacklog _)).trans
      (Keeps.clearCauses _ _)
  have hp : ((((s.dropPermits).recordLosses.flushRequests).loseBacklog).clearCauses 15).prm = s.dropPermits.prm :=
    (State.clearCauses_prm _ _).trans ((State.loseBacklog_prm _).trans ((State.flushRequests_prm _).trans (State.recordLosses_prm _)))
  generalize (((s.dropPermits).recordLosses.flushRequests).loseBacklog).clearCauses 15 = t at h1 hp ⊢
  refine h1.trans (Keeps.stop t ?_ rfl rfl rfl)
  intro c
  rw [hp]
  simp [State.dropPermits, State.showWords]

/-! ## The return to RUNNING -/

theorem Keeps.rebuild (s : State) (b : Bool) (hrun : s.isRunning = false) : Keeps s (s.rebuild b) :=
  ((Keeps.buildRoster s hrun (s.fleetReading_ordered b)).trans (Keeps.bumpCounts _)).trans (Keeps.showMirror _)

theorem Keeps.returnSample (s : State) : Keeps s s.returnSample := by
  unfold State.returnSample
  dsimp only
  refine Keeps.trans ?_ (Keeps.tellHold _ _)
  refine Keeps.trans (Keeps.sample s) ?_
  generalize s.sample = t
  refine { journal := fun h => ?_ }
  have hh := holdAfter_held { t.jrn with r := t.ord.ret, lw := t.ord.lw, hw := t.ord.hw } h.9.2
  exact ⟨h.1, h.9.1, h.9.2, h.4, h.5, h.6, hh.1, hh.2, h.9, fun v hv => absurd hv List.not_mem_nil⟩

theorem Keeps.returns (s : State) (was : Car → Bool) : Keeps s (s.returns was) := by
  unfold State.returns
  dsimp only
  refine Keeps.trans ?_ (Keeps.slotCheck _ _)
  refine Keeps.trans ?_ (Keeps.startScanTimer _)
  refine Keeps.trans ?_ (Keeps.foldl _ (Keeps.settleCar was) allCars _)
  exact ((Keeps.enterRun s).trans (Keeps.returnSample _)).trans (Keeps.startEntries _)

end Sys2Proof.Machine
end

