-- ==== Sys2Proof/Laws/LineFrames.lean ====
section
/-! SUPPORT. What the operations of a car's line leave as it was: each of them stands in LineFrame, so nothing but that
line, its channels, entry requests and the arbiter's requests can differ after it. -/

namespace Sys2Proof.Machine

set_option Elab.async false

/-! ## One element of six -/

theorem set_get {α : Type} (v : Vector α 6) (c : Car) (x : α) : (v.set c x)[c] = x := by simp

theorem set_get_ne {α : Type} (v : Vector α 6) {c d : Car} (x : α) (h : d ≠ c) : (v.set c x)[d] = v[d] := by
  simp only [Fin.getElem_fin]; rw [Vector.getElem_set_ne]; intro hh; exact h (Fin.ext hh).symm

theorem eq_set_of_others {α : Type} (v w : Vector α 6) (c : Car) (h : ∀ d, d ≠ c → w[d] = v[d]) : w = v.set c w[c] := by
  ext i hi
  simp only [Vector.getElem_set]
  split
  · rename_i h; subst h; rfl
  · rename_i hh
    exact h ⟨i, hi⟩ (fun e => hh (congrArg Fin.val e).symm)

/-! ## The relation field by field -/

/-- LineFrame, one field at a time. -/
structure LineKept (c : Car) (s t : State) : Prop where
  power : t.power = s.power := by rfl
  resetIn : t.resetIn = s.resetIn := by rfl
  run : t.run = s.run := by rfl
  cause : t.cause = s.cause := by rfl
  pins : t.pins = s.pins := by rfl
  ord : t.ord = s.ord := by rfl
  ntu : t.ntu = s.ntu := by rfl
  ssu : t.ssu = s.ssu := by rfl
  fleet : t.fleet = s.fleet := by rfl
  roster : t.roster = s.roster := by rfl
  mirrorCount : t.mirrorCount = s.mirrorCount := by rfl
  rpl : t.rpl = s.rpl := by rfl
  prm : t.prm = s.prm := by rfl
  dge : t.dge = s.dge := by rfl
  flash : t.flash = s.flash := by rfl
  pending : t.pending = s.pending := by rfl
  lines : ∀ d, d ≠ c → t.lines[d] = s.lines[d] := by intros; rfl
  reports : ∀ d, d ≠ c → t.chan.clcRpl[d] = s.chan.clcRpl[d] := by intros; rfl
  tells : ∀ d, d ≠ c → t.chan.rplClc[d] = s.chan.rplClc[d] := by intros; rfl
  holds : ∀ d, d ≠ c → t.chan.jrnClc[d] = s.chan.jrnClc[d] := by intros; rfl
  chan : ∃ x y z, t.chan = { s.chan with clcRpl := x, rplClc := y, jrnClc := z } := by exact ⟨_, _, _, rfl⟩
  jrn : ∃ x, t.jrn = { s.jrn with requests := x } := by exact ⟨_, rfl⟩
  isc : ∃ x y z, t.isc = { s.isc with requests := x, work := y, storeState := z } := by exact ⟨_, _, _, rfl⟩
  pages : HostPagesKept s t := by exact fun _ _ _ => rfl

theorem LineKept.frame {c : Car} {s t : State} (h : LineKept c s t) : LineFrame c s t := by
  refine ⟨?_, h.pages⟩
  obtain ⟨x, y, z, hc⟩ := h.chan
  obtain ⟨w, hj⟩ := h.jrn
  obtain ⟨p, q, r, hi⟩ := h.isc
  have e1 := eq_set_of_others _ _ c h.lines
  have e2 := eq_set_of_others _ _ c h.reports
  have e3 := eq_set_of_others _ _ c h.tells
  have e4 := eq_set_of_others _ _ c h.holds
  have h1 := h.power; have h2 := h.resetIn; have h3 := h.run; have h4 := h.cause; have h5 := h.pins
  have h6 := h.ord; have h7 := h.ntu; have h8 := h.ssu; have h9 := h.fleet; have h10 := h.roster
  have h11 := h.mirrorCount; have h12 := h.rpl; have h13 := h.prm; have h14 := h.dge; have h15 := h.flash
  have h16 := h.pending
  clear h
  cases t
  cases s
  simp only at *
  subst h1 h2 h3 h4 h5 h6 h7 h8 h9 h10 h11 h12 h13 h14 h15 h16
  congr 1
  · subst hj; rfl
  · subst hi; rfl
  · subst hc
    simp only at e2 e3 e4
    congr 1

theorem LineKept.refl (c : Car) (s : State) : LineKept c s s := {}

theorem LineKept.trans {c : Car} {s t u : State} (h : LineKept c s t) (k : LineKept c t u) : LineKept c s u where
  power := k.power.trans h.power
  resetIn := k.resetIn.trans h.resetIn
  run := k.run.trans h.run
  cause := k.cause.trans h.cause
  pins := k.pins.trans h.pins
  ord := k.ord.trans h.ord
  ntu := k.ntu.trans h.ntu
  ssu := k.ssu.trans h.ssu
  fleet := k.fleet.trans h.fleet
  roster := k.roster.trans h.roster
  mirrorCount := k.mirrorCount.trans h.mirrorCount
  rpl := k.rpl.trans h.rpl
  prm := k.prm.trans h.prm
  dge := k.dge.trans h.dge
  flash := k.flash.trans h.flash
  pending := k.pending.trans h.pending
  lines d hd := (k.lines d hd).trans (h.lines d hd)
  reports d hd := (k.reports d hd).trans (h.reports d hd)
  tells d hd := (k.tells d hd).trans (h.tells d hd)
  holds d hd := (k.holds d hd).trans (h.holds d hd)
  chan := by
    obtain ⟨x, y, z, hx⟩ := h.chan
    obtain ⟨x', y', z', hk⟩ := k.chan
    exact ⟨x', y', z', by rw [hk, hx]⟩
  jrn := by
    obtain ⟨x, hx⟩ := h.jrn
    obtain ⟨x', hk⟩ := k.jrn
    exact ⟨x', by rw [hk, hx]⟩
  isc := by
    obtain ⟨x, y, z, hx⟩ := h.isc
    obtain ⟨x', y', z', hk⟩ := k.isc
    exact ⟨x', y', z', by rw [hk, hx]⟩
  pages a h1 h2 := (k.pages a h1 h2).trans (h.pages a h1 h2)

theorem LineKept.ite {p : Prop} [Decidable p] {c : Car} {s t u : State} (h : p → LineKept c s t) (k : ¬ p → LineKept c s u) :
    LineKept c s (if p then t else u) := by
  split
  · exact h ‹_›
  · exact k ‹_›

theorem LineKept.publish {c : Car} {s t : State} (h : LineKept c s t) : LineKept c s (publish s t) := by
  refine h.trans ?_
  exact
    { power := publish_power s t, resetIn := publish_resetIn s t, run := publish_run s t, cause := publish_cause s t,
      pins := publish_pins s t, ord := publish_ord s t, ntu := publish_ntu s t, ssu := publish_ssu s t,
      fleet := publish_fleet s t, roster := publish_roster s t, mirrorCount := publish_mirrorCount s t, rpl := publish_rpl s t,
      prm := publish_prm s t, dge := publish_dge s t, flash := publish_flash s t, pending := publish_pending s t,
      lines := fun d _ => by simp only [publish_lines], reports := fun d _ => by simp only [publish_chan],
      tells := fun d _ => by simp only [publish_chan], holds := fun d _ => by simp only [publish_chan],
      chan := ⟨_, _, _, publish_chan s t⟩, jrn := ⟨_, publish_jrn s t⟩, isc := ⟨_, _, _, publish_isc s t⟩,
      pages := fun a h1 h2 => publish_ramByte_other s t (by unfold Shown; omega) }

/-! ## The operations -/

section ops
variable (c : Car) (s : State)

theorem LineKept.setLine (l : Line) : LineKept c s (s.setLine c l) := { lines := fun _ hd => set_get_ne _ _ hd }
theorem LineKept.report (m : LineReport) : LineKept c s (s.report c m) := { reports := fun _ hd => set_get_ne _ _ hd }
theorem LineKept.dropTell : LineKept c s (s.dropTell c) := { tells := fun _ hd => set_get_ne _ _ hd }
theorem LineKept.ask (src : Source) (e : Entry) : LineKept c s (s.ask src e) := {}

theorem LineKept.settleStore : LineKept c s s.settleStore := by
  unfold State.settleStore
  repeat' split
  all_goals exact {}

theorem settleStore_others :
    s.settleStore.isc.requests = s.isc.requests ∧ s.settleStore.chan = s.chan ∧ s.settleStore.jrn = s.jrn
      ∧ s.settleStore.lines = s.lines := by
  unfold State.settleStore
  repeat' split
  all_goals exact ⟨rfl, rfl, rfl, rfl⟩

theorem LineKept.addRequest (q : ReadReq) : LineKept c s (s.addRequest q) :=
  LineKept.trans (t := { s with isc := { s.isc with requests := s.isc.requests ++ [q] } }) {} (LineKept.settleStore _ _)

theorem LineKept.withdraw (d : Car) (y : Bool) : LineKept c s (s.withdraw d y) := by
  unfold State.withdraw
  dsimp only
  exact LineKept.trans (t := { s with isc := { s.isc with requests := _ } }) {} (LineKept.settleStore _ _)

theorem LineKept.requestRead (i : Nat) : LineKept c s (s.requestRead c i) := by
  unfold State.requestRead
  dsimp only
  split
  · exact LineKept.refl c s
  · split
    · exact LineKept.setLine c s _
    · exact (LineKept.setLine c s _).trans (LineKept.addRequest _ _ _)

theorem LineKept.requestLowest : LineKept c s (s.requestLowest c) := by
  unfold State.requestLowest
  dsimp only
  split
  · exact LineKept.refl c s
  · split
    · exact LineKept.refl c s
    · exact LineKept.ite (fun _ => LineKept.refl c s) (fun _ => LineKept.requestRead c s _)

theorem LineKept.requestNext : LineKept c s (s.requestNext c) := by
  unfold State.requestNext
  dsimp only
  split
  · exact LineKept.refl c s
  · split
    · exact LineKept.ite (fun _ => LineKept.refl c s) (fun _ => LineKept.requestRead c s _)
    · exact LineKept.refl c s

theorem LineKept.releaseBuffer (y : Bool) : LineKept c s (s.releaseBuffer c y) := by
  unfold State.releaseBuffer
  exact LineKept.ite (fun _ => (LineKept.setLine c s _).trans (LineKept.withdraw _ _ _ _)) (fun _ => LineKept.setLine c s _)

theorem LineKept.releaseBuffers : LineKept c s (s.releaseBuffers c) := by
  unfold State.releaseBuffers
  exact ((LineKept.releaseBuffer c s _).trans (LineKept.releaseBuffer c _ _)).trans (LineKept.setLine c _ _)

theorem LineKept.tryGrant : LineKept c s (s.tryGrant c) := by
  unfold State.tryGrant
  dsimp only
  refine LineKept.ite (fun _ => ?_) (fun _ => LineKept.refl c s)
  split
  · exact LineKept.refl c s
  · have h := (LineKept.setLine c s (s.lines[c].granted ‹_›)).trans (LineKept.report c _ (.granted (‹LineJob›).jid (‹LineJob›).phase))
    exact LineKept.ite (fun _ => h.trans (LineKept.requestLowest c _)) (fun _ => h)

theorem LineKept.leaveLine (q : Option LineJob) : LineKept c s (s.leaveLine c q) := by
  unfold State.leaveLine
  exact ((LineKept.releaseBuffers c s).trans (LineKept.setLine c _ _)).trans (LineKept.tryGrant c _)

theorem LineKept.attemptFails (r : FailReason) : LineKept c s (s.attemptFails c r) := by
  unfold State.attemptFails
  split
  · exact LineKept.refl c s
  · exact (LineKept.report c s _).trans (LineKept.leaveLine c _ _)

theorem LineKept.endHolding : LineKept c s (s.endHolding c) := by
  unfold State.endHolding
  split
  · exact (LineKept.report c s _).trans (LineKept.leaveLine c _ _)
  · exact (LineKept.report c s _).trans (LineKept.leaveLine c _ _)
  · exact LineKept.refl c s

theorem LineKept.exchangeDone (j : LineJob) : LineKept c s (s.exchangeDone c j) := LineKept.setLine c s _

theorem LineKept.failedTry (b : Bool) : LineKept c s (s.failedTry c b) := by
  unfold State.failedTry
  dsimp only
  split
  · exact LineKept.ite (fun _ => LineKept.endHolding c s) (fun _ => LineKept.ite
      (fun _ => (LineKept.setLine c s _).trans (LineKept.report c _ _)) (fun _ => LineKept.attemptFails c s _))
  · exact LineKept.refl c s

theorem LineKept.yieldJob (j : LineJob) (n : Nat) : LineKept c s (s.yieldJob c j n) :=
  ((LineKept.report c s _).trans (LineKept.ask c _ _ _)).trans (LineKept.leaveLine c _ _)

theorem LineKept.surveyDone (j : LineJob) (l : List Long) : LineKept c s (s.surveyDone c j l) := by
  unfold State.surveyDone
  dsimp only
  have h : ∀ x, LineKept c s ((s.exchangeDone c x).report c (.surveyEnded j.jid l)) :=
    fun x => (LineKept.exchangeDone c s x).trans (LineKept.report c _ _)
  refine LineKept.ite (fun _ => h _) (fun _ => ?_)
  split
  · exact (h _).trans (LineKept.yieldJob c _ _ _)
  · exact (h _).trans (LineKept.requestLowest c _)

theorem LineKept.accepted (j : LineJob) : LineKept c s (s.accepted c j) := by
  unfold State.accepted
  dsimp only
  have h : ∀ x l m n, LineKept c s ((((s.exchangeDone c x).setLine c l).report c m).report c n) := fun x l m n =>
    (((LineKept.exchangeDone c s x).trans (LineKept.setLine c _ _)).trans (LineKept.report c _ _)).trans (LineKept.report c _ _)
  split
  · exact h _ _ _ _
  · split
    · exact (h _ _ _ _).trans (LineKept.yieldJob c _ _ _)
    · exact LineKept.ite (fun _ => (h _ _ _ _).trans (LineKept.attemptFails c _ _)) (fun _ => h _ _ _ _)

theorem LineKept.takeReply (j : LineJob) (b : RxBody) : LineKept c s (s.takeReply c j b) := by
  unfold State.takeReply
  refine LineKept.ite (fun _ => LineKept.endHolding c s) (fun _ => ?_)
  split
  · exact LineKept.surveyDone c s j _
  · exact LineKept.ite (fun _ => LineKept.accepted c s j) (fun _ => LineKept.ite (fun _ => LineKept.attemptFails c s _)
      (fun _ => LineKept.failedTry c s _))
  · exact LineKept.ite (fun _ => (LineKept.report c s _).trans (LineKept.leaveLine c _ _)) (fun _ => LineKept.attemptFails c s _)
  · exact LineKept.failedTry c s _

theorem LineKept.endFastRound : LineKept c s (s.endFastRound c) := by
  unfold State.endFastRound
  dsimp only
  refine LineKept.ite (fun _ => ?_) (fun _ => LineKept.setLine c s _)
  refine LineKept.trans ?_ (LineKept.tryGrant c _)
  exact LineKept.ite (fun _ => LineKept.setLine c s _) (fun _ => (LineKept.setLine c s _).trans (LineKept.report c _ _))

theorem LineKept.fallOwed (d : Drop) : LineKept c s (State.fallOwed c s d) := by
  unfold State.fallOwed
  exact LineKept.ite (fun _ => LineKept.refl c s) (fun _ => LineKept.ite
    (fun _ => (LineKept.setLine c s _).trans (LineKept.report c _ _)) (fun _ => LineKept.setLine c s _))

theorem LineKept.foldl {β : Type} (f : State → β → State) (h : ∀ s b, LineKept c s (f s b)) (l : List β) :
    LineKept c s (l.foldl f s) := by
  induction l generalizing s with
  | nil => exact LineKept.refl c s
  | cons b rest ih => exact (h s b).trans (ih _)

theorem LineKept.endOtherRound : LineKept c s (s.endOtherRound c) := by
  unfold State.endOtherRound
  dsimp only
  refine LineKept.trans (LineKept.foldl c s _ (LineKept.fallOwed c)
    (allDrops.filter (fun d => DropSet.has s.lines[c].called d))) ?_
  exact LineKept.ite (fun _ => (LineKept.setLine c _ _).trans (LineKept.endHolding c _))
    (fun _ => (LineKept.setLine c _ _).trans (LineKept.tryGrant c _))

theorem LineKept.endRound : LineKept c s (s.endRound c) := by
  unfold State.endRound
  split
  · exact LineKept.refl c s
  · exact LineKept.endFastRound c s
  · exact LineKept.endOtherRound c s

theorem LineKept.takeHello (d : Drop) (f : HelloFields) : LineKept c s (s.takeHello c d f) := by
  have h : LineKept c s (s.setLine c (s.lines[c].hear d)) := LineKept.setLine c s _
  have k : LineKept c s (match (s.setLine c (s.lines[c].hear d)).findNode c d with
    | none => (s.setLine c (s.lines[c].hear d)).ask (.clc c) (strangerEntry c d f (s.setLine c (s.lines[c].hear d)).ord.uptime)
    | some r => if r.isExcluded then s.setLine c (s.lines[c].hear d)
      else (s.setLine c (s.lines[c].hear d)).report c (.hello d f)) := by
    split
    · exact h.trans (LineKept.ask c _ _ _)
    · exact LineKept.ite (fun _ => h) (fun _ => h.trans (LineKept.report c _ _))
  unfold State.takeHello
  exact LineKept.ite (fun _ => k.trans (LineKept.endRound c _)) (fun _ => k)

theorem LineKept.discardFrame : LineKept c s (s.discardFrame c) := by
  unfold State.discardFrame
  exact LineKept.ite (fun _ => (LineKept.setLine c s _).trans (LineKept.failedTry c _ _)) (fun _ => LineKept.setLine c s _)

theorem LineKept.frameInRound (d : Drop) (b : RxBody) : LineKept c s (s.frameInRound c d b) := by
  unfold State.frameInRound
  split
  · split
    · exact LineKept.discardFrame c s
    · exact LineKept.ite (fun _ => LineKept.takeHello c s d _) (fun _ => LineKept.discardFrame c s)
  · exact LineKept.discardFrame c s

theorem LineKept.frameInExchange (d : Drop) (b : RxBody) : LineKept c s (s.frameInExchange c d b) := by
  unfold State.frameInExchange
  split
  · refine LineKept.ite (fun _ => ?_) (fun _ => LineKept.discardFrame c s)
    split
    · exact LineKept.ite (fun _ => LineKept.discardFrame c s) (fun _ => LineKept.failedTry c s _)
    · exact LineKept.ite (fun _ => LineKept.takeReply c s _ _) (fun _ => LineKept.failedTry c s _)
  · exact LineKept.discardFrame c s

theorem LineKept.judgeFrame (f : Judged) : LineKept c s (s.judgeFrame c f) := by
  unfold State.judgeFrame
  split
  · exact LineKept.discardFrame c s
  · exact LineKept.ite (fun _ => LineKept.frameInRound c s _ _) (fun _ => LineKept.frameInExchange c s _ _)

theorem LineKept.takeFrame (f : Judged) : LineKept c s (s.takeFrame c f) := by
  unfold State.takeFrame
  refine LineKept.ite (fun _ => ?_) (fun _ => LineKept.refl c s)
  dsimp only
  refine LineKept.trans (t := (s.setLine c { s.lines[c] with rx := if f.overlong then .waitIdle else .idle }).judgeFrame c f)
    ((LineKept.setLine c s _).trans (LineKept.judgeFrame c _ f)) ?_
  exact LineKept.ite (fun _ => LineKept.endRound c _) (fun _ => LineKept.refl c _)

theorem LineKept.sendRequest (p : Phase) : LineKept c s (s.sendRequest c p) := by
  unfold State.sendRequest
  refine LineKept.ite (fun _ => ?_) (fun _ => LineKept.refl c s)
  split
  · exact LineKept.ite (fun _ => LineKept.setLine c s _) (fun _ => LineKept.refl c s)
  · split
    · refine LineKept.ite (fun _ => ?_) (fun _ => LineKept.refl c s)
      exact LineKept.ite (fun _ => ((LineKept.setLine c s _).trans (LineKept.report c _ _)).trans (LineKept.requestNext c _))
        (fun _ => (LineKept.setLine c s _).trans (LineKept.report c _ _))
    · exact LineKept.refl c s

end ops

end Sys2Proof.Machine
end

