-- ==== Sys2Proof/Laws/PlannerFrames.lean ====
section
/-! SUPPORT. What the Restore Planner's operations leave as it was: each of them stands in PlannerFrame, and only adds to the
entry requests and to the news it has given. -/

namespace Sys2Proof.Machine

set_option Elab.async false

/-! ## The relation field by field -/

/-- PlannerFrame, one field at a time; entry requests and the news to the line only grow, and ALERT stays raised. -/
structure PlannerKept (c : Car) (d : Drop) (s t : State) : Prop where
  power : t.power = s.power := by rfl
  resetIn : t.resetIn = s.resetIn := by rfl
  run : t.run = s.run := by rfl
  cause : t.cause = s.cause := by rfl
  pins : ∃ a b, t.pins = { s.pins with noticeA := a, noticeB := b } := by exact ⟨_, _, rfl⟩
  ord : t.ord = s.ord := by rfl
  ntu : ∃ x, t.ntu = { s.ntu with causes := x } := by exact ⟨_, rfl⟩
  ssu : t.ssu = s.ssu := by rfl
  fleet : t.fleet = s.fleet := by rfl
  lines : t.lines = s.lines := by rfl
  prm : t.prm = s.prm := by rfl
  dge : t.dge = s.dge := by rfl
  flash : t.flash = s.flash := by rfl
  pending : t.pending = s.pending := by rfl
  rpl : ∀ x, x ≠ c → t.rpl[x] = s.rpl[x] := by intros; rfl
  reports : ∀ x, x ≠ c → t.chan.clcRpl[x] = s.chan.clcRpl[x] := by intros; rfl
  tells : ∀ x, x ≠ c → t.chan.rplClc[x] = s.chan.rplClc[x] := by intros; rfl
  marks : ∀ x, x ≠ c → t.chan.handed[x] = s.chan.handed[x] := by intros; rfl
  chan : ∃ x m y z, t.chan = { s.chan with clcRpl := x, handed := m, rplClc := y, rplPrm := z } := by exact ⟨_, _, _, _, rfl⟩
  jrn : ∃ x, t.jrn = { s.jrn with requests := x } := by exact ⟨_, rfl⟩
  isc : ∃ x, t.isc = { s.isc with records := x } := by exact ⟨_, rfl⟩
  records : ∀ k : CopyIx, t.isc.records[k] = { s.isc.records[k] with use := t.isc.records[k].use } := by intros; rfl
  length : t.roster.length = s.roster.length := by rfl
  nodes : ∀ (i : Nat) (r : NodeRec), s.roster[i]? = some r → ¬ (r.car = c ∧ r.drop = d) →
    ∃ x : Nat, t.roster[i]? = some { r with cost := x } ∧ (r.car ≠ c → x = r.cost) := by
      exact fun _ r h _ => ⟨r.cost, h, fun _ => rfl⟩
  names : ∀ (i : Nat) (r : NodeRec), s.roster[i]? = some r →
    ∃ r', t.roster[i]? = some r' ∧ r'.car = r.car ∧ r'.drop = r.drop := by
      exact fun _ r h => ⟨r, h, rfl, rfl⟩
  asks : s.jrn.requests <+: t.jrn.requests := by exact List.prefix_refl _
  told : s.chan.rplClc[c] <+: t.chan.rplClc[c] := by exact List.prefix_refl _
  alert : s.ntu.causes.getLsbD 3 = true → t.ntu.causes.getLsbD 3 = true := by exact id
  pages : HostPagesKept s t := by exact fun _ _ _ => rfl

theorem PlannerKept.frame {c : Car} {d : Drop} {s t : State} (h : PlannerKept c d s t) : PlannerFrame c d s t := by
  refine ⟨?_, h.pages, h.length, h.nodes, h.records⟩
  obtain ⟨x, m, y, z, hc⟩ := h.chan
  obtain ⟨w, hj⟩ := h.jrn
  obtain ⟨p, hi⟩ := h.isc
  obtain ⟨a, b, hp⟩ := h.pins
  obtain ⟨n, hn⟩ := h.ntu
  have e1 := eq_set_of_others _ _ c h.rpl
  have e2 := eq_set_of_others _ _ c h.reports
  have e3 := eq_set_of_others _ _ c h.tells
  have e4 := eq_set_of_others _ _ c h.marks
  have h1 := h.power; have h2 := h.resetIn; have h3 := h.run; have h4 := h.cause; have h6 := h.ord
  have h8 := h.ssu; have h9 := h.fleet; have h10 := h.lines; have h13 := h.prm; have h14 := h.dge; have h15 := h.flash
  have h16 := h.pending
  clear h
  cases t
  cases s
  simp only at *
  subst h1 h2 h3 h4 h6 h8 h9 h10 h13 h14 h15 h16
  congr 1
  · subst hp; rfl
  · subst hn; rfl
  · subst hj; rfl
  · subst hi; rfl
  · subst hc
    simp only at e2 e3 e4
    congr 1

theorem PlannerKept.refl (c : Car) (d : Drop) (s : State) : PlannerKept c d s s := {}

theorem PlannerKept.trans {c : Car} {d : Drop} {s t u : State} (h : PlannerKept c d s t) (k : PlannerKept c d t u) :
    PlannerKept c d s u where
  power := k.power.trans h.power
  resetIn := k.resetIn.trans h.resetIn
  run := k.run.trans h.run
  cause := k.cause.trans h.cause
  pins := by
    obtain ⟨a, b, hx⟩ := h.pins
    obtain ⟨a', b', hk⟩ := k.pins
    exact ⟨a', b', by rw [hk, hx]⟩
  ord := k.ord.trans h.ord
  ntu := by
    obtain ⟨x, hx⟩ := h.ntu
    obtain ⟨x', hk⟩ := k.ntu
    exact ⟨x', by rw [hk, hx]⟩
  ssu := k.ssu.trans h.ssu
  fleet := k.fleet.trans h.fleet
  lines := k.lines.trans h.lines
  prm := k.prm.trans h.prm
  dge := k.dge.trans h.dge
  flash := k.flash.trans h.flash
  pending := k.pending.trans h.pending
  rpl x hx := (k.rpl x hx).trans (h.rpl x hx)
  reports x hx := (k.reports x hx).trans (h.reports x hx)
  tells x hx := (k.tells x hx).trans (h.tells x hx)
  marks x hx := (k.marks x hx).trans (h.marks x hx)
  chan := by
    obtain ⟨x, m, y, z, hx⟩ := h.chan
    obtain ⟨x', m', y', z', hk⟩ := k.chan
    exact ⟨x', m', y', z', by rw [hk, hx]⟩
  jrn := by
    obtain ⟨x, hx⟩ := h.jrn
    obtain ⟨x', hk⟩ := k.jrn
    exact ⟨x', by rw [hk, hx]⟩
  isc := by
    obtain ⟨x, hx⟩ := h.isc
    obtain ⟨x', hk⟩ := k.isc
    exact ⟨x', by rw [hk, hx]⟩
  records r := by rw [k.records r, h.records r]
  length := k.length.trans h.length
  nodes i r hr hn := by
    obtain ⟨x, hx, hc⟩ := h.nodes i r hr hn
    obtain ⟨y, hy, hd⟩ := k.nodes i _ hx hn
    exact ⟨y, hy, fun hh => (hd hh).trans (hc hh)⟩
  names i r hr := by
    obtain ⟨x, hx, h1, h2⟩ := h.names i r hr
    obtain ⟨y, hy, h3, h4⟩ := k.names i x hx
    exact ⟨y, hy, h3.trans h1, h4.trans h2⟩
  asks := h.asks.trans k.asks
  told := h.told.trans k.told
  alert := k.alert ∘ h.alert
  pages a h1 h2 := (k.pages a h1 h2).trans (h.pages a h1 h2)

theorem PlannerKept.ite {p : Prop} [Decidable p] {c : Car} {d : Drop} {s t u : State} (h : p → PlannerKept c d s t)
    (k : ¬ p → PlannerKept c d s u) : PlannerKept c d s (if p then t else u) := by
  split
  · exact h ‹_›
  · exact k ‹_›

theorem PlannerKept.publish (c : Car) (d : Drop) (s t : State) : PlannerKept c d t (publish s t) where
  power := publish_power s t
  resetIn := publish_resetIn s t
  run := publish_run s t
  cause := publish_cause s t
  pins := ⟨_, _, publish_pins s t⟩
  ord := publish_ord s t
  ntu := ⟨_, publish_ntu s t⟩
  ssu := publish_ssu s t
  fleet := publish_fleet s t
  lines := publish_lines s t
  prm := publish_prm s t
  dge := publish_dge s t
  flash := publish_flash s t
  pending := publish_pending s t
  rpl x _ := by simp only [publish_rpl]
  reports x _ := by simp only [publish_chan]
  tells x _ := by simp only [publish_chan]
  chan := ⟨_, _, _, _, publish_chan s t⟩
  jrn := ⟨_, publish_jrn s t⟩
  isc := ⟨_, publish_isc s t⟩
  records r := by simp only [publish_isc]
  length := by rw [publish_roster]
  nodes i r hr _ := ⟨r.cost, by rw [publish_roster]; exact hr, fun _ => rfl⟩
  names i r hr := ⟨r, by rw [publish_roster]; exact hr, rfl, rfl⟩
  asks := by rw [publish_jrn]
  told := by simp only [publish_chan]; exact List.prefix_refl _
  alert := by rw [publish_ntu]; exact id
  pages a h1 h2 := publish_ramByte_other s t (by unfold Shown; omega)

/-! ## The operations -/

section ops
variable (c : Car) (d : Drop) (s : State)

theorem PlannerKept.setRpl (v : RplCar) : PlannerKept c d s (s.setRpl c v) :=
  { rpl := fun _ hx => set_get_ne _ _ hx
    pages := fun a h1 h2 => State.setRpl_ramByte_other s c v (by unfold Shown; omega) }

theorem PlannerKept.dropReport : PlannerKept c d s (s.dropReport c) :=
  { reports := fun _ hx => set_get_ne _ _ hx
    marks := fun _ hx => set_get_ne _ _ hx }

theorem PlannerKept.tell (m : LineOrder) : PlannerKept c d s (s.tell c m) :=
  { tells := fun _ hx => set_get_ne _ _ hx
    told := by
      have : (s.tell c m).chan.rplClc[c] = s.chan.rplClc[c] ++ [m] := set_get _ _ _
      rw [this]; exact List.prefix_append _ _ }

theorem PlannerKept.reportDoor (r : DoorReport) : PlannerKept c d s (s.reportDoor r) := {}

theorem PlannerKept.ask (src : Source) (e : Entry) : PlannerKept c d s (s.ask src e) :=
  { asks := List.prefix_append _ _ }

theorem PlannerKept.raiseAlert : PlannerKept c d s (s.raise .alert) :=
  { alert := fun h => by
      show (s.ntu.causes ||| 8).getLsbD 3 = true
      simp }

theorem PlannerKept.setUse (k : CopyIx) (n : Nat) : PlannerKept c d s (s.setRecord k { s.isc.records[k] with use := n }) :=
  { records := fun r => by
      rw [State.setRecord_isc]
      by_cases hr : r = k
      · subst hr; simp
      · have : (s.isc.records.set k { s.isc.records[k] with use := n })[r] = s.isc.records[r] := by
          simp only [Fin.getElem_fin]; rw [Vector.getElem_set_ne]; intro hh; exact hr (Fin.ext hh).symm
        simp only [this]
    pages := fun a h1 h2 => State.setRecord_ramByte_other s k _ (by unfold Shown; omega) }

theorem PlannerKept.pin (k : CopyIx) : PlannerKept c d s (s.pin k) := PlannerKept.setUse c d s k _
theorem PlannerKept.unpin (k : CopyIx) : PlannerKept c d s (s.unpin k) := PlannerKept.setUse c d s k _

theorem PlannerKept.repin (old : Option RplJob) (k : CopyIx) : PlannerKept c d s (s.repin old k) := by
  unfold State.repin
  split
  · exact PlannerKept.pin c d s k
  · exact PlannerKept.ite (fun _ => PlannerKept.setUse c d s k _)
      (fun _ => (PlannerKept.unpin c d s _).trans (PlannerKept.pin c d _ k))

theorem PlannerKept.unpinJob (r : NodeRec) : PlannerKept c d s (s.unpinJob r) := by
  unfold State.unpinJob
  split
  · exact PlannerKept.refl c d s
  · exact PlannerKept.unpin c d s _

/-- A map of the roster that touches the record of (c, d) and the costs of car c's nodes. -/
theorem PlannerKept.mapRoster (g : NodeRec → NodeRec) (hn : ∀ r, (g r).car = r.car ∧ (g r).drop = r.drop)
    (ho : ∀ r, ¬ (r.car = c ∧ r.drop = d) → ∃ x : Nat, g r = { r with cost := x } ∧ (r.car ≠ c → x = r.cost)) :
    PlannerKept c d s (s.setRoster (s.roster.map g)) :=
  { length := by simp
    nodes := fun i r hr hc => by
      obtain ⟨x, hx, hy⟩ := ho r hc
      exact ⟨x, by simp [hr, hx], hy⟩
    names := fun i r hr => ⟨g r, by simp [hr], (hn r).1, (hn r).2⟩
    pages := fun a h1 h2 => State.setRoster_ramByte_other s _ (by unfold Shown; omega) }

theorem PlannerKept.setNode (n : NodeRec) (h : n.car = c ∧ n.drop = d) : PlannerKept c d s (s.setNode c d n) := by
  refine PlannerKept.mapRoster c d s _ (fun r => ?_) (fun r hr => ?_)
  · split
    · rename_i hh
      simp only [NodeRec.names, Bool.and_eq_true, decide_eq_true_eq] at hh
      exact ⟨h.1.trans hh.1.symm, h.2.trans hh.2.symm⟩
    · exact ⟨rfl, rfl⟩
  · have : ¬ (r.names c d = true) := by
      simp only [NodeRec.names, Bool.and_eq_true, decide_eq_true_eq]; exact hr
    rw [if_neg this]
    exact ⟨r.cost, rfl, fun _ => rfl⟩

theorem PlannerKept.nodeEntry (k : EntryKind) (r : NodeRec) (l : List Byte) : PlannerKept c d s (s.nodeEntry k r l) :=
  PlannerKept.ask c d s _ _

theorem PlannerKept.carEntry (k : EntryKind) (x : Car) (u : Long) (l : List Byte) :
    PlannerKept c d s (s.carEntry k x u l) :=
  PlannerKept.ask c d s _ _

theorem PlannerKept.nodeFailedEntry (r : NodeRec) (b : Bool) (m n : Nat) : PlannerKept c d s (s.nodeFailedEntry r b m n) := by
  unfold State.nodeFailedEntry
  exact PlannerKept.ite (fun _ => (PlannerKept.nodeEntry c d s _ _ _).trans (PlannerKept.raiseAlert c d _))
    (fun _ => PlannerKept.nodeEntry c d s _ _ _)

theorem PlannerKept.writeNode {o n : NodeRec} (ho : o.car = c ∧ o.drop = d) (hn : n.car = c ∧ n.drop = d) :
    PlannerKept c d s (s.writeNode o n) := by
  obtain ⟨rfl, rfl⟩ := ho
  have hs := NodeRec.stamped_names n o s.ord.uptime
  unfold State.writeNode
  dsimp only
  have h := PlannerKept.setNode o.car o.drop s (n.stamped o s.ord.uptime) ⟨hs.1.trans hn.1, hs.2.trans hn.2⟩
  exact PlannerKept.ite (fun _ => h) (fun _ => h.trans (PlannerKept.tell _ _ _ _))

theorem PlannerKept.putNode {o n : NodeRec} (ho : o.car = c ∧ o.drop = d) (hn : n.car = c ∧ n.drop = d) :
    PlannerKept c d s (s.putNode o n) := by
  unfold State.putNode
  have h := PlannerKept.writeNode c d s ho hn
  exact PlannerKept.ite (fun _ => h.trans (PlannerKept.reportDoor c d _ _)) (fun _ => h)

theorem PlannerKept.updateDoors : PlannerKept c d s (s.updateDoors c) := by
  unfold State.updateDoors
  dsimp only
  refine PlannerKept.ite (fun _ => ?_) (fun _ => PlannerKept.setRpl c d s _)
  exact PlannerKept.ite (fun _ => (PlannerKept.setRpl c d s _).trans (PlannerKept.carEntry c d _ _ _ _ _))
    (fun _ => PlannerKept.setRpl c d s _)

theorem PlannerKept.judgeLate (u : Long) : PlannerKept c d s (s.judgeLate c u) := by
  unfold State.judgeLate
  refine PlannerKept.ite (fun _ => PlannerKept.refl c d s) (fun _ => PlannerKept.ite (fun _ => ?_) (fun _ => ?_))
  · exact ((PlannerKept.setRpl c d s _).trans (PlannerKept.carEntry c d _ _ _ _ _)).trans (PlannerKept.raiseAlert c d _)
  · exact (PlannerKept.setRpl c d s _).trans (PlannerKept.carEntry c d _ _ _ _ _)

theorem PlannerKept.showEstimate (x : Car) : PlannerKept c d s (s.showEstimate x) :=
  { pages := fun a h1 h2 => State.showEstimate_ramByte_other s x (by unfold Shown; omega) }

theorem PlannerKept.estimate : PlannerKept c d s (s.estimate c) := by
  unfold State.estimate State.estimateAt
  dsimp only
  refine PlannerKept.ite (fun _ => ?_) (fun _ => PlannerKept.refl c d s)
  refine PlannerKept.trans ?_ (PlannerKept.showEstimate c d _ c)
  refine PlannerKept.trans ?_ (PlannerKept.judgeLate c d _ _)
  refine PlannerKept.trans ?_ (PlannerKept.setRpl c d _ _)
  refine PlannerKept.mapRoster c d s _ (State.repriced_names s c) (fun r _ => ?_)
  unfold State.repriced
  split
  · rename_i h
    simp only [Bool.and_eq_true, decide_eq_true_eq] at h
    exact ⟨_, rfl, fun hh => absurd h.1 hh⟩
  · exact ⟨r.cost, rfl, fun _ => rfl⟩

theorem PlannerKept.changed : PlannerKept c d s (s.changed c) :=
  (PlannerKept.updateDoors c d s).trans (PlannerKept.estimate c d _)

/-- A record is put under a car and drop it keeps. -/
theorem PlannerKept.put {u : State} {o n : NodeRec} (h : PlannerKept c d s u) (ho : o.car = c ∧ o.drop = d)
    (hn : n.car = c ∧ n.drop = d) : PlannerKept c d s (u.putNode o n) := h.trans (PlannerKept.putNode c d u ho hn)

theorem PlannerKept.applyPlan {o r : NodeRec} (ho : o.car = c ∧ o.drop = d) (hr : r.car = c ∧ r.drop = d) (p : Planning) :
    PlannerKept c d s (s.applyPlan o r p) := by
  have hc : ∀ x, PlannerKept c d x (x.changed o.car) := fun x => ho.1 ▸ PlannerKept.changed c d x
  have ht : ∀ x m, PlannerKept c d x (State.tell x o.car m) := fun x m => ho.1 ▸ PlannerKept.tell c d x m
  have hv : ∀ x v, PlannerKept c d x (State.setRpl x o.car v) := fun x v => ho.1 ▸ PlannerKept.setRpl c d x v
  cases p
  · unfold State.applyPlan
    dsimp only
    refine PlannerKept.trans ?_ (hc _)
    refine PlannerKept.trans ?_ (PlannerKept.nodeFailedEntry c d _ _ _ _ _)
    exact PlannerKept.put c d s (PlannerKept.unpinJob c d s o) ho hr
  · rename_i plan reason k marginal
    unfold State.applyPlan
    dsimp only
    refine PlannerKept.trans ?_ (hc _)
    refine PlannerKept.trans ?_ (ht _ _)
    refine PlannerKept.trans ?_ (PlannerKept.nodeEntry c d _ _ _ _)
    have h1 : ∀ n v, n.car = c ∧ n.drop = d →
        PlannerKept c d s (((s.repin o.job k).setRpl o.car v).putNode o n) := by
      intro n v hn
      refine PlannerKept.put c d s ?_ ho hn
      exact (PlannerKept.repin c d s o.job k).trans (hv _ v)
    split
    · refine PlannerKept.trans ?_ (PlannerKept.nodeEntry c d _ _ _ _)
      exact h1 _ _ hr
    · exact h1 _ _ hr

theorem PlannerKept.failAttempt {r : NodeRec} (hr : r.car = c ∧ r.drop = d) (j : RplJob) (e : FailReason) :
    PlannerKept c d s (s.failAttempt r j e) := by
  have hc : ∀ x, PlannerKept c d x (x.changed r.car) := fun x => hr.1 ▸ PlannerKept.changed c d x
  unfold State.failAttempt
  dsimp only
  split
  · refine PlannerKept.trans ?_ (hc _)
    refine PlannerKept.trans ?_ (PlannerKept.nodeFailedEntry c d _ _ _ _ _)
    exact PlannerKept.putNode c d s hr hr
  · refine PlannerKept.trans ?_ (hc _)
    refine PlannerKept.trans ?_ (PlannerKept.nodeFailedEntry c d _ _ _ _ _)
    exact PlannerKept.put c d s (PlannerKept.unpin c d s _) hr hr

theorem PlannerKept.missNode {r : NodeRec} (hr : r.car = c ∧ r.drop = d) : PlannerKept c d s (s.missNode r) := by
  have hc : ∀ x, PlannerKept c d x (x.changed r.car) := fun x => hr.1 ▸ PlannerKept.changed c d x
  unfold State.missNode
  refine PlannerKept.trans ?_ (hc _)
  refine PlannerKept.trans ?_ (PlannerKept.nodeEntry c d _ _ _ _)
  exact PlannerKept.put c d s (PlannerKept.unpinJob c d s r) hr hr

end ops

/-! ## The record a put leaves, and what a reckoning changes of it -/

theorem NodeRec.names_both (r : NodeRec) (c : Car) (d : Drop) : r.names c d = true ↔ r.car = c ∧ r.drop = d := by
  simp only [NodeRec.names, Bool.and_eq_true, decide_eq_true_eq]

/-- A record found is one of that car and drop. -/
theorem State.findNode_names {s : State} {c : Car} {d : Drop} {r : NodeRec} (h : s.findNode c d = some r) :
    r.car = c ∧ r.drop = d := by
  unfold State.findNode at h
  exact (NodeRec.names_both r c d).mp (List.find?_some (p := fun x : NodeRec => x.names c d) h)

/-- The record of a place that has one, once another has been put there. -/
theorem State.findNode_setNode {s : State} {c : Car} {d : Drop} {r n : NodeRec} (h : s.findNode c d = some r)
    (hn : n.car = c ∧ n.drop = d) : (s.setNode c d n).findNode c d = some n := by
  unfold State.findNode at h
  show (s.roster.map (fun r : NodeRec => if r.names c d then n else r)).find? (fun x : NodeRec => x.names c d) = some n
  generalize s.roster = l at *
  induction l with
  | nil => simp at h
  | cons x rest ih =>
    by_cases hx : x.names c d = true
    · simp [hx, (NodeRec.names_both n c d).mpr hn]
    · rw [List.find?_cons_of_neg (by simpa using hx)] at h
      rw [List.map_cons, if_neg hx, List.find?_cons_of_neg (by simpa using hx)]
      exact ih h

/-- A map of the roster that keeps car and drop maps the record found. -/
theorem State.findNode_map (s : State) (c : Car) (d : Drop) {g : NodeRec → NodeRec}
    (hg : ∀ r, (g r).car = r.car ∧ (g r).drop = r.drop) :
    (s.setRoster (s.roster.map g)).findNode c d = (s.findNode c d).map g := by
  have h : (fun r : NodeRec => r.names c d) ∘ g = fun r => r.names c d := by
    funext r; simp only [Function.comp, NodeRec.names, (hg r).1, (hg r).2]
  show (s.roster.map g).find? (fun r => r.names c d) = (s.roster.find? (fun r => r.names c d)).map g
  rw [List.find?_map, h]

theorem State.setRpl_nextJob (s : State) (c : Car) (v : RplCar) : (s.setRpl c v).rpl[c].nextJob = v.nextJob := by
  have h : (s.setRpl c v).rpl[c] = v := set_get _ _ _
  rw [h]

theorem State.judgeLate_rest (s : State) (c : Car) (u : Long) :
    (s.judgeLate c u).roster = s.roster ∧ (s.judgeLate c u).chan = s.chan ∧ (s.judgeLate c u).isc = s.isc
      ∧ (s.judgeLate c u).rpl[c].nextJob = s.rpl[c].nextJob := by
  unfold State.judgeLate
  dsimp only
  generalize (decide (s.rpl[c].budget ≠ 0) && decide (s.rpl[c].budget < s.rpl[c].p)) = b
  have h := State.setRpl_nextJob s c { s.rpl[c] with late := b }
  split
  · exact ⟨rfl, rfl, rfl, rfl⟩
  · split
    · exact ⟨rfl, rfl, rfl, h⟩
    · exact ⟨rfl, rfl, rfl, h⟩

theorem RplCar.settle_nextJob (r : RplCar) (b : Bool) : (r.settle b).nextJob = r.nextJob := by
  unfold RplCar.settle
  split
  · rfl
  · rfl

/-- What follows a change of a node or job: the roster's costs, the car's figures, entries, but no other news. -/
theorem State.changed_rest (s : State) (c : Car) :
    (∃ g : NodeRec → NodeRec, (s.changed c).roster = s.roster.map g ∧ ∀ r, ∃ x, g r = { r with cost := x })
      ∧ (s.changed c).chan = s.chan ∧ (s.changed c).isc = s.isc ∧ (s.changed c).rpl[c].nextJob = s.rpl[c].nextJob := by
  have hu : (s.updateDoors c).roster = s.roster ∧ (s.updateDoors c).chan = s.chan ∧ (s.updateDoors c).isc = s.isc
      ∧ (s.updateDoors c).rpl[c].nextJob = s.rpl[c].nextJob := by
    have hs : ∀ (t : State) (v : RplCar), v.nextJob = s.rpl[c].nextJob → (t.setRpl c v).rpl[c].nextJob = s.rpl[c].nextJob :=
      fun t v hv => (State.setRpl_nextJob t c v).trans hv
    have hc : (s.countDoors c).nextJob = s.rpl[c].nextJob := rfl
    unfold State.updateDoors
    dsimp only
    split
    · split
      · exact ⟨rfl, rfl, rfl, hs _ _ ((RplCar.settle_nextJob _ _).trans hc)⟩
      · exact ⟨rfl, rfl, rfl, hs _ _ ((RplCar.settle_nextJob _ _).trans hc)⟩
    · exact ⟨rfl, rfl, rfl, hs _ _ hc⟩
  unfold State.changed
  obtain ⟨h1, h2, h3, h4⟩ := hu
  generalize s.updateDoors c = u at *
  unfold State.estimate State.estimateAt
  dsimp only
  split
  · have hj := fun t : State => State.judgeLate_rest t c u.ord.uptime
    refine ⟨⟨u.repriced c, (hj _).1.trans (by rw [← h1]; rfl), fun r => ?_⟩, (hj _).2.1.trans h2, (hj _).2.2.1.trans h3,
      (hj _).2.2.2.trans ((State.setRpl_nextJob _ c _).trans h4)⟩
    unfold State.repriced
    split
    · exact ⟨_, rfl⟩
    · exact ⟨r.cost, rfl⟩
  · exact ⟨⟨id, by simp [h1], fun r => ⟨r.cost, rfl⟩⟩, h2, h3, h4⟩

end Sys2Proof.Machine
end

