-- ==== Sys2Proof/Tests/Slice0.lean ====
section
/-! SUPPORT. Named tests: the manual's worked examples, well-formedness, and the witnesses of the statements. -/

namespace Sys2Proof.Tests

set_option Elab.async false

open Sys2Proof.Machine

/-- The state a command leaves. -/
def after (i : Instr) (s : State) : State :=
  match exec i s with
  | .next t => t
  | _ => s

/-- A part in RUNNING with three sensed cars. -/
def up3 : State :=
  { State.reset with run := .running, fleet := { Fleet.defaulted .loaded with carCount := 3 } }

/-! ## Well-formedness: an ill-formed term for each check is refused -/

theorem test_wf_cut : (Instr.powerLost ⟨.part, [.part]⟩).wf = false := by decide
theorem test_wf_marks : (Instr.powerStart ⟨List.replicate 49 .verified⟩).wf = false := by decide
theorem test_wf_restart : (Instr.warmRestart 1 ⟨.verified, ⟨.whole, []⟩, List.replicate 81 .verified⟩).wf = false := by
  decide
theorem test_wf_erase : (Instr.blockEraseEnd (.failed ⟨.part, [.part]⟩)).wf = false := by decide
theorem test_wf_decay : (Instr.segmentReadEnd [(2048, 0)]).wf = false := by decide
theorem test_wf_digests : (Instr.digestList 0 0 0 0 (List.replicate 524 0)).wf = false := by decide +kernel
theorem test_wf_frame_lead : (Instr.discardedFrame 0 [0x5A]).wf = false := by decide
theorem test_wf_frame_long : (Instr.discardedFrame 0 (0xA5 :: List.replicate 2104 0)).wf = false := by decide +kernel
theorem test_wf_sound : (Instr.discardedFrame 0 [0xA5]).wf = true := by decide

/-! ## Digests and spans (03 sections 3.1 and 3.2, worked arithmetic and worked example) -/

theorem test_digest_unmasked : digestOf [1, 2, 3] = 0x000D0007#32 := by decide
theorem test_digest_masked : digestOf (maskFrom [⟨1, 1⟩] 0 [1, 2, 3]) = 0x00090005#32 := by decide
theorem test_digest_zero_segment : digestOf (List.replicate 2048 0) = 0x08000001#32 := by decide +kernel

/-- The information image of the example: 5,000 bytes, two spans. -/
def spanDesc : Desc :=
  { image := 1, version := 1, cls := 1, length := 5000, segments := segmentCount 5000, spans := [⟨2040, 20⟩, ⟨4100, 4⟩] }

theorem test_segments : spanDesc.segments = 3 ∧ segLen spanDesc 1 = 2048 ∧ segLen spanDesc 2 = 904 := by decide
theorem test_clipped_spans : clippedSpans spanDesc 0 = [⟨2040, 8⟩] ∧ clippedSpans spanDesc 1 = [⟨0, 12⟩]
    ∧ clippedSpans spanDesc 2 = [⟨4, 4⟩] := by decide

/-! ## The cost model (04 section 4.12) -/

/-- The door image of the worked case: 180,000 bytes, one span in segment 0. -/
def doorDesc : Desc :=
  { image := 7, version := 3, cls := 0, length := 180000, segments := segmentCount 180000, spans := [⟨100, 16⟩] }

theorem test_segment_costs : segCost 50 doorDesc true 5 = 20840 ∧ segCost 50 doorDesc true 0 = 20890
    ∧ segCost 50 doorDesc true 87 = 18600 := by decide +kernel
theorem test_copy_costs : fullCost 50 doorDesc = 1831680 ∧ surveyCost 50 doorDesc = 25920 ∧ startCost 50 = 10350 := by
  decide +kernel

/-! ## The check of a frame (05 R76: the CRC of the ASCII digits 1 to 9 with these parameters is 0x29B1) -/

theorem test_crc : crc16 [0x31, 0x32, 0x33, 0x34, 0x35, 0x36, 0x37, 0x38, 0x39] = 0x29B1#16 := by decide +kernel
theorem test_roll_call_frame : (rollCallFrame 0x41).length = 8 ∧ (rollCallFrame 0x41).take 6 = [0xA5, 0x0F, 0x10, 1, 0, 0x41] := by
  decide +kernel
theorem test_own_frame_discarded : judgeBytes (rollCallFrame 0) = .bad false := by decide +kernel
theorem test_running_frame_judged : judgeBytes (mkFrame 0x81 kindRunning [0]) = .frame 0 (.running 0) := by decide +kernel

/-! ## Supply sensing (01 section 1.8) -/

/-- Car 2 PRESENT with captured G 12, its line high. -/
def gapCar : State :=
  { up3 with ssu := up3.ssu.set 2 { SsuCar.reset with state := .present, g := 12 }
             pins := { up3.pins with csg := Vector.replicate 6 true } }

theorem test_dip : (after (.csgFallingEdge 2) gapCar).ssu[2].state = .dipping := by decide +kernel

/-- Car 2 in GAP with 3,403 ticks. -/
def longGap : State :=
  { up3 with ssu := up3.ssu.set 2 { SsuCar.reset with state := .gap, g := 12, ticks := 3403 } }

theorem test_candidate : (after (.csgRisingEdge 2) longGap).ssu[2].candidate = some 850 := by decide +kernel
theorem test_return : (after (.returnTimerExpiry 2) (after (.csgRisingEdge 2) longGap)).ssu[2].g = 850 := by decide +kernel
theorem test_eighth_tick : (after (.lossQualified 2)
    { gapCar with ssu := gapCar.ssu.set 2 { SsuCar.reset with state := .dipping, ticks := 7 } }).ssu[2].state = .gap := by
  decide +kernel

/-! ## What a restart or a power cut leaves in flash (08 R148, R153) -/

theorem test_identity_failed : ((Flash.blank.program (.identity 5) [] [] 0 ((FlashOp.identity 5).leftBy (.failed .whole))).readIdentity)
    = .unreadable := by decide
theorem test_stopped_erase_torn :
    let f := (Flash.blank.onHeader 0 (fun h => { h with eraseIntent := .recorded })).stopErase (.eraseHeader 0) ⟨.whole, []⟩
    (f.scan []).records[(0 : CopyIx)].state = .torn := by decide +kernel

/-! ## The ready clock (04 R65) and the permit at an inclusion (07 R121) -/

theorem test_clock_stands : ({ RplCar.reset with clock := 65535, clockOn := true } : RplCar).tick.clock = 65535 := by decide

/-- A car up with an ACTIVE permit, its one door node READY once more, and the report of the inclusion still to be taken. -/
def includedSince : State :=
  { up3 with roster := [{ NodeRec.built 0 0 .door 0 false with state := .ready }]
             prm := up3.prm.set 0 { active := true, up := true, withhold := false, doorRecords := 1 }
             chan := { Channels.empty with rplPrm := [⟨0, 0, .included, false⟩] } }

theorem test_inclusion_withdraws : (after .prmDoorReport includedSince).prm[(0 : Car)].active = false
    ∧ (after .prmDoorReport includedSince).jrn.requests.map (fun q => q.entry.body) = [[0, 2, 0, 0]] := by decide +kernel

/-- A permit made ACTIVE at a withhold sample, its node READY, and the reports of STARTING and of READY still to be taken. -/
def withheldSince : State :=
  { includedSince with chan := { Channels.empty with rplPrm := [⟨0, 0, .state .loading .starting, false⟩, ⟨0, 0, .state .starting .ready, true⟩] } }

theorem test_no_row_keeps : (after .prmDoorReport withheldSince).prm[(0 : Car)].active = true
    ∧ (after .prmDoorReport (after .prmDoorReport withheldSince)).jrn.requests = [] := by decide +kernel

/-- The vehicle number of erased bytes, programmed: not written at the next reading, and another may be written (08 R148). -/
theorem test_identity_erased :
    let f := Flash.blank.program (.identity 4294967295) [] [] 0 .whole
    f.readIdentity = .notWritten ∧ f.identityUsed = false ∧ (f.program (.identity 5) [] [] 0 .whole).readIdentity = .written 5 := by
  decide

/-- A car whose summary the host has overwritten, with a sample that changes no flag (07 R122). -/
def overwritten : State :=
  { up3 with ram := Mem.writeBytes 0 up3.ram 0x60 [9, 0xFF], chan := { Channels.empty with ordPrm := [Vector.replicate 6 false] } }

theorem test_withhold_shown : (after .prmWithholdSample overwritten).ramBytes 0x60 2 = [0, 0] := by decide +kernel

/-- A car with a budget of 1 ms, whose CAR RETURN of uptime 7 the RPL takes at uptime 9 (10 R171). -/
def lateReturn : State :=
  { up3 with roster := [{ NodeRec.built 0 0 .door 0 false with state := .dark }]
             rpl := up3.rpl.set 0 { RplCar.reset with budget := 1 }
             ord := { up3.ord with uptime := 9 }
             chan := { Channels.empty with ssuRpl := Channels.empty.ssuRpl.set 0 [.ret 3 false false 7] } }

theorem test_late_uptime : (after (.rplCarReturn 0) lateReturn).jrn.requests.map (fun q => (q.entry.kind, q.entry.uptime))
    = [(.late, 7)] := by decide +kernel

/-! ## Items that change and change back in one batch (02 R32, 09 R154, R156, R164) -/

/-- A node that is DARK and included by order, with EXCLUDE NODE and INCLUDE NODE of it posted, and its mirror entry and its car's
door counts overwritten by the host. -/
def excludedAndIncluded : State :=
  let ram := [(0x200, [1, 3, 0, 0, 0, 0, 0, 0, 0, 1]), (0x280, [1, 4, 0, 0, 0, 0, 0, 0, 0, 1]),
    (0x1204, [0xEE, 0xEE, 0xEE, 0xEE]), (0x6A, [0xEE, 0xEE]), (0x1202, [0xEE])].foldl
      (fun m x => Mem.writeBytes 0 m x.1 x.2) up3.ram
  let n := { NodeRec.built 0 0 .door 0 false with override := .include }
  { up3 with roster := [n], ord := { up3.ord with window := some 2 }, ram := ram
             rpl := up3.rpl.set 0 { RplCar.reset with total := 1 } }

theorem test_batch_changes_back :
    let t := after .quietWindowExpiry excludedAndIncluded
    t.ramByte 0x200 = 3 ∧ t.ramByte 0x280 = 3 ∧ t.roster.map (fun r => (r.override, r.state)) = [(.include, .dark)]
      ∧ t.rpl = excludedAndIncluded.rpl ∧ t.ramBytes 0x1204 4 = [0, 2, 1, 0] ∧ t.ramBytes 0x6A 2 = [0, 1]
      ∧ t.ramByte 0x1202 = 0xEE := by decide +kernel

/-! ## The journal (10 section 10.8) -/

/-- W at 8176, R at 200, hold set. -/
def pressed : State := { up3 with jrn := { up3.jrn with w := 8176, r := 200, hold := true } }

/-- An entry of a kind with a 4-byte body. -/
def shortEntry (k : EntryKind) : Entry := { kind := k, car := 0, drop := 1, uptime := 0, body := [0, 0, 0, 0] }

theorem test_journal_room : pressed.jrn.room = 212 := by decide
theorem test_journal_fits : (pressed.takeEntry (shortEntry .carReturn)).jrn.w = 8188 := by decide +kernel
theorem test_journal_withholds :
    ((pressed.takeEntry (shortEntry .carReturn)).takeEntry (shortEntry .nodePlanned)).jrn.withheld = 1 := by decide +kernel
theorem test_journal_wraps :
    let t := (pressed.takeEntry (shortEntry .carReturn)).takeEntry (shortEntry .nodeFailed)
    t.jrn.w = 12 ∧ t.jrn.room = 184 ∧ t.ramByte (0x6000 + 8188) = 0x7F := by decide +kernel
theorem test_journal_hold_ends :
    (({ pressed with jrn := { pressed.jrn with w := 12 } }).takeSteering ⟨4000, 1024, 3072⟩).jrn.hold = false := by
  decide +kernel

/-! ## The fleet table (02 section 2.7) -/

/-- The table of the example, without its digest. -/
def fleetHead : List Byte :=
  le32 4127 ++ [3, 10] ++ le16 900 ++ le16 100 ++ le16 300 ++ le16 100 ++ le16 20 ++ le16 50 ++ [9, 32] ++ le16 5
    ++ [1, 1, 0, 0, 0, 0]
    ++ [1, 2, 0, 0, 0] ++ [0, 1, 0, 0, 0] ++ [0, 5, 1, 4, 0] ++ [2, 1, 0, 0, 0] ++ [3, 1, 0, 0, 0]
    ++ [1, 9, 1, 4, 0] ++ [0, 1, 1, 4, 0] ++ [2, 3, 1, 17, 0] ++ [2, 3, 1, 5, 1] ++ [1, 1, 0, 0, 0]

/-- The 272 bytes of the block that holds it. -/
def fleetExample : List Byte :=
  fleetHead ++ le32 (digestOf fleetHead).toNat ++ List.replicate 190 0xFF

theorem test_fleet_status : (readFleet fleetExample false (.written 4127)).fleet.status = .loaded := by decide +kernel
theorem test_fleet_counts : (readFleet fleetExample false (.written 4127)).fleet.skipped = 5
    ∧ (readFleet fleetExample false (.written 4127)).fleet.attemptLimit = 7
    ∧ (readFleet fleetExample false (.written 4127)).fleet.tt = 10 := by decide +kernel
theorem test_fleet_roster : (readFleet fleetExample false (.written 4127)).roster.map (fun r => (r.car.val, r.drop.val + 1))
    = [(0, 1), (0, 5), (1, 1), (1, 2), (2, 3)] := by decide +kernel
theorem test_fleet_mismatch : (readFleet fleetExample false (.written 4128)).fleet.status = .mismatch := by decide +kernel
theorem test_fleet_erased : (readFleet (List.replicate 272 0xFF) false .notWritten).fleet.status = .absent := by decide +kernel

/-- Sound contents in the fleet block. -/
def fleetFlash : Flash := { Flash.blank with a := { Flash.blank.a with cells := Mem.writeBytes 0xFF [] fleetAddr fleetExample } }

/-- The block is judged by its contents (R21, R43); after a warm restart that cut its write short it is absent or bad (R149). -/
theorem test_fleet_by_contents :
    let s := { up3 with flash := fleetFlash, isc := { up3.isc with identity := .written 4127 } }
    let u : State := { s with isc := { s.isc with fleetCut := true } }
    (s.fleetReading true).fleet.status = .loaded ∧ u.blockReading.fleet.status = .loaded
      ∧ (u.fleetReading false).fleet.status = .bad ∧ (u.fleetReading true).fleet.status = .absent := by decide +kernel

/-! ## Starts -/

/-- A part without its supply, its flash array erased. -/
def unpowered : State := { State.reset with power := false, ram := [] }

set_option maxRecDepth 100000 in
/-- The state after reset is what a power start on an erased array gives (R159 and each block's start); that its memory
shows that state is the witness of PagesFollowItems and NodeMirrorFollowsRoster below. -/
theorem test_power_start : { after (.powerStart ⟨[]⟩) unpowered with ram := [] } = { State.reset with ram := [] } := by
  decide +kernel
theorem test_reset_memory : Mem.wf 0 State.reset.ram = true := by decide +kernel

/-! ## Witnesses: states and operands that meet the hypotheses of each statement, clause by clause -/

/-- The 128 bytes of a slot with these parameters. -/
def slotBytes (l : List Byte) : List Byte := List.replicate 8 0 ++ l ++ List.replicate (120 - l.length) 0

/-- A node of car 0, drop 1. -/
def node (st : NodeState) : NodeRec := { NodeRec.built 0 0 .door 0 false with state := st }

/-- A job on copy A of slot 0. -/
def job (p : Place) : RplJob :=
  { jid := 4, copy := 0, place := p, phase := some .load, reload := [2, 5], s := 0, retry := 0, condemned := false }

/-- What a node's HELLO tells that holds image 1, version 1, of one segment. -/
def heardFields : HelloFields := { cls := .door, ramLost := false, image := 1, version := 1, segments := 1, digestCapable := true }

/-- The three cars' part with one node. -/
def withNode (r : NodeRec) : State := { up3 with roster := [r] }

/-- The part with car 0's supply record. -/
def withSupply (r : SsuCar) (high : Bool) : State :=
  { up3 with ssu := up3.ssu.set 0 r, pins := { up3.pins with csg := up3.pins.csg.set 0 high } }

/-- The part with car 0's line. -/
def withLine (l : Line) : State := { up3 with lines := up3.lines.set 0 l }

/-- The part with news waiting. -/
def withNews (x : Channels) : State := { up3 with chan := x }

/-- A CLOSED copy of one segment, active with sequence 1. -/
def activeCopy0 : CopyRec :=
  { CopyRec.bare .closed with desc := { image := 1, version := 1, cls := 0, length := 16, segments := 1, spans := [] },
                              written := 1, table := [0], seq := 1 }

/-- The part with copy A of slot 0. -/
def withCopy (k : CopyRec) : State := { up3 with isc := { up3.isc with records := up3.isc.records.set 0 k } }

/-- Work with an operation in flight for the order in slot 0. -/
def workOf (op : FlashOp) (k : StoreKind) : Work :=
  { order := some ⟨0, k, slotBytes []⟩, target := op.copy, op := some op, due := none, sliceOver := false, suspending := false,
    suspended := false, data := [], table := [], expected := 0, failed := false }

/-- The part with work going on. -/
def withWork (w : Work) : State := { up3 with isc := { up3.isc with work := some w } }

/-- The part with a store order at the head of its queue. -/
def withOrder (k : StoreKind) (l : List Byte) : State := { up3 with isc := { up3.isc with queue := [⟨0, k, slotBytes l⟩] } }

/-- A line job of a class in a phase, with a reload set. -/
def lineJob (k : NodeClass) (p : Phase) (l : List Nat) : LineJob :=
  { jid := 4, drop := 0, cls := k, plan := .full, copy := 0, phase := p, reload := l, s := 0 }

/-- The line that serves a job with an exchange at a stage. -/
def serving (j : LineJob) (q : Request) (n : Nat) (st : Stage) : Line :=
  { Line.reset with state := .serving, holding := some j, exch := some ⟨q, [], n, st⟩ }

/-- Marks, steering values and hold of a journal without entries waiting. -/
theorem journal_held (w r : Nat) (hold : Bool) (hw : w % 4 = 0 ∧ w < 8192) (hr : ReturnMarkOk r)
    (h1 : hold = true → (r + 16384 - w - 4) % 8192 < 3072) (h2 : hold = false → 1024 ≤ (r + 16384 - w - 4) % 8192) :
    JournalHeld { up3 with jrn := { up3.jrn with w := w, r := r, hold := hold } } where
  mark := hw
  ret := hr
  waters := (by decide : up3.jrn.lw + 256 ≤ up3.jrn.hw)
  backlog := (by decide : up3.jrn.backlog.length ≤ 16)
  waiting := fun _ h => by cases h
  asked := fun _ h => by cases h
  held := h1
  free := h2
  inForce := (⟨⟨by decide, by decide⟩, by decide⟩ : ReturnMarkOk up3.ord.ret ∧ up3.ord.lw + 256 ≤ up3.ord.hw)
  handed := fun _ h => by cases h

theorem wit_PagesFollowItems : Mem.wf 0 State.reset.ram = true
    ∧ (∀ w ∈ statusPage State.reset, leNat (State.reset.ramBytes w.1 2) = w.2 % 65536)
    ∧ (∀ w ∈ directoryMirror State.reset, leNat (State.reset.ramBytes w.1 2) = w.2 % 65536) := by decide +kernel

/-- PagesFollowItems: changes of a car record and of a directory record that change items, and items they leave. -/
theorem wit_PagesFollowItems_changes :
    let r := { up3.rpl[(0 : Car)] with ready := 1 }
    let v := { CopyRec.bare .blank with use := 1 }
    (0x6A, [1]) ∈ carItems (up3.setRpl 0 r) 0 ∧ (0x6A, [1]) ∉ carItems up3 0 ∧ (0x62, [0]) ∈ carItems up3 0
      ∧ (0x1E0A, [1]) ∈ recordItems 0 v ∧ (0x1E0A, [1]) ∉ recordItems 0 up3.isc.records[(0 : CopyIx)]
      ∧ Mem.wf 0 up3.ram = true := by decide +kernel

/-- PagesFollowItems: one of the journal's five words changes and all five are written, one that the host has overwritten among
them; an item that has not changed keeps the host's byte (R154, R170). -/
theorem wit_PagesFollowItems_whole :
    let t := { up3 with
      jrn := { up3.jrn with lost := 3 }
      ram := Mem.writeBytes 0 (Mem.writeBytes 0 up3.ram 0x10 [0xEE]) 0x0E [0xEE] }
    (0x10, [0, 8188, 0, 3, 0]) ∈ pageItems t ∧ (0x10, [0, 8188, 0, 3, 0]) ∉ pageItems up3 ∧ Mem.wf 0 t.ram = true
      ∧ (publish up3 t).ramByte 0x10 = 0 ∧ (publish up3 t).ramByte 0x16 = 3 ∧ (publish up3 t).ramByte 0x0E = 0xEE := by
  decide +kernel

/-- NodeMirrorFollowsRoster: a change of a field, and one that ends a backoff timer. -/
theorem wit_NodeMirrorFollowsRoster_changes :
    let r := { node .backoff with backoffFrom := some 0 }
    let s := withNode r
    let l := [node .backoff]
    s.roster[(0 : Fin 48).val]? = some r ∧ r.backoffFrom.isSome = true ∧ (∀ n, l[(0 : Fin 48).val]? = some n → n.backoffFrom = none)
      ∧ (0x1206, [10]) ∈ mirrorItems (s.setRoster [node .failed]) 0 ∧ (0x1206, [10]) ∉ mirrorItems s 0
      ∧ Mem.wf 0 s.ram = true := by
  refine ⟨rfl, rfl, fun n h => ?_, ?_⟩
  · cases h; rfl
  · decide +kernel

theorem wit_NodeMirrorFollowsRoster : (∀ w ∈ mirrorWords State.reset 0, leNat (State.reset.ramBytes w.1 2) = w.2 % 65536)
    ∧ (∀ w ∈ mirrorWords State.reset 47, leNat (State.reset.ramBytes w.1 2) = w.2 % 65536)
    ∧ (withNode (node .ready)).roster[(0 : Fin 48).val]? = some (node .ready)
    ∧ nodeWords (some (node .ready)) ≠ nodeWords (some (node .excluded))
    ∧ nodeWords (some (node .excluded)) ≠ nodeWords (some (node .awaiting))
    ∧ (withNode (node .ready)).roster.length ≤ 48
    ∧ (withNode (node .ready)).roster.Pairwise (fun a b => a.before b = true) := by decide +kernel

theorem wit_HostReachesRamAndRegisters : up3.power = true ∧ up3.resetIn = false ∧ Mem.wf 0 up3.ram = true
    ∧ ({ up3 with resetIn := true } : State).power = true := by decide +kernel

theorem wit_NoticeRegisters : up3.power = true ∧ up3.resetIn = false ∧ unpowered.power = false
    ∧ (8#16).extractLsb' 0 4 &&& Cause.alert.mask ≠ 0 ∧ up3.isRunning = true ∧ (1#16).getLsbD 0 = true
    ∧ up3.isc.work = none ∧ up3.isc.queue = [] := by decide

theorem wit_NoticeLines : NoticeLinesDriven up3 ∧ step up3 = .next up3 := ⟨⟨rfl, rfl⟩, rfl⟩

theorem wit_SlotCheckTable :
    let posted := { up3 with ram := Mem.writeBytes 0 up3.ram 0x1180 [1] }
    up3.ord.window = none ∧ (∀ j : OrderSlot, ¬ (up3.ramByte (0x200 + 128 * j.val) = 1 ∧ up3.ord.owed[j] = false))
      ∧ (posted.ramByte (0x200 + 128 * 31) = 1 ∧ posted.ord.owed[(31 : OrderSlot)] = false)
      ∧ ({ up3.ord with window := some 2 } : Ord).window = some 2 ∧ up3.ord.q ≠ 0 ∧ ({ up3.ord with q := 0 } : Ord).q = 0 := by
  decide +kernel

theorem wit_NudgeIsOneNudge : up3.isRunning = true ∧ up3.power = true := by decide

theorem wit_OnlyShownMemoryIsPublished : (0xC0 ≤ 0x100 ∧ 0x100 < 0x1200) ∧ 0x2000 ≤ 0x7FFF := by decide

theorem wit_DigestsOfBytes : [(5#8)][0]? = some 5
    ∧ (∃ x ∈ [(⟨8, 4⟩ : Span)], x.off ≤ 8 + 0 ∧ 8 + 0 < x.off + x.len)
    ∧ ¬ (∃ x ∈ [(⟨8, 4⟩ : Span)], x.off ≤ 12 + 0 ∧ 12 + 0 < x.off + x.len) := by decide

theorem wit_FramesAreReadBack : (List.replicate 523 (0 : Long)).length ≤ 523
    ∧ 7 + 5 * (List.replicate 8 (⟨0, 1⟩ : Span)).length ≤ 2097
    ∧ 9 + 5 * (List.replicate 8 (⟨0, 1⟩ : Span)).length + (List.replicate 2048 (0 : Byte)).length ≤ 2097
    ∧ [(0xA5 : Byte), 0x81, 0x41, 1].length < 5 ∧ (0x1234 : Word) ≠ crc16 [0x81, 0x41, 1, 0, 0]
    ∧ (0x8F : Byte).toNat > 0x88 ∧ (0x01 : Byte).toNat < 0x81 ∧ (0x10 : Byte) ∉ [(0x11 : Byte), 0x21, 0x31, 0x41] := by
  simp only [List.length_replicate]
  decide +kernel

/-- FramesAreReadBack: payloads of another form than section 5.3 gives, a byte short and a byte long, are replies whose fields
disagree (log 33). -/
theorem wit_FramesAreReadBack_malformed :
    let judged := fun (kind : Nat) (p : List Byte) => judgeBytes (mkFrame 0x88 kind p)
    judged 0x21 [0, 0, 1] = .frame 7 .malformed ∧ judged 0x21 [0, 0, 1, 0, 9, 9, 9] = .frame 7 .malformed
      ∧ judged 0x31 [0, 0] = .frame 7 .malformed ∧ judged 0x31 [0, 0, 0, 0] = .frame 7 .malformed
      ∧ judged 0x41 [] = .frame 7 .malformed ∧ judged 0x41 [0, 0] = .frame 7 .malformed
      ∧ judged 0x21 [0, 0, 0, 0] = .frame 7 (.digestList 0 0 []) := by decide +kernel

theorem wit_ScanTickAndUptime : ({ up3 with ord := { up3.ord with scanTimer := some 10 } } : State).isRunning = true
    ∧ up3.power = true ∧ up3.resetIn = false := by decide

theorem wit_BatchTaking :
    let s := { up3 with ord := { up3.ord with window := some 2 }, ram := Mem.writeBytes 0 up3.ram 0x1180 [1, 0x1A] }
    s.isRunning = true ∧ s.ord.window.isSome = true ∧ Mem.wf 0 s.ram = true ∧ s.ramByte 0x1180 = 1
      ∧ (∀ j : OrderSlot, up3.ramByte (0x200 + 128 * j.val) ≠ 1) := by decide +kernel

/-- BatchTaking: a node order and a kind not in the table, and the answer of the latter. -/
theorem wit_BatchTaking_kinds :
    let ram := Mem.writeBytes 0 (Mem.writeBytes 0 up3.ram 0x200 [1, 3]) 0x1180 [1, 5]
    let s := { up3 with ord := { up3.ord with window := some 2 }, ram := ram }
    (s.ramByte 0x200 = 1 ∧ (s.ramByte 0x201).toNat = 3) ∧ (s.ramByte 0x1180 = 1 ∧ (s.ramByte 0x1181).toNat ∉ [1, 2, 3, 4])
      ∧ Mem.wf 0 s.ram = true ∧ (after .quietWindowExpiry s).ramBytes 0x1180 6 = [4, 5, 0, 0, 1, 0] := by decide +kernel

theorem wit_RestoreNodeTests :
    paramByte (slotBytes [6, 1, 1]) 0 = 6 ∧ paramByte (slotBytes [5, 9, 1]) 1 = 9 ∧ paramByte (slotBytes [5, 8, 3]) 2 = 3
      ∧ paramByte (slotBytes [5, 8, 2]) 0 = (5 : Car).val ∧ paramByte (slotBytes [5, 8, 2]) 1 = (7 : Drop).val + 1
      ∧ up3.findNode 5 7 = none ∧ paramByte (slotBytes [0, 1, 1]) 0 = (0 : Car).val
      ∧ (withNode { node .excluded with fleetExcl := true }).findNode 0 0 = some { node .excluded with fleetExcl := true }
      ∧ ({ node .excluded with fleetExcl := true } : NodeRec).isExcluded = true
      ∧ (∀ st ∈ [NodeState.dark, .awaiting, .missing, .queued, .surveying, .loading, .starting],
        (withNode (node st)).findNode 0 0 = some (node st) ∧ (node st).isExcluded = false)
      ∧ (∀ st ∈ [NodeState.ready, .failed, .backoff], (withNode { node st with hello := some heardFields }).findNode 0 0
        = some { node st with hello := some heardFields }) ∧ (withNode (node .ready)).activeCopy 0 = none
      ∧ (withCopy activeCopy0).activeCopy 0 = some 0 ∧ activeCopy0.desc.cls = (node .ready).cls.code
      ∧ (node .ready).cls = heardFields.cls ∧ ({ heardFields with cls := .info } : HelloFields).cls ≠ (node .ready).cls
      ∧ heardFields.image = activeCopy0.desc.image ∧ ({ heardFields with version := 2 } : HelloFields).version ≠ activeCopy0.desc.version
      ∧ ({ heardFields with digestCapable := false } : HelloFields).digestCapable = false := by decide +kernel

/-- RestoreNodeTests: RESTORE CAR of a car that has a node and of one that has none. -/
theorem wit_RestoreNodeTests_car :
    paramByte (slotBytes [5, 0, 2]) 0 = (5 : Car).val ∧ paramByte (slotBytes [0, 0, 1]) 2 = 1
      ∧ paramByte (slotBytes [6, 0, 1]) 0 = 6 ∧ (∀ r ∈ up3.roster, r.car ≠ 5)
      ∧ (∃ r ∈ (withNode (node .ready)).roster, r.car = 0)
      ∧ ((withNode (node .dark)).restoreCar (slotBytes [0, 0, 1])).2
        = .done .ok ([0, 0, 0, 0, 0, 0, 0, 0] ++ [byteOf RefusalCode.dark.code 0, 0, 0, 0, 0, 0, 0, 0]) := by decide +kernel

theorem wit_ExcludeAndIncludeNode :
    let out := { node .excluded with override := Override.exclude }
    (withNode out).findNode 0 0 = some out ∧ out.isExcluded = true ∧ out.job = none
      ∧ ({ out with job := some (job .line) } : NodeRec).job.isSome = true
      ∧ (withNode (node .ready)).findNode 0 0 = some (node .ready) ∧ (node .ready).isExcluded = false
      ∧ ({ node .queued with job := some (job .queue) } : NodeRec).job.any (fun j => decide (j.place ≠ .line ∧ j.copy = 0)) = true
      ∧ up3.rpl[(0 : Car)].up = false ∧ ({ RplCar.reset with up := true } : RplCar).up = true ∧ Line.reset.state = .off
      ∧ ({ Line.reset with state := .serving } : Line).state ∉ [LineState.off, .bootWait, .rollCall]
      ∧ paramByte (slotBytes [0, 1]) 0 = (0 : Car).val ∧ paramByte (slotBytes [0, 1]) 1 = (0 : Drop).val + 1 := by decide +kernel

/-- ExcludeAndIncludeNode: the refusals, at the ends of the ranges of car and drop (02 R17). -/
theorem wit_ExcludeAndIncludeNode_refused :
    let s := withNode (node .ready)
    (∀ l ∈ [[6, 1], [0, 0], [5, 9]], (s.excludeNode (slotBytes l)).2 = .refused .badParameter
        ∧ (s.includeNode (slotBytes l)).2 = .refused .badParameter)
      ∧ (∀ l ∈ [[5, 1], [0, 8]], (s.excludeNode (slotBytes l)).2 = .refused .notInRoster
        ∧ (s.includeNode (slotBytes l)).2 = .refused .notInRoster)
      ∧ s.findNode 5 0 = none ∧ s.findNode 0 7 = none := by decide +kernel

theorem wit_FallingEdgeBeginsDip :
    let s := withSupply { SsuCar.reset with state := .present } true
    let t := withSupply { SsuCar.reset with state := .dipping, ticks := 6 } false
    s.ssuTakes 0 = true ∧ s.pins.csg[(0 : Car)] = true ∧ s.ssu[(0 : Car)].state = .present ∧ Mem.wf 0 s.ram = true
      ∧ t.ssuTakes 0 = true ∧ t.ssu[(0 : Car)].state = .dipping ∧ t.ssu[(0 : Car)].ticks < 7 := by decide +kernel

theorem wit_FailedReturn :
    let s := withSupply { SsuCar.reset with state := .returning, candidate := some 2, timer := some 20, ticks := 8 } true
    let t := withSupply { SsuCar.reset with state := .gap, ticks := 262143 } false
    s.ssuTakes 0 = true ∧ s.pins.csg[(0 : Car)] = true ∧ s.ssu[(0 : Car)].state = .returning
      ∧ t.ssuTakes 0 = true ∧ t.pins.csg[(0 : Car)] = false ∧ t.ssu[(0 : Car)].state = .gap
      ∧ t.ssu[(0 : Car)].unknown = false := by decide

theorem wit_RisingEdgeAndUnsensedCars :
    let s := withSupply { SsuCar.reset with state := .dipping, ticks := 7 } false
    let t := withSupply { SsuCar.reset with state := .dipping, pend := true } false
    s.ssuTakes 0 = true ∧ s.pins.csg[(0 : Car)] = false ∧ s.ssu[(0 : Car)].state = .dipping ∧ s.ssu[(0 : Car)].pend = false
      ∧ t.ssuTakes 0 = true ∧ t.ssu[(0 : Car)].pend = true ∧ t.isRunning = true ∧ up3.fleet.carCount ≤ (3 : Car).val := by decide

theorem wit_EighthTickQualifiesLoss :
    let s := withSupply { SsuCar.reset with state := .dipping, ticks := 7 } false
    let t := { s with run := .restarting }
    s.ssuTakes 0 = true ∧ s.ssu[(0 : Car)].state = .dipping ∧ s.ssu[(0 : Car)].ticks = 7 ∧ s.isRunning = true
      ∧ t.ssuTakes 0 = true ∧ t.isRunning = false := by decide

theorem wit_ReturnTimerQualifiesReturn :
    let s := withSupply { SsuCar.reset with state := .returning, candidate := some 65535, timer := some 20 } true
    s.ssuTakes 0 = true ∧ s.ssu[(0 : Car)].state = .returning ∧ s.ssu[(0 : Car)].timer.isSome = true
      ∧ s.ssu[(0 : Car)].candidate = some 65535 ∧ s.isRunning = true
      ∧ ({ s with run := .restarting } : State).ssuTakes 0 = true := by decide

theorem wit_LineTakesCarEvents :
    let s := withNews { Channels.empty with ssuRpl := Channels.empty.ssuRpl.set 0 [.loss 7]
                                            ssuClc := Channels.empty.ssuClc.set 0 [.loss 7]
                                            ssuPrm := Channels.empty.ssuPrm.set 0 [.loss 7] }
    let t := withNews { Channels.empty with ssuRpl := Channels.empty.ssuRpl.set 0 [.ret 3 false false 7]
                                            ssuClc := Channels.empty.ssuClc.set 0 [.ret 3 false false 7]
                                            ssuPrm := Channels.empty.ssuPrm.set 0 [.ret 3 false false 7] }
    s.isRunning = true ∧ s.chan.ssuRpl[(0 : Car)] = [.loss 7] ∧ s.chan.ssuClc[(0 : Car)] = [.loss 7]
      ∧ t.chan.ssuRpl[(0 : Car)] = [.ret 3 false false 7] ∧ t.chan.ssuClc[(0 : Car)] = [.ret 3 false false 7]
      ∧ t.lines[(0 : Car)].state = .off ∧ s.chan.ssuPrm[(0 : Car)] = [.loss 7] := by decide

/-- PlannerTakesCarLoss: the hypotheses with a node that loses its job. -/
theorem wit_PlannerTakesCarLoss :
    let s := { withNode { node .queued with job := some (job .queue) } with
      chan := { Channels.empty with ssuRpl := Channels.empty.ssuRpl.set 0 [.loss 7] } }
    s.isRunning = true ∧ s.chan.ssuRpl[(0 : Car)] = [.loss 7] := by decide

/-- PlannerTakesCarReturn: the hypotheses with a DARK node. -/
theorem wit_PlannerTakesCarReturn :
    let s := { withNode (node .dark) with
      chan := { Channels.empty with ssuRpl := Channels.empty.ssuRpl.set 0 [.ret 65535 true false 7] } }
    s.isRunning = true ∧ s.chan.ssuRpl[(0 : Car)] = [.ret 65535 true false 7] := by decide

/-- PermitFollowsCondition: the four kinds of news to a part whose permits are held. -/
theorem wit_PermitFollowsCondition :
    let s := withNews { Channels.empty with ssuPrm := Channels.empty.ssuPrm.set 5 [.loss 7]
                                            rplPrm := [⟨0, 0, .excluded, true⟩], ordPrm := [Vector.replicate 6 true] }
    s.isRunning = true ∧ (∀ c : Car, s.pins.dp[c] = s.prm[c].active ∧ s.prm[c].active = false)
      ∧ s.chan.ssuPrm[(5 : Car)] = [.loss 7] ∧ s.chan.rplPrm = [⟨0, 0, .excluded, true⟩]
      ∧ s.chan.ordPrm = [Vector.replicate 6 true] ∧ (∀ c : Car, (Vector.replicate 6 true)[c] ≠ s.prm[c].withhold)
      ∧ (withNews { Channels.empty with ssuPrm := Channels.empty.ssuPrm.set 0 [.ret 3 false false 7] }).chan.ssuPrm[(0 : Car)]
        = [.ret 3 false false 7]
      ∧ (withNews { Channels.empty with rplPrm := [⟨0, 0, .state .ready .queued, false⟩] }).chan.rplPrm = [⟨0, 0, .state .ready .queued, false⟩]
      ∧ (withNews { Channels.empty with rplPrm := [⟨0, 0, .included, false⟩] }).chan.rplPrm = [⟨0, 0, .included, false⟩] := by decide

theorem wit_PermitsStayHeld : PermitsHeld up3 ∧ PermitsAwaitDoors up3 ∧ step up3 = .next up3 := by
  refine ⟨fun c => ?_, fun c h => absurd h (by revert c; decide), rfl⟩
  refine ⟨?_, ?_, ?_⟩ <;> revert c <;> decide

theorem wit_JournalTakesFirstRequest :
    let s := { up3 with jrn := { up3.jrn with requests := [⟨.ssu, shortEntry .carReturn⟩] } }
    s.isRunning = true ∧ s.jrn.requests = [⟨.ssu, shortEntry .carReturn⟩] ∧ (∀ q ∈ s.jrn.requests, q.src ≠ .prm) := by decide

/-- JournalTakesFirstRequest: a block's first request behind those of others, free to be taken and made to wait. -/
theorem wit_JournalTakesFirstRequest_behind :
    let s := fun k : EntryKind => { up3 with jrn := { up3.jrn with requests := [⟨.rpl, shortEntry k⟩, ⟨.prm, shortEntry .permit⟩] } }
    (after (.journalEntryRequest .prm) (s .nodeMissing)).jrn.requests = [⟨.rpl, shortEntry .nodeMissing⟩]
      ∧ after (.journalEntryRequest .prm) (s .nodeReady) = s .nodeReady ∧ (s .nodeReady).isRunning = true := by decide +kernel

/-- EntryWithRoomIsWritten: an entry that just fits before the end, one that does not, and a progress entry. -/
theorem wit_EntryWithRoomIsWritten :
    JournalHeld { up3 with jrn := { up3.jrn with w := 8180, r := 4000, hold := false } }
      ∧ JournalHeld { up3 with jrn := { up3.jrn with w := 8188, r := 4000, hold := false } }
      ∧ (shortEntry .carReturn).sized ∧ 8180 + (shortEntry .carReturn).length ≤ 8192
      ∧ ¬ 8188 + (shortEntry .carReturn).length ≤ 8192 ∧ (shortEntry .nodePlanned).kind.isProgress = true
      ∧ Mem.wf 0 up3.ram = true ∧ up3.jrn.tally = 0 ∧ up3.jrn.backlog = []
      ∧ (copyStateEntry 0 0 .torn .scanTorn).body.getD 2 0 = 6 ∧ (copyStateEntry 0 31 .damaged .verify).body.getD 2 0 = 7
      ∧ 1024 ≤ ({ up3.jrn with w := 8188, r := 4000 } : Jrn).room - 16 := by
  refine ⟨journal_held 8180 4000 false ⟨by decide, by decide⟩ ⟨by decide, by decide⟩ (by decide) (by decide),
    journal_held 8188 4000 false ⟨by decide, by decide⟩ ⟨by decide, by decide⟩ (by decide) (by decide), rfl, ?_⟩
  decide +kernel

/-- EntryWithoutRoom: no room with an empty backlog, and a full backlog. -/
theorem wit_EntryWithoutRoom :
    let j : Jrn := { up3.jrn with w := 0, r := 8 }
    j.room = 4 ∧ j.room < 12 ∧ j.backlog.length < 16 ∧ j.tally = 0 ∧ (shortEntry .carReturn).kind.isProgress = false
      ∧ (shortEntry .nodePlanned).kind.isProgress = true
      ∧ 16 ≤ ({ j with backlog := List.replicate 16 (shortEntry .carLoss) } : Jrn).backlog.length := by decide

/-- EntryWithoutRoom: losses not yet reported, with the backlog empty, in a journal with room and in one without. -/
theorem wit_EntryWithoutRoom_lost :
    JournalHeld { up3 with jrn := { up3.jrn with w := 8188, r := 4000, hold := false, tally := 2 } }
      ∧ JournalHeld { up3 with jrn := { up3.jrn with w := 0, r := 8, hold := true, tally := 65535 } }
      ∧ (shortEntry .nodePlanned).sized ∧ Mem.wf 0 up3.ram = true := by
  have h1 := journal_held 8188 4000 false ⟨by decide, by decide⟩ ⟨by decide, by decide⟩ (by decide) (by decide)
  have h2 := journal_held 0 8 true ⟨by decide, by decide⟩ ⟨by decide, by decide⟩ (by decide) (by decide)
  exact ⟨⟨h1.1, h1.2, h1.3, h1.4, h1.5, h1.6, h1.7, h1.8, h1.9, h1.10⟩,
    ⟨h2.1, h2.2, h2.3, h2.4, h2.5, h2.6, h2.7, h2.8, h2.9, h2.10⟩, rfl, by decide +kernel⟩

/-- UnreturnedEntriesAreKept: a step that writes an entry, with an unreturned byte at R. -/
theorem wit_UnreturnedEntriesAreKept :
    let j : Jrn := { up3.jrn with w := 12, r := 0, hold := false }
    let s := { up3 with jrn := { j with requests := [⟨.ssu, shortEntry .carReturn⟩] }, pending := [.journalEntryRequest .ssu] }
    JournalHeld s ∧ s.pending = .journalEntryRequest .ssu :: []
      ∧ step s = exec (.journalEntryRequest .ssu) { s with pending := [] }
      ∧ (∃ t, step s = .next t ∧ t.jrn.r = 0 ∧ t.jrn.w = 24)
      ∧ (0 + 8192 - 0) % 8192 < (12 + 8192 - 0) % 8192 := by
  have h := journal_held 12 0 false ⟨by decide, by decide⟩ ⟨by decide, by decide⟩ (by decide) (by decide)
  refine ⟨⟨h.1, h.2, h.3, h.4, h.5, fun q hq => ?_, h.7, h.8, h.9, h.10⟩, rfl, rfl, ⟨_, rfl, rfl, by decide +kernel⟩, by decide⟩
  rw [List.mem_singleton.mp hq]; rfl

/-- SteeringValuesDrainBacklog: a journal held full with one entry waiting and losses to report. -/
theorem wit_SteeringValuesDrainBacklog :
    let s := { up3 with chan := { Channels.empty with ordJrn := [⟨8188, 256, 512⟩] }
                        jrn := { up3.jrn with backlog := [shortEntry .carLoss], hold := true, r := 8, tally := 3 } }
    s.isRunning = true ∧ JournalHeld s ∧ s.chan.ordJrn = ⟨8188, 256, 512⟩ :: [] ∧ s.jrn.hold = true := by
  have h := journal_held 0 8 true ⟨by decide, by decide⟩ ⟨by decide, by decide⟩ (by decide) (by decide)
  refine ⟨rfl, ⟨h.1, h.2, h.3, (by decide : [shortEntry .carLoss].length ≤ 16), fun e he => ?_, h.6, h.7, h.8, h.9,
    fun v hv => ?_⟩, rfl, rfl⟩
  · rw [List.mem_singleton.mp he]; rfl
  · rw [List.mem_singleton.mp hv]; exact ⟨⟨by decide, by decide⟩, by decide⟩

theorem wit_PowerStartStartsAfresh : unpowered.power = false ∧ unpowered.resetIn = false
    ∧ ({ unpowered with resetIn := true } : State).resetIn = true := by decide

theorem wit_ResetInAndSupplyLoss : up3.power = true ∧ up3.resetIn = false ∧ ({ up3 with resetIn := true } : State).power = true
    ∧ up3.isc.work = none ∧ ({ workOf (.mark 0 .opened) .openCopy with op := none } : Work).op = none := by decide

/-- ResetInAndSupplyLoss and WarmRestartStopsBlocks: an erase and a program in flight, on a copy and on no copy. -/
theorem wit_ResetInAndSupplyLoss_inFlight :
    let s := fun op : FlashOp => withWork (workOf op .openCopy)
    (∀ op ∈ [FlashOp.eraseData 0 3, .segment 0 2, .identity 7, .eraseFleet, .fleet, .protectMark 1],
        (s op).isc.work.bind Work.op = some op ∧ (s op).power = true ∧ (s op).resetIn = false ∧ (workOf op .openCopy).data.length ≤ 2048
          ∧ (after (.warmRestart 1 ⟨.verified, ⟨.part, []⟩, []⟩) (s op)).isc.fleetCut = decide (op = .eraseFleet ∨ op = .fleet))
      ∧ Mem.wf 0 up3.ram = true ∧ Mem.wf 0xFF up3.flash.a.cells = true ∧ Mem.wf 0xFF up3.flash.b.cells = true
      ∧ (after (.powerLost ⟨.part, []⟩) (s (.identity 7))).flash.readIdentity = .unreadable
      ∧ (after (.warmRestart 1 ⟨.failed .part, ⟨.part, []⟩, []⟩) (s (.protectMark 1))).isc.protectUnreadable = true := by decide +kernel

/-- WarmRestartStopsBlocks: an ERASE INTENT recorded in the copy whose erase is stopped. -/
theorem wit_WarmRestartStopsBlocks_inFlight :
    let s := withWork (workOf (.eraseData 0 3) .openCopy)
    let u := { s with flash := s.flash.onHeader 0 (fun h => { h with eraseIntent := .recorded }) }
    u.flash.headers[(0 : CopyIx)].eraseIntent = .recorded ∧ u.flash.headers[(0 : CopyIx)].damaged ≠ .recorded
      ∧ (FlashOp.eraseData 0 3).copy = some 0 ∧ u.isc.pendingMarks = []
      ∧ (after (.warmRestart 1 ⟨.verified, ⟨.part, []⟩, []⟩) u).isc.records[(0 : CopyIx)].state = .torn := by decide +kernel

theorem wit_EnterRunningSamplesCars : State.reset.power = true ∧ State.reset.resetIn = false ∧ State.reset.run = .starting
    ∧ State.reset.jrn = Jrn.reset ∧ Mem.wf 0 State.reset.ram = true ∧ up3.run ≠ .starting := by decide +kernel

theorem wit_WarmRestartStopsBlocks :
    let q : StoreOrder := ⟨31, .eraseCopy, slotBytes [0, 0]⟩
    let s := { withWork (workOf (.mark 0 .opened) .openCopy) with
      isc := { (withWork (workOf (.mark 0 .opened) .openCopy)).isc with queue := [q] } }
    s.isRunning = true ∧ (1#16).getLsbD 0 = true ∧ Mem.wf 0 s.ram = true ∧ s.isc.queue = [q]
      ∧ s.isc.work.bind Work.order = some ⟨0, .openCopy, slotBytes []⟩
      ∧ (∀ x ∈ s.isc.queue, x.oslot ≠ 0) ∧ (2#16).getLsbD 0 = false := by decide +kernel

/-- WarmRestartStopsBlocks: a backlog, with no entry request waiting and a CAR RETURN not yet taken. -/
theorem wit_WarmRestartStopsBlocks_backlog :
    let s := { up3 with jrn := { up3.jrn with backlog := List.replicate 16 (shortEntry .carLoss), lost := 65530, withheld := 3 }
                        chan := { Channels.empty with ssuRpl := Channels.empty.ssuRpl.set 0 [.ret 3 false false 7] } }
    s.jrn.requests = [] ∧ (∀ c : Car, ∀ e ∈ s.chan.ssuRpl[c], ∀ u, e ≠ .loss u) ∧ s.isRunning = true := by
  refine ⟨rfl, fun c e he u => ?_, rfl⟩
  fin_cases c
  · rw [List.mem_singleton.mp he]; exact fun h => CarEvent.noConfusion h
  all_goals cases he

/-- WarmRestartStopsBlocks: pending marks with none begun, one whose program waits, and the block's unreadable mark. -/
theorem wit_WarmRestartStopsBlocks_marks :
    let w := { workOf (.mark 3 .damaged) .openCopy with order := none, op := none, due := some (.mark 3 .damaged, .read) }
    let s := { withWork w with isc := { (withWork w).isc with pendingMarks := [0], protectUnreadable := true } }
    s.isRunning = true ∧ s.isc.work = some w ∧ w.op = none ∧ w.order = none ∧ w.due.isSome = true ∧ w.target = some 3
      ∧ up3.isc.work = none ∧ s.isc.protectUnreadable = true
      ∧ (after (.warmRestart 1 ⟨.verified, ⟨.whole, []⟩, [.failed .nothing]⟩) s).isc.records.toList.map CopyRec.state
        = [CopyState.damaged] ++ List.replicate 31 .blank := by decide +kernel

/-- WarmRestartStopsBlocks: a loss that the RPL has not taken is recorded, with the drop of the job it ends. -/
theorem wit_WarmRestartStopsBlocks_losses :
    let s := { withNode { node .queued with job := some (job .queue) } with
      chan := { Channels.empty with ssuRpl := Channels.empty.ssuRpl.set 0 [.loss 7, .loss 9] } }
    s.recordLosses.jrn.requests
        = [⟨.rpl, ⟨.carLoss, 0, 0, 7, [1, 1, 0, 0]⟩⟩, ⟨.rpl, ⟨.carLoss, 0, 0, 9, [0, 0, 0, 0]⟩⟩]
      ∧ (after (.warmRestart 1 ⟨.verified, ⟨.whole, []⟩, []⟩) s).ramBytes 0x6000 1 = [byteOf EntryKind.carLoss.code 0]
      ∧ (after (.warmRestart 1 ⟨.verified, ⟨.whole, []⟩, []⟩) s).jrn.w = 24 := by decide +kernel

/-- WarmRestartStopsBlocks: the held return of a DIPPING car stands after a further restart request (log 20). -/
theorem wit_WarmRestartStopsBlocks_held :
    (after (.warmRestart 1 ⟨.verified, ⟨.whole, []⟩, []⟩)
        (withSupply { SsuCar.reset with state := .dipping, held := some 7, pend := true } true)).ssu[(0 : Car)]
      = { SsuCar.reset with state := .dipping, held := some 7, pend := false } := by decide +kernel

theorem wit_ReturnToRunningSettlesCars :
    let s := { withSupply { SsuCar.reset with state := .present, held := some 7 } true with run := .restarting }
    s.power = true ∧ s.resetIn = false ∧ s.run = .restarting ∧ Mem.wf 0 s.ram = true
      ∧ (∀ j : OrderSlot, s.ramByte (0x200 + 128 * j.val) ≠ 1) ∧ s.ssu[(0 : Car)].state = .present
      ∧ s.ssu[(0 : Car)].held = some 7 ∧ (withSupply SsuCar.reset true).ssu[(0 : Car)].held = none ∧ (0 : Car).val < s.fleet.carCount := by decide +kernel

/-- ReturnToRunningSettlesCars: a slot POSTED at the return, with Q 2 and with Q 0. -/
theorem wit_ReturnToRunningSettlesCars_slots :
    let s := fun q : Byte =>
      { up3 with run := .restarting, ram := Mem.writeBytes 0 (Mem.writeBytes 0 up3.ram 0x1180 [1, 0x1A]) 0x102 [q] }
    (s 2).ramByte (0x200 + 128 * 31) = 1 ∧ (s 2).ord.owed[(31 : OrderSlot)] = false ∧ (s 2).ord.window = none
      ∧ min 50 (leNat ((s 2).ramBytes 0x102 2)) ≠ 0 ∧ min 50 (leNat ((s 0).ramBytes 0x102 2)) = 0 ∧ (s 0).isc.fleetCut = false
      ∧ Mem.wf 0 (s 0).ram = true ∧ Mem.wf 0 (s 2).ram = true := by decide +kernel

/-- ReturnToRunningSettlesCars: a fleet block whose write was cut short and whose contents are neither absent nor bad. -/
theorem wit_ReturnToRunningSettlesCars_fleet :
    let s := { up3 with run := .restarting, flash := fleetFlash, isc := { up3.isc with identity := .written 4127, fleetCut := true } }
    s.power = true ∧ s.resetIn = false ∧ s.run = .restarting ∧ Mem.wf 0 s.ram = true ∧ s.isc.fleetCut = true
      ∧ s.blockReading.fleet.status = .loaded := by decide +kernel

/-- ReturnToRunningSettlesCars: a journal that is held, with losses to report and a COPY STATE entry owed. -/
theorem wit_ReturnToRunningSettlesCars_journal :
    let s := { up3 with run := .restarting, jrn := { up3.jrn with w := 8188, r := 4000, hold := false, tally := 2 }
                        isc := { up3.isc with scanEntries := [(3, .torn, .scanTorn)] } }
    JournalHeld s ∧ s.run = .restarting ∧ Mem.wf 0 s.ram = true := by
  have h := journal_held 8188 4000 false ⟨by decide, by decide⟩ ⟨by decide, by decide⟩ (by decide) (by decide)
  exact ⟨⟨h.1, h.2, h.3, h.4, h.5, h.6, h.7, h.8, h.9, h.10⟩, rfl, by decide +kernel⟩

/-- StoreOrderTests: parameters at the ends of their ranges. -/
theorem wit_StoreOrderTests :
    paramByte (slotBytes [16]) 0 = 16 ∧ paramByte (slotBytes [15, 1]) 0 = 15 ∧ paramByte (slotBytes [15, 2]) 1 = 2
      ∧ paramByte (slotBytes [8, 0]) 0 = 8 ∧ paramByte (slotBytes [7, 15]) 1 = 15
      ∧ openTest up3 (slotBytes ([0, 0] ++ le16 1 ++ le16 1 ++ le32 524288 ++ [0])) = none
      ∧ (withCopy { activeCopy0 with use := 1 }).isc.records[(0 : CopyIx)].use ≠ 0
      ∧ ({ up3 with isc := { up3.isc with openCopy := up3.isc.openCopy.set 0 (some .a) } } : State).openOf 0 = some 0
      ∧ up3.openOf 0 = none ∧ up3.nextSequence ≤ 4294967294
      ∧ 4294967294 < (withCopy { activeCopy0 with seq := 4294967294 }).nextSequence
      ∧ (withCopy activeCopy0).isc.records[(0 : CopyIx)].isActive = true
      ∧ (copyIx 0 .a = 0 ∧ activeCopy0.state = .closed ∧ activeCopy0.seq ≠ 0) ∧ up3.isc.records[copyIx 0 .a].state ≠ .closed := by
  decide +kernel

/-- StoreOrdersBegin: each order at the head of the queue of a part with nothing executing. -/
theorem wit_StoreOrdersBegin :
    let u := { up3 with pins := { up3.pins with svcUnlock := true } }
    up3.isRunning = true ∧ up3.isc.work = none ∧ up3.isc.pendingMarks = []
      ∧ (∀ k : List Byte, (withOrder .openCopy k).isc.queue = [⟨0, .openCopy, slotBytes k⟩])
      ∧ openTest u (slotBytes ([0, 0] ++ le16 1 ++ le16 1 ++ le32 16 ++ [0])) = none ∧ openTest u (slotBytes []) = some .badParameter
      ∧ stageTest u (slotBytes [0, 0]) = some .notOpen ∧ closeTest u (slotBytes [0]) = some .notOpen
      ∧ activateTest u (slotBytes [0]) = some .notClosed ∧ eraseTest u (slotBytes [0, 0]) = none
      ∧ identityTest u (slotBytes [1]) = none ∧ u.isc.groupProtected 3 = false := by
  refine ⟨rfl, rfl, rfl, fun _ => rfl, ?_⟩
  decide +kernel

/-- StoreOrdersBegin: STAGE, CLOSE and ACTIVATE on a copy that passes their tests. -/
theorem wit_StoreOrdersBegin_copies :
    let w := { activeCopy0 with state := .writing, seq := 0, written := 0 }
    let o := { withCopy w with isc := { (withCopy w).isc with openCopy := (withCopy w).isc.openCopy.set 0 (some .a) } }
    let c := { o with isc := { o.isc with records := o.isc.records.set 0 { w with written := 1 } } }
    stageTest o (slotBytes [0, 0, 0, 0]) = none ∧ o.openOf 0 = some 0 ∧ closeTest c (slotBytes [0]) = none
      ∧ closeTest o (slotBytes [0]) = some .incomplete ∧ c.openOf 0 = some 0
      ∧ activateTest (withCopy { activeCopy0 with seq := 0 }) (slotBytes [0]) = none := by decide +kernel

theorem wit_VerifiedProgramsTakeEffect :
    (∀ op ∈ [FlashOp.mark 31 .eraseIntent, .mark 0 .opened, .mark 0 .retired, .mark 0 .damaged, .description 0 Desc.none,
        .segment 0 255, .writtenMark 0 255, .tables 0, .mark 0 .closed, .mark 0 .rejected,
        .sequence 0 1, .protectMark 3, .identity 7, .fleet], op.isErase = false
          ∧ (withWork (workOf op .openCopy)).isc.work = some (workOf op .openCopy) ∧ (workOf op .openCopy).op = some op)
      ∧ (withWork (workOf .fleet .openCopy)).isRunning = true ∧ ({ activeCopy0 with seq := 0 } : CopyRec).state = .closed
      ∧ (workOf (.mark 0 .retired) .activateCopy).target = some 0 ∧ (withCopy activeCopy0).activeCopy 0 = some 0
      ∧ up3.activeCopy 0 = none ∧ activeCopy0.seq < 4294967296 := by decide

theorem wit_ErasesAndVerifyFailures :
    (∀ op ∈ [FlashOp.eraseData 0 6, .eraseData 0 7, .eraseHeader 0, .eraseProtect, .eraseFleet], op.isErase = true
        ∧ (workOf op .eraseCopy).op = some op ∧ (workOf op .eraseCopy).suspended = false)
      ∧ (workOf (.eraseData 0 7) .eraseCopy).order = some ⟨0, .eraseCopy, slotBytes []⟩
      ∧ (workOf (.segment 0 0) .stageSegment).failed = false ∧ (FlashOp.segment 0 0).copy = some 0
      ∧ (FlashOp.identity 7).copy = none ∧ up3.isRunning = true
      ∧ (workOf (.eraseHeader 0) .openCopy).order = some ⟨0, .openCopy, slotBytes []⟩
      ∧ ({ workOf (.mark 0 .damaged) .openCopy with order := none } : Work).order = none
      ∧ ({ workOf (.mark 0 .damaged) .openCopy with failed := true } : Work).failed = true := by decide

theorem wit_SlicesSuspensionsAndMarks :
    let w := workOf (.eraseData 0 0) .eraseCopy
    let s := { withWork { w with suspending := true, sliceOver := true } with
      isc := { (withWork { w with suspending := true, sliceOver := true }).isc with requests := [⟨.job 1 false .door, 2, 0⟩] } }
    (FlashOp.eraseData 0 0).bank = some .a ∧ w.due = none ∧ w.suspended = false ∧ w.suspending = false
      ∧ s.isc.requests.any (fun q => decide (q.bank = .a)) = true ∧ s.isRunning = true
      ∧ ({ up3.isc with pendingMarks := [31] } : Isc).pendingMarks = [31] ∧ up3.isc.reading = none := by decide

/-- SlicesSuspensionsAndMarks: a suspended erase whose bank's last read is in progress, or its last request withdrawn. -/
theorem wit_SlicesSuspensionsAndMarks_resume :
    let w := { workOf (.eraseData 0 0) .eraseCopy with suspended := true, sliceOver := true }
    let q : ReadReq := ⟨.job 1 false .door, 2, 0⟩
    let s := { withWork w with isc := { (withWork w).isc with reading := some q, requests := [⟨.job 1 true .door, 1, 0⟩] } }
    let t := { withWork w with isc := { (withWork w).isc with requests := [q] } }
    w.due = none ∧ w.op.bind FlashOp.bank = some .a ∧ s.isc.reading = some q ∧ q.bank = .a
      ∧ s.isc.requests.any (fun q => decide (q.bank = .a)) = false ∧ t.isc.reading = none
      ∧ (t.withdraw 1 false).isc.storeState = .erasing ∧ (t.withdraw 1 true).isc.work = some w := by decide

/-- SlicesSuspensionsAndMarks: a suspension whose only waiting read is withdrawn before it completes counts, and the erase goes on. -/
theorem wit_SlicesSuspensionsAndMarks_withdrawn :
    let w := { workOf (.eraseData 0 1) .openCopy with suspending := true, sliceOver := true }
    let s := { withWork w with isc := { (withWork w).isc with
      requests := [⟨.job 0 false .info, 0, 0⟩], storeState := .erasing, targetSlot := 9 } }
    let t := after .eraseSuspensionComplete (s.withdraw 0 false)
    w.suspended = false ∧ w.due = none ∧ (s.withdraw 0 false).isc.work = some w ∧ (s.withdraw 0 false).isc.requests = []
      ∧ t.isc.storeState = .erasing ∧ t.isc.suspendCount = 1 ∧ t.ramBytes 0x1A 3 = [1, 0, 9] := by decide +kernel

/-- ErasesAndVerifyFailures: a block erase that ends with its suspension begun (log 56). -/
theorem wit_ErasesAndVerifyFailures_suspending :
    let w := { workOf (.eraseData 0 1) .openCopy with suspending := true, sliceOver := true }
    let t := after (.blockEraseEnd .verified) (withWork w)
    w.suspended = false ∧ t.isc.suspendCount = 0 ∧ t.isc.storeState = .erasing
      ∧ t.isc.work.map Work.op = some (some (.eraseData 0 2)) ∧ t.isc.work.map Work.suspending = some false := by decide +kernel

/-- VerifiedProgramsTakeEffect: the results of an OPEN COPY of copy B of slot 0, of 5,000 bytes (08 R141, section 9.6). -/
theorem wit_VerifiedProgramsTakeEffect_open :
    let o : StoreOrder := ⟨0, .openCopy, slotBytes [0, 0, 0, 0, 0, 0, 0x88, 0x13, 0, 0]⟩
    let t := after (.flashProgramEnd .verified) (withWork { workOf (.mark 1 .opened) .openCopy with order := some o })
    (openDesc o.bytes).length = 5000 ∧ t.ramByte 0x240 = 1 ∧ leNat (t.ramBytes 0x242 2) = 3 := by decide +kernel

/-- ReadsBegin: a DOOR request, a refused one and a closing read. -/
theorem wit_ReadsBegin :
    let q : ReadReq := ⟨.job 5 true .door, 0, 0⟩
    let l := { Line.reset with bufY := { SegBuf.reset with state := .waiting, job := some 4 } }
    let s := { withCopy activeCopy0 with isc := { (withCopy activeCopy0).isc with requests := [q] }, lines := up3.lines.set 5 l }
    let w := { workOf (.tables 0) .closeCopy with op := none }
    let k := { withCopy activeCopy0 with isc :=
      { (withCopy activeCopy0).isc with requests := [⟨.closing, 0, 0⟩], work := some w, storeState := .closing } }
    s.isRunning = true ∧ s.isc.reading = none ∧ s.chooseRequest = some q ∧ s.isc.records[q.copy].state = .closed
      ∧ up3.isc.records[q.copy].state ≠ .closed ∧ up3.isc.records[q.copy].state ≠ .retired
      ∧ (s.lines[(5 : Car)].buf true).state = .waiting ∧ s.lines[(5 : Car)].holding = none
      ∧ up3.chooseRequest = none ∧ k.chooseRequest = some ⟨.closing, 0, 0⟩ ∧ k.isc.work.bind Work.target = some 0
      ∧ k.isc.storeState = .closing := by decide

/-- ReadsBegin: a refused read of a job that holds the line and sends that segment next, and a refused closing read. -/
theorem wit_ReadsBegin_refused :
    let q : ReadReq := ⟨.job 0 true .door, 0, 0⟩
    let j := lineJob .door .load [0, 1]
    let b := { SegBuf.reset with state := .waiting, job := some 4, index := 0 }
    let l := { Line.reset with state := .serving, holding := some j, bufY := b }
    let s := { withLine l with isc := { up3.isc with requests := [q] } }
    let k := { up3 with isc := { up3.isc with requests := [⟨.closing, 0, 0⟩] } }
    s.chooseRequest = some q ∧ s.isc.records[q.copy].state ≠ .closed ∧ s.isc.records[q.copy].state ≠ .retired
      ∧ (s.lines[(0 : Car)].buf true).state = .waiting ∧ s.lines[(0 : Car)].holding = some j ∧ l.exch = none ∧ l.ending = .unset
      ∧ j.phase = .load ∧ j.reload = 0 :: [1] ∧ (l.buf true).job = some j.jid ∧ (l.buf true).index = 0
      ∧ (l.buf true).index ≠ 1 ∧ l.faultAt j.jid 1 = false
      ∧ (serving j (.load 0) 0 .awaiting).exch ≠ none ∧ k.chooseRequest = some ⟨.closing, 0, 0⟩ ∧ k.isc.storeState ≠ .closing := by
  decide

/-- JobReadsAreChecked and ClosingReadsBuildTheTable: the reads that are ending. -/
theorem wit_JobReadsAreChecked :
    let q : ReadReq := ⟨.job 0 false .door, 0, 0⟩
    let data := List.replicate 16 0xFF
    let k := { activeCopy0 with table := [digestOf data] }
    let l := { Line.reset with bufX := { SegBuf.reset with state := .filling } }
    let s := { withCopy k with isc := { (withCopy k).isc with reading := some q }, lines := up3.lines.set 0 l
                               dge := { Dge.reset with masked := ⟨1, 0⟩, unmasked := ⟨1, 0⟩ } }
    s.isRunning = true ∧ s.isc.reading = some q ∧ s.dge.masked = ⟨1, 0⟩ ∧ s.dge.unmasked = ⟨1, 0⟩
      ∧ (s.lines[(0 : Car)].buf false).state = .filling ∧ s.flash.segment 0 0 (segLen k.desc 0) = data
      ∧ ((s.flash.bank .a).decay (segmentAddr 0 0) 16 [(0, 5)]).cells = [(0, 5)]
      ∧ s.isc.records[(0 : CopyIx)].table[0]? = some (digestOf (maskFrom k.desc.spans 0 data))
      ∧ activeCopy0.table[0]? ≠ some (digestOf (maskFrom k.desc.spans 0 data))
      ∧ activeCopy0.state ≠ .damaged ∧ s.lines[(0 : Car)].holding = none := by decide +kernel

/-- JobReadsAreChecked: a holding job that waits for the segment being read, and one whose exchange is in flight. -/
theorem wit_JobReadsAreChecked_holding :
    let j := lineJob .door .load [0, 1]
    let l := { Line.reset with state := .serving, holding := some j
                               bufX := { SegBuf.reset with state := .filling, job := some 4, index := 0 } }
    (withLine l).lines[(0 : Car)].holding = some j ∧ l.exch = none ∧ l.ending = .unset ∧ j.phase = .load
      ∧ j.reload = 0 :: [1] ∧ (l.buf false).job = some j.jid ∧ (l.buf false).index = 0 ∧ (∀ x ∈ l.queue, x.jid ≠ j.jid)
      ∧ (serving j (.load 0) 0 .awaiting).exch ≠ none ∧ (lineJob .door .start []).phase ≠ .load := by decide

/-- JobReadsAreChecked: a STALE buffer, with and without a request that waits for it. -/
theorem wit_JobReadsAreChecked_stale :
    let j := lineJob .door .load [0, 1]
    let l := { Line.reset with state := .serving, holding := some j, wantRead := some 0
                               bufX := { SegBuf.reset with state := .stale }
                               bufY := { SegBuf.reset with state := .filled } }
    (withLine l).lines[(0 : Car)].wantRead = some 0 ∧ l.holding = some j ∧ (l.buf false).state = .stale
      ∧ (l.buf (!false)).state ≠ .empty ∧ ({ l with wantRead := none } : Line).wantRead = none := by decide

theorem wit_ClosingReadsBuildTheTable :
    let q : ReadReq := ⟨.closing, 0, 0⟩
    let w := { workOf (.tables 0) .closeCopy with op := none }
    let s := { withCopy activeCopy0 with isc := { (withCopy activeCopy0).isc with reading := some q, work := some w }
                                         dge := { Dge.reset with masked := ⟨1, 0⟩, closing := ⟨1, 0⟩ } }
    s.isRunning = true ∧ s.isc.reading = some q ∧ s.isc.work = some w ∧ s.dge.masked = ⟨1, 0⟩ ∧ q.index = s.dge.next
      ∧ s.isc.records[(0 : CopyIx)].desc.segments ≤ q.index + 1 := by decide +kernel

theorem wit_GrantAndRelease :
    let j := lineJob .door .load [2]
    let l := { Line.reset with state := .idle, hold := true, queue := [lineJob .info .load [2], j] }
    (withLine l).lines[(0 : Car)] = l ∧ l.slowDue = false ∧ (∀ d : Drop, l.owed[d] = 0)
      ∧ l.queue = [lineJob .info .load [2]] ++ j :: [] ∧ l.holdsIndex j.jid 2 = false ∧ l.bufX.state = .empty
      ∧ (∀ x ∈ [lineJob .info .load [2]], l.hold = true ∧ x.cls = .info) ∧ j.cls = .door
      ∧ Line.reset.state ≠ .idle ∧ (lineJob .door .survey []).phase ≠ .load := by decide

/-- GrantAndRelease: a grant with buffer X in use by a job that has left, with both, and with the segment held already. -/
theorem wit_GrantAndRelease_buffers :
    let j := lineJob .door .load [2]
    let stale := { SegBuf.reset with state := BufState.stale }
    let x := { Line.reset with state := .idle, queue := [j], bufX := stale }
    let held := { x with bufX := { SegBuf.reset with state := .filled, job := some 4, index := 2 } }
    x.bufX.state ≠ .empty ∧ x.bufY.state = .empty ∧ x.holdsIndex j.jid 2 = false
      ∧ ({ x with bufY := stale } : Line).bufY.state ≠ .empty ∧ held.holdsIndex j.jid 2 = true
      ∧ ((withLine x).tryGrant 0).isc.requests = [⟨.job 0 true .door, 0, 2⟩]
      ∧ ((withLine { x with bufY := stale }).tryGrant 0).lines[(0 : Car)].wantRead = some 2 := by decide

/-- LineTimers: each timer running, in the states in which it is. -/
theorem wit_LineTimers :
    let r := { Line.reset with state := .rollCall, round := some .fast, roundTimer := some 20, fastNo := 3 }
    let s := { withNode (node .awaiting) with lines := up3.lines.set 0 r }
    let x := serving (lineJob .door .start []) .start 3 .awaiting
    s.isRunning = true ∧ s.lines[(0 : Car)] = r ∧ r.rx ≠ .inFrame ∧ r.roundTimer.isSome = true
      ∧ allDrops.filter (fun d => (s.findNode 0 d).any (fun n => !n.isExcluded) && !DropSet.has r.heard d) = [0]
      ∧ allDrops.filter (fun d => (up3.findNode 0 d).any (fun n => !n.isExcluded) && !DropSet.has r.heard d) = []
      ∧ ({ r with round := some .other, called := 128, owed := r.owed.set 7 1 } : Line).round = some .other
      ∧ ({ Line.reset with state := .bootWait, bootTimer := some 50 } : Line).bootTimer.isSome = true
      ∧ ({ Line.reset with slowTimer := some 500 } : Line).slowTimer.isSome = true
      ∧ ({ x with replyTimer := some 20 } : Line).replyTimer.isSome = true ∧ x.exch = some ⟨.start, [], 3, .awaiting⟩
      ∧ x.holding = some (lineJob .door .start []) ∧ x.ending = .unset := by decide

/-- LineTimers and RoundFramesAreTaken: a round that calls two drops, on a held line whose job is to end with it. -/
theorem wit_LineTimers_ending :
    let o := (Line.reset.owed.set 1 1).set 6 1
    let l := fun e : Ending => { Line.reset with state := .rollCall, round := some .other, roundTimer := some 20, called := 66,
                                                 owed := o, holding := some (lineJob .info .start []), ending := e }
    (∀ e ∈ [Ending.unset, .ending, .storeFault], (withLine (l e)).isRunning = true ∧ (l e).round.isSome = true
        ∧ (l e).roundTimer.isSome = true ∧ (l e).rx ≠ .inFrame ∧ (l e).ending = e)
      ∧ (after (.roundTimerExpiry 0) (withLine (l .ending))).chan.clcRpl[(0 : Car)]
        = [.unheard [1] true, .unheard [6] true, .released 4]
      ∧ (after (.roundTimerExpiry 0) (withLine (l .unset))).lines[(0 : Car)].state = .serving
      ∧ (after (.roundTimerExpiry 0) (withLine (l .storeFault))).lines[(0 : Car)].state = .idle := by decide +kernel

/-- FramesAreSent: lines that may send a round, a new request, a request again, and that end or begin a frame. -/
theorem wit_FramesAreSent :
    let j := lineJob .door .load [2, 5]
    let b := { SegBuf.reset with state := BufState.filled, job := some 4, index := 2 }
    let l := { Line.reset with state := .serving, holding := some j, bufX := b }
    let again := serving (lineJob .door .start []) .start 1 .resend
    l.tx = none ∧ l.rx ≠ .inFrame ∧ l.round = none ∧ l.ending = .unset ∧ l.exch = none ∧ l.filledBuf 4 2 = some b
      ∧ l.holdsIndex 4 5 = false ∧ l.bufY.state = .empty ∧ l.slowDue = false ∧ (∀ d : Drop, l.owed[d] = 0)
      ∧ ({ Line.reset with state := .idle, slowDue := true, missing := 128 } : Line).slowDue = true
      ∧ ({ Line.reset with state := .rollCall, heard := 1 } : Line).state = .rollCall
      ∧ again.exch = some ⟨.start, [], 1, .resend⟩ ∧ again.state = .serving ∧ again.ending = .unset
      ∧ ({ again with tx := some ⟨false, []⟩ } : Line).tx = some ⟨false, []⟩
      ∧ ({ l with tx := some ⟨true, [0xA5]⟩ } : Line).tx = some ⟨true, [0xA5]⟩ ∧ l.state ≠ .off ∧ l.rx = .idle := by decide

/-- FramesAreSent: a LOAD whose segment stands in buffer Y, with X EMPTY, in use by another job, or holding the next segment. -/
theorem wit_FramesAreSent_bufferY :
    let j := lineJob .door .load [2, 5]
    let b := { SegBuf.reset with state := BufState.filled, job := some 4, index := 2 }
    let l := { Line.reset with state := .serving, holding := some j, bufY := b }
    let next := { l with bufX := { SegBuf.reset with state := .waiting, job := some 4, index := 5 } }
    let stale := { l with bufX := { SegBuf.reset with state := .stale } }
    l.filledBuf 4 2 = some b ∧ l.bufX.state = .empty ∧ l.holdsIndex 4 5 = false ∧ next.holdsIndex 4 5 = true
      ∧ stale.filledBuf 4 2 = some b ∧ stale.bufX.state ≠ .empty ∧ stale.holdsIndex 4 5 = false
      ∧ (after (.load 0) (withLine l)).isc.requests = [⟨.job 0 false .door, 0, 5⟩]
      ∧ (after (.load 0) (withLine stale)).lines[(0 : Car)].wantRead = some 5 := by decide +kernel

/-- RoundFramesAreTaken: a drop in a fast round, the last drop of another round, and a line with no exchange. -/
theorem wit_RoundFramesAreTaken :
    let l := { Line.reset with state := .rollCall, round := some .fast, called := 129, rx := .inFrame }
    (withLine l).isRunning = true ∧ l.roundOver = false ∧ DropSet.has l.called 7 = true ∧ DropSet.del l.called 7 ≠ 0
      ∧ DropSet.del 128 7 = 0 ∧ DropSet.has 128 7 = true ∧ l.holding = none ∧ l.exch = none
      ∧ (withNode (node .awaiting)).findNode 0 0 = some (node .awaiting) ∧ (withNode (node .awaiting)).findNode 0 7 = none
      ∧ (heardFields.image = (1#16).toNat) ∧ judgeBytes [0xA5] = .bad false
      ∧ DropSet.has l.called 1 = false ∧ l.round.isSome = true ∧ Line.reset.round = none ∧ Line.reset.exch = none
      ∧ judgeBytes [0xA5, 0x81, 0x11, 0x32, 0x08] = .bad true ∧ ({ l with rx := .waitIdle } : Line).rx = .waitIdle := by decide +kernel

/-- RoundFramesAreTaken: rounds whose timer has expired during a frame, and a held line whose round a HELLO ends. -/
theorem wit_RoundFramesAreTaken_ends :
    let l := { Line.reset with state := .rollCall, round := some .other, called := 1, rx := .inFrame
                               holding := some (lineJob .info .start []) }
    let late := { l with roundOver := true, called := 3 }
    let s := fun x : Line => { withNode (node .missing) with lines := up3.lines.set 0 x }
    let hello := Instr.hello 0 0 0 0 1 1 1 1
    DropSet.has l.called 0 = true ∧ DropSet.del l.called 0 = 0 ∧ late.roundOver = true ∧ DropSet.del late.called 0 ≠ 0
      ∧ ({ late with round := some .fast, fastNo := 3 } : Line).round.isSome = true ∧ late.exch = none
      ∧ (after hello (s l)).lines[(0 : Car)].state = .serving ∧ (after hello (s late)).lines[(0 : Car)].round = none
      ∧ (after hello (s l)).chan.clcRpl[(0 : Car)] = [.hello 0 heardFields]
      ∧ (after (.discardedFrame 0 []) (s late)).lines[(0 : Car)].state = .serving
      ∧ (after (.discardedFrame 0 []) (s late)).lines[(0 : Car)].errors = 1 ∧ 1 < (2 : Byte).toNat := by decide +kernel

/-- RepliesAreTaken: the exchange that awaits its reply, for each request, and its ending marks. -/
theorem wit_RepliesAreTaken :
    let l := { serving (lineJob .info .load [2, 5]) (.load 2) 3 .awaiting with rx := .inFrame }
    let s := { withLine l with fleet := { up3.fleet with holdLimit := 1 } }
    s.isRunning = true ∧ l.roundOver = false ∧ l.rx = .inFrame ∧ l.round = none ∧ l.holding = some (lineJob .info .load [2, 5])
      ∧ l.exch = some ⟨.load 2, [], 3, .awaiting⟩ ∧ l.ending = .unset ∧ Request.load 2 = .load (2#16).toNat
      ∧ s.fleet.holdLimit ≤ (lineJob .info .load [2, 5]).s + 1
      ∧ (∃ q ∈ [lineJob .door .load [0]], q.cls = .door) ∧ l.faultAt 4 5 = false
      ∧ ({ l with hold := true } : Line).hold = true ∧ Request.digestAsk 1 = .digestAsk (1#16).toNat
      ∧ (List.range 1).filter (fun i => decide ([0#32][i]? ≠ activeCopy0.table[i]?)) = []
      ∧ (List.range 1).filter (fun i => decide ([1#32][i]? ≠ activeCopy0.table[i]?)) = [0]
      ∧ ({ l with ending := .storeFault } : Line).ending = .storeFault ∧ judgeBytes [] = .bad false := by decide +kernel

/-- RepliesAreTaken: an INFO job that yields to the journal hold, after its survey and after an accepted LOAD, stands in the queue
with its reload set and s, its line released (06 R101, R111). -/
theorem wit_RepliesAreTaken_yields :
    let s := fun (j : LineJob) (q : Request) => withLine { serving j q 0 .awaiting with rx := .inFrame, hold := true }
    let t := after (.digestList 0 0 0 1 [1]) (s (lineJob .info .survey []) (.digestAsk 1))
    let u := after (.loadAck 0 0 2 0) (s (lineJob .info .load [2, 5]) (.load 2))
    t.lines[(0 : Car)].queue = [lineJob .info .load [0]] ∧ t.lines[(0 : Car)].holding = none
      ∧ u.lines[(0 : Car)].queue = [{ lineJob .info .load [5] with s := (lineJob .info .load [5]).s + 1 }]
      ∧ u.lines[(0 : Car)].holding = none ∧ u.lines[(0 : Car)].state = .idle
      ∧ u.jrn.requests.map (fun q => q.entry.kind) = [.preempted] := by decide +kernel

/-- RepliesAreTaken: an ending mark, with each frame that may end the try, and replies that disagree. -/
theorem wit_RepliesAreTaken_ending :
    let l := fun e : Ending =>
      { serving (lineJob .info .load [2, 5]) (.load 2) 1 .awaiting with rx := .inFrame, ending := e }
    let reports := fun (i : Instr) (e : Ending) => (after i (withLine (l e))).chan.clcRpl[(0 : Car)]
    (∀ i ∈ [Instr.digestList 0 0 0 1 [0], .loadAck 0 0 2 0, .running 0 0 0, .hello 0 0 0 0 1 1 1 1, .discardedFrame 0 [],
        .loadAck 0 7 2 0], reports i .ending = [.released 4] ∧ reports i .storeFault = [.failed 4 .storeFault]
          ∧ (i ≠ .loadAck 0 0 2 0 → reports i .unset = [.retry 4 2]))
      ∧ (after (.discardedFrame 0 []) (withLine (l .ending))).lines[(0 : Car)].errors = 1
      ∧ (after (.loadAck 0 0 2 0) (withLine (l .ending))).lines[(0 : Car)].errors = 0
      ∧ (7 : Drop) ≠ (lineJob .info .load [2, 5]).drop ∧ Request.load 2 ≠ .digestAsk (1#16).toNat ∧ Request.load 2 ≠ .start := by
  decide +kernel

/-- RepliesAreTaken: the fourth failed try, by a discarded frame and by a frame of another drop. -/
theorem wit_RepliesAreTaken_discarded :
    let l := { serving (lineJob .info .load [2, 5]) (.load 2) 3 .awaiting with rx := .inFrame }
    ∀ i ∈ [Instr.discardedFrame 0 [], .loadAck 0 7 2 0, .running 0 7 0, .hello 0 7 0 0 1 1 1 1],
      (after i (withLine l)).chan.clcRpl[(0 : Car)] = [.failed 4 .repeatedReject]
        ∧ (after i (withLine l)).lines[(0 : Car)].errors = 1 := by decide +kernel

/-- LineTakesNews: each kind of news at the head of the channel, and the lines that take it. -/
theorem wit_LineTakesNews :
    let news := fun m : LineOrder => { withLine (serving (lineJob .door .start []) .start 0 .awaiting) with
      chan := { Channels.empty with rplClc := Channels.empty.rplClc.set 0 [m] } }
    let l := serving (lineJob .door .start []) .start 0 .awaiting
    (∀ m ∈ [LineOrder.jobEnters (lineJob .info .load [1]), .endJob 4, .storeFaultEnd 4, .individual 7, .cancel 7, .missing 7 true],
        (news m).isRunning = true ∧ (news m).chan.rplClc[(0 : Car)] = [m])
      ∧ l.holding = some (lineJob .door .start []) ∧ (lineJob .door .start []).jid = 4
      ∧ l.exch = some ⟨.start, [], 0, .awaiting⟩ ∧ l.ending ≠ .ending ∧ l.state ≠ .off ∧ Line.reset.state = .off
      ∧ ({ Channels.empty with jrnClc := Channels.empty.jrnClc.set 0 [true] } : Channels).jrnClc[(0 : Car)] = [true] := by decide

/-- LineTakesNews: told to end a job that it has abandoned at a CAR LOSS the planner has still to take, the line reports nothing, and
the loss names the job's drop; where no such loss waits, the release and the failure are reported (R116; log 15). -/
theorem wit_LineTakesNews_abandoned :
    let s := fun (m : LineOrder) (handed : List Nat) => { withNode { node .excluded with job := some (job .line) } with
      chan := { Channels.empty with rplClc := Channels.empty.rplClc.set 0 [m]
                                    handed := Channels.empty.handed.set 0 handed
                                    ssuRpl := Channels.empty.ssuRpl.set 0 [.loss 7] } }
    (∀ p ∈ [(Instr.clcEndJob 0, LineOrder.endJob 4, LineReport.released 4),
            (.clcStoreFaultEnd 0, .storeFaultEnd 4, .failed 4 .storeFault)],
        (after p.1 (s p.2.1 [0])).chan.clcRpl[(0 : Car)] = [] ∧ (after p.1 (s p.2.1 [0])).chan.rplClc[(0 : Car)] = []
          ∧ (after p.1 (s p.2.1 [])).chan.clcRpl[(0 : Car)] = [p.2.2])
      ∧ (after (.rplCarLoss 0) (after (.clcEndJob 0) (s (.endJob 4) [0]))).jrn.requests.map (fun q => q.entry.body)
        = [[1, 1, 0, 0]] := by decide +kernel

/-- A car with an AWAITING node whose CLC has handed a retry count and, after the loss it took, a HELLO, with events for the RPL and
for the CLC. -/
def acrossLoss (st : NodeState) (rpl clc : List CarEvent) (handed : List Nat) : State :=
  { withNode (node st) with chan := { Channels.empty with
      clcRpl := Channels.empty.clcRpl.set 0 [.retry 4 1, .hello 0 heardFields]
      handed := Channels.empty.handed.set 0 handed
      ssuRpl := Channels.empty.ssuRpl.set 0 rpl
      ssuClc := Channels.empty.ssuClc.set 0 clc } }

/-- PlannerTakesCarLoss and PlannerTakesCarReturn: at a CAR LOSS the reports handed before the CLC took it are discarded, all where it
has not; those of the next cycle, and at a CAR RETURN every one, wait on (04 R48; log 4). -/
theorem wit_PlannerTakesCarLoss_reports :
    (after (.rplCarLoss 0) (acrossLoss .awaiting [.loss 3, .ret 0 false false 4] [] [1])).chan.clcRpl[(0 : Car)]
        = [.hello 0 heardFields]
      ∧ (after (.rplCarLoss 0) (acrossLoss .awaiting [.loss 3] [.loss 3] [])).chan.clcRpl[(0 : Car)] = []
      ∧ (after (.rplCarReturn 0) (acrossLoss .dark [.ret 0 false false 4] [] [])).chan.clcRpl[(0 : Car)]
        = [.retry 4 1, .hello 0 heardFields] := by decide +kernel

/-- LineTakesCarEvents: the CLC takes a loss before the RPL, which then knows the reports handed before it, and after it, when they
are without effect (log 4). -/
theorem wit_LineTakesCarEvents_reports :
    let t := after (.clcCarLoss 0) (acrossLoss .awaiting [.loss 3] [.loss 3] [])
    let u := after (.clcCarLoss 0) (acrossLoss .awaiting [] [.loss 3] [])
    t.chan.handed[(0 : Car)] = [2] ∧ t.chan.clcRpl[(0 : Car)].length = 2
      ∧ u.chan.handed[(0 : Car)] = [] ∧ u.chan.clcRpl[(0 : Car)] = [] := by decide +kernel

/-- LineTakesCarEvents: a loss on a serving line whose buffer's read is in progress keeps that read, which ends STALE (R112). -/
theorem wit_LineTakesCarEvents_reading :
    let l := { serving (lineJob .door .load [0]) (.load 0) 1 .awaiting with bufX := { SegBuf.reset with state := .filling, job := some 4 } }
    let s := { up3 with
      lines := up3.lines.set 0 l
      isc := { up3.isc with reading := some ⟨.job 0 false .door, 0, 0⟩ }
      chan := { Channels.empty with ssuClc := Channels.empty.ssuClc.set 0 [.loss 3] } }
    let t := after (.clcCarLoss 0) s
    t.isc.reading = s.isc.reading ∧ t.lines[(0 : Car)].bufX.state = .stale ∧ t.lines[(0 : Car)].state = .off := by
  decide +kernel

/-- UnheardAndBackoff: a report of nodes unheard outlives an EXCLUDE and an INCLUDE of its node, and takes it MISSING (log 57). -/
theorem wit_UnheardAndBackoff_included :
    let s := { withNode (node .awaiting) with
      chan := { Channels.empty with rplClc := Channels.empty.rplClc.set 0 [.cancel 0, .individual 0]
                                    clcRpl := Channels.empty.clcRpl.set 0 [.unheard [0] false] } }
    let t := after (.rplUnheardReport 0) s
    t.roster.map NodeRec.state = [.missing] ∧ t.chan.rplClc[(0 : Car)] = [.cancel 0, .individual 0, .missing 0 true] := by decide +kernel

/-- HelloIsPlanned and UnheardAndBackoff: a HELLO, and a roll call's outcome, of a cycle whose CAR LOSS the RPL has taken and the CLC
has not are disregarded, of the next cycle taken (04 R47, R48; log 4). -/
theorem wit_HelloIsPlanned_behind :
    let s := fun (m : LineReport) (clc : List CarEvent) =>
      { acrossLoss .awaiting [] clc [] with
        chan := { (acrossLoss .awaiting [] clc []).chan with clcRpl := Channels.empty.clcRpl.set 0 [m] } }
    let states := fun (i : Instr) (m : LineReport) (clc : List CarEvent) => (after i (s m clc)).roster.map NodeRec.state
    states (.rplHello 0) (.hello 0 heardFields) [.loss 3] = [.awaiting]
      ∧ states (.rplHello 0) (.hello 0 heardFields) [.ret 0 false false 4] = [.failed]
      ∧ states (.rplUnheardReport 0) (.unheard [0] false) [.loss 3] = [.awaiting]
      ∧ states (.rplUnheardReport 0) (.unheard [0] false) [] = [.missing] := by decide +kernel

/-- LineTakesNews: a job of a planner that has still to take the CAR LOSS the line has taken does not enter, its line in BOOT WAIT
(06 R116; log 4), as it does otherwise. -/
theorem wit_LineTakesNews_behind :
    let s := fun handed : List Nat => { withLine { Line.reset with state := .bootWait } with
      chan := { Channels.empty with rplClc := Channels.empty.rplClc.set 0 [.jobEnters (lineJob .info .load [1])]
                                    handed := Channels.empty.handed.set 0 handed } }
    let queue := fun handed : List Nat => (after (.clcJobEntersQueue 0) (s handed)).lines[(0 : Car)].queue
    queue [0] = [] ∧ queue [] = [lineJob .info .load [1]] := by decide +kernel

/-- HelloIsPlanned: a node that takes a HELLO, one that does not, and the copy it is planned against. -/
theorem wit_HelloIsPlanned :
    let n := { node .backoff with job := some (job .backoff) }
    let s := { withCopy activeCopy0 with roster := [n]
                                         chan := { Channels.empty with clcRpl := Channels.empty.clcRpl.set 0 [.hello 0 heardFields] } }
    s.isRunning = true ∧ s.chan.clcRpl[(0 : Car)] = [.hello 0 heardFields] ∧ s.findNode 0 0 = some n ∧ n.state = .backoff
      ∧ n.backoffFrom = none ∧ s.activeCopy 0 = some 0 ∧ n.cls = heardFields.cls ∧ s.isc.records[(0 : CopyIx)].desc.cls = n.cls.code
      ∧ up3.activeCopy 0 = none ∧ (node .ready).state = .ready ∧ n.cls ≠ ({ heardFields with cls := .info } : HelloFields).cls
      ∧ (∃ o, n.job = some o ∧ o.copy = 0) ∧ (node .awaiting).job = none
      ∧ ({ job .backoff with copy := 1 } : RplJob).copy ≠ 0 ∧ 0 < ({ activeCopy0 with use := 1 } : CopyRec).use := by decide

/-- JobReportsMoveNodes: a live job on its line below and at the attempt limit, and an EXCLUDED node's. -/
theorem wit_JobReportsMoveNodes :
    let n := { node .loading with job := some (job .line), attempt := 3 }
    let x := { node .excluded with job := some (job .line) }
    let s := { withNode n with chan := { Channels.empty with clcRpl := Channels.empty.clcRpl.set 0 [.loadAccepted 4] } }
    s.isRunning = true ∧ s.chan.clcRpl[(0 : Car)] = [.loadAccepted 4] ∧ s.findJob 0 4 = some n ∧ s.findNode 0 0 = some n
      ∧ n.state ≠ .excluded ∧ n.state ≠ .failed ∧ (job .line).place ≠ .backoff ∧ (job .line).condemned = false
      ∧ (job .line).reload = 2 :: [5] ∧ s.fleet.attemptLimit ≤ n.attempt ∧ (node .loading).attempt < s.fleet.attemptLimit
      ∧ (withNode x).findJob 0 4 = some x ∧ x.state = .excluded ∧ s.findJob 0 5 = none := by decide

/-- JobReportsMoveNodes: a job condemned to end with STORE FAULT disregards its RUNNING and takes that failure. -/
theorem wit_JobReportsMoveNodes_condemned :
    let n := { node .starting with job := some { job .line with condemned := true }, attempt := 3 }
    let s := fun m : LineReport =>
      { withNode n with chan := { Channels.empty with clcRpl := Channels.empty.clcRpl.set 0 [m] } }
    (s (.success 4)).findJob 0 4 = some n ∧ (s (.success 4)).findNode 0 0 = some n ∧ n.state ≠ .excluded ∧ n.state ≠ .failed
      ∧ (after (.rplRunningSuccess 0) (s (.success 4))).roster = [n]
      ∧ ((after (.rplAttemptFailed 0) (s (.failed 4 .storeFault))).roster.map NodeRec.state = [.failed]) := by decide +kernel

/-- JobReportsMoveNodes: the last door node of an up car becomes READY, and CAR DOORS READY follows NODE READY. -/
theorem wit_JobReportsMoveNodes_doors :
    let n := { node .starting with job := some { job .line with phase := some .start, reload := [] }, attempt := 1 }
    let s := { withNode n with
      chan := { Channels.empty with clcRpl := Channels.empty.clcRpl.set 0 [.success 4] }
      rpl := up3.rpl.set 0 { RplCar.reset with up := true, clock := 700, clockOn := true } }
    let t := after (.rplRunningSuccess 0) s
    s.rpl[(0 : Car)].settled = false ∧ t.rpl[(0 : Car)].settled = true ∧ t.rpl[(0 : Car)].clock = 700
      ∧ t.rpl[(0 : Car)].ready = 1 ∧ t.rpl[(0 : Car)].total = 1
      ∧ t.jrn.requests.map (fun q => (q.entry.kind, q.entry.body)) = [(.nodeReady, [0, 1, 0, 0]), (.carDoorsReady, [188, 2, 1, 0])] := by
  decide +kernel

/-- UnheardAndBackoff: AWAITING and polled nodes reported, and a running backoff timer. -/
theorem wit_UnheardAndBackoff :
    let n := { node .backoff with job := some (job .backoff) }
    let s := { withNode n with chan := { Channels.empty with clcRpl := Channels.empty.clcRpl.set 0 [.unheard [0] true] } }
    s.isRunning = true ∧ s.roster.length ≤ 48 ∧ s.roster.Pairwise (fun a b => a.before b = true)
      ∧ s.chan.clcRpl[(0 : Car)] = [.unheard [0] true] ∧ s.findNode 0 0 = some n ∧ n.state = .backoff
      ∧ (withNode (node .awaiting)).findNode 0 0 = some (node .awaiting) ∧ (node .awaiting).state ≠ .backoff
      ∧ ({ n with backoffFrom := some 0 } : NodeRec).backoffFrom.isSome = true := by decide

/-- PlannerTakesCarLoss and UnheardAndBackoff: the pin released and the PRM told, at a loss and at an unheard backoff roll call. -/
theorem wit_UnheardAndBackoff_pins :
    let n := { node .backoff with job := some (job .backoff) }
    let s := { withCopy { activeCopy0 with use := 2 } with
      roster := [n]
      chan := { Channels.empty with clcRpl := Channels.empty.clcRpl.set 0 [.unheard [0] true]
                                    ssuRpl := Channels.empty.ssuRpl.set 0 [.loss 7] } }
    let t := after (.backoffRollCallUnheard 0) s
    let u := after (.rplCarLoss 0) s
    t.isc.records[(0 : CopyIx)].use = 1 ∧ t.chan.rplPrm = [⟨0, 0, .state .backoff .missing, false⟩]
      ∧ u.isc.records[(0 : CopyIx)].use = 1 ∧ u.chan.rplPrm = [⟨0, 0, .state .backoff .dark, false⟩] := by decide +kernel

/-- TicksBudgetsAndStoreNews: each kind of news, with the nodes and cars it concerns. -/
theorem wit_TicksBudgetsAndStoreNews :
    let n := { node .queued with job := some (job .queue) }
    let s := { withNode n with
      chan := { Channels.empty with iscRpl := [.damaged 0], ordRpl := [.scanTick] }
      rpl := up3.rpl.set 0 { RplCar.reset with up := true } }
    s.isRunning = true ∧ s.chan.ordRpl = [.scanTick] ∧ s.chan.iscRpl = [.damaged 0] ∧ s.rpl[(0 : Car)].up = true
      ∧ s.rpl[(1 : Car)].up = false ∧ (job .queue).copy = 0 ∧ (job .queue).condemned = false ∧ n.state ≠ .failed
      ∧ n.attempt < s.fleet.attemptLimit ∧ (Vector.replicate 6 1)[(0 : Car)] ≠ s.rpl[(0 : Car)].budget
      ∧ (withNews { Channels.empty with ordRpl := [.budgets (Vector.replicate 6 1)], iscRpl := [.activeChanged 0] }).chan.iscRpl
        = [.activeChanged 0]
      ∧ (node .awaiting).includedDoor 0 = true ∧ (node .awaiting).slot = 0 ∧ s.rpl[(0 : Car)].settled = false
      ∧ (node .ready).attempt < s.fleet.attemptLimit ∧ s.fleet.attemptLimit ≤ ({ n with attempt := 3 } : NodeRec).attempt
      ∧ s.roster.Pairwise (fun a b => a.before b = true) := by decide

/-- TicksBudgetsAndStoreNews: a queued job on a damaged copy at its final attempt, with its NODE FAILED entry and its pin released. -/
theorem wit_TicksBudgetsAndStoreNews_damaged :
    let n := { node .queued with job := some (job .queue), attempt := 3 }
    let s := { withCopy { activeCopy0 with use := 2 } with roster := [n], chan := { Channels.empty with iscRpl := [.damaged 0] } }
    let t := after .rplCopyDamaged s
    t.isc.records[(0 : CopyIx)].use = 1 ∧ t.roster.map NodeRec.state = [.failed]
      ∧ t.jrn.requests.map (fun q => (q.entry.kind, q.entry.body)) = [(.nodeFailed, [1, 0, byteOf FailReason.storeFault.code 0, 3])] := by
  decide +kernel

/-- ScanAndFleetTable: headers of every row, two active copies of one slot, and a fleet block of each kind. -/
theorem wit_ScanAndFleetTable :
    let d : Desc := { image := 1, version := 1, cls := 0, length := 16, segments := 1, spans := [] }
    let open_ := { Header.blank with opened := .recorded, desc := some d }
    let active := fun n : Nat => { open_ with closed := .recorded, seq := .value n }
    let bad := { open_ with closed := .recorded, desc := some { d with spans := [⟨15, 2⟩] } }
    let f := { Flash.blank with headers := (((Flash.blank.headers.set 0 (active 1)).set 1 (active 2)).set 2 bad).set 31 open_ }
    (f.scan []).records.toList.map CopyRec.state
        = [.retired, .closed, .damaged] ++ List.replicate 28 .blank ++ [.torn]
      ∧ (f.scan []).entries = [(0, .retired, .scanRepair), (2, .damaged, .scanFields), (31, .torn, .scanTorn)]
      ∧ fleetExample.length = 272 ∧ ¬ (∀ y ∈ fleetExample, y = 0xFF) ∧ byteAt fleetExample 5 ≤ 48
      ∧ (digestOf (fleetExample.take (28 + 5 * byteAt fleetExample 5))).toNat = longAt fleetExample (28 + 5 * byteAt fleetExample 5)
      ∧ longAt fleetExample 0 = 4127 ∧ (List.replicate 272 (0xFF : Byte)).length = 272 := by decide +kernel

/-- MemoryStaysCanonical, JournalStaysHeld and CopiesRosterAndQueuesStayOrdered: the conditions that every step keeps hold of the part in RUNNING, and it has a step. -/
theorem wit_EveryStepKeeps : MemoryCanonical up3 ∧ OneActiveCopy up3 ∧ RosterOrdered up3 ∧ QueuesOrdered up3
    ∧ JournalHeld up3 ∧ step up3 = .next up3 := by
  refine ⟨⟨by decide +kernel, by decide, by decide⟩, ?_, ⟨by decide, List.Pairwise.nil⟩, ?_,
    journal_held 0 0 false ⟨by decide, by decide⟩ ⟨by decide, by decide⟩ (by decide) (by decide), rfl⟩
  · unfold OneActiveCopy; decide
  · intro c
    have : up3.lines[c].queue = [] := by revert c; decide
    rw [this]; exact List.Pairwise.nil

end Sys2Proof.Tests
end

section
/-! SUPPORT. What the Exchange RAM shows once items have been written into it: words, items, and the items of the Status Page and
the two mirrors, each in its own place. -/

namespace Sys2Proof.Machine

/-! ## A word shown -/

/-- The memory holds the low 16 bits of the word's value at its address, low byte first (R154). -/
def Shows (m : Memory) (w : Nat × Nat) : Prop := leNat (Mem.readBytes 0 m w.1 2) = w.2 % 65536

theorem Shows.of_reads {m m' : Memory} {w : Nat × Nat} (h : Shows m w) (h0 : Mem.read 0 m' w.1 = Mem.read 0 m w.1)
    (h1 : Mem.read 0 m' (w.1 + 1) = Mem.read 0 m (w.1 + 1)) : Shows m' w := by
  simpa only [Shows, Mem.readBytes, h0, h1] using h

theorem leNat_le16 (v : Nat) : leNat (le16 v) = v % 65536 := by
  simp only [leNat, le16, byteOf, BitVec.toNat_ofNat, Nat.reducePow, Nat.reduceMul]
  omega

theorem putWord_shows {m : Memory} (a v : Nat) (hm : Mem.wf 0 m = true) : Shows (putWord m a v) (a, v) := by
  have h0 : Mem.read 0 (putWord m a v) a = byteOf v 0 :=
    Mem.read_writeBytes (l := le16 v) (i := 0) hm (by simp [le16])
  have h1 : Mem.read 0 (putWord m a v) (a + 1) = byteOf v 1 :=
    Mem.read_writeBytes (l := le16 v) (i := 1) hm (by simp [le16])
  simp only [Shows, Mem.readBytes, h0, h1]
  exact leNat_le16 v

/-- A word of value 0 is shown by two zero bytes. -/
theorem Shows.zero {m : Memory} {a : Nat} (h : Shows m (a, 0)) : Mem.read 0 m a = 0 ∧ Mem.read 0 m (a + 1) = 0 := by
  have h' : (Mem.read 0 m a).toNat + 256 * (Mem.read 0 m (a + 1)).toNat = 0 := h
  exact ⟨BitVec.eq_of_toNat_eq (by simpa using (Nat.add_eq_zero_iff.mp h').1),
    BitVec.eq_of_toNat_eq (by simpa using (Nat.add_eq_zero_iff.mp h').2)⟩

/-- Two words with no byte in common. -/
def WordsApart (w x : Nat × Nat) : Prop := w.1 + 1 < x.1 ∨ x.1 + 1 < w.1

theorem Shows.after_putWords {m : Memory} {w : Nat × Nat} (h : Shows m w) {l : List (Nat × Nat)} (hl : ∀ x ∈ l, WordsApart w x) :
    Shows (putWords m l) w :=
  h.of_reads (read_putWords_other l m (fun x hx => by have := hl x hx; simp only [WordsApart] at this; omega))
    (read_putWords_other l m (fun x hx => by have := hl x hx; simp only [WordsApart] at this; omega))

theorem putWords_shows {l : List (Nat × Nat)} (hl : l.Pairwise WordsApart) {m : Memory} (hm : Mem.wf 0 m = true) :
    ∀ w ∈ l, Shows (putWords m l) w := by
  induction l generalizing m with
  | nil => intro w hw; cases hw
  | cons x rest ih =>
    obtain ⟨hx, hrest⟩ := List.pairwise_cons.mp hl
    intro w hw
    rcases List.mem_cons.mp hw with rfl | hw
    · exact (putWord_shows _ _ hm).after_putWords hx
    · exact ih hrest (wf_putWord _ _ hm) w hw

theorem wordsFrom_apart (l : List Nat) (a : Nat) : (wordsFrom a l).Pairwise WordsApart := by
  induction l generalizing a with
  | nil => exact List.Pairwise.nil
  | cons v rest ih =>
    refine List.pairwise_cons.mpr ⟨fun w hw => ?_, ih (a + 2)⟩
    have := wordsFrom_within rest (a + 2) w hw
    simp only [WordsApart]
    omega

/-! ## Items -/

/-- The words of an item. -/
abbrev Item.words (x : Item) : List (Nat × Nat) := wordsFrom x.1 x.2

/-- Where an item stands: its address and how many words it has. -/
def Item.place (x : Item) : Nat × Nat := (x.1, x.2.length)

/-- Two places with no byte in common. -/
def PlacesApart (p q : Nat × Nat) : Prop := p.1 + 2 * p.2 ≤ q.1 ∨ q.1 + 2 * q.2 ≤ p.1

/-- Items of which no two have a byte in common. -/
def ItemsApart (l : List Item) : Prop := (l.map Item.place).Pairwise PlacesApart

theorem words_apart {x y : Item} (h : PlacesApart x.place y.place) : ∀ w ∈ x.words, ∀ v ∈ y.words, WordsApart w v := by
  intro w hw v hv
  have h1 := wordsFrom_within _ _ w hw
  have h2 := wordsFrom_within _ _ v hv
  simp only [PlacesApart, Item.place, WordsApart] at *
  omega

theorem ItemsApart.itemWords {l : List Item} (h : ItemsApart l) : (itemWords l).Pairwise WordsApart :=
  List.pairwise_flatMap.mpr ⟨fun x _ => wordsFrom_apart x.2 x.1,
    (List.pairwise_map.mp h).imp words_apart⟩

theorem ItemsApart.append {l k : List Item} (hl : ItemsApart l) (hk : ItemsApart k)
    (h : ∀ x ∈ l, ∀ y ∈ k, PlacesApart x.place y.place) : ItemsApart (l ++ k) := by
  simp only [ItemsApart, List.map_append]
  refine List.pairwise_append.mpr ⟨hl, hk, fun p hp q hq => ?_⟩
  obtain ⟨x, hx, rfl⟩ := List.mem_map.mp hp
  obtain ⟨y, hy, rfl⟩ := List.mem_map.mp hq
  exact h x hx y hy

/-- Blocks of items that lie one after the other. -/
theorem ItemsApart.blocks {n : Nat} {f : Fin n → List Item} {base size : Nat} (hf : ∀ i, ItemsApart (f i))
    (h : ∀ i, ∀ x ∈ f i, base + size * i.val ≤ x.1 ∧ x.1 + 2 * x.2.length ≤ base + size * i.val + size) :
    ItemsApart ((List.finRange n).flatMap f) := by
  simp only [ItemsApart, List.map_flatMap]
  refine List.pairwise_flatMap.mpr ⟨fun i _ => hf i, (List.pairwise_lt_finRange n).imp (fun {i j} hij => ?_)⟩
  intro p hp q hq
  obtain ⟨x, hx, rfl⟩ := List.mem_map.mp hp
  obtain ⟨y, hy, rfl⟩ := List.mem_map.mp hq
  have h1 := h i x hx
  have h2 := h j y hy
  have h3 : size * (i.val + 1) ≤ size * j.val := Nat.mul_le_mul_left size hij
  rw [Nat.mul_succ] at h3
  exact .inl (by simp only [Item.place]; omega)

/-! ## Writing the items that differ -/

/-- The new items, two lists of the same places: what a write of those that differ does. -/
theorem syncItems_cons (m : Memory) (o y : Item) (olds news : List Item) :
    syncItems m (o :: olds) (y :: news) = syncItems (if o = y then m else putWords m y.words) olds news := rfl

/-- A byte in no new item that differs is as it was. -/
theorem read_syncItems_unchanged {olds news : List Item} (hp : olds.map Item.place = news.map Item.place)
    (hd : ItemsApart news) (m : Memory) {a : Nat}
    (h : ∀ x ∈ news, x ∉ olds → a < x.1 ∨ x.1 + 2 * x.2.length ≤ a) :
    Mem.read 0 (syncItems m olds news) a = Mem.read 0 m a := by
  induction olds generalizing m news with
  | nil => rfl
  | cons o olds ih =>
    cases news with
    | nil => rfl
    | cons y news =>
      obtain ⟨hoy, hrest⟩ : o.place = y.place ∧ olds.map Item.place = news.map Item.place := by simpa using hp
      obtain ⟨hy, hd⟩ := List.pairwise_cons.mp hd
      rw [syncItems_cons, ih hrest hd]
      · split
        · rfl
        · rename_i hne
          refine read_putWords_other _ _ (fun w hw => ?_)
          by_cases hmem : y ∈ olds
          · exfalso
            -- an old item at the place of `y` is the one `y` replaces
            have h1 := hy y.place (hrest ▸ List.mem_map_of_mem hmem)
            have h2 := wordsFrom_within _ _ w hw
            simp only [PlacesApart, Item.place] at h1
            omega
          · have h1 := h y List.mem_cons_self (fun hc => by
              rcases List.mem_cons.mp hc with e | e
              · exact hne e.symm
              · exact hmem e)
            have h2 := wordsFrom_within _ _ w hw
            omega
      · intro x hx hxo
        by_cases hxo' : x = o
        · have h1 := hy x.place (List.mem_map_of_mem hx)
          rw [hxo', hoy] at h1
          have h2 : x.place = y.place := hxo' ▸ hoy
          simp only [Item.place, Prod.mk.injEq] at h2
          simp only [PlacesApart, Item.place] at h1
          omega
        · exact h x (List.mem_cons_of_mem _ hx) (by simp [hxo', hxo])

/-- A new item that differs is shown whole, whatever the memory held there. -/
theorem syncItems_shows {olds news : List Item} (hp : olds.map Item.place = news.map Item.place)
    (hd : ItemsApart news) {m : Memory} (hm : Mem.wf 0 m = true) :
    ∀ x ∈ news, x ∉ olds → ∀ w ∈ x.words, Shows (syncItems m olds news) w := by
  induction olds generalizing m news with
  | nil => intro x hx; simp only [List.map_nil, List.nil_eq, List.map_eq_nil_iff] at hp; simp [hp] at hx
  | cons o olds ih =>
    cases news with
    | nil => intro x hx; cases hx
    | cons y news =>
      obtain ⟨-, hrest⟩ : o.place = y.place ∧ olds.map Item.place = news.map Item.place := by simpa using hp
      obtain ⟨hy, hd⟩ := List.pairwise_cons.mp hd
      intro x hx hxo w hw
      obtain ⟨hne, hxo⟩ := List.ne_and_not_mem_of_not_mem_cons hxo
      have hwf : Mem.wf 0 (if o = y then m else putWords m y.words) = true := by
        split
        · exact hm
        · exact wf_putWords _ hm
      rw [syncItems_cons]
      rcases List.mem_cons.mp hx with rfl | hx
      · rw [if_neg (Ne.symm hne)]
        have hclear : ∀ v ∈ itemWords news, WordsApart w v := by
          intro v hv
          obtain ⟨z, hz, hv⟩ := List.mem_flatMap.mp hv
          exact words_apart (hy z.place (List.mem_map_of_mem hz)) w hw v hv
        refine (putWords_shows (wordsFrom_apart _ _) hm w hw).of_reads
          (read_syncItems_other _ _ _ (fun v hv => ?_)) (read_syncItems_other _ _ _ (fun v hv => ?_)) <;>
        · have := hclear v hv
          simp only [WordsApart] at this
          omega
      · exact ih hrest hd hwf x hx hxo w hw

/-- A new item that stands among the old ones keeps what it shows. -/
theorem syncItems_keeps_shown {olds news : List Item} (hp : olds.map Item.place = news.map Item.place)
    (hd : ItemsApart news) {m : Memory} {x : Item} (hx : x ∈ news) (hxo : x ∈ olds) {w : Nat × Nat} (hw : w ∈ x.words)
    (h : Shows m w) : Shows (syncItems m olds news) w := by
  have hfree : ∀ a, w.1 ≤ a → a ≤ w.1 + 1 → ∀ y ∈ news, y ∉ olds → a < y.1 ∨ y.1 + 2 * y.2.length ≤ a := by
    intro a h1 h2 y hy hyo
    have hxy : x ≠ y := fun e => hyo (e ▸ hxo)
    have : Std.Symm (fun a b : Item => PlacesApart a.place b.place) := ⟨fun _ _ => Or.symm⟩
    have hapart : PlacesApart x.place y.place := (List.pairwise_map.mp hd).forall hx hy hxy
    have hin := wordsFrom_within _ _ w hw
    simp only [PlacesApart, Item.place] at hapart
    omega
  exact h.of_reads (read_syncItems_unchanged hp hd m (hfree _ le_rfl (Nat.le_succ _)))
    (read_syncItems_unchanged hp hd m (hfree _ (Nat.le_succ _) le_rfl))

/-- Lists of items that go together are written together. -/
theorem syncItems_append (olds news olds' news' : List Item) (m : Memory) (h : olds.length = news.length) :
    syncItems m (olds ++ olds') (news ++ news') = syncItems (syncItems m olds news) olds' news' := by
  induction olds generalizing m news with
  | nil => obtain rfl := List.eq_nil_of_length_eq_zero h.symm; rfl
  | cons o olds ih =>
    cases news with
    | nil => simp at h
    | cons y news => exact ih _ _ (by simpa using h)

theorem syncItems_flatMap {β : Type} (f g : β → List Item) (l : List β) (m : Memory) (h : ∀ b, (f b).length = (g b).length) :
    syncItems m (l.flatMap f) (l.flatMap g) = l.foldl (fun m b => syncItems m (f b) (g b)) m := by
  induction l generalizing m with
  | nil => rfl
  | cons b rest ih => rw [List.flatMap_cons, List.flatMap_cons, syncItems_append _ _ _ _ _ (h b), ih, List.foldl_cons]

/-! ## The items the part shows -/

theorem statusItems_place (s t : State) : (statusItems s).map Item.place = (statusItems t).map Item.place := by
  simp only [statusItems, List.map_cons, List.map_nil, Item.place, longWords, List.length_cons, List.length_nil]

theorem carItems_place (s t : State) (c : Car) : (carItems s c).map Item.place = (carItems t c).map Item.place := by
  simp only [carItems, List.map_cons, List.map_nil, Item.place, List.length_cons, List.length_nil]

theorem nodeItems_place (r q : Option NodeRec) : (nodeItems r).map Item.place = (nodeItems q).map Item.place := by
  cases r <;> cases q <;>
    simp only [nodeItems, List.map_cons, List.map_nil, Item.place, longWords, List.length_cons, List.length_nil]

theorem mirrorItems_place (s t : State) (i : Fin 48) : (mirrorItems s i).map Item.place = (mirrorItems t i).map Item.place := by
  have h := nodeItems_place s.roster[i.val]? t.roster[i.val]?
  have e : ∀ l : List Item, (l.map (fun x => (Config.nodeMirrorBase + 64 * i.val + x.1, x.2))).map Item.place
      = (l.map Item.place).map (fun p => (Config.nodeMirrorBase + 64 * i.val + p.1, p.2)) := by
    intro l; simp [Item.place, Function.comp_def]
  simp only [mirrorItems, e, List.map_cons, h]
  rfl

theorem recordItems_place (r : CopyIx) (k v : CopyRec) :
    (recordItems r k).map Item.place = (recordItems r v).map Item.place := by
  simp only [recordItems, List.map_cons, List.map_nil, Item.place, longWords, List.length_cons, List.length_nil]

theorem statusItems_apart (s : State) : ItemsApart (statusItems s) := by
  simp [ItemsApart, statusItems, Item.place, PlacesApart, longWords]

theorem carItems_apart (s : State) (c : Car) : ItemsApart (carItems s c) := by
  simp [ItemsApart, carItems, Item.place, PlacesApart]

theorem nodeItems_apart (r : Option NodeRec) (n : Nat) : ItemsApart ((30, [n]) :: nodeItems r) := by
  rw [ItemsApart, List.map_cons, nodeItems_place r none]
  simp [nodeItems, Item.place, PlacesApart]

theorem mirrorItems_apart (s : State) (i : Fin 48) : ItemsApart (mirrorItems s i) := by
  have h := List.pairwise_map.mp (nodeItems_apart s.roster[i.val]? s.mirrorCount[i].toNat)
  simp only [ItemsApart, mirrorItems, List.pairwise_map]
  refine h.imp (fun {x y} hxy => ?_)
  simp only [PlacesApart, Item.place] at hxy ⊢
  omega

theorem recordItems_apart (r : CopyIx) (k : CopyRec) : ItemsApart (recordItems r k) := by
  simp [ItemsApart, recordItems, Item.place, PlacesApart, longWords]

/-- Each item has a word, and an entry's items lie in its 64 bytes. -/
theorem mirrorItems_within (s : State) (i : Fin 48) :
    ∀ x ∈ mirrorItems s i, 0x1200 + 64 * i.val ≤ x.1 ∧ x.1 + 2 * x.2.length ≤ 0x1200 + 64 * i.val + 40 := by
  intro x hx
  simp only [mirrorItems, List.mem_map] at hx
  obtain ⟨y, hy, rfl⟩ := hx
  simp only [Config.nodeMirrorBase]
  rcases List.mem_cons.mp hy with rfl | h
  · simp only [List.length_cons, List.length_nil]; omega
  · have := nodeItems_within _ y h; omega

theorem recordItems_within (r : CopyIx) (k : CopyRec) :
    ∀ x ∈ recordItems r k, 0x1E00 + 16 * r.val ≤ x.1 ∧ x.1 + 2 * x.2.length ≤ 0x1E00 + 16 * r.val + 16 ∧ 0 < x.2.length := by
  simp [recordItems, longWords, Config.directoryMirrorBase]

theorem pageItems_eq (s : State) : pageItems s = statusItems s ++ (List.finRange 6).flatMap (carItems s) := by
  rw [pageItems, show allCars = List.finRange 6 by decide]

theorem pageItems_within (s : State) : ∀ x ∈ pageItems s, x.1 + 2 * x.2.length ≤ 0xC0 := by
  intro x hx
  rcases List.mem_append.mp hx with h | h
  · have := statusItems_within s x h; omega
  · obtain ⟨c, -, h⟩ := List.mem_flatMap.mp h
    have := carItems_within s c x h
    have := c.isLt
    omega

theorem pageItems_apart (s : State) : ItemsApart (pageItems s) := by
  rw [pageItems_eq]
  refine (statusItems_apart s).append (ItemsApart.blocks (carItems_apart s) (carItems_within s)) (fun x hx y hy => ?_)
  obtain ⟨c, -, hc⟩ := List.mem_flatMap.mp hy
  have h1 := statusItems_within s x hx
  have h2 := carItems_within s c y hc
  exact .inl (by simp only [Item.place]; omega)

/-- Every item of the Status Page and the two mirrors, in the order in which publishing goes through them. -/
def shownItems (s : State) : List Item :=
  pageItems s ++ ((List.finRange 48).flatMap (mirrorItems s) ++ (List.finRange 32).flatMap (fun r => recordItems r s.isc.records[r]))

theorem flatMap_place {β : Type} {l : List β} {f g : β → List Item} (h : ∀ b, (f b).map Item.place = (g b).map Item.place) :
    (l.flatMap f).map Item.place = (l.flatMap g).map Item.place := by
  simp only [List.map_flatMap, h]

theorem length_of_place {l k : List Item} (h : l.map Item.place = k.map Item.place) : l.length = k.length := by
  simpa using congrArg List.length h

theorem pageItems_place (s t : State) : (pageItems s).map Item.place = (pageItems t).map Item.place := by
  simp only [pageItems_eq, List.map_append, statusItems_place s t, flatMap_place (carItems_place s t)]

theorem shownItems_place (s t : State) : (shownItems s).map Item.place = (shownItems t).map Item.place := by
  simp only [shownItems, List.map_append, pageItems_place s t, flatMap_place (mirrorItems_place s t),
    flatMap_place (fun r => recordItems_place r s.isc.records[r] t.isc.records[r])]

theorem mirrors_apart (s : State) :
    ItemsApart ((List.finRange 48).flatMap (mirrorItems s) ++ (List.finRange 32).flatMap (fun r => recordItems r s.isc.records[r])) := by
  refine (ItemsApart.blocks (base := 0x1200) (size := 64) (mirrorItems_apart s) (fun i x hx => ?_)).append
    (ItemsApart.blocks (base := 0x1E00) (size := 16) (fun r => recordItems_apart r _) (fun r x hx => ?_)) (fun x hx y hy => ?_)
  · have := mirrorItems_within s i x hx; omega
  · have := recordItems_within r _ x hx; omega
  · obtain ⟨i, -, hi⟩ := List.mem_flatMap.mp hx
    obtain ⟨r, -, hr⟩ := List.mem_flatMap.mp hy
    have h1 := mirrorItems_within s i x hi
    have h2 := recordItems_within r _ y hr
    have := i.isLt
    exact .inl (by simp only [Item.place]; omega)

theorem shownItems_apart (s : State) : ItemsApart (shownItems s) := by
  refine (pageItems_apart s).append (mirrors_apart s) (fun x hx y hy => ?_)
  have h1 := pageItems_within s x hx
  have h2 : 0xC0 ≤ y.1 := by
    rcases List.mem_append.mp hy with h | h
    · obtain ⟨i, -, hi⟩ := List.mem_flatMap.mp h
      have := mirrorItems_within s i y hi; omega
    · obtain ⟨r, -, hr⟩ := List.mem_flatMap.mp h
      have := recordItems_within r _ y hr; omega
  exact .inl (by simp only [Item.place]; omega)

/-! ## Which item of another state stands where -/

theorem mem_shownItems {s : State} {x : Item} :
    x ∈ shownItems s ↔ x ∈ pageItems s ∨ (∃ i, x ∈ mirrorItems s i) ∨ ∃ r : CopyIx, x ∈ recordItems r s.isc.records[r] := by
  simp only [shownItems, List.mem_append, List.mem_flatMap, List.mem_finRange, true_and]

/-- An item of one state's page stands on the page in any state that shows it at all; so for the two mirrors. -/
theorem mem_pageItems_of_shown {s t : State} {x : Item} (hx : x ∈ pageItems t) (h : x ∈ shownItems s) : x ∈ pageItems s := by
  have h0 := pageItems_within t x hx
  rcases mem_shownItems.mp h with h | ⟨i, hi⟩ | ⟨r, hr⟩
  · exact h
  · have := mirrorItems_within s i x hi; omega
  · have := recordItems_within r _ x hr; omega

theorem mem_mirrorItems_of_shown {s t : State} {i : Fin 48} {x : Item} (hx : x ∈ mirrorItems t i) (h : x ∈ shownItems s) :
    x ∈ mirrorItems s i := by
  have h0 := mirrorItems_within t i x hx
  have := i.isLt
  rcases mem_shownItems.mp h with h | ⟨j, hj⟩ | ⟨r, hr⟩
  · have := pageItems_within s x h; omega
  · have := mirrorItems_within s j x hj
    obtain rfl : i = j := Fin.ext (by omega)
    exact hj
  · have := recordItems_within r _ x hr; omega

theorem mem_recordItems_of_shown {s t : State} {r : CopyIx} {x : Item} (hx : x ∈ recordItems r t.isc.records[r])
    (h : x ∈ shownItems s) : x ∈ recordItems r s.isc.records[r] := by
  have h0 := recordItems_within r _ x hx
  rcases mem_shownItems.mp h with h | ⟨j, hj⟩ | ⟨q, hq⟩
  · have := pageItems_within s x h; omega
  · have := mirrorItems_within s j x hj
    have := j.isLt
    omega
  · have := recordItems_within q _ x hq
    obtain rfl : r = q := Fin.ext (by omega)
    exact hq

/-- The items that publishing writes. -/
theorem mem_shownItems_changed {s t : State} {x : Item} : x ∈ shownItems t ∧ x ∉ shownItems s ↔
    (x ∈ pageItems t ∧ x ∉ pageItems s)
      ∨ (∃ r : CopyIx, x ∈ recordItems r t.isc.records[r] ∧ x ∉ recordItems r s.isc.records[r])
      ∨ (∃ i : Fin 48, x ∈ mirrorItems t i ∧ x ∉ mirrorItems s i) := by
  constructor
  · rintro ⟨ht, hs⟩
    rcases mem_shownItems.mp ht with h | ⟨i, hi⟩ | ⟨r, hr⟩
    · exact .inl ⟨h, fun hc => hs (mem_shownItems.mpr (.inl hc))⟩
    · exact .inr (.inr ⟨i, hi, fun hc => hs (mem_shownItems.mpr (.inr (.inl ⟨i, hc⟩)))⟩)
    · exact .inr (.inl ⟨r, hr, fun hc => hs (mem_shownItems.mpr (.inr (.inr ⟨r, hc⟩)))⟩)
  · rintro (⟨ht, hs⟩ | ⟨r, ht, hs⟩ | ⟨i, ht, hs⟩)
    · exact ⟨mem_shownItems.mpr (.inl ht), fun hc => hs (mem_pageItems_of_shown ht hc)⟩
    · exact ⟨mem_shownItems.mpr (.inr (.inr ⟨r, ht⟩)), fun hc => hs (mem_recordItems_of_shown ht hc)⟩
    · exact ⟨mem_shownItems.mpr (.inr (.inl ⟨i, ht⟩)), fun hc => hs (mem_mirrorItems_of_shown ht hc)⟩

/-! ## What publishing writes -/

theorem syncEntry_eq (s t : State) (m : Memory) (i : Fin 48) : syncEntry s t m i = syncItems m (mirrorItems s i) (mirrorItems t i) := by
  unfold syncEntry
  split
  · rename_i h
    rw [show mirrorItems s i = mirrorItems t i by simp only [mirrorItems, h.1, h.2], syncItems_self]
  · rfl

theorem syncRecord_eq (s t : State) (m : Memory) (r : CopyIx) :
    syncRecord s t m r = syncItems m (recordItems r s.isc.records[r]) (recordItems r t.isc.records[r]) := by
  unfold syncRecord
  split
  · rename_i h
    rw [h, syncItems_self]
  · rfl

/-- Publishing writes the items that differ, taken as one list. -/
theorem publish_ram (s t : State) : (publish s t).ram = syncItems t.ram (shownItems s) (shownItems t) := by
  have h1 : syncEntry s t = fun m i => syncItems m (mirrorItems s i) (mirrorItems t i) :=
    funext fun m => funext fun i => syncEntry_eq s t m i
  have h2 : syncRecord s t = fun m r => syncItems m (recordItems r s.isc.records[r]) (recordItems r t.isc.records[r]) :=
    funext fun m => funext fun r => syncRecord_eq s t m r
  simp only [shownItems]
  rw [syncItems_append _ _ _ _ _ (length_of_place (pageItems_place s t)),
    syncItems_append _ _ _ _ _ (length_of_place (flatMap_place (mirrorItems_place s t))),
    syncItems_flatMap _ _ _ _ (fun i => length_of_place (mirrorItems_place s t i)),
    syncItems_flatMap _ _ _ _ (fun r => length_of_place (recordItems_place r _ _)), ← h1, ← h2]
  rfl

/-- An item in whose place publishing finds it changed, or finds its words already shown, is shown afterwards. -/
theorem publish_shows {s t : State} (hm : Mem.wf 0 t.ram = true) {x : Item} (hx : x ∈ shownItems t) {w : Nat × Nat}
    (hw : w ∈ x.words) (h : x ∈ shownItems s → Shows t.ram w) : Shows (publish s t).ram w := by
  rw [publish_ram]
  by_cases hs : x ∈ shownItems s
  · exact syncItems_keeps_shown (shownItems_place s t) (shownItems_apart t) hx hs hw (h hs)
  · exact syncItems_shows (shownItems_place s t) (shownItems_apart t) hm x hx hs w hw

end Sys2Proof.Machine
end

section
/-! The Status Page and the mirrors follow what they show (R32, R129, R154, R156, R170). -/

namespace Sys2Proof.Machine

/-- Settles O3, by the regions that publishing writes. -/
theorem onlyShownMemoryIsPublished : Obligations.OnlyShownMemoryIsPublished := by
  intro s t
  refine ⟨publish_eq s t, fun a h1 h2 => publish_ramByte_other s t (fun hc => ?_)⟩
  simp only [Shown] at hc
  omega

/-- Publishing writes no byte but of the items it finds changed. -/
theorem publish_ramByte_unchanged {s t : State} {a : Nat}
    (h : ∀ x ∈ shownItems t, x ∉ shownItems s → a < x.1 ∨ x.1 + 2 * x.2.length ≤ a) :
    (publish s t).ramByte a = t.ramByte a := by
  show Mem.read 0 (publish s t).ram a = _
  rw [publish_ram]
  exact read_syncItems_unchanged (shownItems_place s t) (shownItems_apart t) t.ram h

/-- The words of some of the items stand shown where they were shown, or have changed. -/
theorem publish_shows_all {s t : State} (hm : Mem.wf 0 t.ram = true) {old new : List Item} (hsub : ∀ x ∈ new, x ∈ shownItems t)
    (hold : ∀ x ∈ new, x ∈ shownItems s → x ∈ old)
    (h : ∀ w ∈ itemWords old, w ∈ itemWords new → Shows t.ram w) : ∀ w ∈ itemWords new, Shows (publish s t).ram w := by
  intro w hw
  obtain ⟨x, hx, hwx⟩ := List.mem_flatMap.mp hw
  exact publish_shows hm (hsub x hx) hwx (fun hs => h w (wordsFrom_subset (hold x hx hs) w hwx) hw)

theorem directoryMirror_eq (s : State) :
    directoryMirror s = itemWords ((List.finRange 32).flatMap (fun r => recordItems r s.isc.records[r])) := by
  simp only [directoryMirror, recordWords, itemWords, List.flatMap_assoc]

theorem carItems_single (s : State) (c : Car) : ∀ x ∈ carItems s c, ∃ v, x.2 = [v] := by
  simp [carItems]

/-- A word of a car summary is an item of its own. -/
theorem mem_carWords (s : State) (c : Car) (w : Nat × Nat) : w ∈ itemWords (carItems s c) ↔ (w.1, [w.2]) ∈ carItems s c := by
  constructor
  · intro hw
    obtain ⟨⟨a, l⟩, hx, hw⟩ := List.mem_flatMap.mp hw
    obtain ⟨v, rfl⟩ : ∃ v, l = [v] := carItems_single s c _ hx
    obtain rfl : w = (a, v) := by simpa [wordsFrom] using hw
    exact hx
  · exact fun h => wordsFrom_subset h w List.mem_cons_self

/-- A change of a car's planner record writes the summary's items that it changes (R156). -/
theorem State.setRpl_shows (s : State) (c : Car) (r : RplCar) (hm : Mem.wf 0 s.ram = true) :
    let t := s.setRpl c r
    (∀ w ∈ itemWords (carItems t c), w ∉ itemWords (carItems s c) → Shows t.ram w)
      ∧ ∀ a, (∀ w ∈ itemWords (carItems t c), w ∉ itemWords (carItems s c) → a ≠ w.1 ∧ a ≠ w.1 + 1) →
        t.ramByte a = s.ramByte a := by
  intro t
  have hp : (carItems s c).map Item.place = (carItems t c).map Item.place := carItems_place s t c
  have hd := carItems_apart t c
  constructor
  · intro w hw hwo
    rw [mem_carWords] at hw hwo
    exact syncItems_shows hp hd hm _ hw hwo w List.mem_cons_self
  · intro a h
    refine read_syncItems_unchanged hp hd s.ram (fun x hx hxo => ?_)
    obtain ⟨b, l⟩ := x
    obtain ⟨v, rfl⟩ : ∃ v, l = [v] := carItems_single t c _ hx
    have := h (b, v) ((mem_carWords t c _).mpr hx) (fun hc => hxo ((mem_carWords s c _).mp hc))
    simp only [List.length_cons, List.length_nil] at this ⊢
    omega

/-- A change of a directory record writes the mirror entry's items that it changes (R129). -/
theorem State.setRecord_ram (s : State) (r : CopyIx) (v : CopyRec) :
    (s.setRecord r v).ram = syncItems s.ram (recordItems r s.isc.records[r]) (recordItems r v) := by
  show syncRecord s { s with isc := { s.isc with records := s.isc.records.set r v } } s.ram r = _
  rw [syncRecord_eq]
  simp

theorem State.setRecord_shows (s : State) (r : CopyIx) (v : CopyRec) (hm : Mem.wf 0 s.ram = true) :
    let t := s.setRecord r v
    (∀ x ∈ recordItems r v, x ∉ recordItems r s.isc.records[r] → ∀ w ∈ x.words, Shows t.ram w)
      ∧ ∀ a, (∀ x ∈ recordItems r v, x ∉ recordItems r s.isc.records[r] → a < x.1 ∨ x.1 + 2 * x.2.length ≤ a) →
        t.ramByte a = s.ramByte a := by
  have hp := recordItems_place r s.isc.records[r] v
  have hd := recordItems_apart r v
  simp only [State.ramByte, State.setRecord_ram]
  exact ⟨syncItems_shows hp hd hm, fun a h => read_syncItems_unchanged hp hd s.ram h⟩

/-- Settles O4: publishing goes through all shown items as one list, and each change of a record through that record's. -/
theorem pagesFollowItems : Obligations.PagesFollowItems := by
  refine ⟨fun s t hm => ⟨?_, ?_, ?_, ?_⟩, fun s c r hm => ?_, fun s r v hm => ?_⟩
  · intro x hx w hw
    obtain ⟨ht, hs⟩ := mem_shownItems_changed.mpr hx
    exact publish_shows hm ht hw (fun hc => absurd hc hs)
  · exact fun a h => publish_ramByte_unchanged (fun x ht hs => h x (mem_shownItems_changed.mp ⟨ht, hs⟩))
  · exact publish_shows_all hm (fun x hx => mem_shownItems.mpr (.inl hx)) (fun x hx => mem_pageItems_of_shown hx)
  · rw [directoryMirror_eq, directoryMirror_eq]
    refine publish_shows_all hm (fun x hx => ?_) (fun x hx hs => ?_)
    · obtain ⟨r, -, hr⟩ := List.mem_flatMap.mp hx
      exact mem_shownItems.mpr (.inr (.inr ⟨r, hr⟩))
    · obtain ⟨r, hr, hx⟩ := List.mem_flatMap.mp hx
      exact List.mem_flatMap.mpr ⟨r, hr, mem_recordItems_of_shown hx hs⟩
  · exact ⟨rfl, State.setRpl_shows s c r hm⟩
  · exact ⟨rfl, State.setRecord_shows s r v hm⟩

end Sys2Proof.Machine
end

section
/-! The node mirror follows the roster (R32, R33). -/

namespace Sys2Proof.Machine

/-- Words that some of a list's words, no two of them with a byte in common, are written over again. -/
theorem Shows.rewritten {m : Memory} (hm : Mem.wf 0 m = true) {k l : List (Nat × Nat)} (hk : k.Pairwise WordsApart)
    (hl : l.Pairwise WordsApart) (hsub : ∀ x ∈ l, x ∈ k) {w : Nat × Nat} (hw : w ∈ k) (h : Shows m w) : Shows (putWords m l) w := by
  by_cases hwl : w ∈ l
  · exact putWords_shows hl hm w hwl
  · have : Std.Symm WordsApart := ⟨fun _ _ => Or.symm⟩
    exact h.after_putWords (fun x hx => hk.forall hw (hsub x hx) (fun e => hwl (e ▸ hx)))

/-- What one step of a fold brings about and no other step undoes holds at the end. -/
theorem foldl_reaches {α β : Type} [DecidableEq β] {Q P : α → Prop} (f : α → β → α) {b : β} (hq : ∀ x c, Q x → Q (f x c))
    (hb : ∀ x, Q x → P (f x b)) (ho : ∀ x c, c ≠ b → P x → P (f x c)) (l : List β) (h : b ∈ l) (x : α) (hx : Q x) :
    P (l.foldl f x) := by
  have hboth : ∀ (l : List β) (x : α), Q x → b ∈ l ∨ P x → P (l.foldl f x) := by
    intro l
    induction l with
    | nil => intro x _ hp; simpa using hp
    | cons c rest ih =>
      intro x hx hp
      refine ih (f x c) (hq x c hx) ?_
      by_cases hc : c = b
      · exact .inr (hc ▸ hb x hx)
      · rcases hp with hp | hp
        · exact .inl ((List.mem_cons.mp hp).resolve_left (Ne.symm hc))
        · exact .inr (ho x c hc hp)
  exact hboth l x hx (.inl h)

/-! ## The change counts -/

theorem shownDiffers_iff (old new : Option NodeRec) : shownDiffers old new = true ↔ nodeWords old ≠ nodeWords new := by
  simp only [shownDiffers, Bool.and_eq_true, decide_eq_true_eq]
  exact ⟨And.right, fun h => ⟨fun e => h (by rw [e]), h⟩⟩

theorem State.setRoster_count (s : State) (l : List NodeRec) (i : Fin 48) :
    (s.setRoster l).mirrorCount[i]
      = s.mirrorCount[i] + (if nodeWords s.roster[i.val]? = nodeWords l[i.val]? then 0 else 2) := by
  have h := shownDiffers_iff s.roster[i.val]? l[i.val]?
  simp only [State.setRoster, Fin.getElem_fin, Vector.getElem_ofFn]
  split
  · rename_i hd
    rw [if_neg (h.mp hd)]
  · rename_i hd
    rw [if_pos (by_contra fun hc => hd (h.mpr hc))]
    exact (BitVec.add_zero _).symm

/-! ## What a change of the roster writes -/

theorem backoffEnds_iff (old new : Option NodeRec) : backoffEnds old new = true
    ↔ (∃ r, old = some r ∧ r.backoffFrom.isSome = true) ∧ ∀ n, new = some n → n.backoffFrom = none := by
  cases old <;> cases new <;> simp [backoffEnds]

/-- The word of the backoff remaining in entry i, as a state shows it. -/
def backoffWord (t : State) (i : Fin 48) : Nat × Nat :=
  (0x1200 + 64 * i.val + 28, t.roster[i.val]?.elim 0 NodeRec.backoffShown)

theorem backoffWord_mem (t : State) (i : Fin 48) : backoffWord t i ∈ mirrorWords t i := by
  refine wordsFrom_subset (x := (0x1200 + 64 * i.val + 28, [t.roster[i.val]?.elim 0 NodeRec.backoffShown])) ?_ _ List.mem_cons_self
  cases h : t.roster[i.val]? <;> simp [mirrorItems, nodeItems, h, Config.nodeMirrorBase]

theorem endedBackoff_eq (s t : State) (i : Fin 48) :
    endedBackoff s t i = if backoffEnds s.roster[i.val]? t.roster[i.val]? then [backoffWord t i] else [] := by
  unfold endedBackoff
  congr 1
  cases h : t.roster[i.val]? <;>
    simp [mirrorItems, nodeItems, h, Config.nodeMirrorBase, backoffWord, itemWords, wordsFrom]

/-- One entry's part in a change of the roster. -/
def entryWritten (s t : State) (m : Memory) (i : Fin 48) : Memory :=
  putWords (syncItems m (mirrorItems s i) (mirrorItems t i)) (endedBackoff s t i)

theorem State.setRoster_ram (s : State) (l : List NodeRec) :
    (s.setRoster l).ram = (List.finRange 48).foldl (entryWritten s (s.setRoster l)) s.ram := by
  have h : entryWritten s (s.setRoster l)
      = fun m i => putWords (syncEntry s (s.setRoster l) m i) (endedBackoff s (s.setRoster l) i) := by
    funext m i
    rw [syncEntry_eq, entryWritten]
  rw [h]
  rfl

theorem wf_entryWritten (s t : State) {m : Memory} (i : Fin 48) (h : Mem.wf 0 m = true) : Mem.wf 0 (entryWritten s t m i) = true :=
  wf_putWords _ (wf_syncItems _ _ h)

theorem endedBackoff_apart (s t : State) (i : Fin 48) : (endedBackoff s t i).Pairwise WordsApart := by
  rw [endedBackoff_eq]
  split
  · exact List.pairwise_singleton _ _
  · exact List.Pairwise.nil

theorem endedBackoff_subset (s t : State) (i : Fin 48) : ∀ w ∈ endedBackoff s t i, w ∈ mirrorWords t i := by
  intro w hw
  rw [endedBackoff_eq] at hw
  split at hw
  · rw [List.mem_singleton.mp hw]
    exact backoffWord_mem t i
  · cases hw

/-- A word of entry i that its own write leaves shown stays so: the other entries lie elsewhere. -/
theorem foldl_entryWritten_shows {s t : State} {m : Memory} (hm : Mem.wf 0 m = true) {i : Fin 48} {w : Nat × Nat}
    (hw : w ∈ mirrorWords t i) (h : ∀ m, Mem.wf 0 m = true → Shows (entryWritten s t m i) w) :
    Shows ((List.finRange 48).foldl (entryWritten s t) m) w := by
  refine foldl_reaches (Q := fun m => Mem.wf 0 m = true) (P := fun m => Shows m w) (entryWritten s t) (b := i)
    (fun m j hm => wf_entryWritten s t j hm) h (fun m j hj hs => ?_) _ (List.mem_finRange i) m hm
  have hin := mirrorWords_within t i w hw
  have hne : j.val ≠ i.val := fun e => hj (Fin.ext e)
  have hout : ∀ a, w.1 ≤ a → a ≤ w.1 + 1 → Mem.read 0 (entryWritten s t m j) a = Mem.read 0 m a := by
    intro a h1 h2
    rw [entryWritten, read_putWords_other _ _ (fun x hx => by have := endedBackoff_within s t j x hx; omega),
      read_syncItems_other _ _ _ (fun x hx => by have := mirrorWords_within t j x hx; omega)]
  exact hs.of_reads (hout _ le_rfl (Nat.le_succ _)) (hout _ (Nat.le_succ _) le_rfl)

/-- A changed field is shown, whatever the RAM held there. -/
theorem State.setRoster_shows_changed (s : State) (l : List NodeRec) (hm : Mem.wf 0 s.ram = true) {i : Fin 48} {x : Item}
    (hx : x ∈ mirrorItems (s.setRoster l) i) (hxo : x ∉ mirrorItems s i) : ∀ w ∈ x.words, Shows (s.setRoster l).ram w := by
  intro w hw
  rw [State.setRoster_ram]
  have hmem := wordsFrom_subset hx w hw
  refine foldl_entryWritten_shows hm hmem (fun m hm => ?_)
  exact Shows.rewritten (wf_syncItems _ _ hm) (mirrorItems_apart _ i).itemWords (endedBackoff_apart _ _ i)
    (endedBackoff_subset _ _ i) hmem
    (syncItems_shows (mirrorItems_place _ _ i) (mirrorItems_apart _ i) hm x hx hxo w hw)

/-- The backoff remaining of a node whose timer ends is shown, changed or not. -/
theorem State.setRoster_shows_backoff (s : State) (l : List NodeRec) (hm : Mem.wf 0 s.ram = true) {i : Fin 48}
    (h : backoffEnds s.roster[i.val]? l[i.val]? = true) : Shows (s.setRoster l).ram (backoffWord (s.setRoster l) i) := by
  rw [State.setRoster_ram]
  refine foldl_entryWritten_shows hm (backoffWord_mem _ i) (fun m hm => ?_)
  refine putWords_shows (endedBackoff_apart _ _ i) (wf_syncItems _ _ hm) _ ?_
  rw [endedBackoff_eq, State.setRoster_roster, if_pos h]
  exact List.mem_singleton.mpr rfl

/-- No other byte is written. -/
theorem State.setRoster_ramByte_unchanged (s : State) (l : List NodeRec) {a : Nat}
    (h : ∀ i, ∀ x ∈ mirrorItems (s.setRoster l) i, x ∉ mirrorItems s i → a < x.1 ∨ x.1 + 2 * x.2.length ≤ a)
    (hb : ∀ i : Fin 48, backoffEnds s.roster[i.val]? l[i.val]? = true →
      a ≠ 0x1200 + 64 * i.val + 28 ∧ a ≠ 0x1200 + 64 * i.val + 29) :
    (s.setRoster l).ramByte a = s.ramByte a := by
  show Mem.read 0 (s.setRoster l).ram a = Mem.read 0 s.ram a
  rw [State.setRoster_ram]
  refine foldl_keeps (P := fun m => Mem.read 0 m a = Mem.read 0 s.ram a) _ _ (fun m i hmi => ?_) _ rfl
  have hclear : Clear a (endedBackoff s (s.setRoster l) i) := by
    rw [endedBackoff_eq]
    intro w hw
    split at hw
    · rename_i he
      rw [List.mem_singleton.mp hw]
      exact hb i he
    · cases hw
  rw [entryWritten, read_putWords_other _ _ hclear,
    read_syncItems_unchanged (mirrorItems_place s _ i) (mirrorItems_apart _ i) m (h i), hmi]

/-! ## Two changes of one record -/

theorem State.setNode_getElem? (s : State) (c : Car) (d : Drop) (n : NodeRec) (k : Nat) :
    (s.setNode c d n).roster[k]? = s.roster[k]?.map (fun q => if q.names c d then n else q) := by
  simp [State.setNode]

/-- A record of an ordered roster is the only one of its car and drop. -/
theorem RosterOrdered.names_unique {s : State} (h : RosterOrdered s) {i k : Nat} {r q : NodeRec} (hi : s.roster[i]? = some r)
    (hk : s.roster[k]? = some q) (hq : q.names r.car r.drop = true) : k = i := by
  have hkey : q.key = r.key := (NodeRec.names_iff q _ _).mp hq
  obtain ⟨hi', rfl⟩ := List.getElem?_eq_some_iff.mp hi
  obtain ⟨hk', rfl⟩ := List.getElem?_eq_some_iff.mp hk
  have hlt : ∀ a b (ha : a < s.roster.length) (hb : b < s.roster.length), a < b → s.roster[a].key < s.roster[b].key :=
    fun a b ha hb hab => (NodeRec.before_iff _ _).mp (List.pairwise_iff_getElem.mp h.2 a b ha hb hab)
  rcases Nat.lt_trichotomy k i with hlt' | rfl | hlt'
  · have := hlt k i hk' hi' hlt'; omega
  · rfl
  · have := hlt i k hi' hk' hlt'; omega

/-- Replacing the record at a place of an ordered roster, by one of the same names or a further one, changes that place alone. -/
theorem RosterOrdered.setNode_other {s : State} (h : RosterOrdered s) {i k : Nat} {r : NodeRec} (hi : s.roster[i]? = some r)
    (hk : k ≠ i) (n : NodeRec) : (s.setNode r.car r.drop n).roster[k]? = s.roster[k]? := by
  rw [State.setNode_getElem?]
  cases hq : s.roster[k]? with
  | none => rfl
  | some q =>
    have hn : q.names r.car r.drop = false := by
      by_contra hc
      exact hk (h.names_unique hi hq (by simpa using hc))
    simp [hn]

theorem NodeRec.names_self (r : NodeRec) : r.names r.car r.drop = true := by simp [NodeRec.names]

theorem State.setNode_same {s : State} {i : Nat} {r : NodeRec} (hi : s.roster[i]? = some r) (n : NodeRec) :
    (s.setNode r.car r.drop n).roster[i]? = some n := by
  rw [State.setNode_getElem?, hi, Option.map_some, if_pos r.names_self]

theorem State.setNode_count (s : State) (c : Car) (d : Drop) (n : NodeRec) (i : Fin 48) :
    (s.setNode c d n).mirrorCount[i]
      = s.mirrorCount[i] + (if nodeWords s.roster[i.val]? = nodeWords (s.setNode c d n).roster[i.val]? then 0 else 2) :=
  State.setRoster_count s _ i

/-- Two changes of one record, each of a shown field, count twice; no other entry counts. -/
theorem RosterOrdered.setNode_twice {s : State} (h : RosterOrdered s) {r n m : NodeRec} {i : Fin 48}
    (hi : s.roster[i.val]? = some r) (hn : n.car = r.car ∧ n.drop = r.drop) (h1 : nodeWords (some r) ≠ nodeWords (some n))
    (h2 : nodeWords (some n) ≠ nodeWords (some m)) :
    let t := (s.setNode r.car r.drop n).setNode r.car r.drop m
    t.mirrorCount[i] = s.mirrorCount[i] + 4
      ∧ ∀ k : Fin 48, k ≠ i → t.roster[k.val]? = s.roster[k.val]? ∧ t.mirrorCount[k] = s.mirrorCount[k] := by
  have hu : RosterOrdered (s.setNode r.car r.drop n) := (Keeps.setNode s r.car r.drop hn).roster h
  have hui := State.setNode_same hi n
  rw [← hn.1, ← hn.2] at hu hui ⊢
  generalize hs : s.setNode n.car n.drop n = u at hu hui
  have hcount : ∀ k : Fin 48, u.mirrorCount[k]
      = s.mirrorCount[k] + (if nodeWords s.roster[k.val]? = nodeWords u.roster[k.val]? then 0 else 2) := by
    rw [← hs]; exact State.setNode_count s _ _ n
  have hother : ∀ k : Fin 48, k ≠ i → u.roster[k.val]? = s.roster[k.val]? := by
    intro k hk
    rw [← hs, hn.1, hn.2]
    exact h.setNode_other hi (fun e => hk (Fin.ext e)) n
  refine ⟨?_, fun k hk => ?_⟩
  · rw [State.setNode_count, hcount, hui, hi, State.setNode_same hui, if_neg h1, if_neg h2, BitVec.add_assoc]
    rfl
  · have hr := hu.setNode_other hui (fun e => hk (Fin.ext e)) m
    refine ⟨hr.trans (hother k hk), ?_⟩
    rw [State.setNode_count, hcount, hr, if_pos rfl, hother k hk, if_pos rfl]
    simp

/-! ## The rebuild -/

theorem entryWords_apart (s : State) (i : Fin 48) : (mirrorWords s i ++ reservedWords i).Pairwise WordsApart := by
  refine List.pairwise_append.mpr ⟨(mirrorItems_apart s i).itemWords, wordsFrom_apart _ _, fun w hw v hv => ?_⟩
  have h1 := mirrorWords_within s i w hw
  have h2 := reservedWords_within i v hv
  exact .inl (by omega)

theorem State.showMirror_shows (s : State) (hm : Mem.wf 0 s.ram = true) (i : Fin 48) :
    ∀ w ∈ mirrorWords s i ++ reservedWords i, Shows s.showMirror.ram w := by
  intro w hw
  refine foldl_reaches (Q := fun m => Mem.wf 0 m = true) (P := fun m => Shows m w) (b := i)
    (fun m (i : Fin 48) => putWords m (mirrorWords s i ++ reservedWords i)) (fun m j hm => wf_putWords _ hm)
    (fun m hm => putWords_shows (entryWords_apart s i) hm w hw) (fun m j hj hs => ?_) _ (List.mem_finRange i) _ hm
  have hin : ∀ (j : Fin 48), ∀ v ∈ mirrorWords s j ++ reservedWords j, 0x1200 + 64 * j.val ≤ v.1 ∧ v.1 + 1 < 0x1200 + 64 * j.val + 64 := by
    intro j v hv
    rcases List.mem_append.mp hv with hv | hv
    · have := mirrorWords_within s j v hv; omega
    · have := reservedWords_within j v hv; omega
  have hne : j.val ≠ i.val := fun e => hj (Fin.ext e)
  have h1 := hin i w hw
  refine hs.after_putWords (fun v hv => ?_)
  have h2 := hin j v hv
  simp only [WordsApart]
  omega

theorem wordsFrom_replicate_mem (n v a k : Nat) (h : k < n) : (a + 2 * k, v) ∈ wordsFrom a (List.replicate n v) := by
  induction n generalizing a k with
  | zero => omega
  | succ n ih =>
    rw [List.replicate_succ, wordsFrom, List.mem_cons]
    cases k with
    | zero => exact .inl rfl
    | succ k =>
      right
      rw [show a + 2 * (k + 1) = a + 2 + 2 * k by omega]
      exact ih (a + 2) k (by omega)

theorem State.showMirror_reserved (s : State) (hm : Mem.wf 0 s.ram = true) (i : Fin 48) {k : Nat} (h1 : 40 ≤ k) (h2 : k < 64) :
    s.showMirror.ramByte (0x1200 + 64 * i.val + k) = 0 := by
  have hw := wordsFrom_replicate_mem 12 0 (0x1200 + 64 * i.val + 40) ((k - 40) / 2) (by omega)
  have hz := (s.showMirror_shows hm i _ (List.mem_append_right _ hw)).zero
  rcases Nat.even_or_odd' (k - 40) with ⟨j, hj | hj⟩
  · rw [show 0x1200 + 64 * i.val + k = 0x1200 + 64 * i.val + 40 + 2 * ((k - 40) / 2) by omega]
    exact hz.1
  · rw [show 0x1200 + 64 * i.val + k = 0x1200 + 64 * i.val + 40 + 2 * ((k - 40) / 2) + 1 by omega]
    exact hz.2

/-- Settles O5: each entry is written in its own 64 bytes, by publishing, by a change of the roster and by the rebuild. -/
theorem nodeMirrorFollowsRoster : Obligations.NodeMirrorFollowsRoster := by
  refine ⟨fun s t i hm h => ?_, State.setRoster_count, fun s l hm => ⟨rfl, ?_, ?_, ?_⟩, ?_, fun s i hm => ⟨?_, ?_⟩⟩
  · intro w hw
    obtain ⟨x, hx, hwx⟩ := List.mem_flatMap.mp hw
    refine publish_shows hm (mem_shownItems.mpr (.inr (.inl ⟨i, hx⟩))) hwx (fun hs => h w ?_ hw)
    exact wordsFrom_subset (mem_mirrorItems_of_shown hx hs) w hwx
  · exact fun i x hx => State.setRoster_shows_changed s l hm hx.1 hx.2
  · exact fun i hi => State.setRoster_shows_backoff s l hm ((backoffEnds_iff _ _).mpr hi)
  · intro a h hb
    exact State.setRoster_ramByte_unchanged s l (fun i x hx hxo => h i x ⟨hx, hxo⟩)
      (fun i hi => hb i ((backoffEnds_iff _ _).mp hi))
  · exact fun s r n m i hs hi hc hd h1 h2 => hs.setNode_twice hi ⟨hc, hd⟩ h1 h2
  · exact fun w hw => s.showMirror_shows hm i w (List.mem_append_left _ hw)
  · exact fun k h1 h2 => s.showMirror_reserved hm i h1 h2

end Sys2Proof.Machine
end

section
/-! SUPPORT. Every command keeps the whole-machine conditions: one lemma per command, then the step. -/

namespace Sys2Proof.Machine

/-- Whatever state the result goes on in keeps the conditions that held of `s`. -/
def KeptBy (x : Result) (s : State) : Prop := ∀ t, x = .next t → Keeps s t

theorem KeptBy.next {s t : State} (h : Keeps s t) : KeptBy (.next t) s := by
  intro u hu
  cases hu
  exact h

theorem KeptBy.done {s t : State} (h : Keeps s t) : KeptBy (done s t) s :=
  KeptBy.next (h.trans (Keeps.publish s t))

/-- An operation made only where a test holds. -/
theorem Keeps.guard {p : Prop} [Decidable p] {s t : State} (h : p → Keeps s t) : Keeps s (if p then t else s) :=
  Keeps.ite h (fun _ => Keeps.refl s)

/-- A command taken only in a run condition. -/
theorem KeptBy.guard {p : Prop} [Decidable p] {s t : State} (h : p → Keeps s t) :
    KeptBy (Machine.done s (if p then t else s)) s := KeptBy.done (Keeps.guard h)

/-- News other than the steering values taken off its channel. -/
theorem Keeps.withChan (s : State) {x : Channels} (h : x.ordJrn = s.chan.ordJrn := by rfl) : Keeps s { s with chan := x } where
  journal hj := ⟨hj.1, hj.2, hj.3, hj.4, hj.5, hj.6, hj.7, hj.8, hj.9, by
    show ∀ v ∈ x.ordJrn, _
    rw [h]; exact hj.10⟩

/-! ## Starts and restarts -/

theorem State.isRunning_of_power {s : State} (h : s.power = false) : s.isRunning = false := by
  simp [State.isRunning, State.live, h]

theorem State.isRunning_of_resetIn {s : State} (h : s.resetIn = true) : s.isRunning = false := by
  simp [State.isRunning, State.live, h]

/-- The supply and RESET_IN may change while no permit is ACTIVE and no car up. -/
theorem Keeps.withSupply (s : State) (power resetIn : Bool)
    (h : PermitsHeld s → ∀ c : Car, s.prm[c].active = false ∧ s.prm[c].up = false) :
    Keeps s { s with power := power, resetIn := resetIn } where
  permits hp c := ⟨(hp c).1, (hp c).2.1, fun _ => h hp c⟩

/-- A start, whatever becomes of the supply and RESET_IN. -/
theorem Keeps.blankWith (s : State) (power resetIn : Bool) (x : ResetCause) :
    Keeps s (({ s with power := power, resetIn := resetIn } : State).blank x) :=
  (Keeps.blank s x).trans (Keeps.withSupply _ power resetIn
    (fun _ c => by simp [State.blank, State.reset, PrmCar.reset]))

theorem State.blank_isRunning (s : State) (x : ResetCause) : (s.blank x).isRunning = false := by
  simp [State.isRunning, State.blank, State.reset]

theorem execPowerStart_keeps (o : StartOutcome) (s : State) : KeptBy (execPowerStart o s) s := by
  have hb := Keeps.blankWith s true s.resetIn .power
  refine KeptBy.next (Keeps.ite (fun _ => Keeps.refl s) (fun _ => ?_))
  exact Keeps.ite (fun _ => hb) (fun _ => hb.trans (Keeps.startUp _ o (State.blank_isRunning _ _)))

theorem execResetInAsserted_keeps (cut : Cut) (s : State) : KeptBy (execResetInAsserted cut s) s := by
  refine KeptBy.next (Keeps.ite (fun _ => Keeps.refl s) (fun _ => Keeps.ite (fun _ => ?_) (fun hp => ?_)))
  · exact (Keeps.abandonFlash s cut).trans (Keeps.blankWith _ _ _ _)
  · have hrun : s.isRunning = false := State.isRunning_of_power (by simpa using hp)
    exact Keeps.withSupply s s.power true (fun h c => (h c).2.2 hrun)

theorem execResetInReleased_keeps (o : StartOutcome) (s : State) : KeptBy (execResetInReleased o s) s := by
  refine KeptBy.next (Keeps.guard (fun hr => Keeps.ite (fun _ => ?_) (fun _ => ?_)))
  · exact ((Keeps.blankWith s s.power false s.cause).trans (Keeps.setNtu _ s.ntu)).trans
      (Keeps.startUp _ o (State.blank_isRunning { s with resetIn := false } s.cause))
  · exact Keeps.withSupply s s.power false (fun h c => (h c).2.2 (State.isRunning_of_resetIn hr))

theorem execPowerLost_keeps (cut : Cut) (s : State) : KeptBy (execPowerLost cut s) s := by
  refine KeptBy.next (Keeps.guard (fun _ => ?_))
  refine ((Keeps.abandonFlash s cut).trans (Keeps.blankWith _ false (s.abandonFlash cut).resetIn .power)).trans ?_
  exact { memory := fun h => ⟨rfl, h.2⟩ }

theorem execEnterRunning_keeps (s : State) : KeptBy (execEnterRunning s) s :=
  KeptBy.guard (fun _ => (((((Keeps.enterRun s).trans (Keeps.startEntries _)).trans (Keeps.sampleCars _)).trans
    (Keeps.sample _)).trans (Keeps.startScanTimer _)).trans (Keeps.slotCheck _ _))

theorem execWarmRestart_keeps (v : Word) (o : RestartOutcome) (s : State) : KeptBy (execWarmRestart v o s) s := by
  unfold execWarmRestart
  split
  · exact KeptBy.next (((Keeps.restart s o).trans (Keeps.publish s _)).trans (Keeps.showStore _))
  · exact KeptBy.done (Keeps.refl s)

theorem execReturnToRunning_keeps (b : Bool) (s : State) : KeptBy (execReturnToRunning b s) s := by
  unfold execReturnToRunning
  split
  · rename_i hr
    have hrun : s.isRunning = false := by
      simp only [State.isRestarting, Bool.and_eq_true, decide_eq_true_eq] at hr
      simp [State.isRunning, hr.2]
    exact KeptBy.next ((((Keeps.rebuild s b hrun).trans (Keeps.returns _ _)).trans (Keeps.showWords _ _)).trans
      (Keeps.publish _ _))
  · exact KeptBy.done (Keeps.refl s)

/-! ## The Order Unit and the host -/

theorem execNudge_keeps (v : Word) (s : State) : KeptBy (execNudge v s) s :=
  KeptBy.guard (fun _ => (Keeps.sample s).trans (Keeps.slotCheck _ _))

theorem execScanTick_keeps (s : State) : KeptBy (execScanTick s) s :=
  KeptBy.guard (fun _ => ((Keeps.sample s).trans (Keeps.slotCheck _ false)).trans
    ((Keeps.withOrd _ (o := (s.sample.slotCheck false).ord.restartScan)).trans (Keeps.withChan _)))

theorem execQuietWindowExpiry_keeps (s : State) : KeptBy (execQuietWindowExpiry s) s :=
  KeptBy.guard (fun _ => Keeps.expireWindow s)

theorem execUptimeTick_keeps (s : State) : KeptBy (execUptimeTick s) s :=
  KeptBy.guard (fun _ => (Keeps.tickClocks s).trans (Keeps.withOrd _))

theorem execNoticeWrite_keeps (v : Word) (s : State) : KeptBy (execNoticeWrite v s) s :=
  KeptBy.guard (fun _ => Keeps.clearCauses s v)

theorem execNoticeEnableWrite_keeps (v : Word) (s : State) : KeptBy (execNoticeEnableWrite v s) s :=
  KeptBy.guard (fun _ => Keeps.setEnables s v)

theorem execHostRamAccess_keeps (a : BusAccess) (s : State) : KeptBy (execHostRamAccess a s) s :=
  KeptBy.guard (fun _ => Keeps.busAccess s a)

/-! ## The image store -/

theorem execPendingMarkProgram_keeps (s : State) : KeptBy (execPendingMarkProgram s) s := KeptBy.done (Keeps.beginMark s)

theorem execFlashProgramEnd_keeps (e : ProgEnd) (s : State) : KeptBy (execFlashProgramEnd e s) s := by
  refine KeptBy.done ?_
  split
  · exact Keeps.ite (fun _ => Keeps.refl s) (fun _ => Keeps.programEnds s _ _ _)
  · exact Keeps.refl s

theorem execBlockEraseEnd_keeps (e : EraseEnd) (s : State) : KeptBy (execBlockEraseEnd e s) s := by
  refine KeptBy.done ?_
  split
  · exact Keeps.guard (fun _ => Keeps.eraseEnds s _ _ _)
  · exact Keeps.refl s

theorem execEraseSliceEnd_keeps (s : State) : KeptBy (execEraseSliceEnd s) s := by
  refine KeptBy.done ?_
  split
  · exact Keeps.guard (fun _ => (Keeps.setWork s _).trans (Keeps.settleStore _))
  · exact Keeps.refl s

theorem Keeps.suspended (s : State) (w : Work) : Keeps s (s.suspended w) :=
  ((((Keeps.setWork s _).trans (Keeps.setStoreState _ _)).trans (Keeps.withIsc _)).trans (Keeps.settleStore _)).trans
    (Keeps.showWords _ _)

theorem execEraseSuspensionComplete_keeps (s : State) : KeptBy (execEraseSuspensionComplete s) s := by
  refine KeptBy.done ?_
  split
  · exact Keeps.guard (fun _ => Keeps.suspended s _)
  · exact Keeps.refl s

theorem execReadBegin_keeps (s : State) : KeptBy (execReadBegin s) s := by
  refine KeptBy.guard (fun _ => ?_)
  split
  · exact Keeps.refl s
  · exact Keeps.ite (fun _ => Keeps.beginRead s _) (fun _ => Keeps.refuseRead s _)

theorem execSegmentReadEnd_keeps (d : Decay) (s : State) : KeptBy (execSegmentReadEnd d s) s := by
  refine KeptBy.done ?_
  split
  · split
    · exact Keeps.jobReadEnds s _ _ _ _
    · exact Keeps.refl s
  · exact Keeps.refl s

theorem execClosingReadEnd_keeps (d : Decay) (s : State) : KeptBy (execClosingReadEnd d s) s := by
  refine KeptBy.done ?_
  split
  · exact Keeps.guard (fun _ => Keeps.closingReadEnds s _ _ _)
  · exact Keeps.refl s

/-! ## Supply sensing -/

theorem execCsgFallingEdge_keeps (c : Car) (s : State) : KeptBy (execCsgFallingEdge c s) s :=
  KeptBy.done (Keeps.ite (fun _ => (Keeps.setCsg s c _).trans (Keeps.setSsu _ _ _)) (fun _ => Keeps.setCsg s c _))

theorem execCsgRisingEdge_keeps (c : Car) (s : State) : KeptBy (execCsgRisingEdge c s) s := by
  have hpin := Keeps.setCsg s c true
  refine KeptBy.done (Keeps.ite (fun _ => Keeps.ite (fun _ => ?_) (fun _ => ?_)) (fun _ => hpin))
  · exact (hpin.trans (Keeps.setSsu _ _ _)).trans (Keeps.deliverReturn _ _ _)
  · exact hpin.trans (Keeps.setSsu _ _ _)

theorem execGapTick_keeps (c : Car) (s : State) : KeptBy (execGapTick c s) s := KeptBy.guard (fun _ => Keeps.ssuTick s c)

theorem execLossQualified_keeps (c : Car) (s : State) : KeptBy (execLossQualified c s) s :=
  KeptBy.guard (fun _ => Keeps.qualifyLoss s c)

theorem execReturnTimerExpiry_keeps (c : Car) (s : State) : KeptBy (execReturnTimerExpiry c s) s :=
  KeptBy.guard (fun _ => Keeps.ite (fun _ => (Keeps.setSsu s c _).trans (Keeps.deliverReturn _ _ _))
    (fun _ => Keeps.setSsu s c _))

/-! ## The car lines -/

theorem execRollCall_keeps (c : Car) (s : State) : KeptBy (execRollCall c s) s :=
  KeptBy.guard (fun _ => Keeps.setLine_same s c (Line.sendRound_queue _))

theorem execTxFrameEnd_keeps (c : Car) (s : State) : KeptBy (execTxFrameEnd c s) s :=
  KeptBy.guard (fun _ => Keeps.setLine_same s c (Line.frameSent_queue _))

theorem execBootTimerExpiry_keeps (c : Car) (s : State) : KeptBy (execBootTimerExpiry c s) s :=
  KeptBy.guard (fun _ => Keeps.setLine_same s c)

theorem execRoundTimerExpiry_keeps (c : Car) (s : State) : KeptBy (execRoundTimerExpiry c s) s :=
  KeptBy.guard (fun _ => Keeps.ite (fun _ => Keeps.setLine_same s c) (fun _ => Keeps.endRound s c))

theorem execSlowTimerExpiry_keeps (c : Car) (s : State) : KeptBy (execSlowTimerExpiry c s) s :=
  KeptBy.guard (fun _ => Keeps.setLine_same s c)

theorem execReplyTimerExpiry_keeps (c : Car) (s : State) : KeptBy (execReplyTimerExpiry c s) s :=
  KeptBy.guard (fun _ => Keeps.failedTry s c true)

theorem execLeadByteTaken_keeps (c : Car) (s : State) : KeptBy (execLeadByteTaken c s) s :=
  KeptBy.guard (fun _ => Keeps.setLine_same s c (Line.leadByte_queue _))

theorem execLineIdleTimeout_keeps (c : Car) (s : State) : KeptBy (execLineIdleTimeout c s) s := by
  refine KeptBy.guard (fun _ => ?_)
  split
  · exact Keeps.takeFrame s c _
  · exact Keeps.setLine_same s c
  · exact Keeps.refl s

theorem execClcCarLoss_keeps (c : Car) (s : State) : KeptBy (execClcCarLoss c s) s := by
  refine KeptBy.done ?_
  split
  · exact ((Keeps.closeReports s c).trans (Keeps.dropClcEvent _ c)).trans (Keeps.lineOff _ c)
  · exact Keeps.refl s

theorem execClcCarReturn_keeps (c : Car) (s : State) : KeptBy (execClcCarReturn c s) s := by
  refine KeptBy.done ?_
  split
  · exact (Keeps.dropClcEvent s c).trans (Keeps.setLine_same _ c (Line.bootWait_queue _ _))
  · exact Keeps.refl s

theorem execClcJobEntersQueue_keeps (c : Car) (s : State) : KeptBy (execClcJobEntersQueue c s) s := by
  refine KeptBy.done ?_
  split
  · exact (Keeps.dropTell s c).trans (Keeps.jobEnters _ c _)
  · exact Keeps.refl s

theorem execClcEndJob_keeps (c : Car) (s : State) : KeptBy (execClcEndJob c s) s := by
  refine KeptBy.done ?_
  split
  · exact (Keeps.dropTell s c).trans (Keeps.endJob _ c _)
  · exact Keeps.refl s

theorem execClcStoreFaultEnd_keeps (c : Car) (s : State) : KeptBy (execClcStoreFaultEnd c s) s := by
  refine KeptBy.done ?_
  split
  · exact (Keeps.dropTell s c).trans (Keeps.storeFaultEnd _ c _)
  · exact Keeps.refl s

theorem execIndividualRollCallRequest_keeps (c : Car) (s : State) : KeptBy (execIndividualRollCallRequest c s) s := by
  refine KeptBy.done ?_
  split
  · exact (Keeps.dropTell s c).trans (Keeps.setLine_same _ c (Line.individual_queue _ _))
  · exact Keeps.refl s

theorem execCancelRollCall_keeps (c : Car) (s : State) : KeptBy (execCancelRollCall c s) s := by
  refine KeptBy.done ?_
  split
  · exact ((Keeps.dropTell s c).trans (Keeps.setLine_same _ c)).trans (Keeps.tryGrant _ c)
  · exact Keeps.refl s

theorem execMissingSetChange_keeps (c : Car) (s : State) : KeptBy (execMissingSetChange c s) s := by
  refine KeptBy.done ?_
  split
  · exact ((Keeps.dropTell s c).trans (Keeps.setLine_same _ c (Line.setMissing_queue _ _ _))).trans (Keeps.tryGrant _ c)
  · exact Keeps.refl s

theorem execHoldTell_keeps (c : Car) (s : State) : KeptBy (execHoldTell c s) s := by
  refine KeptBy.done ?_
  split
  · exact ((Keeps.withChan s).trans (Keeps.setLine_same _ c)).trans (Keeps.tryGrant _ c)
  · exact Keeps.refl s

/-! ## The Restore Planner -/

theorem execRplCarLoss_keeps (c : Car) (s : State) : KeptBy (execRplCarLoss c s) s := by
  refine KeptBy.done ?_
  split
  · exact (Keeps.dropRplEvent s c).trans (Keeps.rplLoss _ c _)
  · exact Keeps.refl s

theorem execRplCarReturn_keeps (c : Car) (s : State) : KeptBy (execRplCarReturn c s) s := by
  refine KeptBy.done ?_
  split
  · exact (Keeps.dropRplEvent s c).trans (Keeps.rplReturn _ c _ _ _ _)
  · exact Keeps.refl s

theorem execRplHello_keeps (c : Car) (s : State) : KeptBy (execRplHello c s) s := by
  refine KeptBy.done ?_
  split
  · exact (Keeps.dropReport s c).trans (Keeps.rplHello _ c _ _)
  · exact Keeps.refl s

/-- The drops of a report taken one after the other. -/
theorem Keeps.takeUnheards (s : State) (c : Car) (ds : List Drop) :
    Keeps s (ds.foldl (State.takeUnheard c) (s.dropReport c)) :=
  (Keeps.dropReport s c).trans (Keeps.foldl _ (Keeps.takeUnheard c) ds _)

theorem execRplUnheardReport_keeps (c : Car) (s : State) : KeptBy (execRplUnheardReport c s) s := by
  refine KeptBy.done ?_
  split
  · exact Keeps.ite (fun _ => Keeps.refl s) (fun _ => Keeps.takeUnheards s c _)
  · exact Keeps.refl s

theorem execBackoffRollCallUnheard_keeps (c : Car) (s : State) : KeptBy (execBackoffRollCallUnheard c s) s := by
  refine KeptBy.done ?_
  split
  · exact Keeps.guard (fun _ => Keeps.takeUnheards s c _)
  · exact Keeps.refl s

theorem execRplJobReport_keeps (c : Car) (s : State) : KeptBy (execRplJobReport c s) s := by
  refine KeptBy.done ?_
  split
  · exact (Keeps.dropReport s c).trans (Keeps.takeGrant _ c _ _)
  · exact (Keeps.dropReport s c).trans (Keeps.takeYield _ c _)
  · exact (Keeps.dropReport s c).trans (Keeps.takeRetry _ c _ _)
  · exact (Keeps.dropReport s c).trans (Keeps.takeProgress _ c _ _)
  · exact (Keeps.dropReport s c).trans (Keeps.takeRelease _ c _)
  · exact Keeps.refl s

theorem execRplSurveyEnded_keeps (c : Car) (s : State) : KeptBy (execRplSurveyEnded c s) s := by
  refine KeptBy.done ?_
  split
  · exact (Keeps.dropReport s c).trans (Keeps.takeSurvey _ c _ _)
  · exact Keeps.refl s

theorem execRplLoadAccepted_keeps (c : Car) (s : State) : KeptBy (execRplLoadAccepted c s) s := by
  refine KeptBy.done ?_
  split
  · exact (Keeps.dropReport s c).trans (Keeps.takeAccepted _ c _)
  · exact Keeps.refl s

theorem execRplRunningSuccess_keeps (c : Car) (s : State) : KeptBy (execRplRunningSuccess c s) s := by
  refine KeptBy.done ?_
  split
  · exact (Keeps.dropReport s c).trans (Keeps.takeSuccess _ c _)
  · exact Keeps.refl s

theorem execRplAttemptFailed_keeps (c : Car) (s : State) : KeptBy (execRplAttemptFailed c s) s := by
  refine KeptBy.done ?_
  split
  · exact (Keeps.dropReport s c).trans (Keeps.takeFailure _ c _ _)
  · exact Keeps.refl s

theorem execBackoffTimerExpiry_keeps (c : Car) (d : Drop) (s : State) : KeptBy (execBackoffTimerExpiry c d s) s := by
  refine KeptBy.done ?_
  split
  · exact Keeps.guard (fun _ => (Keeps.putNode s).trans (Keeps.tell _ _ _))
  · exact Keeps.refl s

theorem execRplScanTick_keeps (s : State) : KeptBy (execRplScanTick s) s := by
  refine KeptBy.done ?_
  split
  · refine Keeps.trans ?_ (Keeps.foldl _ Keeps.estimate allCars _)
    exact ((Keeps.withChan s).trans (Keeps.setRoster _ _ (NodeRec.shownBackoff_names _))).trans (Keeps.showField _ _ _)
  · exact Keeps.refl s

theorem execRplBudgetSample_keeps (s : State) : KeptBy (execRplBudgetSample s) s := by
  refine KeptBy.done ?_
  split
  · exact (Keeps.withChan s).trans (Keeps.foldl _ (Keeps.takeBudget _) allCars _)
  · exact Keeps.refl s

theorem execRplCopyDamaged_keeps (s : State) : KeptBy (execRplCopyDamaged s) s := by
  refine KeptBy.done ?_
  split
  · exact (Keeps.withChan s).trans (Keeps.foldl _ (Keeps.markedCopy _) _ _)
  · exact Keeps.refl s

theorem execActiveCopyChange_keeps (s : State) : KeptBy (execActiveCopyChange s) s := by
  refine KeptBy.done ?_
  split
  · exact (Keeps.withChan s).trans (Keeps.foldl _ Keeps.estimate _ _)
  · exact Keeps.refl s

/-! ## The permits -/

/-- An evaluation in RUNNING on the record as it stands. -/
theorem Keeps.evaluatePermit (s : State) (c : Car) (hrun : s.isRunning = true) (doors : Bool) (x y : PermitCause) (u : Long) :
    Keeps s (s.evaluatePermit c doors x y u) := by
  have h : s.setPrm c s.prm[c] = s := by simp [State.setPrm]
  have k := Keeps.evaluated s c (r := s.prm[c]) rfl hrun doors x y u
  rwa [h] at k

theorem execPrmCarLoss_keeps (c : Car) (s : State) : KeptBy (execPrmCarLoss c s) s := by
  refine KeptBy.done ?_
  split
  · rename_i hrun _
    exact (Keeps.dropPrmEvent s c).trans
      (Keeps.evaluated (s.dropPrmEvent c) c (r := { s.prm[c] with up := false }) rfl hrun _ _ _ _)
  · exact Keeps.refl s

theorem execPrmCarReturn_keeps (c : Car) (s : State) : KeptBy (execPrmCarReturn c s) s := by
  refine KeptBy.done ?_
  split
  · rename_i hrun _
    exact (Keeps.dropPrmEvent s c).trans
      (Keeps.evaluated (s.dropPrmEvent c) c (r := { s.prm[c] with up := true }) rfl hrun _ _ _ _)
  · exact Keeps.refl s

theorem execPrmDoorReport_keeps (s : State) : KeptBy (execPrmDoorReport s) s := by
  refine KeptBy.done ?_
  split
  · rename_i rest hrun _
    exact (Keeps.withChan s).trans (Keeps.evaluatePermit { s with chan := { s.chan with rplPrm := rest } } _ hrun _ _ _ _)
  · exact Keeps.refl s

theorem State.evaluatePermit_isRunning (s : State) (c : Car) (doors : Bool) (x y : PermitCause) (u : Long) :
    (s.evaluatePermit c doors x y u).isRunning = s.isRunning := by
  unfold State.evaluatePermit
  dsimp only
  split <;> rfl

theorem State.takeWithhold_isRunning (flags : Vector Bool 6) (s : State) (c : Car) :
    (State.takeWithhold flags s c).isRunning = s.isRunning := by
  unfold State.takeWithhold
  split
  · rfl
  · exact State.evaluatePermit_isRunning _ _ _ _ _ _

theorem Keeps.takeWithholds (flags : Vector Bool 6) (l : List Car) (s : State) (hrun : s.isRunning = true) :
    Keeps s (l.foldl (State.takeWithhold flags) s) := by
  induction l generalizing s with
  | nil => exact Keeps.refl s
  | cons c rest ih =>
    exact (Keeps.takeWithhold flags s c hrun).trans (ih _ ((State.takeWithhold_isRunning flags s c).trans hrun))

theorem execPrmWithholdSample_keeps (s : State) : KeptBy (execPrmWithholdSample s) s := by
  refine KeptBy.done ?_
  split
  · rename_i rest hrun _
    refine Keeps.trans ?_ (Keeps.showWords _ _)
    exact (Keeps.withChan s).trans (Keeps.takeWithholds _ allCars { s with chan := { s.chan with ordPrm := rest } } hrun)
  · exact Keeps.refl s

/-! ## The Journal Writer -/

/-- Steering values handed on by a sample are in the range that the journal's conditions need (R157). -/
theorem Keeps.steered (s : State) {v : Steering} {rest : List Steering} (h : s.chan.ordJrn = v :: rest) :
    Keeps s (({ s with chan := { s.chan with ordJrn := rest } } : State).takeSteering v) :=
  { KeepsRest.trans (t := { s with chan := { s.chan with ordJrn := rest } }) {} (KeepsRest.takeSteering _ v) with
    journal := fun hj => by
      have hv : ∀ x ∈ v :: rest, ReturnMarkOk x.ret ∧ x.lw + 256 ≤ x.hw := by rw [← h]; exact hj.handed
      have hm : MarksHeld { s with chan := { s.chan with ordJrn := rest } } :=
        { hj.marks with handed := fun x hx => hv x (List.mem_cons_of_mem _ hx) }
      exact hm.takeSteering (hv v List.mem_cons_self) }

theorem execJournalEntryRequest_keeps (src : Source) (s : State) : KeptBy (execJournalEntryRequest src s) s :=
  KeptBy.guard (fun _ => Keeps.jrnTakesRequest s src)

theorem execJrnSteeringValues_keeps (s : State) : KeptBy (execJrnSteeringValues s) s := by
  refine KeptBy.guard (fun _ => ?_)
  split
  · exact Keeps.refl s
  · rename_i h
    exact Keeps.steered s h

/-! ## The step -/

/-- Every command keeps every condition of the whole machine but the one on the doors behind a permit. -/
theorem exec_keeps (i : Instr) (s : State) : KeptBy (exec i s) s := by
  cases i with
  | powerStart o => exact execPowerStart_keeps o s
  | resetInAsserted cut => exact execResetInAsserted_keeps cut s
  | resetInReleased o => exact execResetInReleased_keeps o s
  | enterRunning => exact execEnterRunning_keeps s
  | warmRestart v o => exact execWarmRestart_keeps v o s
  | returnToRunning b => exact execReturnToRunning_keeps b s
  | nudge v => exact execNudge_keeps v s
  | noticeWrite v => exact execNoticeWrite_keeps v s
  | noticeEnableWrite v => exact execNoticeEnableWrite_keeps v s
  | hostRamAccess a => exact execHostRamAccess_keeps a s
  | uptimeTick => exact execUptimeTick_keeps s
  | scanTick => exact execScanTick_keeps s
  | quietWindowExpiry => exact execQuietWindowExpiry_keeps s
  | openCopy u => exact KeptBy.done (Keeps.beginOrder s _ u _ Keeps.startOpen)
  | stageSegment u => exact KeptBy.done (Keeps.beginOrder s _ u _ Keeps.startStage)
  | closeCopy u => exact KeptBy.done (Keeps.beginOrder s _ u _ Keeps.startClose)
  | activateCopy u => exact KeptBy.done (Keeps.beginOrder s _ u _ Keeps.startActivate)
  | eraseCopy u => exact KeptBy.done (Keeps.beginOrder s _ u _ Keeps.startErase)
  | protectGroup u => exact KeptBy.done (Keeps.beginOrder s _ u _ Keeps.startProtect)
  | unprotectAll u => exact KeptBy.done (Keeps.beginOrder s _ u _ Keeps.startUnprotect)
  | writeIdentity u => exact KeptBy.done (Keeps.beginOrder s _ u _ Keeps.startIdentity)
  | writeFleetTable u => exact KeptBy.done (Keeps.beginOrder s _ u _ Keeps.startFleet)
  | pendingMarkProgram => exact execPendingMarkProgram_keeps s
  | flashProgramEnd e => exact execFlashProgramEnd_keeps e s
  | blockEraseEnd e => exact execBlockEraseEnd_keeps e s
  | eraseSliceEnd => exact execEraseSliceEnd_keeps s
  | eraseSuspensionComplete => exact execEraseSuspensionComplete_keeps s
  | readBegin => exact execReadBegin_keeps s
  | segmentReadEnd d => exact execSegmentReadEnd_keeps d s
  | closingReadEnd d => exact execClosingReadEnd_keeps d s
  | csgFallingEdge c => exact execCsgFallingEdge_keeps c s
  | csgRisingEdge c => exact execCsgRisingEdge_keeps c s
  | gapTick c => exact execGapTick_keeps c s
  | lossQualified c => exact execLossQualified_keeps c s
  | returnTimerExpiry c => exact execReturnTimerExpiry_keeps c s
  | rplCarLoss c => exact execRplCarLoss_keeps c s
  | clcCarLoss c => exact execClcCarLoss_keeps c s
  | prmCarLoss c => exact execPrmCarLoss_keeps c s
  | rplCarReturn c => exact execRplCarReturn_keeps c s
  | clcCarReturn c => exact execClcCarReturn_keeps c s
  | prmCarReturn c => exact execPrmCarReturn_keeps c s
  | bootTimerExpiry c => exact execBootTimerExpiry_keeps c s
  | rollCall c => exact execRollCall_keeps c s
  | txFrameEnd c => exact execTxFrameEnd_keeps c s
  | roundTimerExpiry c => exact execRoundTimerExpiry_keeps c s
  | slowTimerExpiry c => exact execSlowTimerExpiry_keeps c s
  | hello c => exact KeptBy.done (Keeps.endsFrame s c _)
  | digestAsk c => exact KeptBy.guard (fun _ => Keeps.sendRequest s c .survey)
  | load c => exact KeptBy.guard (fun _ => Keeps.sendRequest s c .load)
  | start c => exact KeptBy.guard (fun _ => Keeps.sendRequest s c .start)
  | digestList c => exact KeptBy.done (Keeps.endsFrame s c _)
  | loadAck c => exact KeptBy.done (Keeps.endsFrame s c _)
  | running c => exact KeptBy.done (Keeps.endsFrame s c _)
  | discardedFrame c bytes => exact KeptBy.done (Keeps.endsFrame s c _)
  | lineIdleTimeout c => exact execLineIdleTimeout_keeps c s
  | replyTimerExpiry c => exact execReplyTimerExpiry_keeps c s
  | clcJobEntersQueue c => exact execClcJobEntersQueue_keeps c s
  | clcEndJob c => exact execClcEndJob_keeps c s
  | clcStoreFaultEnd c => exact execClcStoreFaultEnd_keeps c s
  | individualRollCallRequest c => exact execIndividualRollCallRequest_keeps c s
  | cancelRollCall c => exact execCancelRollCall_keeps c s
  | missingSetChange c => exact execMissingSetChange_keeps c s
  | holdTell c => exact execHoldTell_keeps c s
  | rplHello c => exact execRplHello_keeps c s
  | rplJobReport c => exact execRplJobReport_keeps c s
  | rplSurveyEnded c => exact execRplSurveyEnded_keeps c s
  | rplLoadAccepted c => exact execRplLoadAccepted_keeps c s
  | rplRunningSuccess c => exact execRplRunningSuccess_keeps c s
  | rplAttemptFailed c => exact execRplAttemptFailed_keeps c s
  | rplUnheardReport c => exact execRplUnheardReport_keeps c s
  | backoffRollCallUnheard c => exact execBackoffRollCallUnheard_keeps c s
  | backoffTimerExpiry c d => exact execBackoffTimerExpiry_keeps c d s
  | rplScanTick => exact execRplScanTick_keeps s
  | rplBudgetSample => exact execRplBudgetSample_keeps s
  | rplCopyDamaged => exact execRplCopyDamaged_keeps s
  | activeCopyChange => exact execActiveCopyChange_keeps s
  | prmDoorReport => exact execPrmDoorReport_keeps s
  | prmWithholdSample => exact execPrmWithholdSample_keeps s
  | journalEntryRequest src => exact execJournalEntryRequest_keeps src s
  | jrnSteeringValues => exact execJrnSteeringValues_keeps s
  | powerLost cut => exact execPowerLost_keeps cut s
  | leadByteTaken c => exact execLeadByteTaken_keeps c s

/-- A step keeps what its command keeps; an idle part keeps everything. -/
theorem step_keeps {s t : State} (h : step s = .next t) : Keeps s t := by
  unfold step at h
  split at h
  · exact KeptBy.next (Keeps.refl s) t h
  · rename_i c rest _
    exact Keeps.trans (t := { s with pending := rest }) {} (exec_keeps c _ t h)

/-- Settles O58: each of the three conditions is carried over by whatever command the step takes. -/
theorem copiesRosterAndQueuesStayOrdered : Obligations.CopiesRosterAndQueuesStayOrdered := by
  refine ⟨fun s t h hs => (step_keeps hs).active h, fun s t hs => ?_⟩
  exact ⟨(step_keeps hs).roster, (step_keeps hs).queues⟩

end Sys2Proof.Machine
end

section
/-! The store orders' targets and tests (R130, R140 to R149). -/

namespace Sys2Proof.Machine

/-! ## Copies of a slot -/

@[simp] theorem copyOf_copyIx (k : Slot) (x : CopyId) : copyOf (copyIx k x) = x := by
  cases x
  · have : 2 * k.val % 2 = 0 := by omega
    simp [copyOf, copyIx, this]
  · have : (2 * k.val + 1) % 2 ≠ 0 := by omega
    simp [copyOf, copyIx]

/-- The active copy of a slot: copy A if it is active, else copy B if that is (R130). -/
theorem State.activeCopy_eq (s : State) (k : Slot) : s.activeCopy k =
    if s.isc.records[copyIx k .a].isActive then some (copyIx k .a)
    else if s.isc.records[copyIx k .b].isActive then some (copyIx k .b) else none := rfl

theorem CopyRec.isActive_iff (v : CopyRec) : v.isActive = true ↔ v.state = .closed ∧ v.seq ≠ 0 := by
  simp [CopyRec.isActive]

/-- The copies an OPEN COPY and an ACTIVATE COPY go to where one is active (R141, R144). -/
theorem State.targets_of_active {s : State} {k : Slot} {x : CopyId} (h : s.activeCopy k = some (copyIx k x)) :
    s.openTarget k = copyIx k x.other ∧ s.activateTarget k = copyIx k x.other := by
  simp [State.openTarget, State.activateTarget, h]

theorem State.targets_of_inactive {s : State} {k : Slot} (h : s.activeCopy k = none) : s.openTarget k = copyIx k .a
    ∧ s.activateTarget k = if s.isc.records[copyIx k .a].state = .closed then copyIx k .a else copyIx k .b := by
  simp [State.openTarget, State.activateTarget, h]

/-! ## The next activation sequence -/

theorem le_foldl_max {α : Type} (f : α → Nat) (l : List α) (m : Nat) :
    m ≤ l.foldl (fun n x => max n (f x)) m ∧ ∀ x ∈ l, f x ≤ l.foldl (fun n x => max n (f x)) m := by
  induction l generalizing m with
  | nil => exact ⟨le_rfl, fun x hx => absurd hx List.not_mem_nil⟩
  | cons y rest ih =>
    obtain ⟨h1, h2⟩ := ih (max m (f y))
    refine ⟨(le_max_left _ _).trans h1, fun x hx => ?_⟩
    rcases List.mem_cons.mp hx with rfl | hx
    · exact (le_max_right _ _).trans h1
    · exact h2 x hx

theorem foldl_max_reached {α : Type} (f : α → Nat) (l : List α) (m : Nat) :
    l.foldl (fun n x => max n (f x)) m = m ∨ ∃ x ∈ l, l.foldl (fun n x => max n (f x)) m = f x := by
  induction l generalizing m with
  | nil => exact .inl rfl
  | cons y rest ih =>
    rcases ih (max m (f y)) with h | ⟨x, hx, h⟩
    · rcases max_choice m (f y) with hm | hm
      · exact .inl (h.trans hm)
      · exact .inr ⟨y, List.mem_cons_self, h.trans hm⟩
    · exact .inr ⟨x, List.mem_cons_of_mem _ hx, h⟩

/-- The next sequence lies above every record's, and next above one (R130). -/
theorem State.nextSequence_spec (s : State) : (∀ r : CopyIx, s.isc.records[r].seq < s.nextSequence)
    ∧ ∃ r : CopyIx, s.nextSequence = s.isc.records[r].seq + 1 := by
  have hle : ∀ r : CopyIx, s.isc.records[r].seq < s.nextSequence := fun r =>
    Nat.lt_succ_of_le ((le_foldl_max CopyRec.seq s.isc.records.toList 0).2 _ (by simp))
  refine ⟨hle, ?_⟩
  rcases foldl_max_reached CopyRec.seq s.isc.records.toList 0 with h | ⟨v, hv, h⟩
  · have h0 : s.nextSequence = 0 + 1 := congrArg (· + 1) h
    have := hle 0
    exact ⟨0, by omega⟩
  · obtain ⟨i, hi, rfl⟩ := List.getElem_of_mem hv
    have hlt : i < 32 := by simpa using hi
    exact ⟨⟨i, hlt⟩, congrArg (· + 1) (h.trans (by simp))⟩

/-! ## Lists of tests -/

@[simp] theorem firstRefusal_nil : firstRefusal [] = none := rfl

@[simp] theorem firstRefusal_cons (p : Bool) (r : RefusalCode) (l : List (Bool × RefusalCode)) :
    firstRefusal ((p, r) :: l) = if p then some r else firstRefusal l := rfl

theorem openBad_iff (b : List Byte) : openBad b = true ↔
    15 < paramByte b 0 ∨ paramWord b 2 = 0 ∨ 1 < paramByte b 1 ∨ paramLong b 6 = 0 ∨ 524288 < paramLong b 6 ∨ 8 < paramByte b 10
      ∨ ∃ x ∈ paramSpans b (paramByte b 10), x.len = 0 ∨ 65535 < x.len ∨ paramLong b 6 < x.off + x.len := by
  simp only [openBad, openDesc, Bool.or_eq_true, decide_eq_true_eq, List.any_eq_true, or_assoc]
  exact Iff.rfl

theorem CopyRec.complete_iff (v : CopyRec) : v.complete = true ↔ ∀ i < v.desc.segments, v.written.getLsbD i = true := by
  simp [CopyRec.complete]

/-- A place of the identity area reads erased (R21, R148). -/
theorem Field.vehicle_erased_iff (p : Field) : p.vehicle = some Config.erasedLong ↔ p = .erased ∨ p = .value 4294967295 := by
  cases p <;> simp [Field.vehicle, Config.erasedLong]

theorem Flash.identityUsed_iff (f : Flash) : f.identityUsed = false ↔
    (f.identity1 = .erased ∨ f.identity1 = .value 4294967295) ∧ (f.identity2 = .erased ∨ f.identity2 = .value 4294967295) := by
  simp only [Flash.identityUsed, ← Field.vehicle_erased_iff, Bool.or_eq_false_iff, decide_eq_false_iff_not, not_not]

/-! ## The tests, each in its order -/

section tests
variable (s : State) (b : List Byte)

theorem openTest_eq : openTest s b = if openBad b then some .badParameter
    else if s.slotLocked (paramSlot b 0) then some .isProtected
    else if s.isc.records[s.openTarget (paramSlot b 0)].use ≠ 0 then some .inUse else none := by
  simp only [openTest, firstRefusal_cons, firstRefusal_nil, decide_eq_true_eq]

theorem stageTest_bad (h : 7 < paramByte b 0 ∨ 15 < paramByte b 1) : stageTest s b = some .badParameter := by
  simp [stageTest, h]

theorem stageTest_eq (h0 : paramByte b 0 ≤ 7) (h1 : paramByte b 1 ≤ 15) : stageTest s b =
    if s.slotLocked (paramSlot b 1) then some .isProtected
    else match s.openOf (paramSlot b 1) with
      | none => some .notOpen
      | some r => if s.isc.records[r].desc.segments ≤ paramWord b 2 then some .outOfRange
        else if s.isc.records[r].written.getLsbD (paramWord b 2) then some .alreadyWritten else none := by
  cases h : s.openOf (paramSlot b 1) <;> simp [stageTest, State.openRec, h, h0, h1]

theorem closeTest_bad (h : 15 < paramByte b 0) : closeTest s b = some .badParameter := by
  simp [closeTest, h]

theorem closeTest_eq (h0 : paramByte b 0 ≤ 15) : closeTest s b =
    if s.slotLocked (paramSlot b 0) then some .isProtected
    else match s.openOf (paramSlot b 0) with
      | none => some .notOpen
      | some r => if s.isc.records[r].complete then none else some .incomplete := by
  have h15 : ¬ 15 < paramByte b 0 := Nat.not_lt.mpr h0
  cases h : s.openOf (paramSlot b 0) with
  | none => simp [closeTest, h, h15]
  | some r =>
    cases hc : s.isc.records[r].complete <;>
      simp only [Fin.getElem_fin] at hc <;> simp [closeTest, State.openRec, h, h15, hc]

theorem activateTest_bad (h : 15 < paramByte b 0 ∨ 4294967294 < s.nextSequence) : activateTest s b = some .badParameter := by
  have h' : 15 < paramByte b 0 ∨ Config.sequenceMax < s.nextSequence := h
  simp [activateTest, h']

/-- The image of the active copy is the target's (R144). -/
theorem State.sameImageActive_eq (k : Slot) : s.sameImageActive k = (s.activeCopy k).any (fun x =>
    decide (s.isc.records[x].desc.image = s.isc.records[s.activateTarget k].desc.image
      ∧ s.isc.records[x].desc.version = s.isc.records[s.activateTarget k].desc.version)) := by
  cases h : s.activeCopy k <;> simp [State.sameImageActive, h]

theorem activateTest_eq (h0 : paramByte b 0 ≤ 15) (h1 : s.nextSequence ≤ 4294967294) : activateTest s b =
    if s.slotLocked (paramSlot b 0) then some .isProtected
    else if s.isc.records[s.activateTarget (paramSlot b 0)].state ≠ .closed then some .notClosed
    else if s.sameImageActive (paramSlot b 0) then some .alreadyActive else none := by
  have h' : ¬ (15 < paramByte b 0 ∨ Config.sequenceMax < s.nextSequence) := by
    simp only [Config.sequenceMax]
    omega
  simp [activateTest, h']

theorem eraseTest_bad (h : 15 < paramByte b 0 ∨ 1 < paramByte b 1) : eraseTest s b = some .badParameter := by
  simp [eraseTest, h]

theorem eraseTest_eq (h0 : paramByte b 0 ≤ 15) (h1 : paramByte b 1 ≤ 1) : eraseTest s b =
    if s.slotLocked (paramSlot b 0) then some .isProtected
    else if s.isc.records[eraseTarget b].isActive then some .active
    else if s.isc.records[eraseTarget b].use ≠ 0 then some .inUse else none := by
  simp [eraseTest, h0, h1]

theorem protectTest_eq : protectTest s b = if 3 < paramByte b 0 then some .badParameter else none := by
  simp [protectTest]

theorem unprotectTest_eq : unprotectTest s b = if s.pins.svcUnlock then none else some .isProtected := by
  cases h : s.pins.svcUnlock <;> simp [unprotectTest, h]

theorem identityTest_eq : identityTest s b = if s.pins.svcUnlock = false then some .isProtected
    else if s.flash.identityUsed = false then none else some .alreadyWritten := by
  cases h : s.pins.svcUnlock <;> cases h' : s.flash.identityUsed <;> simp [identityTest, h, h']

end tests

/-- Settles O37, by the targets of each case of the active copy and the equation of each list of tests. -/
theorem storeOrderTests : Obligations.StoreOrderTests := by
  refine ⟨fun s k => ?_, fun s b => ?_⟩
  · simp only [← CopyRec.isActive_iff]
    refine ⟨rfl, rfl, fun ha => ?_, fun ha hb => ?_, fun ha hb => ?_, ?_, s.nextSequence_spec⟩
    · have h : s.activeCopy k = some (copyIx k .a) := by rw [State.activeCopy_eq, if_pos ha]
      exact ⟨h, State.targets_of_active h⟩
    · have h : s.activeCopy k = some (copyIx k .b) := by rw [State.activeCopy_eq, if_neg ha, if_pos hb]
      exact ⟨h, State.targets_of_active h⟩
    · have h : s.activeCopy k = none := by rw [State.activeCopy_eq, if_neg ha, if_neg hb]
      exact ⟨h, State.targets_of_inactive h⟩
    · cases h : s.isc.openCopy[k] with
      | none => simp [State.openOf, h]
      | some x => cases x <;> simp [State.openOf, h]
  · have hlock : ∀ i, (s.isc.groupProtected ⟨paramByte b i % 16 / 4, by omega⟩ && !s.pins.svcUnlock)
        = s.slotLocked (paramSlot b i) := fun _ => rfl
    have hslot : ∀ i, (⟨paramByte b i % 16, Nat.mod_lt _ (by decide)⟩ : Slot) = paramSlot b i := fun _ => rfl
    have herase : eraseTarget b = copyIx (paramSlot b 0) (if paramByte b 1 = 0 then .a else .b) := rfl
    simp only [← openBad_iff, hlock, hslot, ← herase, ← State.sameImageActive_eq, ← Flash.identityUsed_iff]
    refine ⟨fun h => ?_, fun h hl => ?_, fun h hl hu => ?_, fun h hl hu => ?_, stageTest_bad s b, fun h0 h1 hl => ?_,
      fun h0 h1 hl hn => ?_, fun h0 h1 hl r hr => ?_,
      fun h => ⟨closeTest_bad s b h, activateTest_bad s b (.inl h), eraseTest_bad s b (.inl h)⟩,
      fun h0 hl => ?_, fun h0 hl hn => ?_, fun h0 hl r hr => ⟨fun ⟨i, hi, hw⟩ => ?_, fun hw => ?_⟩,
      fun _ h1 => activateTest_bad s b (.inr h1), fun h0 h1 hl => ?_, fun h0 h1 hl => ?_, fun h0 h1 hl => ?_,
      fun _ h1 => eraseTest_bad s b (.inr h1), fun h0 h1 hl => ?_, protectTest_eq s b, unprotectTest_eq s b, identityTest_eq s b⟩
    · rw [openTest_eq, if_pos h]
    · rw [openTest_eq, if_neg h, if_pos hl]
    · rw [openTest_eq, if_neg h, hl, if_pos hu]; rfl
    · rw [openTest_eq, if_neg h, hl, if_neg (not_not.mpr hu)]; rfl
    · rw [stageTest_eq s b h0 h1, if_pos hl]
    · rw [stageTest_eq s b h0 h1, hl, hn]; rfl
    · rw [stageTest_eq s b h0 h1, hl, hr]; rfl
    · rw [closeTest_eq s b h0, if_pos hl]
    · rw [closeTest_eq s b h0, hl, hn]; rfl
    · have hc : ¬ s.isc.records[r].complete = true := fun hc => by
        have := (CopyRec.complete_iff _).mp hc i hi
        rw [hw] at this
        cases this
      rw [closeTest_eq s b h0, hl, hr]
      exact if_neg hc
    · rw [closeTest_eq s b h0, hl, hr]
      exact if_pos ((CopyRec.complete_iff _).mpr hw)
    · rw [activateTest_eq s b h0 h1, if_pos hl]
    · rw [activateTest_eq s b h0 h1, hl]; rfl
    · rw [eraseTest_eq s b h0 h1, hl]; rfl
    · rw [eraseTest_eq s b h0 h1, if_pos hl]

end Sys2Proof.Machine
end

section
/-! The scan of the headers, record by record (R150, R151). -/

namespace Sys2Proof.Machine

/-! ## Folds that go through places one by one -/

/-- A fold whose step at a place changes that place alone leaves each place as its own step, made once, gives it. -/
theorem foldl_places {σ ι V : Type} [DecidableEq ι] {Inv : σ → Prop} {step : σ → ι → σ} {view : ι → σ → V} {G : ι → V → V}
    (hinv : ∀ x b, Inv x → Inv (step x b)) (hsame : ∀ x b, Inv x → view b (step x b) = G b (view b x))
    (hother : ∀ x b c, Inv x → c ≠ b → view c (step x b) = view c x) {l : List ι} (hl : l.Nodup) {x : σ} (hx : Inv x) (c : ι) :
    view c (l.foldl step x) = if c ∈ l then G c (view c x) else view c x := by
  induction l generalizing x with
  | nil => simp
  | cons b rest ih =>
    obtain ⟨hb, hrest⟩ := List.nodup_cons.mp hl
    rw [List.foldl_cons, ih hrest (hinv x b hx)]
    by_cases hc : c = b
    · subst hc
      rw [if_neg hb, if_pos List.mem_cons_self, hsame x c hx]
    · rw [hother x b c hx hc]
      simp only [List.mem_cons, hc, false_or]

/-! ## A record's part in a scan -/

/-- What a scan under way holds of one copy: the record found, the header, and the COPY STATE entries owed for it. -/
structure Scanned where
  record : CopyRec
  header : Header
  owed : List (CopyIx × CopyState × CopyCause)

/-- The part of a record in a scan. -/
def Scan.part (r : CopyIx) (x : Scan) : Scanned :=
  ⟨x.records[r], x.flash.headers[r], x.entries.filter (fun e => decide (e.1 = r))⟩

/-- A mark programmed, the record moved to the state it gives, and an entry owed for it. -/
def Scanned.marked (r : CopyIx) (v : Scanned) (k : MarkKind) (st : CopyState) (cause : CopyCause) : Scanned :=
  ⟨{ v.record with state := st }, v.header.programMark k .whole, v.owed ++ [(r, st, cause)]⟩

/-- The first pass over a record (R150, and the check of R151). -/
def Scanned.headed (r : CopyIx) (v : Scanned) : Scanned :=
  let w : Scanned := { v with record := v.header.found }
  if w.record.state = .torn then { w with owed := w.owed ++ [(r, .torn, .scanTorn)] }
  else if (w.record.state = .closed ∨ w.record.state = .retired) ∧ w.record.desc.unsound = true then
    w.marked r .damaged .damaged .scanFields
  else w

/-- The repair of a slot's pair (R151). -/
def pairRepaired (k : Slot) (v : Scanned × Scanned) : Scanned × Scanned :=
  if v.1.record.isActive && v.2.record.isActive then
    if v.1.record.seq < v.2.record.seq then (v.1.marked (copyIx k .a) .retired .retired .scanRepair, v.2)
    else (v.1, v.2.marked (copyIx k .b) .retired .retired .scanRepair)
  else v

/-- A scan of `f` whose programs all verify, under way: it has changed headers only. -/
structure Scan.Verifying (f : Flash) (x : Scan) : Prop where
  ends : x.ends = []
  flash : x.flash = { f with headers := x.flash.headers }

section
variable {f : Flash} {x : Scan} (r : CopyIx) (k : MarkKind) (st : CopyState) (cause : CopyCause)

theorem Scan.programMark_eq (h : x.ends = []) : x.programMark r k st cause =
    { flash := x.flash.onHeader r (fun h => h.programMark k .whole)
      records := x.records.set r { x.records[r] with state := st }
      ends := []
      entries := x.entries ++ [(r, st, cause)] } := by
  simp [Scan.programMark, h, progLeft, Flash.program]

theorem Scan.Verifying.programMark (h : x.Verifying f) : (x.programMark r k st cause).Verifying f := by
  rw [Scan.programMark_eq r k st cause h.ends]
  exact ⟨rfl, by rw [h.flash]; rfl⟩

theorem Scan.part_programMark_same (h : x.ends = []) :
    (x.programMark r k st cause).part r = (x.part r).marked r k st cause := by
  rw [Scan.programMark_eq r k st cause h]
  simp [Scan.part, Scanned.marked, Flash.onHeader]

theorem Scan.part_programMark_other (h : x.ends = []) {q : CopyIx} (hq : q ≠ r) :
    (x.programMark r k st cause).part q = x.part q := by
  have hv : r.val ≠ q.val := fun e => hq (Fin.ext e).symm
  rw [Scan.programMark_eq r k st cause h]
  simp [Scan.part, Flash.onHeader, Vector.getElem_set_ne, hv, Ne.symm hq]

end

/-! ## The first pass -/

theorem Scan.Verifying.header {f : Flash} {x : Scan} (h : x.Verifying f) (r : CopyIx) : (x.header r).Verifying f := by
  unfold Scan.header
  dsimp only
  split
  · exact ⟨h.ends, h.flash⟩
  · split
    · exact Scan.Verifying.programMark _ _ _ _ ⟨h.ends, h.flash⟩
    · exact ⟨h.ends, h.flash⟩

theorem Scan.part_header_same {x : Scan} (h : x.ends = []) (r : CopyIx) : (x.header r).part r = (x.part r).headed r := by
  have hset : ∀ v, ({ x with records := x.records.set r v } : Scan).part r = { x.part r with record := v } := by
    intro v; simp [Scan.part]
  have hh : (x.part r).header = x.flash.headers[r] := rfl
  unfold Scan.header Scanned.headed
  simp only [hh]
  split
  · simp [Scan.part]
  · split
    · exact (Scan.part_programMark_same (x := { x with records := x.records.set r x.flash.headers[r].found }) r _ _ _ h).trans
        (congrArg (fun v => v.marked r .damaged .damaged .scanFields) (hset _))
    · exact hset _

theorem Scan.part_header_other {x : Scan} (h : x.ends = []) {r q : CopyIx} (hq : q ≠ r) : (x.header r).part q = x.part q := by
  have hv : r.val ≠ q.val := fun e => hq (Fin.ext e).symm
  have hset : ∀ v, ({ x with records := x.records.set r v } : Scan).part q = x.part q := by
    intro v; simp [Scan.part, Vector.getElem_set_ne, hv]
  unfold Scan.header
  dsimp only
  split
  · simp [Scan.part, Vector.getElem_set_ne, hv, Ne.symm hq]
  · split
    · exact (Scan.part_programMark_other (x := { x with records := x.records.set r x.flash.headers[r].found }) r _ _ _ h hq).trans
        (hset _)
    · exact hset _

/-! ## The repair of the pairs -/

/-- A slot's pair in a scan. -/
def Scan.pairPart (k : Slot) (x : Scan) : Scanned × Scanned := (x.part (copyIx k .a), x.part (copyIx k .b))

theorem Scan.pair_eq (x : Scan) (k : Slot) : x.pair k =
    if x.records[copyIx k .a].isActive && x.records[copyIx k .b].isActive then
      if x.records[copyIx k .a].seq < x.records[copyIx k .b].seq then x.programMark (copyIx k .a) .retired .retired .scanRepair
      else x.programMark (copyIx k .b) .retired .retired .scanRepair
    else x := by
  unfold Scan.pair
  dsimp only
  split
  · split <;> rfl
  · rfl

theorem Scan.Verifying.pair {f : Flash} {x : Scan} (h : x.Verifying f) (k : Slot) : (x.pair k).Verifying f := by
  rw [Scan.pair_eq]
  split
  · split <;> exact Scan.Verifying.programMark _ _ _ _ h
  · exact h

theorem copyIx_ne_copyIx {k k' : Slot} {y z : CopyId} (h : k ≠ k' ∨ y ≠ z) : copyIx k y ≠ copyIx k' z := by
  intro e
  have hv := congrArg Fin.val e
  have hk : k.val ≠ k'.val ∨ y ≠ z := h.imp_left (fun h hh => h (Fin.ext hh))
  cases y <;> cases z <;> simp only [copyIx, ne_eq, not_true_eq_false, or_false, reduceCtorEq, not_false_eq_true, or_true] at hv hk <;>
    omega

theorem Scan.pairPart_pair_same {x : Scan} (h : x.ends = []) (k : Slot) : (x.pair k).pairPart k = pairRepaired k (x.pairPart k) := by
  have hab : copyIx k .a ≠ copyIx k .b := copyIx_ne_copyIx (.inr (by decide))
  have ha : (x.pairPart k).1.record = x.records[copyIx k .a] := rfl
  have hb : (x.pairPart k).2.record = x.records[copyIx k .b] := rfl
  rw [Scan.pair_eq, pairRepaired, ha, hb]
  split
  · split
    · simp only [Scan.pairPart, Scan.part_programMark_same _ _ _ _ h, Scan.part_programMark_other _ _ _ _ h hab.symm]
    · simp only [Scan.pairPart, Scan.part_programMark_same _ _ _ _ h, Scan.part_programMark_other _ _ _ _ h hab]
  · rfl

theorem Scan.pairPart_pair_other {x : Scan} (h : x.ends = []) {k k' : Slot} (hk : k' ≠ k) :
    (x.pair k).pairPart k' = x.pairPart k' := by
  have hne : ∀ y z, copyIx k' y ≠ copyIx k z := fun y z => copyIx_ne_copyIx (.inl hk)
  rw [Scan.pair_eq]
  split
  · split <;> simp only [Scan.pairPart, Scan.part_programMark_other _ _ _ _ h (hne _ _)]
  · rfl

/-! ## The whole scan -/

/-- The part of a record once its header has been read. -/
def Flash.headed (f : Flash) (r : CopyIx) : Scanned := Scanned.headed r ⟨CopyRec.bare .blank, f.headers[r], []⟩

/-- The pair of a slot as a scan leaves it. -/
def Flash.repaired (f : Flash) (k : Slot) : Scanned × Scanned := pairRepaired k (f.headed (copyIx k .a), f.headed (copyIx k .b))

/-- A scan before its entries are put in order. -/
def Flash.scanned (f : Flash) : Scan :=
  (List.finRange 16).foldl Scan.pair ((List.finRange 32).foldl Scan.header
    { flash := f, records := Vector.replicate 32 (CopyRec.bare .blank), ends := [], entries := [] })

theorem Flash.scan_eq (f : Flash) : f.scan [] = { f.scanned with entries := sortEntries f.scanned.entries } := rfl

theorem Flash.scanned_parts (f : Flash) : f.scanned.Verifying f ∧ ∀ k, f.scanned.pairPart k = f.repaired k := by
  have h0 : Scan.Verifying f { flash := f, records := Vector.replicate 32 (CopyRec.bare .blank), ends := [], entries := [] } :=
    ⟨rfl, rfl⟩
  have h1 : Scan.Verifying f ((List.finRange 32).foldl Scan.header
      { flash := f, records := Vector.replicate 32 (CopyRec.bare .blank), ends := [], entries := [] }) :=
    foldl_keeps Scan.header _ (fun x r hx => hx.header r) _ h0
  have hheads : ∀ r, Scan.part r ((List.finRange 32).foldl Scan.header
      { flash := f, records := Vector.replicate 32 (CopyRec.bare .blank), ends := [], entries := [] }) = f.headed r := by
    intro r
    rw [foldl_places (Inv := Scan.Verifying f) (view := Scan.part) (G := Scanned.headed) (fun x b hx => hx.header b)
      (fun x b hx => Scan.part_header_same hx.ends b) (fun x b c hx hc => Scan.part_header_other hx.ends hc)
      (List.nodup_finRange 32) h0 r, if_pos (List.mem_finRange r)]
    simp [Flash.headed, Scan.part]
  refine ⟨foldl_keeps Scan.pair _ (fun x k hx => hx.pair k) _ h1, fun k => ?_⟩
  rw [Flash.scanned, foldl_places (Inv := Scan.Verifying f) (view := Scan.pairPart) (G := pairRepaired) (fun x b hx => hx.pair b)
    (fun x b hx => Scan.pairPart_pair_same hx.ends b) (fun x b c hx hc => Scan.pairPart_pair_other hx.ends hc)
    (List.nodup_finRange 16) h1 k, if_pos (List.mem_finRange k)]
  simp only [Scan.pairPart, hheads, Flash.repaired]

/-! ## What the scan finds, case by case -/

theorem Header.found_state (h : Header) : h.found.state = h.foundState := by
  unfold Header.found
  cases h.foundState <;> rfl

/-- The record a header gives: no field where it is blank or torn (R150). -/
theorem Header.found_eq (h : Header) : h.found =
    if h.foundState = .blank ∨ h.foundState = .torn then CopyRec.bare h.foundState
    else { state := h.foundState, desc := h.desc.getD Desc.none, written := h.written, table := h.tables.elim [] Prod.fst,
           whole := h.tables.elim 0 Prod.snd, seq := h.seq.number, use := 0 } := by
  unfold Header.found
  cases h.foundState <;> cases h.tables <;> rfl

/-- A CLOSED or RETIRED description that fails its check (R151). -/
def Header.failsCheck (h : Header) : Prop := (h.foundState = .closed ∨ h.foundState = .retired) ∧ (h.desc.getD Desc.none).unsound = true

theorem Header.found_desc {h : Header} (hs : h.foundState = .closed ∨ h.foundState = .retired) :
    h.found.desc = h.desc.getD Desc.none := by
  rw [Header.found_eq, if_neg (by rcases hs with hs | hs <;> simp [hs])]

theorem Header.failsCheck_iff (h : Header) :
    ((h.found.state = .closed ∨ h.found.state = .retired) ∧ h.found.desc.unsound = true) ↔ h.failsCheck := by
  rw [Header.found_state, Header.failsCheck]
  exact and_congr_right (fun hs => by rw [Header.found_desc hs])

section
variable {f : Flash} {r : CopyIx}

theorem Flash.headed_torn (h : f.headers[r].foundState = .torn) :
    f.headed r = ⟨f.headers[r].found, f.headers[r], [(r, .torn, .scanTorn)]⟩ := by
  rw [Flash.headed, Scanned.headed]
  exact if_pos ((Header.found_state _).trans h)

theorem Flash.headed_unsound (h : f.headers[r].failsCheck) : f.headed r
    = ⟨{ f.headers[r].found with state := .damaged }, { f.headers[r] with damaged := .recorded }, [(r, .damaged, .scanFields)]⟩ := by
  have ht : ¬ f.headers[r].found.state = .torn := by
    rw [Header.found_state]
    rcases h.1 with hs | hs <;> rw [hs] <;> decide
  rw [Flash.headed, Scanned.headed]
  exact (if_neg ht).trans (if_pos ((Header.failsCheck_iff _).mpr h))

theorem Flash.headed_sound (ht : f.headers[r].foundState ≠ .torn) (h : ¬ f.headers[r].failsCheck) :
    f.headed r = ⟨f.headers[r].found, f.headers[r], []⟩ := by
  rw [Flash.headed, Scanned.headed]
  exact (if_neg (by rw [Header.found_state]; exact ht)).trans (if_neg (fun hc => h ((Header.failsCheck_iff _).mp hc)))

/-- The copy is active as the first pass leaves it (R130). -/
def Flash.activeFound (f : Flash) (r : CopyIx) : Prop :=
  f.headers[r].foundState = .closed ∧ ¬ f.headers[r].failsCheck ∧ f.headers[r].seq.number ≠ 0

theorem Header.found_seq {h : Header} (hs : h.foundState = .closed) : h.found.seq = h.seq.number := by
  rw [Header.found_eq, if_neg (by simp [hs])]

theorem Flash.headed_isActive_iff : (f.headed r).record.isActive = true ↔ f.activeFound r := by
  by_cases hu : f.headers[r].failsCheck
  · have hn : ¬ f.activeFound r := fun h => h.2.1 hu
    simp [Flash.headed_unsound hu, CopyRec.isActive, hn]
  · have hr : (f.headed r).record = f.headers[r].found := by
      by_cases ht : f.headers[r].foundState = .torn
      · rw [Flash.headed_torn ht]
      · rw [Flash.headed_sound ht hu]
    rw [hr, CopyRec.isActive_iff, Header.found_state, Flash.activeFound]
    exact and_congr_right (fun hs => by rw [Header.found_seq hs]; exact ⟨fun h => ⟨hu, h⟩, And.right⟩)

theorem Flash.headed_of_active (h : f.activeFound r) : f.headed r = ⟨f.headers[r].found, f.headers[r], []⟩ :=
  Flash.headed_sound (by rw [h.1]; decide) h.2.1

/-- Of two active copies the one that does not stay active: the lower sequence, or copy B at equal ones (R151). -/
def Flash.lesser (f : Flash) (r : CopyIx) : Prop :=
  let q := copyIx (slotOf r) (copyOf r).other
  f.activeFound r ∧ f.activeFound q
    ∧ (f.headers[r].seq.number < f.headers[q].seq.number
      ∨ (f.headers[r].seq.number = f.headers[q].seq.number ∧ copyOf r = .b))

end

theorem slotOf_copyIx (k : Slot) (x : CopyId) : slotOf (copyIx k x) = k := by
  cases x <;> simp only [slotOf, copyIx, Fin.ext_iff] <;> omega

theorem copyIx_slotOf (r : CopyIx) : r = copyIx (slotOf r) (copyOf r) := by
  by_cases h : r.val % 2 = 0
  · simp only [copyOf, if_pos h, copyIx, slotOf, Fin.ext_iff]; omega
  · simp only [copyOf, if_neg h, copyIx, slotOf, Fin.ext_iff]; omega

/-- The pair of a slot: at most the lesser of two active copies is changed. -/
theorem Flash.repaired_spec (f : Flash) (k : Slot) :
    ((f.lesser (copyIx k .a) → (f.repaired k).1 = (f.headed (copyIx k .a)).marked (copyIx k .a) .retired .retired .scanRepair)
      ∧ (¬ f.lesser (copyIx k .a) → (f.repaired k).1 = f.headed (copyIx k .a)))
    ∧ (f.lesser (copyIx k .b) → (f.repaired k).2 = (f.headed (copyIx k .b)).marked (copyIx k .b) .retired .retired .scanRepair)
      ∧ (¬ f.lesser (copyIx k .b) → (f.repaired k).2 = f.headed (copyIx k .b)) := by
  simp only [Flash.lesser, slotOf_copyIx, copyOf_copyIx, CopyId.other, reduceCtorEq, and_false, or_false, and_true]
  unfold Flash.repaired pairRepaired
  by_cases hab : f.activeFound (copyIx k .a) ∧ f.activeFound (copyIx k .b)
  · obtain ⟨ha, hb⟩ := hab
    have hsa : (f.headed (copyIx k .a)).record.seq = f.headers[copyIx k .a].seq.number := by
      rw [Flash.headed_of_active ha]; exact Header.found_seq ha.1
    have hsb : (f.headed (copyIx k .b)).record.seq = f.headers[copyIx k .b].seq.number := by
      rw [Flash.headed_of_active hb]; exact Header.found_seq hb.1
    rw [if_pos (by rw [Flash.headed_isActive_iff.mpr ha, Flash.headed_isActive_iff.mpr hb]; rfl)]
    simp only [hsa, hsb, ha, hb, true_and]
    split
    · rename_i hlt
      exact ⟨⟨fun _ => rfl, fun h => absurd hlt h⟩, fun h => by omega, fun _ => rfl⟩
    · rename_i hlt
      exact ⟨⟨fun h => absurd h hlt, fun _ => rfl⟩, fun _ => rfl, fun h => by omega⟩
  · have hn : ¬ ((f.headed (copyIx k .a)).record.isActive && (f.headed (copyIx k .b)).record.isActive) = true := by
      rw [Bool.and_eq_true, Flash.headed_isActive_iff, Flash.headed_isActive_iff]
      exact hab
    rw [if_neg hn]
    exact ⟨⟨fun h => absurd ⟨h.1, h.2.1⟩ hab, fun _ => rfl⟩, fun h => absurd ⟨h.2.1, h.1⟩ hab, fun _ => rfl⟩

theorem Flash.scanned_part (f : Flash) (r : CopyIx) :
    (f.lesser r → f.scanned.part r = (f.headed r).marked r .retired .retired .scanRepair)
      ∧ (¬ f.lesser r → f.scanned.part r = f.headed r) := by
  obtain ⟨k, x, rfl⟩ : ∃ k x, r = copyIx k x := ⟨_, _, copyIx_slotOf r⟩
  have hs := f.repaired_spec k
  simp only [← f.scanned_parts.2 k, Scan.pairPart] at hs
  cases x
  · exact hs.1
  · exact hs.2

/-- The COPY STATE entry a scan owes for a record (R151). -/
theorem Flash.scan_entries {f : Flash} {entry : CopyIx → Option (CopyIx × CopyState × CopyCause)}
    (h : ∀ r, (f.scanned.part r).owed = (entry r).toList) : (f.scan []).entries = (List.finRange 32).filterMap entry := by
  rw [Flash.scan_eq, List.filterMap_eq_flatMap_toList, ← funext h]
  simp only [sortEntries, Scan.part]

/-- What the scan leaves of a record and its header. -/
theorem Flash.scan_record (f : Flash) (r : CopyIx) :
    let h := f.headers[r]
    (h.failsCheck → (f.scan []).records[r] = { h.found with state := .damaged }
        ∧ (f.scan []).flash.headers[r] = { h with damaged := .recorded })
      ∧ (f.lesser r → (f.scan []).records[r] = { h.found with state := .retired }
        ∧ (f.scan []).flash.headers[r] = { h with retired := .recorded })
      ∧ (¬ h.failsCheck → ¬ f.lesser r → (f.scan []).records[r] = h.found ∧ (f.scan []).flash.headers[r] = h) := by
  intro h
  have hrec : (f.scan []).records[r] = (f.scanned.part r).record := by simp only [Flash.scan_eq, Scan.part]
  have hhead : (f.scan []).flash.headers[r] = (f.scanned.part r).header := by simp only [Flash.scan_eq, Scan.part]
  rw [hrec, hhead]
  refine ⟨fun hu => ?_, fun hl => ?_, fun hu hl => ?_⟩
  · rw [(f.scanned_part r).2 (fun hl => hl.1.2.1 hu), Flash.headed_unsound hu]
    exact ⟨rfl, rfl⟩
  · rw [(f.scanned_part r).1 hl, Flash.headed_of_active hl.1]
    exact ⟨rfl, rfl⟩
  · rw [(f.scanned_part r).2 hl]
    by_cases ht : f.headers[r].foundState = .torn
    · rw [Flash.headed_torn ht]; exact ⟨rfl, rfl⟩
    · rw [Flash.headed_sound ht hu]; exact ⟨rfl, rfl⟩

/-- Which entry the scan owes for a record, by the first row that applies. -/
theorem Flash.scan_owed (f : Flash) (r : CopyIx) :
    let h := f.headers[r]
    (h.foundState = .torn → (f.scanned.part r).owed = [(r, .torn, .scanTorn)])
      ∧ (h.failsCheck → (f.scanned.part r).owed = [(r, .damaged, .scanFields)])
      ∧ (f.lesser r → (f.scanned.part r).owed = [(r, .retired, .scanRepair)])
      ∧ (h.foundState ≠ .torn → ¬ h.failsCheck → ¬ f.lesser r → (f.scanned.part r).owed = []) := by
  refine ⟨fun ht => ?_, fun hu => ?_, fun hl => ?_, fun ht hu hl => ?_⟩
  · have hl : ¬ f.lesser r := fun hl => by
      have := hl.1.1
      rw [ht] at this
      cases this
    rw [(f.scanned_part r).2 hl, Flash.headed_torn ht]
  · rw [(f.scanned_part r).2 (fun hl => hl.1.2.1 hu), Flash.headed_unsound hu]
  · rw [(f.scanned_part r).1 hl, Flash.headed_of_active hl.1]; rfl
  · rw [(f.scanned_part r).2 hl, Flash.headed_sound ht hu]

theorem Flash.scan_flash (f : Flash) : (f.scan []).flash = { f with headers := (f.scan []).flash.headers } := by
  simp only [Flash.scan_eq]
  exact f.scanned_parts.1.flash

/-! ## The rows of R150 and the check of R151 as conditions -/

theorem Header.partProgrammed_iff (h : Header) : h.partProgrammed = true ↔ h.eraseIntent = .part ∨ h.opened = .part ∨ h.closed = .part
    ∨ h.rejected = .part ∨ h.retired = .part ∨ h.damaged = .part ∨ h.writtenPart = true ∨ h.seq = .part := by
  simp only [Header.partProgrammed, Bool.or_eq_true, decide_eq_true_eq, or_assoc]

theorem Desc.unsound_iff (d : Desc) : d.unsound = true ↔ 1 < d.cls ∨ d.length = 0 ∨ 524288 < d.length ∨ 8 < d.spans.length
    ∨ ∃ y ∈ d.spans, d.length < y.off + y.len := by
  simp only [Desc.unsound, Bool.or_eq_true, decide_eq_true_eq, List.any_eq_true, or_assoc]
  exact Iff.rfl

/-- The identity from what the two places hold (R21, R148). -/
theorem Flash.readIdentity_eq (f : Flash) : f.readIdentity = match f.identity1.vehicle, f.identity2.vehicle with
    | some m, some n => if m ≠ n then .unreadable else if m = 4294967295 then .notWritten else .written m
    | _, _ => .unreadable := by
  unfold Flash.readIdentity Flash.identityUsed
  cases h1 : f.identity1.vehicle with
  | none => cases h2 : f.identity2.vehicle <;> simp
  | some m =>
    cases h2 : f.identity2.vehicle with
    | none => simp
    | some n =>
      by_cases hmn : m = n
      · subst hmn
        by_cases hm : m = Config.erasedLong
        · simp [hm, Config.erasedLong]
        · simp only [Config.erasedLong] at hm
          simp [hm, Config.erasedLong]
      · by_cases hm : m = Config.erasedLong
        · subst hm
          simp [hmn, Ne.symm hmn]
        · simp [hmn, hm]

end Sys2Proof.Machine
end

section
/-! The reading of the fleet table and its roster (R18, R20 to R25). -/

namespace Sys2Proof.Machine

/-! ## Entries -/

/-- Entry j of a table passes the tests of its own fields (R25). -/
def entrySound (l : List Byte) (j : Nat) : Prop :=
  byteAt l (28 + 5 * j) < max 1 (min 6 (byteAt l 4)) ∧ 1 ≤ byteAt l (29 + 5 * j) ∧ byteAt l (29 + 5 * j) ≤ 8
    ∧ byteAt l (30 + 5 * j) ≤ 1 ∧ byteAt l (31 + 5 * j) < 16
    ∧ (byteAt l (30 + 5 * j) = 0 → byteAt l (22 + byteAt l (28 + 5 * j)) ≠ 0)

/-- The record holds the fields of entry j (R18). -/
structure NodeRec.OfEntry (r : NodeRec) (l : List Byte) (j : Nat) : Prop where
  car : r.car.val = byteAt l (28 + 5 * j)
  drop : r.drop.val + 1 = byteAt l (29 + 5 * j)
  cls : r.cls.code = byteAt l (30 + 5 * j)
  slot : r.slot.val = byteAt l (31 + 5 * j)
  excl : r.fleetExcl = decide (byteAt l (32 + 5 * j) ≠ 0)
  built : r = NodeRec.built r.car r.drop r.cls r.slot r.fleetExcl

theorem clamp_eq {lo hi : Nat} (v : Nat) (h : lo ≤ hi) : clamp lo hi v = max lo (min hi v) := by
  unfold clamp
  split
  · omega
  · split <;> omega

theorem classOf_eq_some_iff (n : Nat) (x : NodeClass) : classOf n = some x ↔ x.code = n := by
  unfold classOf
  split
  · subst n; cases x <;> simp [NodeClass.code]
  · split
    · subst n; cases x <;> simp [NodeClass.code]
    · cases x <;> simp [NodeClass.code] <;> omega

/-- An entry gives its record exactly where its fields are sound. -/
theorem entryOf_eq_some_iff (l : List Byte) (j : Nat) (r : NodeRec) :
    entryOf (acceptedFleet l) l j = some r ↔ entrySound l j ∧ r.OfEntry l j := by
  have hcars : (acceptedFleet l).carCount = max 1 (min 6 (byteAt l 4)) := clamp_eq _ (by decide)
  constructor
  · intro h
    unfold entryOf at h
    dsimp only at h
    split at h
    · rename_i hf
      split at h
      · cases h
      · rename_i cls hcls
        split at h
        · cases h
        · rename_i hcar
          split at h
          · cases h
          · rename_i hflag
            rw [classOf_eq_some_iff] at hcls
            rw [hcars] at hcar
            obtain rfl := Option.some.inj h
            refine ⟨⟨by omega, hf.2.1, hf.2.2.1, ?_, hf.2.2.2, fun h0 => ?_⟩, ⟨rfl, ?_, hcls, rfl, rfl, rfl⟩⟩
            · rw [← hcls]; cases cls <;> simp [NodeClass.code]
            · intro hz
              refine hflag ⟨?_, ?_⟩
              · rw [h0] at hcls
                cases cls
                · rfl
                · simp [NodeClass.code] at hcls
              · simp [acceptedFleet, hz]
            · simp only [NodeRec.built]; omega
    · cases h
  · rintro ⟨⟨h1, h2, h3, h4, h5, h6⟩, hr⟩
    have hcls := (classOf_eq_some_iff _ _).mpr hr.cls
    unfold entryOf
    rw [dif_pos ⟨by omega, h2, h3, h5⟩, hcls]
    dsimp only
    rw [if_neg (by rw [hcars]; omega), if_neg]
    · have e1 : (⟨byteAt l (28 + 5 * j), by omega⟩ : Car) = r.car := Fin.ext hr.car.symm
      have e2 : (⟨byteAt l (29 + 5 * j) - 1, by omega⟩ : Drop) = r.drop := Fin.ext (by have := hr.drop; simp only; omega)
      have e3 : (⟨byteAt l (31 + 5 * j), h5⟩ : Slot) = r.slot := Fin.ext hr.slot.symm
      rw [e1, e2, e3, ← hr.excl, ← hr.built]
    · rintro ⟨hc, hf⟩
      refine h6 ?_ ?_
      · rw [← hr.cls, hc]; rfl
      · simpa [acceptedFleet] using hf

/-- A sound entry gives a record. -/
theorem entrySound.exists_record {l : List Byte} {j : Nat} (h : entrySound l j) : ∃ r : NodeRec, r.OfEntry l j := by
  obtain ⟨h1, h2, h3, h4, h5, -⟩ := h
  obtain ⟨cls, hcls⟩ : ∃ x : NodeClass, x.code = byteAt l (30 + 5 * j) := by
    rcases Nat.le_one_iff_eq_zero_or_eq_one.mp h4 with h | h
    · exact ⟨.door, h.symm⟩
    · exact ⟨.info, h.symm⟩
  exact ⟨NodeRec.built ⟨byteAt l (28 + 5 * j), by omega⟩ ⟨byteAt l (29 + 5 * j) - 1, by omega⟩ cls
    ⟨byteAt l (31 + 5 * j), h5⟩ _, rfl, Nat.sub_add_cancel h2, hcls, rfl, rfl, rfl⟩

/-! ## Screening -/

theorem screen_append (f : Fleet) (l : List Byte) (js ks : List Nat) (acc : List NodeRec × Nat) :
    screen f l (js ++ ks) acc = screen f l ks (screen f l js acc) := by
  induction js generalizing acc with
  | nil => rfl
  | cons j rest ih =>
    obtain ⟨kept, skipped⟩ := acc
    rw [List.cons_append]
    cases h : entryOf f l j with
    | none => simp only [screen, h]; exact ih _
    | some r =>
      by_cases hk : kept.any (fun q => q.names r.car r.drop) = true
      · simp only [screen, h, hk, ↓reduceIte]; exact ih _
      · simp only [screen, h, hk]; exact ih _

/-- Every entry is kept or counted as skipped (R25). -/
theorem screen_count (f : Fleet) (l : List Byte) (js : List Nat) (acc : List NodeRec × Nat) :
    (screen f l js acc).1.length + (screen f l js acc).2 = acc.1.length + acc.2 + js.length := by
  induction js generalizing acc with
  | nil => rfl
  | cons j rest ih =>
    obtain ⟨kept, skipped⟩ := acc
    unfold screen
    split
    · rw [ih]; simp only [List.length_cons]; omega
    · split
      · rw [ih]; simp only [List.length_cons]; omega
      · rw [ih]; simp only [List.length_append, List.length_cons, List.length_nil]; omega

/-- The record of entry j is kept: none of an earlier entry has its pair of car and drop (R25). -/
def keptEntry (f : Fleet) (l : List Byte) (j : Nat) (r : NodeRec) : Prop :=
  entryOf f l j = some r ∧ ∀ k < j, ∀ q, entryOf f l k = some q → q.names r.car r.drop = false

theorem screen_single (f : Fleet) (l : List Byte) (n : Nat) (acc : List NodeRec × Nat) (r : NodeRec) :
    r ∈ (screen f l [n] acc).1
      ↔ r ∈ acc.1 ∨ (entryOf f l n = some r ∧ acc.1.any (fun k => k.names r.car r.drop) = false) := by
  obtain ⟨kept, skipped⟩ := acc
  simp only [screen]
  split
  · rename_i h
    simp [h]
  · rename_i q h
    split
    · rename_i hq
      refine ⟨Or.inl, ?_⟩
      rintro (hr | ⟨he, hr⟩)
      · exact hr
      · obtain rfl : q = r := Option.some.inj (h.symm.trans he)
        rw [hq] at hr
        cases hr
    · rename_i hq
      rw [List.mem_append, List.mem_singleton, h, Option.some.injEq]
      refine or_congr_right ⟨fun e => ⟨e.symm, ?_⟩, fun e => e.1.symm⟩
      rw [e]
      simpa using hq

/-- The records kept are those of the first entries of their pairs. -/
theorem screen_mem (f : Fleet) (l : List Byte) (n : Nat) (r : NodeRec) :
    r ∈ (screen f l (List.range n) ([], 0)).1 ↔ ∃ j < n, keptEntry f l j r := by
  induction n generalizing r with
  | zero => simp [screen]
  | succ n ih =>
    -- an earlier entry of the pair gives, where it is the first, a record that is kept
    have hcover : ∀ k < n, ∀ q, entryOf f l k = some q → ∃ p ∈ (screen f l (List.range n) ([], 0)).1, p.names q.car q.drop = true := by
      intro k
      induction k using Nat.strong_induction_on with
      | _ k ihk =>
        intro hk q hq
        by_cases hfirst : keptEntry f l k q
        · exact ⟨q, (ih q).mpr ⟨k, hk, hfirst⟩, q.names_self⟩
        · simp only [keptEntry, hq, true_and, not_forall, Bool.not_eq_false] at hfirst
          obtain ⟨i, hi, p, hp, hn⟩ := hfirst
          obtain ⟨rc, rd⟩ := (NodeRec.names_both p _ _).mp hn
          rw [← rc, ← rd]
          exact ihk i hi (hi.trans hk) p hp
    rw [List.range_succ, screen_append, screen_single, ih]
    constructor
    · rintro (⟨j, hj, h⟩ | ⟨he, hnone⟩)
      · exact ⟨j, hj.trans (Nat.lt_succ_self n), h⟩
      · refine ⟨n, Nat.lt_succ_self n, he, fun k hk q hq => ?_⟩
        by_contra hc
        obtain ⟨rc, rd⟩ := (NodeRec.names_both q _ _).mp (by simpa using hc)
        obtain ⟨p, hp, hn⟩ := hcover k hk q hq
        rw [rc, rd] at hn
        exact absurd hn (by simpa using List.any_eq_false.mp hnone p hp)
    · rintro ⟨j, hj, he, hfirst⟩
      rcases Nat.lt_succ_iff_lt_or_eq.mp hj with hj | rfl
      · exact .inl ⟨j, hj, he, hfirst⟩
      · refine .inr ⟨he, List.any_eq_false.mpr (fun p hp => ?_)⟩
        obtain ⟨i, hi, hpe, -⟩ := (ih p).mp hp
        simp [hfirst i hi p hpe]

/-- The first sound entries of their pairs, as the fields of the table give them. -/
theorem keptEntry_iff (l : List Byte) (j : Nat) (r : NodeRec) : keptEntry (acceptedFleet l) l j r ↔
    (entrySound l j ∧ ∀ k < j, entrySound l k →
      ¬ (byteAt l (28 + 5 * k) = byteAt l (28 + 5 * j) ∧ byteAt l (29 + 5 * k) = byteAt l (29 + 5 * j))) ∧ r.OfEntry l j := by
  simp only [keptEntry, entryOf_eq_some_iff]
  have hnames : ∀ {k : Nat} {q : NodeRec}, q.OfEntry l k → r.OfEntry l j → (q.names r.car r.drop = true
      ↔ byteAt l (28 + 5 * k) = byteAt l (28 + 5 * j) ∧ byteAt l (29 + 5 * k) = byteAt l (29 + 5 * j)) := by
    intro k q hq hr
    rw [NodeRec.names_both, ← hq.car, ← hr.car, ← hq.drop, ← hr.drop, Fin.ext_iff, Fin.ext_iff, Nat.add_right_cancel_iff]
  constructor
  · rintro ⟨⟨hs, hr⟩, hfirst⟩
    refine ⟨⟨hs, fun k hk hsk hc => ?_⟩, hr⟩
    obtain ⟨q, hq⟩ := hsk.exists_record
    have := (hnames hq hr).mpr hc
    rw [hfirst k hk q ⟨hsk, hq⟩] at this
    cases this
  · rintro ⟨⟨hs, hfirst⟩, hr⟩
    refine ⟨⟨hs, hr⟩, fun k hk q hq => ?_⟩
    by_contra hc
    exact hfirst k hk hq.1 ((hnames hq.2 hr).mp (by simpa using hc))

/-! ## The reading -/

/-- The block is neither unreadable nor wrong in its entry count or check (R21). -/
def tableSound (l : List Byte) (unreadable : Bool) : Prop :=
  unreadable = false ∧ byteAt l 5 ≤ 48 ∧ (digestOf (l.take (28 + 5 * byteAt l 5))).toNat = longAt l (28 + 5 * byteAt l 5)

theorem Identity.refuses_iff (i : Identity) (v : Nat) : i.refuses v = false ↔ i = .notWritten ∨ i = .written v := by
  cases i <;> simp [Identity.refuses]

/-- A reading goes by the first of R21 and R22 that applies. -/
theorem readFleet_cases (l : List Byte) (u : Bool) (i : Identity) :
    ((∀ y ∈ l, y = 0xFF) → ∃ x, readFleet l u i = defaultedReading .absent x)
      ∧ (¬ (∀ y ∈ l, y = 0xFF) → ¬ tableSound l u → ∃ x, readFleet l u i = defaultedReading .bad x)
      ∧ (¬ (∀ y ∈ l, y = 0xFF) → tableSound l u → i.refuses (longAt l 0) = true → ∃ x, readFleet l u i = defaultedReading .mismatch x)
      ∧ (¬ (∀ y ∈ l, y = 0xFF) → tableSound l u → i.refuses (longAt l 0) = false →
        let k := screen (acceptedFleet l) l (List.range (byteAt l 5)) ([], 0)
        (readFleet l u i).fleet = { acceptedFleet l with skipped := k.2 } ∧ (readFleet l u i).roster = sortNodes k.1) := by
  have hall : (l.all (fun b => decide (b = 0xFF)) = true) ↔ ∀ y ∈ l, y = 0xFF := by simp
  have hsound : tableSound l u ↔ ¬ ((u || decide (Config.rosterMax < byteAt l 5)) = true)
      ∧ (Sums.init.feedAll (l.take (28 + 5 * byteAt l 5))).digest.toNat = longAt l (28 + 5 * byteAt l 5) := by
    simp only [tableSound, digestOf, Bool.or_eq_true, decide_eq_true_eq, not_or, Bool.not_eq_true, Nat.not_lt, and_assoc]
    exact Iff.rfl
  rw [hsound, ← hall]
  unfold readFleet
  dsimp only
  refine ⟨fun he => ?_, fun he hs => ?_, fun he hs hi => ?_, fun he hs hi => ?_⟩
  · rw [if_pos he]; exact ⟨_, rfl⟩
  · rw [if_neg he]
    split
    · exact ⟨_, rfl⟩
    · rename_i hn
      rw [if_pos (fun hd => hs ⟨hn, hd⟩)]
      exact ⟨_, rfl⟩
  · rw [if_neg he, if_neg hs.1, if_neg (not_not.mpr hs.2), if_pos hi]
    exact ⟨_, rfl⟩
  · rw [if_neg he, if_neg hs.1, if_neg (not_not.mpr hs.2), if_neg (by simp [hi])]
    exact ⟨rfl, rfl⟩

/-- The parameters of an accepted table (R23). -/
theorem acceptedFleet_eq (l : List Byte) : acceptedFleet l =
    { status := .loaded, skipped := 0, carCount := max 1 (min 6 (byteAt l 4)),
      hDoor := max 0 (min 60000 (wordAt l 6)), bDoor := max 0 (min 5000 (wordAt l 8)),
      hInfo := max 0 (min 60000 (wordAt l 10)), bInfo := max 0 (min 5000 (wordAt l 12)),
      rq := max 5 (min 200 (wordAt l 14)), boot := max 10 (min 500 (wordAt l 16)),
      attemptLimit := max 1 (min 7 (byteAt l 18)), holdLimit := max 1 (min 255 (byteAt l 19)),
      tt := max 10 (min 500 (wordAt l 20)), flags := Vector.ofFn (fun c : Car => decide (byteAt l (22 + c.val) ≠ 0)) } := by
  unfold acceptedFleet
  rw [clamp_eq _ (by decide), clamp_eq _ (by decide), clamp_eq _ (by decide), clamp_eq _ (by decide), clamp_eq _ (by decide),
    clamp_eq _ (by decide), clamp_eq _ (by decide), clamp_eq _ (by decide), clamp_eq _ (by decide), clamp_eq _ (by decide)]

end Sys2Proof.Machine
end

section
/-! The scan and the fleet table, settled (R18, R20 to R25, R150, R151). -/

namespace Sys2Proof.Machine

/-- A record of an entry is as the roster build makes it (R18). -/
theorem NodeRec.ofEntry_iff (r : NodeRec) (l : List Byte) (j : Nat) : r.OfEntry l j ↔
    r.car.val = byteAt l (28 + 5 * j) ∧ r.drop.val + 1 = byteAt l (29 + 5 * j) ∧ r.cls.code = byteAt l (30 + 5 * j)
      ∧ r.slot.val = byteAt l (31 + 5 * j) ∧ r.fleetExcl = decide (byteAt l (32 + 5 * j) ≠ 0)
      ∧ r = NodeRec.built r.car r.drop r.cls r.slot r.fleetExcl ∧ r.override = .unset ∧ r.job = none
      ∧ r.attempt = 0 ∧ r.plan = none ∧ r.hello = none ∧ r.state = (if r.fleetExcl then .excluded else .dark) := by
  constructor
  · rintro ⟨hcar, hdrop, hcls, hslot, hexcl, hbuilt⟩
    refine ⟨hcar, hdrop, hcls, hslot, hexcl, hbuilt, ?_⟩
    rw [hbuilt]
    exact ⟨rfl, rfl, rfl, rfl, rfl, rfl⟩
  · rintro ⟨hcar, hdrop, hcls, hslot, hexcl, hbuilt, -⟩
    exact ⟨hcar, hdrop, hcls, hslot, hexcl, hbuilt⟩

/-- What a reading of an accepted table gives (R23, R25). -/
theorem readFleet_accepted {l : List Byte} {u : Bool} {i : Identity} (he : ¬ ∀ y ∈ l, y = 0xFF) (hs : tableSound l u)
    (hi : i.refuses (longAt l 0) = false) :
    let x := readFleet l u i
    x.fleet = { acceptedFleet l with skipped := x.fleet.skipped } ∧ x.fleet.skipped + x.roster.length = byteAt l 5
      ∧ ∀ r, r ∈ x.roster ↔ ∃ j < byteAt l 5, keptEntry (acceptedFleet l) l j r := by
  obtain ⟨hfleet, hroster⟩ := (readFleet_cases l u i).2.2.2 he hs hi
  have hcount := screen_count (acceptedFleet l) l (List.range (byteAt l 5)) ([], 0)
  simp only [List.length_nil, List.length_range] at hcount
  refine ⟨by rw [hfleet], ?_, fun r => ?_⟩
  · rw [hfleet, hroster, sortNodes_length]
    simp only
    omega
  · rw [hroster, sortNodes_mem, screen_mem]

/-- Settles O60: the scan record by record, the identity, and the reading case by case. -/
theorem scanAndFleetTable : Obligations.ScanAndFleetTable := by
  unfold Obligations.ScanAndFleetTable
  refine ⟨fun f => ?_, fun f => ?_, fun l u i _ => ?_⟩
  · intro x h part found desc seq unsound active other lesser entry
    have hfound : ∀ r, found r = (h r).foundState := fun r => by
      simp only [found, Header.foundState, Header.partProgrammed_iff, part]
    have hunsound : ∀ r, unsound r ↔ (h r).failsCheck := fun r => by
      simp only [unsound, hfound, Header.failsCheck, Desc.unsound_iff, desc]
    have hseq : ∀ r, seq r = (h r).seq.number := fun r => rfl
    have hactive : ∀ r, active r ↔ f.activeFound r := fun r => by
      simp only [active, hfound, hunsound, hseq, Flash.activeFound, h]
    have hlesser : ∀ r, lesser r ↔ f.lesser r := fun r => by
      simp only [lesser, hactive, hseq, Flash.lesser, h, other]
    refine ⟨fun r => ?_, Flash.scan_entries (fun r => ?_), f.scan_flash⟩
    · have hv : (if found r = .blank ∨ found r = .torn then CopyRec.bare (found r)
          else { state := found r, desc := desc r, written := (h r).written, table := (h r).tables.elim [] Prod.fst,
                 whole := (h r).tables.elim 0 Prod.snd, seq := seq r, use := 0 }) = (h r).found := by
        rw [Header.found_eq, hfound, hseq]
      rw [hv, hunsound, hlesser]
      exact f.scan_record r
    · obtain ⟨htorn, hbad, hless, hnone⟩ := f.scan_owed r
      simp only [entry, hfound]
      split
      · exact htorn ‹_›
      · split
        · exact hbad ((hunsound r).mp ‹_›)
        · split
          · exact hless ((hlesser r).mp ‹_›)
          · exact hnone ‹_› (fun hu => absurd ((hunsound r).mpr hu) ‹_›) (fun hl => absurd ((hlesser r).mpr hl) ‹_›)
  · rw [f.readIdentity_eq]
    cases f.identity1 <;> cases f.identity2 <;> rfl
  · intro b n x defaulted erased sound agrees within cars good kept
    obtain ⟨habsent, hbad, hmismatch, -⟩ := readFleet_cases l u i
    have hdefaulted : ∀ st, (∃ y, x = defaultedReading st y) → defaulted st := by
      rintro st ⟨y, hy⟩
      simp only [defaulted, hy]
      exact ⟨rfl, rfl⟩
    have hagrees : i.refuses (longAt l 0) = false ↔ agrees := Identity.refuses_iff _ _
    refine ⟨fun he => hdefaulted _ (habsent he), fun he hs => hdefaulted _ (hbad he hs),
      fun he hs ha => hdefaulted _ (hmismatch he hs (Bool.not_eq_false _ ▸ fun hr => ha (hagrees.mp hr))), fun he hs ha => ?_⟩
    obtain ⟨hfleet, hcount, hroster⟩ := readFleet_accepted he hs (hagrees.mpr ha)
    refine ⟨?_, hcount, (readFleet_ordered l u i).2, fun r => ?_⟩
    · rw [acceptedFleet_eq] at hfleet
      exact hfleet
    · rw [hroster]
      simp only [keptEntry_iff, NodeRec.ofEntry_iff]
      exact Iff.rfl

end Sys2Proof.Machine
end

section
/-! What follows a change of a node or job (R63 to R65, R69), and what writing a record does (R86, R121). -/

namespace Sys2Proof.Machine

/-! ## Door nodes of a roster -/

/-- The READY ones of the included door nodes of a car (R63). -/
def readyDoors (l : List NodeRec) (c : Car) : List NodeRec := (includedDoors l c).filter (fun n => decide (n.state = .ready))

theorem NodeRec.includedDoor_eq (r : NodeRec) (c : Car) :
    r.includedDoor c = (decide (r.car = c ∧ r.cls = .door) && !r.isExcluded) := by
  rw [NodeRec.includedDoor, Bool.decide_and]

theorem includedDoors_eq (l : List NodeRec) (c : Car) :
    includedDoors l c = l.filter (fun n => decide (n.car = c ∧ n.cls = .door) && !n.isExcluded) := by
  unfold includedDoors
  simp only [NodeRec.includedDoor_eq]

theorem doorsAllReady_eq (l : List NodeRec) (c : Car) : doorsAllReady l c
    = l.all (fun n => !(decide (n.car = c ∧ n.cls = .door) && !n.isExcluded) || decide (n.state = .ready)) := by
  unfold doorsAllReady
  simp only [NodeRec.includedDoor_eq]

theorem doorsAllReady_iff (l : List NodeRec) (c : Car) :
    doorsAllReady l c = true ↔ (readyDoors l c).length = (includedDoors l c).length := by
  simp only [doorsAllReady, readyDoors, List.length_filter_eq_length_iff, List.all_eq_true, Bool.or_eq_true, Bool.not_eq_true',
    includedDoors, List.mem_filter, and_imp]
  refine forall₂_congr (fun n _ => ?_)
  cases n.includedDoor c <;> simp

/-- A map of records that changes nothing but their costs (R67). -/
def CostsOnly (g : NodeRec → NodeRec) : Prop := ∀ r, ∃ x, g r = { r with cost := x }

section
variable {g : NodeRec → NodeRec} (hg : CostsOnly g) (l : List NodeRec) (c : Car)
include hg

theorem CostsOnly.comp {p : NodeRec → Bool} (hp : ∀ r x, p { r with cost := x } = p r) : p ∘ g = p := by
  funext r
  obtain ⟨x, hx⟩ := hg r
  rw [Function.comp_apply, hx, hp]

theorem CostsOnly.includedDoors : includedDoors (l.map g) c = (includedDoors l c).map g := by
  unfold Machine.includedDoors
  rw [List.filter_map, hg.comp (fun _ _ => rfl)]

theorem CostsOnly.readyDoors : readyDoors (l.map g) c = (readyDoors l c).map g := by
  unfold Machine.readyDoors
  rw [hg.includedDoors, List.filter_map, hg.comp (fun _ _ => rfl)]

theorem CostsOnly.doorsAllReady : doorsAllReady (l.map g) c = doorsAllReady l c := by
  unfold Machine.doorsAllReady
  rw [List.all_map, hg.comp (fun _ _ => rfl)]

theorem CostsOnly.names (r : NodeRec) : (g r).car = r.car ∧ (g r).drop = r.drop := by
  obtain ⟨x, hx⟩ := hg r
  rw [hx]
  exact ⟨rfl, rfl⟩

end

/-! ## Counts and settlement -/

/-- The car record with counts, blocked flag, settlement and clock afresh (R63 to R65). -/
def State.settledDoors (s : State) (c : Car) : RplCar :=
  if s.rpl[c].up then (s.countDoors c).settle (doorsAllReady s.roster c) else s.countDoors c

/-- The CAR DOORS READY entry, where doors become settled (R64). -/
def State.settledNews (s : State) (c : Car) : List EntryReq :=
  if s.rpl[c].up = true ∧ doorsAllReady s.roster c = true ∧ s.rpl[c].settled = false ∧ includedDoors s.roster c ≠ [] then
    [⟨.rpl, { kind := .carDoorsReady, car := c.val, drop := 0, uptime := s.ord.uptime
              body := le16 (min 65535 s.rpl[c].clock) ++ [byteOf (readyDoors s.roster c).length 0, 0] }⟩]
  else []

theorem saturate_eq_min (n m : Nat) : saturate n m = min n m := by
  unfold saturate
  split <;> omega

theorem RplCar.settle_eq (r : RplCar) (b : Bool) :
    r.settle b = { r with settled := b, clockOn := if b = r.settled then r.clockOn else !b } := by
  unfold RplCar.settle
  split
  · rename_i h; rw [h]
  · rfl

theorem State.updateDoors_rpl (s : State) (c : Car) : (s.updateDoors c).rpl = s.rpl.set c (s.settledDoors c) := by
  unfold State.updateDoors State.settledDoors State.doorsSettled
  cases hup : s.rpl[c].up
  · have hc : (s.countDoors c).up = false := hup
    simp only [hc, Bool.false_eq_true, if_false]
    rfl
  · have hc : (s.countDoors c).up = true := hup
    simp only [hc, Bool.true_and, if_true]
    split <;> rfl

theorem State.updateDoors_requests (s : State) (c : Car) :
    (s.updateDoors c).jrn.requests = s.jrn.requests ++ s.settledNews c := by
  have hpos : (0 < (includedDoors s.roster c).length) ↔ includedDoors s.roster c ≠ [] := List.length_pos_iff
  unfold State.updateDoors State.settledNews State.doorsSettled
  cases hup : s.rpl[c].up
  · have hc : (s.countDoors c).up = false := hup
    simp [hc]
  · have hc : (s.countDoors c).up = true := hup
    have hs : (s.countDoors c).settled = s.rpl[c].settled := rfl
    have ht : ((s.countDoors c).settle (doorsAllReady s.roster c)).total = (includedDoors s.roster c).length := by
      rw [RplCar.settle_eq]; rfl
    have hr : ((s.countDoors c).settle (doorsAllReady s.roster c)).ready = (readyDoors s.roster c).length := by
      rw [RplCar.settle_eq]; exact if_pos hup
    have hk : ((s.countDoors c).settle (doorsAllReady s.roster c)).clock = s.rpl[c].clock := by
      rw [RplCar.settle_eq]; rfl
    simp only [hc, hs, ht, hr, hk, if_true, Bool.true_and, Bool.and_eq_true, Bool.not_eq_true', decide_eq_true_eq, hpos,
      true_and, and_assoc, saturate_eq_min]
    split
    · rfl
    · exact (List.append_nil _).symm

/-! ## The estimate -/

/-- The record with other figures of its estimate. -/
def RplCar.SameButEstimate (r q : RplCar) : Prop :=
  q = { r with e := q.e, elapsed := q.elapsed, p := q.p, late := q.late }

theorem RplCar.SameButEstimate.trans {r q v : RplCar} (h : r.SameButEstimate q) (k : q.SameButEstimate v) :
    r.SameButEstimate v := by
  unfold RplCar.SameButEstimate at *
  rw [k, h]

theorem State.judgeLate_figures (s : State) (c : Car) (u : Long) :
    s.rpl[c].SameButEstimate (s.judgeLate c u).rpl[c]
      ∧ ∃ l, (s.judgeLate c u).jrn.requests = s.jrn.requests ++ l ∧ ∀ q ∈ l, q.entry.kind ≠ .carDoorsReady := by
  have hset : ∀ b, s.rpl[c].SameButEstimate (s.setRpl c { s.rpl[c] with late := b }).rpl[c] := fun b => by
    rw [State.setRpl_rpl, set_get]; rfl
  have hentry : ∀ k l, k ≠ EntryKind.carDoorsReady →
      ∀ q ∈ [(⟨.rpl, { kind := k, car := c.val, drop := 0, uptime := u, body := l }⟩ : EntryReq)], q.entry.kind ≠ .carDoorsReady :=
    fun k l hk q hq => by rw [List.mem_singleton.mp hq]; exact hk
  unfold State.judgeLate
  dsimp only
  split
  · exact ⟨rfl, [], (List.append_nil _).symm, by simp⟩
  · split
    · exact ⟨hset _, _, rfl, hentry .late _ (by decide)⟩
    · exact ⟨hset _, _, rfl, hentry .onTime _ (by decide)⟩

theorem State.judgeLate_setRpl (s : State) (c : Car) (r : RplCar) (u : Long) :
    r.SameButEstimate ((s.setRpl c r).judgeLate c u).rpl[c] := by
  have h := ((s.setRpl c r).judgeLate_figures c u).1
  rwa [State.setRpl_rpl, set_get] at h

/-- The estimate of an up car: its figures are put into the record, the late flag is judged, and what was recomputed is shown. -/
theorem State.estimate_eq {s : State} {c : Car} (hup : s.rpl[c].up = true) :
    ∃ (t : State) (r : RplCar), t.jrn = s.jrn ∧ s.rpl[c].SameButEstimate r
      ∧ s.estimate c = ((t.setRpl c r).judgeLate c s.ord.uptime).showEstimate c := by
  unfold State.estimate State.estimateAt
  dsimp only
  rw [if_pos hup]
  refine ⟨s.setRoster (s.roster.map (s.repriced c)), _, ?_, ?_, rfl⟩
  · rfl
  · unfold RplCar.SameButEstimate
    rfl

theorem State.estimate_down {s : State} {c : Car} (hup : s.rpl[c].up = false) : s.estimate c = s := by
  unfold State.estimate State.estimateAt
  dsimp only
  rw [if_neg (by rw [hup]; decide)]

theorem State.estimate_figures (s : State) (c : Car) :
    s.rpl[c].SameButEstimate (s.estimate c).rpl[c]
      ∧ ∃ l, (s.estimate c).jrn.requests = s.jrn.requests ++ l ∧ (∀ q ∈ l, q.entry.kind ≠ .carDoorsReady)
        ∧ (s.rpl[c].up = false → l = []) := by
  cases hup : s.rpl[c].up
  · rw [State.estimate_down hup]
    exact ⟨rfl, [], (List.append_nil _).symm, by simp, fun _ => rfl⟩
  · obtain ⟨t, r, hjrn, hr, heq⟩ := State.estimate_eq hup
    obtain ⟨l, hl, hk⟩ := ((t.setRpl c r).judgeLate_figures c s.ord.uptime).2
    rw [heq, State.showEstimate_eq]
    refine ⟨hr.trans (t.judgeLate_setRpl c r _), l, ?_, hk, fun h => by cases h⟩
    rw [State.setRpl_jrn, hjrn] at hl
    exact hl

/-! ## What follows a change -/

theorem State.changed_roster (s : State) (c : Car) : ∃ g, CostsOnly g ∧ (s.changed c).roster = s.roster.map g := by
  obtain ⟨g, hroster, hg⟩ := (s.changed_rest c).1
  exact ⟨g, hg, hroster⟩

theorem State.changed_chan (s : State) (c : Car) : (s.changed c).chan = s.chan := (s.changed_rest c).2.1

theorem State.changed_isc (s : State) (c : Car) : (s.changed c).isc = s.isc := (s.changed_rest c).2.2.1

theorem State.changed_doors (s : State) (c : Car) :
    (includedDoors (s.changed c).roster c).length = (includedDoors s.roster c).length
      ∧ (readyDoors (s.changed c).roster c).length = (readyDoors s.roster c).length
      ∧ doorsAllReady (s.changed c).roster c = doorsAllReady s.roster c
      ∧ (includedDoors (s.changed c).roster c).any (fun n => decide (n.state = .failed))
        = (includedDoors s.roster c).any (fun n => decide (n.state = .failed)) := by
  obtain ⟨g, hg, hroster⟩ := s.changed_roster c
  rw [hroster, hg.includedDoors, hg.readyDoors, hg.doorsAllReady, List.length_map, List.length_map, List.any_map,
    hg.comp (fun _ _ => rfl)]
  exact ⟨rfl, rfl, rfl, rfl⟩

/-- The car's record after a change of a node or job: the doors counted and settled afresh, and figures of its estimate. -/
theorem State.changed_figures (s : State) (c : Car) : (s.settledDoors c).SameButEstimate (s.changed c).rpl[c] := by
  have h := ((s.updateDoors c).estimate_figures c).1
  rw [State.updateDoors_rpl, set_get] at h
  exact h

theorem State.settledDoors_counts (s : State) (c : Car) :
    (s.settledDoors c).total = (includedDoors s.roster c).length
      ∧ (s.settledDoors c).ready = (if s.rpl[c].up then (readyDoors s.roster c).length else 0)
      ∧ (s.settledDoors c).blocked = (s.rpl[c].up && (includedDoors s.roster c).any (fun n => decide (n.state = .failed))) := by
  obtain ⟨b, k, h⟩ : ∃ b k, s.settledDoors c = { s.countDoors c with settled := b, clockOn := k } := by
    unfold State.settledDoors
    split
    · exact ⟨_, _, RplCar.settle_eq _ _⟩
    · exact ⟨_, _, rfl⟩
  rw [h]
  exact ⟨rfl, rfl, rfl⟩

/-- The counts and the blocked flag after a change of a node or job (R26, R63). -/
theorem State.changed_counts (s : State) (c : Car) :
    let t := s.changed c
    t.rpl[c].total = (includedDoors t.roster c).length
      ∧ t.rpl[c].ready = (if s.rpl[c].up then (readyDoors t.roster c).length else 0)
      ∧ t.rpl[c].blocked = (s.rpl[c].up && (includedDoors t.roster c).any (fun n => decide (n.state = .failed))) := by
  intro t
  obtain ⟨hlen, hready, -, hfailed⟩ := s.changed_doors c
  rw [show t.rpl[c] = _ from s.changed_figures c, hlen, hready, hfailed]
  exact s.settledDoors_counts c

/-- The settlement and the clock of an up car after a change of a node or job (R64, R65). -/
theorem State.changed_settlement {s : State} {c : Car} (hup : s.rpl[c].up = true) :
    let t := s.changed c
    t.rpl[c].settled = doorsAllReady t.roster c ∧ t.rpl[c].clock = s.rpl[c].clock
      ∧ t.rpl[c].clockOn = (if doorsAllReady t.roster c = s.rpl[c].settled then s.rpl[c].clockOn else !doorsAllReady t.roster c) := by
  intro t
  rw [show t.rpl[c] = _ from s.changed_figures c, (s.changed_doors c).2.2.1, State.settledDoors, if_pos hup, RplCar.settle_eq]
  exact ⟨rfl, rfl, rfl⟩

/-- A change of a node or job asks for CAR DOORS READY where the doors become settled, and else for LATE or ON TIME at most. -/
theorem State.changed_requests (s : State) (c : Car) :
    ∃ l, (s.changed c).jrn.requests = s.jrn.requests ++ s.settledNews c ++ l ∧ (∀ q ∈ l, q.entry.kind ≠ .carDoorsReady)
      ∧ (s.rpl[c].up = false → l = []) := by
  obtain ⟨l, hl, hk, hdown⟩ := ((s.updateDoors c).estimate_figures c).2
  rw [State.updateDoors_requests] at hl
  refine ⟨l, hl, hk, fun hup => hdown ?_⟩
  rw [State.updateDoors_rpl, set_get, State.settledDoors, if_neg (by simp only [hup]; decide)]
  exact hup

theorem State.findNode_changed {s : State} {c : Car} {d : Drop} {n : NodeRec} (h : s.findNode c d = some n) (e : Car) :
    ∃ x, (s.changed e).findNode c d = some { n with cost := x } := by
  obtain ⟨g, hg, hroster⟩ := s.changed_roster e
  obtain ⟨x, hx⟩ := hg n
  have hmap := s.findNode_map c d hg.names
  rw [h, Option.map_some, hx] at hmap
  exact ⟨x, by rw [← hmap]; unfold State.findNode; rw [hroster]; rfl⟩

/-! ## Writing a record -/

/-- The news to the line of a node that enters or leaves MISSING (R86). -/
def missingNews (old new : NodeRec) : List LineOrder :=
  if decide (old.state = .missing) = decide (new.state = .missing) then [] else [.missing old.drop (decide (new.state = .missing))]

/-- A record is written, with the line's news of MISSING and reports to the permits. -/
def State.written (s : State) (old new : NodeRec) (reports : List DoorReport) : State :=
  { s.setNode old.car old.drop (new.stamped old s.ord.uptime) with
    chan := { s.chan with
      rplClc := s.chan.rplClc.set old.car (s.chan.rplClc[old.car] ++ missingNews old new)
      rplPrm := s.chan.rplPrm ++ reports } }

theorem State.writeNode_eq (s : State) (old new : NodeRec) : s.writeNode old new = s.written old new [] := by
  unfold State.writeNode State.written missingNews
  dsimp only
  split
  · simp only [List.append_nil]
    rw [show s.chan.rplClc.set old.car s.chan.rplClc[old.car] = s.chan.rplClc from Vector.set_getElem_self _]
    rfl
  · simp only [List.append_nil]
    rfl

theorem State.putNode_eq (s : State) (old new : NodeRec) : s.putNode old new = s.written old new
    (if old.cls = .door ∧ new.state ≠ old.state then
      [⟨old.car, old.drop, .state old.state new.state, doorsAllReady (s.writeNode old new).roster old.car⟩] else []) := by
  unfold State.putNode
  rw [State.writeNode_eq]
  dsimp only
  split
  · simp only [State.doorChanged, State.reportDoor, State.written, List.append_nil]
  · rfl

theorem State.putInclusion_eq (s : State) (old new : NodeRec) (change : DoorChange) :
    s.putInclusion old new change = s.written old new
      (if old.cls = .door then [⟨old.car, old.drop, change, doorsAllReady (s.writeNode old new).roster old.car⟩] else []) := by
  unfold State.putInclusion
  rw [State.writeNode_eq]
  dsimp only
  split
  · simp only [State.doorChanged, State.reportDoor, State.written, List.append_nil]
  · rfl

theorem State.findNode_written {s : State} {c : Car} {d : Drop} {old new : NodeRec} (h : s.findNode c d = some old)
    (hn : new.car = c ∧ new.drop = d) (reports : List DoorReport) :
    (s.written old new reports).findNode c d = some (new.stamped old s.ord.uptime) := by
  obtain ⟨rfl, rfl⟩ := State.findNode_names h
  have hs := new.stamped_names old s.ord.uptime
  exact State.findNode_setNode h ⟨hs.1.trans hn.1, hs.2.trans hn.2⟩

theorem State.written_told (s : State) (old new : NodeRec) (reports : List DoorReport) :
    (s.written old new reports).chan.rplClc[old.car] = s.chan.rplClc[old.car] ++ missingNews old new := set_get _ _ _

theorem NodeRec.stamped_eq (new old : NodeRec) (u : Long) : new.stamped old u
    = { new with changedAt := if new.state = old.state then new.changedAt else u } := by
  unfold NodeRec.stamped
  split <;> rfl

/-! ## Pins -/

theorem State.unpin_use (s : State) (r k : CopyIx) :
    (s.unpin r).isc.records[k].use = s.isc.records[k].use - (if k = r then 1 else 0) := by
  unfold State.unpin
  rw [State.setRecord_isc]
  by_cases h : k = r
  · subst h; simp
  · have hne : (s.isc.records.set r { s.isc.records[r] with use := s.isc.records[r].use - 1 })[k] = s.isc.records[k] := by
      simp only [Fin.getElem_fin]; rw [Vector.getElem_set_ne]; intro hh; exact h (Fin.ext hh).symm
    simp only [hne, h, if_false, Nat.sub_zero]

end Sys2Proof.Machine
end

section
/-! EXCLUDE NODE and INCLUDE NODE (R17, R28 to R30). -/

namespace Sys2Proof.Machine

/-! ## The news of an inclusion change -/

/-- Of an included or excluded node the permits have their report, and its car the counts, as its door nodes now stand. -/
structure InclusionReported (s t : State) (r : NodeRec) (change : DoorChange) : Prop where
  reports : t.chan.rplPrm = s.chan.rplPrm
    ++ (if r.cls = .door then [⟨r.car, r.drop, change, doorsAllReady t.roster r.car⟩] else [])
  total : t.rpl[r.car].total = (includedDoors t.roster r.car).length
  ready : t.rpl[r.car].ready = (if s.rpl[r.car].up then (readyDoors t.roster r.car).length else 0)
  others : ∀ x, x ≠ r.car → t.rpl[x] = s.rpl[x]

theorem InclusionReported.of_changed {s w : State} {r : NodeRec} {change : DoorChange} (hrpl : w.rpl = s.rpl)
    (hprm : w.chan.rplPrm = s.chan.rplPrm
      ++ (if r.cls = .door then [⟨r.car, r.drop, change, doorsAllReady w.roster r.car⟩] else [])) :
    InclusionReported s (w.changed r.car) r change := by
  obtain ⟨htotal, hready, -⟩ := w.changed_counts r.car
  refine ⟨?_, htotal, ?_, fun x hx => ?_⟩
  · rw [w.changed_chan, hprm, (w.changed_doors r.car).2.2.1]
  · rw [hready, hrpl]
  · rw [(PlannerKept.changed r.car r.drop w).rpl x hx, hrpl]

/-- A record is written with its inclusion report (R121). -/
theorem State.putInclusion_reported (s : State) (r n : NodeRec) (change : DoorChange) :
    (s.putInclusion r n change).chan.rplPrm = s.chan.rplPrm ++ (if r.cls = .door then
      [⟨r.car, r.drop, change, doorsAllReady (s.putInclusion r n change).roster r.car⟩] else []) := by
  rw [State.putInclusion_eq, State.writeNode_eq]
  rfl

theorem State.putInclusion_told (s : State) (r n : NodeRec) (change : DoorChange) :
    (s.putInclusion r n change).chan.rplClc[r.car] = s.chan.rplClc[r.car] ++ missingNews r n := by
  rw [State.putInclusion_eq, State.written_told]

theorem State.putInclusion_rest (s : State) (r n : NodeRec) (change : DoorChange) :
    (s.putInclusion r n change).rpl = s.rpl ∧ (s.putInclusion r n change).isc = s.isc
      ∧ (s.putInclusion r n change).lines = s.lines := by
  rw [State.putInclusion_eq]
  exact ⟨rfl, rfl, rfl⟩

theorem State.findNode_putInclusion {s : State} {c : Car} {d : Drop} {r n : NodeRec} (h : s.findNode c d = some r)
    (hn : n.car = c ∧ n.drop = d) (change : DoorChange) :
    (s.putInclusion r n change).findNode c d = some (n.stamped r s.ord.uptime) := by
  rw [State.putInclusion_eq, State.findNode_written h hn]

/-- The line hears of a node that leaves MISSING for another state (R86). -/
theorem missingNews_left {r n : NodeRec} (h : n.state ≠ .missing) :
    missingNews r n = if r.state = .missing then [.missing r.drop false] else [] := by
  unfold missingNews
  by_cases hr : r.state = .missing <;> simp [h, hr]

theorem State.tell_told (s : State) (c : Car) (m : LineOrder) : (s.tell c m).chan.rplClc[c] = s.chan.rplClc[c] ++ [m] :=
  set_get _ _ _

/-! ## Exclusion -/

/-- The record of a node as its exclusion leaves it (R28, R29). -/
def NodeRec.excludedNow (r : NodeRec) : NodeRec :=
  { r with override := .exclude, state := .excluded, job := r.job.filter (fun j => decide (j.place = .line)),
           backoffFrom := none, backoffShown := 0 }

theorem NodeRec.disposition_iff (r : NodeRec) : r.disposition = 2 ↔ r.job.any (fun j => decide (j.place = .line)) = true := by
  unfold NodeRec.disposition
  cases r.job with
  | none => simp
  | some j => by_cases h : j.place = .line <;> simp [h]

theorem NodeRec.excludedNow_eq (r : NodeRec) : r.excludedNow =
    { r with override := .exclude, state := .excluded, job := if decide (r.disposition = 2) then r.job else none,
             backoffFrom := none, backoffShown := 0 } := by
  unfold NodeRec.excludedNow
  congr 1
  simp only [decide_eq_true_eq, NodeRec.disposition_iff]
  cases r.job with
  | none => rfl
  | some j => by_cases h : j.place = .line <;> simp [h]

theorem State.tellExclusion_told (s : State) (r : NodeRec) : (s.tellExclusion r).chan.rplClc[r.car]
    = s.chan.rplClc[r.car] ++ [.cancel r.drop] ++ (match r.job with
      | none => []
      | some j => if j.place = .backoff then [] else [.endJob j.jid]) := by
  unfold State.tellExclusion
  cases r.job with
  | none => simp only [State.tell_told, List.append_nil]
  | some j =>
    by_cases h : j.place = .backoff
    · simp only [RplJob.inLine, h, ne_eq, not_true, decide_false, Bool.false_eq_true, if_false, if_true, State.tell_told,
        List.append_nil]
    · simp only [RplJob.inLine, h, ne_eq, not_false_eq_true, decide_true, if_false, if_true, State.tell_told]

theorem State.tellExclusion_rest (s : State) (r : NodeRec) : (s.tellExclusion r).roster = s.roster
    ∧ (s.tellExclusion r).rpl = s.rpl ∧ (s.tellExclusion r).isc = s.isc ∧ (s.tellExclusion r).lines = s.lines
    ∧ (s.tellExclusion r).chan.rplPrm = s.chan.rplPrm := by
  unfold State.tellExclusion
  cases r.job with
  | none => exact ⟨rfl, rfl, rfl, rfl, rfl⟩
  | some j =>
    dsimp only
    split <;> exact ⟨rfl, rfl, rfl, rfl, rfl⟩

/-- The pins before an exclusion is written: that of a job which does not hold the line is released (R29). -/
def State.unpinExcluded (s : State) (r : NodeRec) : State := if decide (r.disposition = 2) then s else s.unpinJob r

theorem State.unpinExcluded_use (s : State) (r : NodeRec) (k : CopyIx) :
    (s.unpinExcluded r).isc.records[k].use = s.isc.records[k].use
      - (if r.job.any (fun j => decide (j.place ≠ .line ∧ j.copy = k)) then 1 else 0) := by
  have hdisp := r.disposition_iff
  unfold State.unpinExcluded State.unpinJob
  cases hj : r.job with
  | none => simp
  | some j =>
    rw [hj, Option.any_some, decide_eq_true_eq] at hdisp
    by_cases h : j.place = .line
    · simp [hdisp, h]
    · simp only [hdisp, h, decide_false, Bool.false_eq_true, if_false, State.unpin_use, Option.any_some, ne_eq,
        not_false_eq_true, true_and, decide_eq_true_eq, @eq_comm _ k]

theorem State.unpinExcluded_rest (s : State) (r : NodeRec) : (s.unpinExcluded r).roster = s.roster
    ∧ (s.unpinExcluded r).rpl = s.rpl ∧ (s.unpinExcluded r).chan = s.chan ∧ (s.unpinExcluded r).lines = s.lines := by
  unfold State.unpinExcluded State.unpinJob
  split
  · exact ⟨rfl, rfl, rfl, rfl⟩
  · split <;> exact ⟨rfl, rfl, rfl, rfl⟩

theorem State.exclude_eq (s : State) (r : NodeRec) :
    s.exclude r = (((s.unpinExcluded r).putInclusion r r.excludedNow .excluded).tellExclusion r).changed r.car := by
  rw [NodeRec.excludedNow_eq]
  rfl

/-- What an exclusion leaves (R28, R29, R86, R89, R121). -/
theorem State.exclude_spec {s : State} {c : Car} {d : Drop} {r : NodeRec} (h : s.findNode c d = some r) :
    let t := s.exclude r
    (∃ n, t.findNode c d = some n ∧ n = { r.excludedNow with cost := n.cost, changedAt := n.changedAt })
      ∧ t.chan.rplClc[r.car] = s.chan.rplClc[r.car] ++ (if r.state = .missing then [.missing r.drop false] else [])
        ++ [.cancel r.drop] ++ (match r.job with
          | none => []
          | some j => if j.place = .backoff then [] else [.endJob j.jid])
      ∧ (∀ k : CopyIx, t.isc.records[k].use = s.isc.records[k].use
        - (if r.job.any (fun j => decide (j.place ≠ .line ∧ j.copy = k)) then 1 else 0))
      ∧ InclusionReported s t r .excluded ∧ t.lines = s.lines := by
  intro t
  obtain ⟨hcar, hdrop⟩ := State.findNode_names h
  obtain ⟨hroster, hrpl, hchan, hlines⟩ := s.unpinExcluded_rest r
  generalize hu : s.unpinExcluded r = u at hroster hrpl hchan hlines
  obtain ⟨prpl, pisc, plines⟩ := u.putInclusion_rest r r.excludedNow .excluded
  generalize hp : u.putInclusion r r.excludedNow .excluded = p at prpl pisc plines
  obtain ⟨troster, trpl, tisc, tlines, tprm⟩ := p.tellExclusion_rest r
  have ht : t = (p.tellExclusion r).changed r.car := by rw [← hp, ← hu]; exact s.exclude_eq r
  refine ⟨?_, ?_, fun k => ?_, ?_, ?_⟩
  · have hfound : u.findNode c d = some r := by unfold State.findNode at h ⊢; rw [hroster]; exact h
    have hput := State.findNode_putInclusion hfound (n := r.excludedNow) ⟨hcar, hdrop⟩ .excluded
    rw [hp, NodeRec.stamped_eq] at hput
    have htold : (p.tellExclusion r).findNode c d = p.findNode c d := by unfold State.findNode; rw [troster]
    obtain ⟨x, hx⟩ := State.findNode_changed (htold.trans hput) r.car
    exact ⟨_, ht ▸ hx, rfl⟩
  · rw [ht, State.changed_chan, State.tellExclusion_told, ← hp, State.putInclusion_told, hchan,
      missingNews_left (by simp [NodeRec.excludedNow])]
  · rw [ht, State.changed_isc, tisc, pisc, ← hu, State.unpinExcluded_use]
  · rw [ht]
    refine InclusionReported.of_changed ((trpl.trans prpl).trans hrpl) ?_
    rw [tprm, troster, ← hp, State.putInclusion_reported, hchan]
  · rw [ht, (PlannerKept.changed r.car r.drop _).lines, tlines, plines, hlines]

/-! ## Inclusion -/

/-- The record of a node as its inclusion leaves it (R30). -/
def NodeRec.includedNow (r : NodeRec) (up : Bool) : NodeRec :=
  { r with override := .include, attempt := 0, state := if up then .awaiting else .dark }

theorem Line.inFastCall_iff (l : Line) : l.inFastCall = true
    ↔ l.state = .off ∨ l.state = .bootWait ∨ (l.state = .rollCall ∧ l.round ≠ some .other) := by
  unfold Line.inFastCall
  cases l.state <;> simp

/-- The line action of an inclusion (R30). -/
def State.lineIncluded (s : State) (c : Car) (d : Drop) : State := if s.rpl[c].up then s.callIncluded c d else s

theorem State.lineIncluded_rest (s : State) (c : Car) (d : Drop) : (s.lineIncluded c d).roster = s.roster
    ∧ (s.lineIncluded c d).rpl = s.rpl ∧ (s.lineIncluded c d).isc = s.isc
    ∧ (s.lineIncluded c d).chan.rplPrm = s.chan.rplPrm := by
  unfold State.lineIncluded State.callIncluded
  dsimp only
  split
  · split <;> exact ⟨rfl, rfl, rfl, rfl⟩
  · exact ⟨rfl, rfl, rfl, rfl⟩

theorem State.lineIncluded_line (s : State) (c : Car) (d : Drop) :
    let l := s.lines[c]
    let t := s.lineIncluded c d
    (s.rpl[c].up = false → t.lines = s.lines ∧ t.chan.rplClc[c] = s.chan.rplClc[c])
      ∧ (s.rpl[c].up = true → l.inFastCall = true →
        t.lines = s.lines.set c { l with heard := DropSet.del l.heard d } ∧ t.chan.rplClc[c] = s.chan.rplClc[c])
      ∧ (s.rpl[c].up = true → ¬ l.inFastCall = true →
        t.lines = s.lines ∧ t.chan.rplClc[c] = s.chan.rplClc[c] ++ [.individual d]) := by
  intro l t
  refine ⟨fun hup => ?_, fun hup hl => ?_, fun hup hl => ?_⟩
  · have ht : t = s := if_neg (by rw [hup]; decide)
    rw [ht]
    exact ⟨rfl, rfl⟩
  · have ht : t = s.setLine c { l with heard := DropSet.del l.heard d } := (if_pos hup).trans (if_pos hl)
    rw [ht]
    exact ⟨rfl, rfl⟩
  · have ht : t = s.tell c (.individual d) := (if_pos hup).trans (if_neg hl)
    rw [ht]
    exact ⟨rfl, State.tell_told _ _ _⟩

theorem State.include_eq (s : State) (r : NodeRec) : s.include r
    = ((s.putInclusion r (r.includedNow s.rpl[r.car].up) .included).lineIncluded r.car r.drop).changed r.car := by
  unfold State.include State.lineIncluded
  rw [(s.putInclusion_rest r (r.includedNow s.rpl[r.car].up) .included).1]
  rfl

/-- What an inclusion leaves (R30, R86, R121). -/
theorem State.include_spec {s : State} {c : Car} {d : Drop} {r : NodeRec} (h : s.findNode c d = some r) :
    let t := s.include r
    let told := s.chan.rplClc[r.car] ++ (if r.state = .missing then [.missing r.drop false] else [])
    let l := s.lines[r.car]
    (∃ n, t.findNode c d = some n ∧ n = { r.includedNow s.rpl[r.car].up with cost := n.cost, changedAt := n.changedAt })
      ∧ InclusionReported s t r .included ∧ t.isc = s.isc
      ∧ (s.rpl[r.car].up = false → t.lines = s.lines ∧ t.chan.rplClc[r.car] = told)
      ∧ (s.rpl[r.car].up = true → l.inFastCall = true →
        t.lines = s.lines.set r.car { l with heard := DropSet.del l.heard r.drop } ∧ t.chan.rplClc[r.car] = told)
      ∧ (s.rpl[r.car].up = true → ¬ l.inFastCall = true →
        t.lines = s.lines ∧ t.chan.rplClc[r.car] = told ++ [.individual r.drop]) := by
  intro t told l
  have hnames := State.findNode_names h
  have hmissing : (r.includedNow s.rpl[r.car].up).state ≠ .missing := by
    unfold NodeRec.includedNow
    dsimp only
    split <;> decide
  have hput := State.findNode_putInclusion h (n := r.includedNow s.rpl[r.car].up) hnames .included
  have htold := s.putInclusion_told r (r.includedNow s.rpl[r.car].up) .included
  have hprm := s.putInclusion_reported r (r.includedNow s.rpl[r.car].up) .included
  obtain ⟨prpl, pisc, plines⟩ := s.putInclusion_rest r (r.includedNow s.rpl[r.car].up) .included
  rw [missingNews_left hmissing] at htold
  have ht : t = _ := s.include_eq r
  generalize s.putInclusion r (r.includedNow s.rpl[r.car].up) .included = p at hput htold hprm prpl pisc plines ht
  obtain ⟨troster, trpl, tisc, tprm⟩ := p.lineIncluded_rest r.car r.drop
  have hline := p.lineIncluded_line r.car r.drop
  rw [prpl, plines, htold] at hline
  have hlines : t.lines = (p.lineIncluded r.car r.drop).lines := by rw [ht, (PlannerKept.changed r.car r.drop _).lines]
  have hchan : t.chan = (p.lineIncluded r.car r.drop).chan := by rw [ht, State.changed_chan]
  refine ⟨?_, ?_, ?_, ?_⟩
  · rw [NodeRec.stamped_eq] at hput
    have hfound : (p.lineIncluded r.car r.drop).findNode c d = p.findNode c d := by unfold State.findNode; rw [troster]
    obtain ⟨x, hx⟩ := State.findNode_changed (hfound.trans hput) r.car
    exact ⟨_, ht ▸ hx, rfl⟩
  · rw [ht]
    exact InclusionReported.of_changed (trpl.trans prpl) (by rw [tprm, troster, hprm])
  · rw [ht, State.changed_isc, tisc, pisc]
  · rw [hlines, hchan]
    exact hline

/-! ## The orders -/

theorem carOf_eq_none_iff (n : Nat) : carOf n = none ↔ 5 < n := by
  unfold carOf
  split <;> simp <;> omega

theorem dropOf_eq_none_iff (n : Nat) : dropOf n = none ↔ n = 0 ∨ 8 < n := by
  unfold dropOf
  split <;> simp <;> omega

theorem carOf_val (c : Car) : carOf c.val = some c := dif_pos c.isLt

theorem dropOf_val (d : Drop) : dropOf (d.val + 1) = some d := dif_pos (by omega)

theorem State.nodeOrders_badParameter {s : State} {b : List Byte} (h : carOf (paramByte b 0) = none ∨ dropOf (paramByte b 1) = none) :
    s.excludeNode b = (s, .refused .badParameter) ∧ s.includeNode b = (s, .refused .badParameter) := by
  unfold State.excludeNode State.includeNode
  rcases h with h | h
  · rw [h]; exact ⟨rfl, rfl⟩
  · rw [h]; cases carOf (paramByte b 0) <;> exact ⟨rfl, rfl⟩

section
variable {s : State} {b : List Byte} {c : Car} {d : Drop} (hc : paramByte b 0 = c.val) (hd : paramByte b 1 = d.val + 1)
include hc hd

theorem State.nodeOrders_notInRoster (h : s.findNode c d = none) :
    s.excludeNode b = (s, .refused .notInRoster) ∧ s.includeNode b = (s, .refused .notInRoster) := by
  unfold State.excludeNode State.includeNode
  rw [hc, hd, carOf_val, dropOf_val]
  dsimp only
  rw [h]
  exact ⟨rfl, rfl⟩

theorem State.excludeNode_eq {r : NodeRec} (h : s.findNode c d = some r) : s.excludeNode b
    = if r.isExcluded then (s, .done .ok [1, byteOf r.state.code 0, 0])
      else (s.exclude r, .done .ok [0, byteOf r.state.code 0, byteOf r.disposition 0]) := by
  unfold State.excludeNode
  rw [hc, hd, carOf_val, dropOf_val]
  dsimp only
  rw [h]

theorem State.includeNode_eq {r : NodeRec} (h : s.findNode c d = some r) : s.includeNode b
    = if !r.isExcluded then (s, .done .ok [1, byteOf r.state.code 0, byteOf r.state.code 0])
      else if r.job.isSome then (s, .refused .busy)
      else (s.include r, .done .ok [0, byteOf r.state.code 0,
        byteOf (if s.rpl[c].up then NodeState.awaiting.code else NodeState.dark.code) 0]) := by
  unfold State.includeNode
  rw [hc, hd, carOf_val, dropOf_val]
  dsimp only
  rw [h]

end

theorem NodeRec.disposition_byte (r : NodeRec) : byteOf r.disposition 0 = match r.job with
    | none => 0
    | some j => if j.place = .line then 2 else 1 := by
  unfold NodeRec.disposition
  cases r.job with
  | none => rfl
  | some j =>
    dsimp only
    split <;> rfl

/-- Settles O15: the orders case by case, with what an exclusion and an inclusion leave. -/
theorem excludeAndIncludeNode : Obligations.ExcludeAndIncludeNode := by
  unfold Obligations.ExcludeAndIncludeNode
  refine ⟨fun s b => ⟨fun hbad => State.nodeOrders_badParameter ?_, fun c d hc hd h => State.nodeOrders_notInRoster hc hd h⟩, ?_⟩
  · rw [carOf_eq_none_iff, dropOf_eq_none_iff]
    exact hbad
  · intro s b c d r hc hd h counted told
    obtain ⟨rfl, rfl⟩ := State.findNode_names h
    have hcounted : ∀ t change, InclusionReported s t r change → counted t change := by
      rintro t change ⟨hreports, htotal, hready, hothers⟩
      rw [doorsAllReady_eq] at hreports
      rw [includedDoors_eq] at htotal
      rw [readyDoors, includedDoors_eq, List.filter_filter] at hready
      refine ⟨hreports, htotal, ?_, hothers⟩
      rw [hready]
      simp only [Bool.and_comm]
    have hexclude := State.excludeNode_eq hc hd h
    have hinclude := State.includeNode_eq hc hd h
    refine ⟨fun he => ?_, fun he => ?_, fun he => ?_, fun he hj => ?_, fun he hj => ?_⟩
    · rw [hexclude, if_pos he]
    · obtain ⟨⟨n, hn, hrec⟩, htold, huse, hreported, hlines⟩ := State.exclude_spec h
      rw [if_neg (by simp [he]), NodeRec.disposition_byte] at hexclude
      exact ⟨_, n, hn, hexclude, by rw [htold]; simp, hrec, htold, huse, hcounted _ _ hreported, hlines⟩
    · rw [hinclude, if_pos (by simp [he])]
    · rw [hinclude, if_neg (by simp [he]), if_pos hj]
    · obtain ⟨⟨n, hn, hrec⟩, hreported, hisc, hdown, hfast, hslow⟩ := State.include_spec h
      rw [if_neg (by simp [he]), if_neg (by simp [hj])] at hinclude
      rw [Line.inFastCall_iff] at hfast hslow
      refine ⟨_, n, hn, ?_, hrec, hcounted _ _ hreported, hisc, hdown, hfast, hslow⟩
      rw [hinclude, hrec, NodeRec.includedNow, apply_ite NodeState.code]

end Sys2Proof.Machine
end

section
/-! The reports of a live job (R54, R56 to R59, R114). -/

namespace Sys2Proof.Machine

/-! ## Taking a report -/

/-- The command that takes a report of a job. -/
def LineReport.instr (c : Car) : LineReport → Option Instr
  | .hello _ _ | .unheard _ _ => none
  | .granted _ _ | .yielded _ | .retry _ _ | .progress _ _ | .released _ => some (.rplJobReport c)
  | .surveyEnded _ _ => some (.rplSurveyEnded c)
  | .loadAccepted _ => some (.rplLoadAccepted c)
  | .success _ => some (.rplRunningSuccess c)
  | .failed _ _ => some (.rplAttemptFailed c)

/-- The job a report names. -/
def LineReport.job : LineReport → Option Nat
  | .hello _ _ | .unheard _ _ => none
  | .granted jid _ | .yielded jid | .retry jid _ | .progress jid _ | .released jid | .surveyEnded jid _ | .loadAccepted jid
  | .success jid | .failed jid _ => some jid

/-- A report of a job takes effect. -/
def State.takeReport (s : State) (c : Car) : LineReport → State
  | .hello _ _ | .unheard _ _ => s
  | .granted jid p => s.takeGrant c jid p
  | .yielded jid => s.takeYield c jid
  | .retry jid n => s.takeRetry c jid n
  | .progress jid n => s.takeProgress c jid n
  | .released jid => s.takeRelease c jid
  | .surveyEnded jid digests => s.takeSurvey c jid digests
  | .loadAccepted jid => s.takeAccepted c jid
  | .success jid => s.takeSuccess c jid
  | .failed jid reason => s.takeFailure c jid reason

section
variable {s : State} {c : Car} {m : LineReport} {rest : List LineReport}

theorem exec_report (hrun : s.isRunning = true) (h : s.chan.clcRpl[c] = m :: rest) {i : Instr} (hi : m.instr c = some i) :
    exec i s = .next (publish s ((s.dropReport c).takeReport c m)) := by
  cases m <;> cases hi
  case granted | yielded | retry | progress | released =>
    show execRplJobReport c s = _
    simp only [execRplJobReport, hrun, h]
    rfl
  case surveyEnded =>
    show execRplSurveyEnded c s = _
    simp only [execRplSurveyEnded, hrun, h]
    rfl
  case loadAccepted =>
    show execRplLoadAccepted c s = _
    simp only [execRplLoadAccepted, hrun, h]
    rfl
  case success =>
    show execRplRunningSuccess c s = _
    simp only [execRplRunningSuccess, hrun, h]
    rfl
  case failed =>
    show execRplAttemptFailed c s = _
    simp only [execRplAttemptFailed, hrun, h]
    rfl

/-- A report without effect is gone, and nothing else has changed (R54). -/
theorem exec_report_disregarded (hrun : s.isRunning = true) (h : s.chan.clcRpl[c] = m :: rest) {i : Instr}
    (hi : m.instr c = some i) (hno : (s.dropReport c).takeReport c m = s.dropReport c) :
    exec i s = .next { s with chan := { s.chan with
      clcRpl := s.chan.clcRpl.set c rest
      handed := s.chan.handed.set c (s.chan.handed[c].map (fun n => n - 1)) } } := by
  rw [exec_report hrun h hi, hno, publish_unshown s (s.dropReport c) rfl rfl rfl rfl, State.dropReport, dropAt, h]
  rfl

/-- A report of a job no longer live is disregarded (R54). -/
theorem State.takeReport_ended {jid : Nat} (h : s.findJob c jid = none) (hm : m.job = some jid) : s.takeReport c m = s := by
  have hrep : s.reported c jid = none := by unfold State.reported; rw [h]
  cases m <;> cases hm <;>
    simp only [State.takeReport, State.takeGrant, State.takeYield, State.takeRetry, State.takeProgress, State.takeRelease,
      State.takeSurvey, State.takeAccepted, State.takeSuccess, State.takeFailure, hrep, h]

end

section
variable {s : State} {c : Car} {jid : Nat} {r : NodeRec} {j : RplJob} (h : s.findJob c jid = some r) (hj : r.job = some j)
include h hj

theorem State.reported_live (hs : r.state ≠ .excluded) (hp : j.place ≠ .backoff) (hc : j.condemned = false) :
    s.reported c jid = some (r, j) := by
  unfold State.reported
  rw [h]
  dsimp only
  rw [hj]
  exact if_neg (by simp [hs, hp, hc])

theorem State.reported_condemned (hc : j.condemned = true) : s.reported c jid = none := by
  unfold State.reported
  rw [h]
  dsimp only
  rw [hj]
  exact if_pos (.inr (.inr hc))

theorem State.takeFailure_live (hs : r.state ≠ .excluded) (hp : j.place ≠ .backoff) {reason : FailReason}
    (hc : j.condemned = false ∨ reason = .storeFault) : s.takeFailure c jid reason = s.failAttempt r j reason := by
  unfold State.takeFailure
  rw [h]
  dsimp only
  rw [hj]
  exact if_neg (by rcases hc with hc | hc <;> simp [hs, hp, hc])

theorem State.takeFailure_condemned (hc : j.condemned = true) {reason : FailReason} (hr : reason ≠ .storeFault) :
    s.takeFailure c jid reason = s := by
  unfold State.takeFailure
  rw [h]
  dsimp only
  rw [hj]
  exact if_pos (.inr (.inr ⟨hc, hr⟩))

/-- A job that is to end with STORE FAULT: every report but that failure is disregarded (R114). -/
theorem State.takeReport_condemned (hs : r.state ≠ .excluded) (hc : j.condemned = true) {m : LineReport} (hm : m.job = some jid)
    (hf : m ≠ .failed jid .storeFault) : s.takeReport c m = s := by
  have hrep := State.reported_condemned h hj hc
  cases m <;> cases hm
  case failed reason =>
    exact State.takeFailure_condemned h hj hc (fun hr => hf (by rw [hr]))
  case released =>
    simp only [State.takeReport, State.takeRelease, h, hs, if_false]
  all_goals
    simp only [State.takeReport, State.takeGrant, State.takeYield, State.takeRetry, State.takeProgress,
      State.takeSurvey, State.takeAccepted, State.takeSuccess, hrep]

end

/-! ## A report moves a node -/

/-- What a report of a job leaves: the report is gone, the record is x but for its cost and the uptime of its change, the pin of
the job is released or not, and the permits hear of a DOOR node's change of state. -/
structure JobMoved (c : Car) (d : Drop) (s : State) (r x : NodeRec) (copy : CopyIx) (unpins : Bool) (w : State) : Prop where
  kept : PlannerKept c d s w
  reports : w.chan.clcRpl = dropAt s.chan.clcRpl c
  marks : w.chan.handed = s.chan.handed.set c (s.chan.handed[c].map (fun n => n - 1))
  found : ∃ n, w.findNode c d = some n ∧ n = { x with cost := n.cost, changedAt := n.changedAt }
    ∧ n.changedAt = if x.state = r.state then r.changedAt else s.ord.uptime
  use : ∀ k : CopyIx, w.isc.records[k].use = s.isc.records[k].use - (if unpins ∧ k = copy then 1 else 0)
  doors : w.chan.rplPrm = s.chan.rplPrm ++ if r.cls = .door ∧ x.state ≠ r.state then
    [⟨c, d, .state r.state x.state, doorsAllReady w.roster c⟩] else []

/-- The same before the car's door counts and estimate follow, with the entries asked for. -/
structure JobWritten (c : Car) (d : Drop) (s : State) (r x : NodeRec) (copy : CopyIx) (unpins : Bool) (more : List EntryReq)
    (w : State) : Prop extends JobMoved c d s r x copy unpins w where
  asked : w.jrn.requests = s.jrn.requests ++ more
  others : ∀ q ∈ more, q.entry.kind ≠ .carDoorsReady
  cars : w.rpl = s.rpl

/-- A report is taken, with the pin of its job released or not. -/
def State.reportTaken (s : State) (c : Car) (copy : CopyIx) (unpins : Bool) : State :=
  if unpins then (s.dropReport c).unpin copy else s.dropReport c

theorem State.reportTaken_use (s : State) (c : Car) (copy : CopyIx) (unpins : Bool) (k : CopyIx) :
    (s.reportTaken c copy unpins).isc.records[k].use = s.isc.records[k].use - (if unpins ∧ k = copy then 1 else 0) := by
  unfold State.reportTaken
  cases unpins
  · rfl
  · simp only [if_true, true_and, State.unpin_use, State.dropReport_isc]

theorem State.reportTaken_rest (s : State) (c : Car) (copy : CopyIx) (unpins : Bool) :
    let u := s.reportTaken c copy unpins
    u.chan = (s.dropReport c).chan ∧ u.roster = s.roster ∧ u.ord = s.ord ∧ u.jrn = s.jrn ∧ u.rpl = s.rpl := by
  unfold State.reportTaken
  cases unpins <;> exact ⟨rfl, rfl, rfl, rfl, rfl⟩

theorem PlannerKept.reportTaken (c : Car) (d : Drop) (s : State) (copy : CopyIx) (unpins : Bool) :
    PlannerKept c d s (s.reportTaken c copy unpins) := by
  unfold State.reportTaken
  exact PlannerKept.ite (fun _ => (PlannerKept.dropReport c d s).trans (PlannerKept.unpin c d _ copy))
    (fun _ => PlannerKept.dropReport c d s)

section
variable {c : Car} {d : Drop} {s w : State} {r x : NodeRec} {copy : CopyIx} {unpins : Bool} {more : List EntryReq}

theorem JobWritten.putNode (copy : CopyIx) (unpins : Bool) (h : s.findNode c d = some r) (hx : x.car = c ∧ x.drop = d)
    (ht : x.changedAt = r.changedAt) :
    JobWritten c d s r x copy unpins [] ((s.reportTaken c copy unpins).putNode r x) := by
  obtain ⟨hchan, hroster, hord, hjrn, hrpl⟩ := s.reportTaken_rest c copy unpins
  have huse := s.reportTaken_use c copy unpins
  have hkept := PlannerKept.reportTaken c d s copy unpins
  generalize s.reportTaken c copy unpins = u at hchan hroster hord hjrn hrpl huse hkept
  have hfound : u.findNode c d = some r := by unfold State.findNode at h ⊢; rw [hroster]; exact h
  have hnames := State.findNode_names h
  have hput := u.putNode_eq r x
  refine ⟨⟨hkept.put c d s hnames hx, ?_, ?_, ?_, fun k => ?_, ?_⟩, ?_, by simp, ?_⟩
  · rw [hput]; exact congrArg Channels.clcRpl hchan
  · rw [hput]; exact congrArg Channels.handed hchan
  · rw [hput, State.findNode_written hfound hx, NodeRec.stamped_eq, ht, hord]
    exact ⟨_, rfl, rfl, rfl⟩
  · rw [hput]; exact huse k
  · obtain ⟨rfl, rfl⟩ := hnames
    rw [hput, State.writeNode_eq]
    have hprm : u.chan.rplPrm = s.chan.rplPrm := by rw [hchan]; rfl
    exact congrArg (fun l => l ++ _) hprm
  · rw [hput, List.append_nil, ← hjrn]; rfl
  · rw [hput]; exact hrpl

theorem JobWritten.nodeEntry (h : JobWritten c d s r x copy unpins more w) {k : EntryKind} (hk : k ≠ .carDoorsReady)
    {q : NodeRec} (hq : q.car = c ∧ q.drop = d) (b : List Byte) : JobWritten c d s r x copy unpins
      (more ++ [⟨.rpl, { kind := k, car := c.val, drop := d.val + 1, uptime := s.ord.uptime, body := b }⟩])
      (w.nodeEntry k q b) := by
  refine ⟨⟨h.kept.trans (PlannerKept.nodeEntry c d w k q b), h.reports, h.marks, h.found, h.use, h.doors⟩, ?_, ?_, h.cars⟩
  · show w.jrn.requests ++ [⟨.rpl, { kind := k, car := q.car.val, drop := q.drop.val + 1, uptime := w.ord.uptime, body := b }⟩] = _
    rw [h.asked, hq.1, hq.2, h.kept.ord, List.append_assoc]
  · intro q hq
    rcases List.mem_append.mp hq with hq | hq
    · exact h.others q hq
    · rw [List.mem_singleton.mp hq]; exact hk

theorem JobWritten.nodeFailedEntry (h : JobWritten c d s r x copy unpins more w) {q : NodeRec} (hq : q.car = c ∧ q.drop = d)
    (final : Bool) (source reason : Nat) : JobWritten c d s r x copy unpins
      (more ++ [⟨.rpl, { kind := .nodeFailed, car := c.val, drop := d.val + 1, uptime := s.ord.uptime
                         body := [byteOf (bit final) 0, byteOf source 0, byteOf reason 0, byteOf q.attempt 0] }⟩])
      (w.nodeFailedEntry q final source reason) := by
  have he := h.nodeEntry (k := .nodeFailed) (by decide) hq
    [byteOf (bit final) 0, byteOf source 0, byteOf reason 0, byteOf q.attempt 0]
  unfold State.nodeFailedEntry
  dsimp only
  split
  · exact ⟨⟨he.kept.trans (PlannerKept.raiseAlert c d _), he.reports, he.marks, he.found, he.use, he.doors⟩, he.asked, he.others,
      he.cars⟩
  · exact he

theorem JobMoved.changed (h : JobMoved c d s r x copy unpins w) : JobMoved c d s r x copy unpins (w.changed c) := by
  refine ⟨h.kept.trans (PlannerKept.changed c d w), ?_, ?_, ?_, fun k => ?_, ?_⟩
  · rw [State.changed_chan]; exact h.reports
  · rw [State.changed_chan]; exact h.marks
  · obtain ⟨n, hn, hrec, hat⟩ := h.found
    obtain ⟨y, hy⟩ := State.findNode_changed hn c
    refine ⟨_, hy, ?_, hat⟩
    dsimp only
    rw [hrec]
  · rw [State.changed_isc]; exact h.use k
  · rw [State.changed_chan, (w.changed_doors c).2.2.1]; exact h.doors

theorem JobMoved.publish (h : JobMoved c d s r x copy unpins w) (u : State) : JobMoved c d s r x copy unpins (publish u w) :=
  ⟨h.kept.trans (PlannerKept.publish c d u w), h.reports, h.marks, h.found, h.use, h.doors⟩

end

/-! ## The counts after a report -/

theorem doorsAllReady_eq_decide (l : List NodeRec) (c : Car) :
    doorsAllReady l c = decide ((readyDoors l c).length = (includedDoors l c).length) := by
  rw [Bool.eq_iff_iff, decide_eq_true_eq, doorsAllReady_iff]

section
variable {c : Car} {d : Drop} {s w : State} {r x : NodeRec} {copy : CopyIx} {unpins : Bool} {more : List EntryReq}

/-- The requests of a car that is down: no reckoning adds to them. -/
theorem JobWritten.requests_down (h : JobWritten c d s r x copy unpins more w) (hup : s.rpl[c].up = false) :
    (w.changed c).jrn.requests = s.jrn.requests ++ more := by
  rw [← h.cars] at hup
  obtain ⟨l, hl, -, hdown⟩ := w.changed_requests c
  rw [hl, hdown hup, State.settledNews, if_neg (fun hs => absurd (hup.symm.trans hs.1) (by decide)), h.asked, List.append_nil,
    List.append_nil]

/-- CAR DOORS READY is asked for where the doors become settled (R64). -/
theorem JobWritten.requests_settled (h : JobWritten c d s r x copy unpins more w) (hup : s.rpl[c].up = true)
    (hall : doorsAllReady (w.changed c).roster c = true) (hs : s.rpl[c].settled = false)
    (hne : includedDoors (w.changed c).roster c ≠ []) :
    (s.jrn.requests ++ more ++ [⟨.rpl, { kind := .carDoorsReady, car := c.val, drop := 0, uptime := s.ord.uptime
                                         body := le16 (min 65535 s.rpl[c].clock)
                                           ++ [byteOf (readyDoors (w.changed c).roster c).length 0, 0] }⟩])
      <+: (w.changed c).jrn.requests := by
  obtain ⟨hlen, hready, hsame, -⟩ := w.changed_doors c
  rw [← List.length_pos_iff, hlen, List.length_pos_iff] at hne
  obtain ⟨l, hl, -⟩ := w.changed_requests c
  rw [hsame] at hall
  rw [hl, State.settledNews, if_pos (by rw [h.cars]; exact ⟨hup, hall, hs, hne⟩), h.asked, h.cars, h.kept.ord, hready]
  exact List.prefix_append _ _

/-- No CAR DOORS READY where they do not become settled (R64). -/
theorem JobWritten.requests_unsettled (h : JobWritten c d s r x copy unpins more w)
    (hno : doorsAllReady (w.changed c).roster c = false ∨ s.rpl[c].settled = true ∨ includedDoors (w.changed c).roster c = []) :
    ∀ q ∈ (w.changed c).jrn.requests, q.entry.kind = .carDoorsReady → q ∈ s.jrn.requests := by
  obtain ⟨hlen, -, hsame, -⟩ := w.changed_doors c
  rw [hsame, ← List.length_eq_zero_iff, hlen, List.length_eq_zero_iff] at hno
  obtain ⟨l, hl, hk, -⟩ := w.changed_requests c
  have hnews : w.settledNews c = [] := if_neg (by
    rw [h.cars]
    rintro ⟨-, hall, hs, hne⟩
    rcases hno with hno | hno | hno
    · rw [hall] at hno; cases hno
    · rw [hs] at hno; cases hno
    · exact hne hno)
  rw [hl, hnews, h.asked, List.append_nil]
  intro q hq hkind
  rcases List.mem_append.mp hq with hq | hq
  · rcases List.mem_append.mp hq with hq | hq
    · exact hq
    · exact absurd hkind (h.others q hq)
  · exact absurd hkind (hk q hq)

/-- The counts, the settlement and the requests that follow a report (R63 to R65). -/
theorem JobWritten.counts (h : JobWritten c d s r x copy unpins more w) :
    let t := w.changed c
    let doors := includedDoors t.roster c
    let ready := (doors.filter (fun n => decide (n.state = .ready))).length
    let all := decide (ready = doors.length)
    let e : EntryReq := ⟨.rpl, { kind := .carDoorsReady, car := c.val, drop := 0, uptime := s.ord.uptime
                                 body := le16 (min 65535 s.rpl[c].clock) ++ [byteOf ready 0, 0] }⟩
    t.rpl[c].total = doors.length
      ∧ (s.rpl[c].up = false → t.rpl[c].ready = 0 ∧ t.rpl[c].blocked = false ∧ t.jrn.requests = s.jrn.requests ++ more)
      ∧ (s.rpl[c].up = true → t.rpl[c].ready = ready ∧ t.rpl[c].blocked = doors.any (fun n => decide (n.state = .failed))
        ∧ t.rpl[c].settled = all ∧ t.rpl[c].clock = s.rpl[c].clock
        ∧ t.rpl[c].clockOn = (if all = s.rpl[c].settled then s.rpl[c].clockOn else !all)
        ∧ (all = true → s.rpl[c].settled = false → doors ≠ [] → (s.jrn.requests ++ more ++ [e]) <+: t.jrn.requests)
        ∧ (all = false ∨ s.rpl[c].settled = true ∨ doors = [] →
          ∀ q ∈ t.jrn.requests, q.entry.kind = .carDoorsReady → q ∈ s.jrn.requests)) := by
  intro t doors ready all e
  obtain ⟨htotal, hready, hblocked⟩ := w.changed_counts c
  rw [h.cars] at hready hblocked
  refine ⟨htotal, fun hup => ?_, fun hup => ?_⟩
  · rw [hready, hblocked, if_neg (by rw [hup]; decide), hup]
    exact ⟨rfl, rfl, h.requests_down hup⟩
  · obtain ⟨hsettled, hclock, hon⟩ := State.changed_settlement (s := w) (c := c) (by rw [h.cars]; exact hup)
    rw [h.cars] at hclock hon
    have hall : all = doorsAllReady t.roster c := (doorsAllReady_eq_decide t.roster c).symm
    rw [hready, hblocked, if_pos hup, hup, hsettled, hclock, hon, Bool.true_and, hall]
    exact ⟨rfl, rfl, rfl, rfl, rfl, h.requests_settled hup, h.requests_unsettled⟩

end

end Sys2Proof.Machine
end

section
/-! The reports of a live job, settled (R29, R54, R56 to R59, R63, R64, R114, R121). -/

namespace Sys2Proof.Machine

/-! ## What each report writes -/

/-- The record of a job that passes to LOAD with a reload set, or to START without one (R56, R57). -/
def NodeRec.reloading (r : NodeRec) (j : RplJob) (l : List Nat) : NodeRec :=
  if l = [] then { r with state := .starting, job := some { j with phase := some .start, reload := [] } }
  else { r with state := .loading, job := some { j with phase := some .load, reload := l } }

/-- The record of a job whose attempt failed below the limit (R59). -/
def NodeRec.backedOff (r : NodeRec) (j : RplJob) (reason : FailReason) (now : Long) : NodeRec :=
  { r with
    fail := reason
    state := .backoff
    job := some { j with place := .backoff, phase := none, reload := [], s := 0, retry := 0, condemned := false }
    backoffFrom := some now
    backoffShown := 1000 }

theorem NodeRec.reloading_eq (r : NodeRec) (j : RplJob) (l : List Nat) : r.reloading j l =
    let p : Phase := if l = [] then .start else .load
    { r with state := p.nodeState, job := some { j with phase := some p, reload := l } } := by
  unfold NodeRec.reloading
  by_cases h : l = []
  · subst h; rfl
  · simp only [if_neg h, Phase.nodeState]

theorem NodeRec.reloading_names (r : NodeRec) (j : RplJob) (l : List Nat) : (r.reloading j l).car = r.car
    ∧ (r.reloading j l).drop = r.drop ∧ (r.reloading j l).changedAt = r.changedAt ∧ (r.reloading j l).state ≠ .failed := by
  unfold NodeRec.reloading
  split <;> exact ⟨rfl, rfl, rfl, by simp⟩

section
variable {u : State} {c : Car} {jid : Nat} {r : NodeRec} {j : RplJob} (h : u.reported c jid = some (r, j))
include h

theorem State.takeGrant_live (p : Phase) : u.takeReport c (.granted jid p)
    = (u.putNode r { r with state := p.nodeState, job := some { j with place := .line, phase := some p, s := 0 } }).changed c := by
  simp only [State.takeReport, State.takeGrant, h]

theorem State.takeYield_live : u.takeReport c (.yielded jid)
    = (u.putNode r { r with state := .queued, job := some { j with place := .queue } }).changed c := by
  simp only [State.takeReport, State.takeYield, h]

theorem State.takeRetry_live (n : Nat) : u.takeReport c (.retry jid n) = u.putNode r { r with job := some { j with retry := n } } := by
  simp only [State.takeReport, State.takeRetry, h]

theorem State.takeProgress_live (n : Nat) : u.takeReport c (.progress jid n) = u.putNode r { r with job := some { j with s := n } } := by
  simp only [State.takeReport, State.takeProgress, h]

theorem State.takeSurvey_live (digests : List Long) :
    let l := differing u.isc.records[j.copy].table digests
    u.takeReport c (.surveyEnded jid digests)
      = ((u.putNode r (r.reloading j l)).nodeEntry .surveyResult r (surveyBody l)).changed c := by
  simp only [State.takeReport, State.takeSurvey, h, NodeRec.reloading_eq]

theorem State.takeAccepted_live : u.takeReport c (.loadAccepted jid) = (u.putNode r (r.reloading j j.reload.tail)).changed c := by
  simp only [State.takeReport, State.takeAccepted, h, NodeRec.reloading_eq]

theorem State.takeSuccess_live : u.takeReport c (.success jid) = (((u.unpin j.copy).putNode r
    { r with state := .ready, job := none }).nodeEntry .nodeReady r (readyBody r j)).changed c := by
  simp only [State.takeReport, State.takeSuccess, h]

end

theorem State.takeRelease_excluded {u : State} {c : Car} {jid : Nat} {r : NodeRec} {j : RplJob} (h : u.findJob c jid = some r)
    (hj : r.job = some j) (hs : r.state = .excluded) : u.takeReport c (.released jid)
      = ((u.unpin j.copy).putNode r { r with job := none }).changed c := by
  simp only [State.takeReport, State.takeRelease, h, hs, if_true, State.unpinJob, hj]

/-- The record of a node whose last attempt failed (R59). -/
def NodeRec.failedFor (r : NodeRec) (reason : FailReason) : NodeRec := { r with fail := reason, state := .failed, job := none }

theorem State.failAttempt_below {u : State} {r : NodeRec} (j : RplJob) (reason : FailReason) (h : r.attempt < u.fleet.attemptLimit) :
    let x := r.backedOff j reason u.ord.uptime
    u.failAttempt r j reason = ((u.putNode r x).nodeFailedEntry x false 0 reason.code).changed r.car := if_pos h

theorem State.failAttempt_final {u : State} {r : NodeRec} (j : RplJob) (reason : FailReason) (h : u.fleet.attemptLimit ≤ r.attempt) :
    u.failAttempt r j reason = (((u.unpin j.copy).putNode r (r.failedFor reason)).nodeFailedEntry (r.failedFor reason) true 0
      reason.code).changed r.car :=
  if_neg (Nat.not_lt.mpr h)

theorem surveyBody_eq (l : List Nat) : surveyBody l
    = le16 l.length ++ [byteOf (min 24 l.length) 0, 0] ++ pad4 ((l.take 24).map (fun i => byteOf i 0)) := by
  simp only [surveyBody, List.length_take]

theorem readyBody_eq (r : NodeRec) (j : RplJob) : readyBody r j
    = [byteOf (r.plan.elim 0 Plan.code) 0, byteOf r.attempt 0, byteOf (j.copy.val / 2) 0, byteOf (j.copy.val % 2) 0] := by
  have hcopy : (copyOf j.copy).code = j.copy.val % 2 := by
    unfold copyOf
    split
    · rename_i h; rw [h]; rfl
    · rename_i h; rw [Nat.mod_two_ne_zero.mp h]; rfl
  unfold readyBody
  rw [hcopy]
  cases r.plan <;> rfl

theorem nodeFailedEntry_alert (w : State) (q : NodeRec) (source reason : Nat) :
    (w.nodeFailedEntry q true source reason).ntu.causes.getLsbD 3 = true := by
  show (w.ntu.causes ||| 8).getLsbD 3 = true
  simp

/-- Settles O52: each report as the record it puts, with the counts that follow every change. -/
theorem jobReportsMoveNodes : Obligations.JobReportsMoveNodes := by
  unfold Obligations.JobReportsMoveNodes
  intro c s m rest hrun hrep marks gone
  have hgone : ∀ {i}, m.instr c = some i → (s.dropReport c).takeReport c m = s.dropReport c → exec i s = .next gone :=
    exec_report_disregarded hrun hrep
  refine ⟨fun jid n p digests reason hnone => ?_, fun jid d r j hjob hnode hj => ?_⟩
  · have hended : ∀ {i}, m.instr c = some i → m.job = some jid → exec i s = .next gone :=
      fun hi hm => hgone hi (State.takeReport_ended hnone hm)
    refine ⟨?_, fun hm => ?_, fun hm => ?_, fun hm => ?_, fun hm => ?_⟩
    · rintro (hm | hm | hm | hm | hm) <;> exact hended (by rw [hm]; rfl) (by rw [hm]; rfl)
    all_goals exact hended (by rw [hm]; rfl) (by rw [hm]; rfl)
  · intro counts reaches entry
    have hnames := State.findNode_names hnode
    have htaken : (s.dropReport c).findJob c jid = some r := hjob
    have hcounts : ∀ {x unpins more w}, JobWritten c d s r x j.copy unpins more w → counts (publish s (w.changed c)) more := by
      intro x unpins more w hw
      change counts (w.changed c) more
      simp only [counts, ← includedDoors_eq]
      exact hw.counts
    have hmoved : ∀ {i x more unpins t}, m.instr c = some i → (s.dropReport c).takeReport c m = t →
        JobMoved c d s r x j.copy unpins t → (s.jrn.requests ++ more) <+: t.jrn.requests →
        (x.state = .failed → t.ntu.causes.getLsbD 3 = true) →
        ((∀ n, m ≠ .retry jid n ∧ m ≠ .progress jid n) → counts (publish s t) more) → reaches i x more unpins := by
      intro i x more unpins t hi ht hm hasks halert hcount
      have hexec := exec_report hrun hrep hi
      rw [ht] at hexec
      obtain ⟨hkept, hreports, hmarks, ⟨n, hn, hrec, hat⟩, huse, hdoors⟩ := hm.publish s
      refine ⟨_, n, hexec, hkept.frame, ?_, hmarks, hn, hrec, hat, hasks, huse, halert, ?_, hcount⟩
      · rw [hreports, dropAt, set_get, hrep]; rfl
      · rw [hdoors, doorsAllReady_eq]
    have hwritten : ∀ {i x more unpins w}, m.instr c = some i → (s.dropReport c).takeReport c m = w.changed c →
        JobWritten c d s r x j.copy unpins more w → (x.state = .failed → w.ntu.causes.getLsbD 3 = true) →
        reaches i x more unpins := by
      intro i x more unpins w hi ht hw halert
      refine hmoved hi ht hw.toJobMoved.changed ?_ (fun hf => (PlannerKept.changed c d w).alert (halert hf)) (fun _ => hcounts hw)
      rw [← hw.asked]
      exact (PlannerKept.changed c d w).asks
    have hput : ∀ {x : NodeRec} (unpins : Bool), x.car = r.car ∧ x.drop = r.drop ∧ x.changedAt = r.changedAt →
        JobWritten c d s r x j.copy unpins [] ((s.reportTaken c j.copy unpins).putNode r x) :=
      fun unpins ⟨hc, hd, ht⟩ => JobWritten.putNode j.copy unpins hnode ⟨hc.trans hnames.1, hd.trans hnames.2⟩ ht
    refine ⟨fun hs hm => ?_, fun hs hp hc => ?_, fun hs hf hp reason hm hc => ⟨fun hlimit => ?_, fun hlimit => ?_⟩,
      fun hs hf hp hc => ?_⟩
    · refine hwritten (by rw [hm]; rfl) ?_ (hput true ⟨rfl, rfl, rfl⟩) (fun h => by rw [hs] at h; cases h)
      rw [hm]
      exact State.takeRelease_excluded htaken hj hs
    · have hcondemned : ∀ {i}, m.instr c = some i → m.job = some jid → m ≠ .failed jid .storeFault → exec i s = .next gone :=
        fun hi hm hne => hgone hi (State.takeReport_condemned htaken hj hs hc hm hne)
      refine ⟨fun n p => ?_, fun digests hm => ?_, fun hm => ?_, fun hm => ?_, fun reason hne hm => ?_⟩
      · rintro (hm | hm | hm | hm | hm) <;> exact hcondemned (by rw [hm]; rfl) (by rw [hm]; rfl) (by rw [hm]; simp)
      · exact hcondemned (by rw [hm]; rfl) (by rw [hm]; rfl) (by rw [hm]; simp)
      · exact hcondemned (by rw [hm]; rfl) (by rw [hm]; rfl) (by rw [hm]; simp)
      · exact hcondemned (by rw [hm]; rfl) (by rw [hm]; rfl) (by rw [hm]; simp)
      · exact hcondemned (by rw [hm]; rfl) (by rw [hm]; rfl) (by rw [hm]; simp [hne])
    · have htake : (s.dropReport c).takeReport c m = (s.dropReport c).failAttempt r j reason := by
        rw [hm]; exact State.takeFailure_live htaken hj hs hp hc
      rw [State.failAttempt_below (u := s.dropReport c) j reason hlimit, hnames.1] at htake
      exact hwritten (by rw [hm]; rfl) htake ((hput (x := r.backedOff j reason s.ord.uptime) false
        ⟨rfl, rfl, rfl⟩).nodeFailedEntry (q := r.backedOff j reason s.ord.uptime) hnames false 0 reason.code)
        (fun h => by cases h)
    · have htake : (s.dropReport c).takeReport c m = (s.dropReport c).failAttempt r j reason := by
        rw [hm]; exact State.takeFailure_live htaken hj hs hp hc
      rw [State.failAttempt_final (u := s.dropReport c) j reason hlimit, hnames.1] at htake
      exact hwritten (by rw [hm]; rfl) htake ((hput (x := r.failedFor reason) true
        ⟨rfl, rfl, rfl⟩).nodeFailedEntry (q := r.failedFor reason) hnames true 0 reason.code)
        (fun _ => nodeFailedEntry_alert _ _ _ _)
    · have hlive : (s.dropReport c).reported c jid = some (r, j) := State.reported_live htaken hj hs hp hc
      refine ⟨fun p hm => ?_, fun hm => ?_, fun n hm => ?_, fun n hm => ?_, fun digests hm => ?_, fun i l hm hl => ?_, fun hm => ?_⟩
      · have hstate : p.nodeState ≠ .failed := by cases p <;> decide
        have htake := State.takeGrant_live hlive p
        rw [← hm] at htake
        have hr := hwritten (by rw [hm]; rfl) htake (hput false ⟨rfl, rfl, rfl⟩) (fun h => absurd h hstate)
        cases p <;> exact hr
      · exact hwritten (by rw [hm]; rfl) (hm ▸ State.takeYield_live hlive) (hput false ⟨rfl, rfl, rfl⟩) (fun h => by cases h)
      · have hw := hput (x := { r with job := some { j with retry := n } }) false ⟨rfl, rfl, rfl⟩
        exact hmoved (by rw [hm]; rfl) (hm ▸ State.takeRetry_live hlive n) hw.toJobMoved (by rw [hw.asked])
          (fun h => absurd h hf) (fun h => absurd hm (h n).1)
      · have hw := hput (x := { r with job := some { j with s := n } }) false ⟨rfl, rfl, rfl⟩
        exact hmoved (by rw [hm]; rfl) (hm ▸ State.takeProgress_live hlive n) hw.toJobMoved (by rw [hw.asked])
          (fun h => absurd h hf) (fun h => absurd hm (h n).2)
      · obtain ⟨hcar, hdrop, hat, hstate⟩ := r.reloading_names j (differing s.isc.records[j.copy].table digests)
        have hw := (hput false ⟨hcar, hdrop, hat⟩).nodeEntry (k := .surveyResult) (by decide) hnames
          (surveyBody (differing s.isc.records[j.copy].table digests))
        rw [surveyBody_eq] at hw
        exact hwritten (by rw [hm]; rfl) (hm ▸ surveyBody_eq _ ▸ State.takeSurvey_live hlive digests) hw (fun h => absurd h hstate)
      · obtain ⟨hcar, hdrop, hat, hstate⟩ := r.reloading_names j l
        have htake := State.takeAccepted_live hlive
        rw [hl, List.tail_cons, ← hm] at htake
        exact hwritten (by rw [hm]; rfl) htake (hput false ⟨hcar, hdrop, hat⟩) (fun h => absurd h hstate)
      · have hw := (hput true (x := { r with state := .ready, job := none }) ⟨rfl, rfl, rfl⟩).nodeEntry (k := .nodeReady) (by decide)
          hnames (readyBody r j)
        rw [readyBody_eq] at hw
        exact hwritten (by rw [hm]; rfl) (hm ▸ readyBody_eq r j ▸ State.takeSuccess_live hlive) hw (fun h => by cases h)

end Sys2Proof.Machine
end

section
/-! Digests and masked digests of runs of bytes (R34 to R36). -/

namespace Sys2Proof.Machine

/-! ## The two sums -/

/-- Feeding a run in parts. -/
theorem Sums.feedAll_append (z : Sums) (l m : List Byte) : z.feedAll (l ++ m) = (z.feedAll l).feedAll m := by
  induction l generalizing z with
  | nil => rfl
  | cons b rest ih => exact ih _

/-- A after the first `n` bytes of a run. -/
def partialA (l : List Byte) (n : Nat) : Nat := (1 + ((l.take n).map BitVec.toNat).sum) % 65521

/-- The partial values of A, one for each byte taken, together. -/
def partialSum (l : List Byte) : Nat := ((List.range l.length).map (fun n => partialA l (n + 1))).sum

theorem partialA_append_left {l : List Byte} {n : Nat} (h : n ≤ l.length) (m : List Byte) :
    partialA (l ++ m) n = partialA l n := by
  rw [partialA, List.take_append_of_le_length h, partialA]

theorem partialA_concat (l : List Byte) (x : Byte) :
    partialA (l ++ [x]) (l.length + 1) = (partialA l l.length + x.toNat) % 65521 := by
  have hall : (l ++ [x]).take (l.length + 1) = l ++ [x] := List.take_of_length_le (by simp)
  simp only [partialA, hall, List.take_length, List.map_append, List.sum_append, List.map_cons, List.map_nil, List.sum_singleton]
  omega

theorem partialSum_concat (l : List Byte) (x : Byte) :
    partialSum (l ++ [x]) = partialSum l + partialA (l ++ [x]) (l.length + 1) := by
  have hold : (List.range l.length).map (fun n => partialA (l ++ [x]) (n + 1))
      = (List.range l.length).map (fun n => partialA l (n + 1)) :=
    List.map_congr_left (fun n hn => partialA_append_left (by simp at hn; omega) [x])
  rw [partialSum, List.length_append, List.length_singleton, List.range_succ, List.map_append, List.sum_append, hold]
  simp [partialSum]

theorem Sums.feedAll_init (l : List Byte) : Sums.init.feedAll l = ⟨partialA l l.length, partialSum l % 65521⟩ := by
  induction l using List.reverseRecOn with
  | nil => rfl
  | append_singleton l x ih =>
    rw [Sums.feedAll_append, ih, partialSum_concat, List.length_append, List.length_singleton, partialA_concat]
    simp only [Sums.feedAll, Sums.feed, Config.digestMod, Nat.mod_add_mod]

theorem digestOf_eq (l : List Byte) : digestOf l = BitVec.ofNat 32 (partialSum l % 65521 * 65536 + partialA l l.length) := by
  rw [digestOf, Sums.feedAll_init, Sums.digest]

/-- Both halves of a digest are residues. -/
theorem digestOf_halves (l : List Byte) : (digestOf l).toNat / 65536 ≤ 65520 ∧ (digestOf l).toNat % 65536 ≤ 65520 := by
  have hb : partialSum l % 65521 < 65521 := Nat.mod_lt _ (by decide)
  have ha : partialA l l.length < 65521 := Nat.mod_lt _ (by decide)
  rw [digestOf_eq, BitVec.toNat_ofNat]
  omega

/-! ## The bytes of a digest (R35) -/

theorem extractLsb'_byte (d : Long) (i : Nat) : d.extractLsb' (8 * i) 8 = byteOf d.toNat i := by
  apply BitVec.eq_of_toNat_eq
  rw [BitVec.extractLsb'_toNat, byteOf, BitVec.toNat_ofNat, Nat.shiftRight_eq_div_pow]

theorem le32_eq_extracts (d : Long) :
    le32 d.toNat = [d.extractLsb' 0 8, d.extractLsb' 8 8, d.extractLsb' 16 8, d.extractLsb' 24 8] := by
  rw [le32, ← extractLsb'_byte, ← extractLsb'_byte, ← extractLsb'_byte, ← extractLsb'_byte]

theorem longAt_le32 (v : Nat) : longAt (le32 v) 0 = v % 4294967296 := by
  simp only [longAt, le32, List.drop_zero, List.take_succ_cons, List.take_zero, leNat, byteOf, BitVec.toNat_ofNat]
  omega

/-! ## Masking (R36) -/

theorem isMasked_iff (spans : List Span) (p : Nat) : isMasked spans p = true ↔ ∃ x ∈ spans, x.off ≤ p ∧ p < x.off + x.len := by
  simp only [isMasked, List.any_eq_true, Bool.and_eq_true, decide_eq_true_eq]

/-- Each byte is masked by its own image position. -/
theorem maskFrom_eq_mapIdx (spans : List Span) (p : Nat) (l : List Byte) :
    maskFrom spans p l = l.mapIdx (fun i b => if isMasked spans (p + i) then 0 else b) := by
  induction l generalizing p with
  | nil => rfl
  | cons b rest ih => rw [maskFrom, ih, List.mapIdx_cons]; simp only [Nat.add_zero, Nat.add_assoc, Nat.add_comm 1]

@[simp] theorem maskFrom_length (spans : List Span) (p : Nat) (l : List Byte) : (maskFrom spans p l).length = l.length := by
  rw [maskFrom_eq_mapIdx, List.length_mapIdx]

theorem maskFrom_getElem? {l : List Byte} {i : Nat} {b : Byte} (h : l[i]? = some b) (spans : List Span) (p : Nat) :
    (maskFrom spans p l)[i]? = some (if isMasked spans (p + i) then 0 else b) := by
  rw [maskFrom_eq_mapIdx, List.getElem?_mapIdx, h, Option.map_some]

theorem maskFrom_append (spans : List Span) (p : Nat) (l m : List Byte) :
    maskFrom spans p (l ++ m) = maskFrom spans p l ++ maskFrom spans (p + l.length) m := by
  simp only [maskFrom_eq_mapIdx, List.mapIdx_append, Nat.add_assoc, Nat.add_comm l.length]

theorem maskFrom_noSpans (p : Nat) (l : List Byte) : maskFrom [] p l = l := by
  induction l generalizing p with
  | nil => rfl
  | cons b rest ih => rw [maskFrom, ih]; rfl

/-! ## The statement -/

/-- Settles O30, from the sums by induction on the run and masking position by position. -/
theorem digestsOfBytes : Obligations.DigestsOfBytes := by
  refine ⟨⟨fun l => ?_, fun d => ?_⟩, fun spans p i l b hb => ?_, fun spans p l m z => ?_⟩
  · exact ⟨digestOf_eq l, digestOf_halves l⟩
  · exact ⟨le32_eq_extracts d, by rw [longAt_le32]; exact Nat.mod_eq_of_lt d.isLt⟩
  · rw [maskFrom_getElem? hb, ← isMasked_iff]
    exact ⟨maskFrom_length spans p l, fun h => by rw [if_pos h], fun h => by rw [if_neg h]⟩
  · exact ⟨by rw [maskFrom_append, Sums.feedAll_append], maskFrom_noSpans p l⟩

end Sys2Proof.Machine
end

section
/-! What the store keeps while a read ends: its steps settled, the bytes passed, a copy that fails its check (R38, R39, R128,
R135, R137). -/

namespace Sys2Proof.Machine

/-! ## The store settled -/

section
variable (s : State)

@[simp] theorem State.settleStore_requests : s.settleStore.isc.requests = s.isc.requests := (settleStore_others s).1
@[simp] theorem State.settleStore_chan : s.settleStore.chan = s.chan := (settleStore_others s).2.1
@[simp] theorem State.settleStore_jrn : s.settleStore.jrn = s.jrn := (settleStore_others s).2.2.1
@[simp] theorem State.settleStore_lines : s.settleStore.lines = s.lines := (settleStore_others s).2.2.2

end

/-- Nothing a line does reaches the records, the pending marks, the read in progress or flash. -/
theorem LineKept.store {c : Car} {s t : State} (h : LineKept c s t) :
    t.isc.records = s.isc.records ∧ t.isc.pendingMarks = s.isc.pendingMarks ∧ t.isc.reading = s.isc.reading
      ∧ t.flash = s.flash ∧ t.chan.iscRpl = s.chan.iscRpl := by
  obtain ⟨_, _, _, hisc⟩ := h.isc
  obtain ⟨_, _, _, hchan⟩ := h.chan
  rw [hisc, hchan]
  exact ⟨rfl, rfl, rfl, h.flash, rfl⟩

/-- The step of the work, in flight or still to come. -/
def Work.stepIs (w : Work) (op : FlashOp) : Prop := w.op = some op ∨ w.due.map Prod.fst = some op

/-- What settling makes of the work: the table built stays, and a step still to come is at most begun. -/
theorem State.settleStore_work {s : State} {w : Work} (h : s.isc.work = some w) :
    ∃ w', s.settleStore.isc.work = some w' ∧ w'.table = w.table
      ∧ ∀ op, w.due.map Prod.fst = some op → w'.stepIs op := by
  unfold State.settleStore
  rw [h]
  dsimp only
  split
  next op wait hdue =>
    split
    · exact ⟨_, rfl, rfl, fun op' hop => .inl (by simpa [hdue] using hop)⟩
    · exact ⟨w, h, rfl, fun op' hop => .inr hop⟩
  next hdue =>
    have hnone : ∀ op', w.due.map Prod.fst ≠ some op' := fun op' => by simp [hdue]
    split
    · exact ⟨_, rfl, rfl, fun op' hop => absurd hop (hnone op')⟩
    · split
      · exact ⟨_, rfl, rfl, fun op' hop => absurd hop (hnone op')⟩
      · exact ⟨w, h, rfl, fun op' hop => absurd hop (hnone op')⟩

/-- A step scheduled is the work's step, and no request comes or goes by it. -/
theorem State.schedule_work (s : State) (w : Work) (op : FlashOp) (wait : Wait) :
    ∃ w', (s.schedule w op wait).isc.work = some w' ∧ w'.table = w.table ∧ w'.stepIs op := by
  obtain ⟨w', hw, htable, hstep⟩ := State.settleStore_work (s := (s.setWork (some { w with
    op := none, due := some (op, wait), sliceOver := false, suspending := false, suspended := false })).setStoreState
      (w.stateFor op)) rfl
  exact ⟨w', hw, htable, hstep op rfl⟩

theorem State.schedule_requests (s : State) (w : Work) (op : FlashOp) (wait : Wait) :
    (s.schedule w op wait).isc.requests = s.isc.requests := State.settleStore_requests _

theorem LineKept.schedule (c : Car) (s : State) (w : Work) (op : FlashOp) (wait : Wait) : LineKept c s (s.schedule w op wait) :=
  LineKept.trans (t := (s.setWork _).setStoreState _) {} (LineKept.settleStore c _)

@[simp] theorem State.addRequest_requests (s : State) (q : ReadReq) : (s.addRequest q).isc.requests = s.isc.requests ++ [q] :=
  State.settleStore_requests _

theorem State.addRequest_work {s : State} {w : Work} (h : s.isc.work = some w) (q : ReadReq) :
    ∃ w', (s.addRequest q).isc.work = some w' ∧ w'.table = w.table := by
  obtain ⟨w', hw, htable, -⟩ := State.settleStore_work (s := { s with isc := { s.isc with requests := s.isc.requests ++ [q] } }) h
  exact ⟨w', hw, htable⟩

/-! ## The bytes of a read -/

/-- The flash array once the read has passed: cells found changed are as found (R39). -/
def State.readFlash (s : State) (q : ReadReq) (decay : Decay) : Flash :=
  s.flash.setBank (copyOf q.copy) ((s.flash.bank (copyOf q.copy)).decay (segmentAddr q.copy q.index)
    (segLen s.isc.records[q.copy].desc q.index) decay)

/-- The bytes the read gave. -/
def State.readData (s : State) (q : ReadReq) (decay : Decay) : List Byte :=
  (s.readFlash q decay).segment q.copy q.index (segLen s.isc.records[q.copy].desc q.index)

/-- Its bytes with the masked ones as 0x00. -/
def State.readMasked (s : State) (q : ReadReq) (decay : Decay) : List Byte :=
  maskSegment s.isc.records[q.copy].desc q.index (s.readData q decay)

theorem State.readPassed_eq (s : State) (q : ReadReq) (decay : Decay) : s.readPassed q decay =
    { s with
      flash := s.readFlash q decay
      isc := { s.isc with reading := none }
      dge := { s.dge with masked := s.dge.masked.feedAll (s.readMasked q decay)
                          unmasked := s.dge.unmasked.feedAll (s.readData q decay), context := none } } := rfl

/-! ## A failed read check -/

theorem State.clearOpen_eq (s : State) (r : CopyIx) :
    ∃ o : Vector (Option CopyId) 16, s.clearOpen r = { s with isc := { s.isc with openCopy := o } } := by
  unfold State.clearOpen
  split
  · exact ⟨_, rfl⟩
  · exact ⟨_, rfl⟩

/-- A copy marked DAMAGED: its record, its slot's open copy, one entry asked for and the news, the marking first. -/
theorem State.markDamaged_eq (s : State) (r : CopyIx) (v : CopyRec) (cause : CopyCause) :
    ∃ (o : Vector (Option CopyId) 16) (news : List StoreNews), s.markDamaged r v cause =
    { s.setRecord r { v with state := .damaged, use := s.isc.records[r].use } with
      isc := { s.isc with records := s.isc.records.set r { v with state := .damaged, use := s.isc.records[r].use }
                          openCopy := o }
      jrn := { s.jrn with requests := s.jrn.requests ++ [⟨.isc, copyStateEntry s.ord.uptime r .damaged cause⟩] }
      chan := { s.chan with iscRpl := s.chan.iscRpl ++ .damaged r :: news } } := by
  obtain ⟨o, ho⟩ := (s.setRecord r { v with state := .damaged, use := s.isc.records[r].use }).clearOpen_eq r
  have happ : ∀ n, s.chan.iscRpl ++ [StoreNews.damaged r] ++ [n] = s.chan.iscRpl ++ .damaged r :: [n] := fun n => by simp
  unfold State.markDamaged
  rw [ho]
  dsimp only
  split
  · exact ⟨o, [.activeChanged (slotOf r)], by rw [← happ]; rfl⟩
  · exact ⟨o, [], rfl⟩

theorem State.failReadCheck_damaged {s : State} {r : CopyIx} (h : s.isc.records[r].state = .damaged) : s.failReadCheck r = s :=
  if_pos h

/-- A copy not yet DAMAGED is marked so, and its mark joins the pending ones (R137, R138). -/
theorem State.failReadCheck_eq {s : State} {r : CopyIx} (h : s.isc.records[r].state ≠ .damaged) :
    ∃ (o : Vector (Option CopyId) 16) (news : List StoreNews), s.failReadCheck r =
    { s.setRecord r { s.isc.records[r] with state := .damaged } with
      isc := { s.isc with records := s.isc.records.set r { s.isc.records[r] with state := .damaged }, openCopy := o
                          pendingMarks := s.isc.pendingMarks ++ [r] }
      jrn := { s.jrn with requests := s.jrn.requests ++ [⟨.isc, copyStateEntry s.ord.uptime r .damaged .readCheck⟩] }
      chan := { s.chan with iscRpl := s.chan.iscRpl ++ .damaged r :: news } } := by
  obtain ⟨o, news, hmark⟩ := s.markDamaged_eq r s.isc.records[r] .readCheck
  refine ⟨o, news, ?_⟩
  unfold State.failReadCheck
  rw [if_neg h, hmark]

/-- What a failed check does not touch. -/
theorem State.failReadCheck_rest (s : State) (r : CopyIx) :
    (s.failReadCheck r).lines = s.lines ∧ (s.failReadCheck r).chan.clcRpl = s.chan.clcRpl
      ∧ (s.failReadCheck r).isc.requests = s.isc.requests ∧ (s.failReadCheck r).isc.reading = s.isc.reading
      ∧ (s.failReadCheck r).flash = s.flash ∧ ∀ k : CopyIx, (s.failReadCheck r).isc.records[k].desc = s.isc.records[k].desc := by
  by_cases h : s.isc.records[r].state = .damaged
  · rw [State.failReadCheck_damaged h]
    exact ⟨rfl, rfl, rfl, rfl, rfl, fun _ => rfl⟩
  · obtain ⟨o, news, heq⟩ := State.failReadCheck_eq h
    rw [heq]
    refine ⟨rfl, rfl, rfl, rfl, rfl, fun k => ?_⟩
    simp only [Fin.getElem_fin, Vector.getElem_set]
    split
    next hk => obtain rfl := Fin.ext hk; rfl
    · rfl

end Sys2Proof.Machine
end

section
/-! The end of a closing read (R38 to R40, R143). -/

namespace Sys2Proof.Machine

section
variable {s : State} {q : ReadReq} {w : Work} (decay : Decay)

theorem exec_closingReadEnd (hrun : s.isRunning = true) (hq : s.isc.reading = some q) (hwho : q.who = .closing)
    (hw : s.isc.work = some w) : exec (.closingReadEnd decay) s = .next (publish s (s.closingReadEnds q w decay)) := by
  show execClosingReadEnd decay s = _
  simp only [execClosingReadEnd, hrun, hq, hw, hwho, if_true]
  rfl

/-- The state in which the next closing read is requested or the table scheduled. -/
def State.closingTaken (s : State) (q : ReadReq) (w : Work) (decay : Decay) : State :=
  { s with
    flash := s.readFlash q decay
    isc := { s.isc with reading := none
                        work := some { w with table := w.table ++ [digestOf (s.readMasked q decay)] } }
    dge := { s.dge with masked := Sums.init.feedAll (s.readMasked q decay)
                        unmasked := s.dge.unmasked.feedAll (s.readData q decay), context := none
                        closing := s.dge.closing.feedAll (s.readMasked q decay), next := s.dge.next + 1 } }

/-- What follows in the store leaves the read ended, the flash, the records and the sums. -/
theorem State.closingTaken_kept {decay : Decay} {t : State} (h : LineKept 0 (s.closingTaken q w decay) t) : t.isc.reading = none
    ∧ t.flash = s.readFlash q decay ∧ t.isc.records = s.isc.records ∧ t.dge = (s.closingTaken q w decay).dge := by
  obtain ⟨hrecords, -, hreading, hflash, -⟩ := h.store
  exact ⟨hreading, hflash, hrecords, h.dge⟩

/-- A closing read in its turn whose sums were set as it began. -/
theorem State.closingReadEnds_eq (hsums : s.dge.masked = ⟨1, 0⟩) (hturn : q.index = s.dge.next) : s.closingReadEnds q w decay =
    if q.index + 1 < s.isc.records[q.copy].desc.segments then
      (s.closingTaken q w decay).addRequest ⟨.closing, q.copy, q.index + 1⟩
    else (s.closingTaken q w decay).schedule { w with table := w.table ++ [digestOf (s.readMasked q decay)] }
      (.tables q.copy) .read := by
  unfold State.closingReadEnds
  rw [State.readPassed_eq, hsums]
  dsimp only
  rw [if_pos hturn]
  rfl

end

/-- Settles O44: the table entry and the sums are in place before the next request is made or the table scheduled, and neither
reaches them. -/
theorem closingReadsBuildTheTable : Obligations.ClosingReadsBuildTheTable := by
  intro s q w decay hrun hq hwho hw hsums hturn
  refine ⟨_, exec_closingReadEnd decay hrun hq hwho hw, ?_⟩
  simp only [publish_isc, publish_flash, publish_dge]
  rw [State.closingReadEnds_eq decay hsums hturn]
  split
  next hmore =>
    obtain ⟨hreading, hflash, hrecords, hdge⟩ := State.closingTaken_kept (LineKept.addRequest 0 _ ⟨.closing, q.copy, q.index + 1⟩)
    obtain ⟨w', hw', htable⟩ := State.addRequest_work (s := s.closingTaken q w decay) rfl ⟨.closing, q.copy, q.index + 1⟩
    refine ⟨hreading, hflash, hrecords, by rw [hdge]; rfl, by rw [hdge]; rfl, ?_, fun _ => State.addRequest_requests _ _,
      fun hlast => by omega⟩
    exact (congrArg _ hw').trans (congrArg some htable)
  next hlast =>
    obtain ⟨hreading, hflash, hrecords, hdge⟩ := State.closingTaken_kept (LineKept.schedule 0 _ _ (.tables q.copy) .read)
    obtain ⟨w', hw', htable, hstep⟩ := State.schedule_work (s.closingTaken q w decay)
      { w with table := w.table ++ [digestOf (s.readMasked q decay)] } (.tables q.copy) .read
    refine ⟨hreading, hflash, hrecords, by rw [hdge]; rfl, by rw [hdge]; rfl, ?_, fun hmore => absurd hmore hlast,
      fun _ => ⟨State.schedule_requests _ _ _ _, w', hw', hstep⟩⟩
    exact (congrArg _ hw').trans (congrArg some htable)

end Sys2Proof.Machine
end

section
/-! What a line does as a read of one of its buffers ends (R104 to R106, R112), and what of it reaches the rest of the part. -/

namespace Sys2Proof.Machine

/-! ## Requests and releases concern the buffers alone -/

/-- No news and no entry request has come between two states, and the line of car c has its job and queue. -/
structure BuffersOnly (c : Car) (s t : State) : Prop where
  chan : t.chan = s.chan := by rfl
  jrn : t.jrn = s.jrn := by rfl
  holding : t.lines[c].holding = s.lines[c].holding := by rfl
  queue : t.lines[c].queue = s.lines[c].queue := by rfl

theorem BuffersOnly.trans {c : Car} {s t u : State} (h : BuffersOnly c s t) (k : BuffersOnly c t u) : BuffersOnly c s u :=
  ⟨k.chan.trans h.chan, k.jrn.trans h.jrn, k.holding.trans h.holding, k.queue.trans h.queue⟩

theorem Line.setBuf_jobs (l : Line) (y : Bool) (b : SegBuf) :
    (l.setBuf y b).holding = l.holding ∧ (l.setBuf y b).queue = l.queue := by
  cases y
  · exact ⟨rfl, rfl⟩
  · exact ⟨rfl, rfl⟩

section
variable (s : State) (c : Car)

theorem BuffersOnly.setLine {l : Line} (h : l.holding = s.lines[c].holding ∧ l.queue = s.lines[c].queue) :
    BuffersOnly c s (s.setLine c l) where
  holding := (congrArg Line.holding (set_get _ _ _)).trans h.1
  queue := (congrArg Line.queue (set_get _ _ _)).trans h.2

theorem BuffersOnly.settleStore : BuffersOnly c s s.settleStore :=
  have hline : s.settleStore.lines[c] = s.lines[c] := congrArg (fun v : Vector Line 6 => v[c]) s.settleStore_lines
  ⟨s.settleStore_chan, s.settleStore_jrn, congrArg Line.holding hline, congrArg Line.queue hline⟩

theorem BuffersOnly.addRequest (q : ReadReq) : BuffersOnly c s (s.addRequest q) :=
  BuffersOnly.trans (t := { s with isc := { s.isc with requests := s.isc.requests ++ [q] } }) {} (.settleStore _ c)

theorem BuffersOnly.withdraw (d : Car) (y : Bool) : BuffersOnly c s (s.withdraw d y) := by
  unfold State.withdraw
  dsimp only
  exact BuffersOnly.trans (t := { s with isc := { s.isc with requests := _ } }) {} (.settleStore _ c)

theorem BuffersOnly.requestRead (i : Nat) : BuffersOnly c s (s.requestRead c i) := by
  unfold State.requestRead
  dsimp only
  split
  · exact {}
  · split
    · exact .setLine s c ⟨rfl, rfl⟩
    · exact (BuffersOnly.setLine s c (Line.setBuf_jobs _ _ _)).trans (.addRequest _ c _)

theorem BuffersOnly.requestLowest : BuffersOnly c s (s.requestLowest c) := by
  unfold State.requestLowest
  dsimp only
  split
  · exact {}
  · split
    · exact {}
    · split
      · exact {}
      · exact .requestRead s c _

theorem BuffersOnly.releaseBuffer (y : Bool) : BuffersOnly c s (s.releaseBuffer c y) := by
  have h := BuffersOnly.setLine s c (s.lines[c].setBuf_jobs y (s.lines[c].buf y).released)
  unfold State.releaseBuffer
  dsimp only
  split
  · exact h.trans (.withdraw _ c c y)
  · exact h

theorem BuffersOnly.releaseBuffers : BuffersOnly c s (s.releaseBuffers c) :=
  ((BuffersOnly.releaseBuffer s c false).trans (.releaseBuffer _ c true)).trans (.setLine _ c ⟨rfl, rfl⟩)

/-! ## A failed attempt -/

/-- The line granted to a job: the grant is reported, and the job holds the line. -/
theorem State.granted_spec (j : LineJob) :
    let u := (s.setLine c (s.lines[c].granted j)).report c (.granted j.jid j.phase)
    s.chan.clcRpl[c] <+: u.chan.clcRpl[c] ∧ u.jrn = s.jrn ∧ u.lines[c].holding = some { j with s := 0 } := by
  refine ⟨?_, rfl, ?_⟩
  · rw [State.report_chan, appendAt, set_get]
    exact List.prefix_append _ _
  · rw [State.report_lines, State.setLine_lines, set_get]
    rfl

/-- A grant reports to the RPL and asks for no entry; the line then holds a job of its queue. -/
theorem State.tryGrant_spec : s.chan.clcRpl[c] <+: (s.tryGrant c).chan.clcRpl[c] ∧ (s.tryGrant c).jrn = s.jrn
    ∧ ((s.tryGrant c).lines[c].holding = s.lines[c].holding
      ∨ ∃ j ∈ s.lines[c].queue, (s.tryGrant c).lines[c].holding = some { j with s := 0 }) := by
  unfold State.tryGrant
  dsimp only
  split
  · split
    · exact ⟨List.prefix_refl _, rfl, .inl rfl⟩
    next j hj =>
      have hmem : j ∈ s.lines[c].queue := List.mem_of_find?_eq_some hj
      obtain ⟨htold, hjrn, hheld⟩ := s.granted_spec c j
      generalize (s.setLine c (s.lines[c].granted j)).report c (.granted j.jid j.phase) = u at htold hjrn hheld ⊢
      have hq := BuffersOnly.requestLowest u c
      have hload : s.chan.clcRpl[c] <+: (u.requestLowest c).chan.clcRpl[c] := by rwa [hq.chan]
      split
      · exact ⟨hload, hq.jrn.trans hjrn, .inr ⟨j, hmem, hq.holding.trans hheld⟩⟩
      · exact ⟨htold, hjrn, .inr ⟨j, hmem, hheld⟩⟩
  · exact ⟨List.prefix_refl _, rfl, .inl rfl⟩

/-- The line its job has left, not yet granted anew. -/
def State.lineLeft (s : State) (c : Car) : State := (s.releaseBuffers c).setLine c ((s.releaseBuffers c).lines[c].vacated none)

theorem State.leaveLine_eq : s.leaveLine c none = (s.lineLeft c).tryGrant c := rfl

theorem Line.vacated_free (l : Line) : (l.vacated none).holding = none ∧ (l.vacated none).queue = l.queue := ⟨rfl, rfl⟩

/-- Nothing is reported by a line left, and it has its queue but no job. -/
theorem State.lineLeft_spec : (s.lineLeft c).chan = s.chan ∧ (s.lineLeft c).jrn = s.jrn
    ∧ (s.lineLeft c).lines[c].holding = none ∧ (s.lineLeft c).lines[c].queue = s.lines[c].queue := by
  have hq := BuffersOnly.releaseBuffers s c
  have hline : (s.lineLeft c).lines[c] = (s.releaseBuffers c).lines[c].vacated none := set_get _ _ _
  obtain ⟨hfree, hqueue⟩ := (s.releaseBuffers c).lines[c].vacated_free
  rw [hline, hfree, hqueue]
  exact ⟨(State.setLine_chan _ c _).trans hq.chan, (State.setLine_jrn _ c _).trans hq.jrn, rfl, hq.queue⟩

/-- A job that leaves its line leaves it without a job or with one of the queue. -/
theorem State.leaveLine_spec : s.chan.clcRpl[c] <+: (s.leaveLine c none).chan.clcRpl[c] ∧ (s.leaveLine c none).jrn = s.jrn
    ∧ ((s.leaveLine c none).lines[c].holding = none
      ∨ ∃ j ∈ s.lines[c].queue, (s.leaveLine c none).lines[c].holding = some { j with s := 0 }) := by
  obtain ⟨hchan, hquiet, hfree, hqueue⟩ := s.lineLeft_spec c
  obtain ⟨htold, hjrn, hheld⟩ := (s.lineLeft c).tryGrant_spec c
  rw [hchan] at htold
  rw [hfree, hqueue] at hheld
  rw [State.leaveLine_eq]
  exact ⟨htold, hjrn.trans hquiet, hheld⟩

end

/-- The attempt of the job that holds the line fails: it is reported, and the job is not granted anew unless it waits too. -/
theorem State.attemptFails_spec {s : State} {c : Car} {j : LineJob} (h : s.lines[c].holding = some j) (reason : FailReason) :
    (s.chan.clcRpl[c] ++ [.failed j.jid reason]) <+: (s.attemptFails c reason).chan.clcRpl[c]
      ∧ (s.attemptFails c reason).jrn = s.jrn
      ∧ ((∀ x ∈ s.lines[c].queue, x.jid ≠ j.jid) → (s.attemptFails c reason).lines[c].holding.map LineJob.jid ≠ some j.jid) := by
  have hfails : s.attemptFails c reason = (s.report c (.failed j.jid reason)).leaveLine c none := by
    unfold State.attemptFails
    rw [h]
  obtain ⟨htold, hjrn, hheld⟩ := (s.report c (.failed j.jid reason)).leaveLine_spec c
  rw [State.report_chan, appendAt, set_get] at htold
  rw [hfails]
  refine ⟨htold, hjrn, fun hqueue hsame => ?_⟩
  rcases hheld with hnone | ⟨x, hx, hheld⟩
  · rw [hnone] at hsame
    cases hsame
  · rw [hheld, Option.map_some, Option.some.injEq] at hsame
    exact hqueue x hx hsame

/-! ## A buffer in FAULT (R106) -/

/-- The holding job is to send its lowest index next, with no exchange in flight and no ending mark (R106). -/
structure Line.SendsNext (l : Line) (j : LineJob) (i : Nat) (rest : List Nat) : Prop where
  exch : l.exch = none
  ending : l.ending = .unset
  phase : j.phase = .load
  reload : j.reload = i :: rest

section
variable {s : State} {c : Car}

theorem State.checkFault_free (h : s.lines[c].holding = none) : s.checkFault c = s := by
  unfold State.checkFault
  dsimp only
  rw [h]

theorem State.checkFault_busy {j : LineJob} (h : s.lines[c].holding = some j)
    (hbusy : s.lines[c].exch ≠ none ∨ s.lines[c].ending ≠ .unset ∨ j.phase ≠ .load ∨ j.reload = []) : s.checkFault c = s := by
  unfold State.checkFault
  dsimp only
  rw [h]
  refine if_neg fun ⟨hexch, hending, hphase, hreload, _⟩ => ?_
  tauto

theorem State.checkFault_fails {j : LineJob} {i : Nat} {rest : List Nat} (h : s.lines[c].holding = some j)
    (hnext : s.lines[c].SendsNext j i rest) (hfault : s.lines[c].faultAt j.jid i = true) :
    s.checkFault c = s.attemptFails c .storeFault := by
  unfold State.checkFault
  dsimp only
  rw [h]
  exact if_pos ⟨hnext.exch, hnext.ending, hnext.phase, by rw [hnext.reload]; exact List.cons_ne_nil i rest,
    by rw [hnext.reload]; exact hfault⟩

theorem LineKept.checkFault (c : Car) (s : State) : LineKept c s (s.checkFault c) := by
  unfold State.checkFault
  dsimp only
  split
  · exact LineKept.refl c s
  · exact LineKept.ite (fun _ => LineKept.attemptFails c s _) (fun _ => LineKept.refl c s)

theorem State.checkFault_jrn (s : State) (c : Car) : (s.checkFault c).jrn = s.jrn := by
  unfold State.checkFault
  dsimp only
  split
  · rfl
  next j hj =>
    split
    · exact (State.attemptFails_spec hj .storeFault).2.1
    · rfl

end

/-- The line with one of its buffers in FAULT. -/
def Line.faulted (l : Line) (y : Bool) : Line := l.setBuf y { l.buf y with state := .fault }

theorem Line.faulted_rest (l : Line) (y : Bool) : (l.faulted y).holding = l.holding ∧ (l.faulted y).queue = l.queue
    ∧ (l.faulted y).exch = l.exch ∧ (l.faulted y).ending = l.ending := by
  cases y
  · exact ⟨rfl, rfl, rfl, rfl⟩
  · exact ⟨rfl, rfl, rfl, rfl⟩

theorem Line.faultAt_faulted {l : Line} {y : Bool} {jid i : Nat} (hjob : (l.buf y).job = some jid)
    (hindex : (l.buf y).index = i) : (l.faulted y).faultAt jid i = true := by
  cases y
  · simp_all [Line.faultAt, Line.faulted, Line.setBuf, Line.buf, SegBuf.isFor]
  · simp_all [Line.faultAt, Line.faulted, Line.setBuf, Line.buf, SegBuf.isFor]

/-! ## A STALE buffer emptied (R112; log 26) -/

/-- The line once its STALE buffer is EMPTY and no request waits for it. -/
def Line.staleEmptied (l : Line) (y : Bool) : Line := { l.setBuf y SegBuf.reset with wantRead := none }

theorem Line.staleEmptied_jobs (l : Line) (y : Bool) :
    (l.staleEmptied y).holding = l.holding ∧ (l.staleEmptied y).queue = l.queue := l.setBuf_jobs y _

theorem Line.emptyBuf_staleEmptied {l : Line} {y : Bool} (h : (l.buf (!y)).state ≠ .empty) :
    (l.staleEmptied y).emptyBuf = some y := by
  cases y
  · rfl
  · exact (if_neg h).trans (if_pos rfl)

theorem Line.staleEmptied_setBuf (l : Line) (y : Bool) (b : SegBuf) :
    (l.staleEmptied y).setBuf y b = { l.setBuf y b with wantRead := none } := by
  cases y <;> rfl

section
variable {s : State} {c : Car} {y : Bool}

/-- The request of the holding job for an index goes to the arbiter by the buffer that is EMPTY (R104). -/
theorem State.requestRead_eq {j : LineJob} (h : s.lines[c].holding = some j) (hempty : s.lines[c].emptyBuf = some y) (i : Nat) :
    s.requestRead c i = (s.setLine c (s.lines[c].setBuf y { SegBuf.reset with
      state := .waiting, job := some j.jid, copy := j.copy, index := i
      len := segLen s.isc.records[j.copy].desc i })).addRequest ⟨.job c y j.cls, j.copy, i⟩ := by
  unfold State.requestRead
  dsimp only
  rw [h]
  dsimp only
  rw [hempty]
  rfl

theorem State.emptyStale_unwanted (h : s.lines[c].wantRead = none ∨ s.lines[c].holding = none) :
    s.emptyStale c y = s.setLine c (s.lines[c].staleEmptied y) := by
  unfold State.emptyStale
  dsimp only
  split
  · rfl
  next i hi =>
    have hfree : s.lines[c].holding = none := h.resolve_left (by rw [hi]; simp)
    have : (s.setLine c (s.lines[c].staleEmptied y)).lines[c].holding = none := by
      rw [State.setLine_lines, set_get, (Line.staleEmptied_jobs _ y).1, hfree]
    show (s.setLine c (s.lines[c].staleEmptied y)).requestRead c i = _
    unfold State.requestRead
    dsimp only
    rw [this]

theorem State.emptyStale_wanted {i : Nat} {j : LineJob} (hwant : s.lines[c].wantRead = some i) (h : s.lines[c].holding = some j)
    (hother : (s.lines[c].buf (!y)).state ≠ .empty) :
    (s.emptyStale c y).isc.requests = s.isc.requests ++ [⟨.job c y j.cls, j.copy, i⟩]
      ∧ (s.emptyStale c y).lines = s.lines.set c { s.lines[c].setBuf y { SegBuf.reset with
          state := .waiting, job := some j.jid, copy := j.copy, index := i
          len := segLen s.isc.records[j.copy].desc i } with wantRead := none } := by
  have hline : (s.setLine c (s.lines[c].staleEmptied y)).lines[c] = s.lines[c].staleEmptied y := set_get _ _ _
  have heq : s.emptyStale c y = (s.setLine c (s.lines[c].staleEmptied y)).requestRead c i := by
    unfold State.emptyStale
    dsimp only
    rw [hwant]
    rfl
  rw [heq, State.requestRead_eq (j := j) (y := y) (by rw [hline, (Line.staleEmptied_jobs _ y).1, h])
    (by rw [hline, Line.emptyBuf_staleEmptied hother])]
  refine ⟨State.addRequest_requests _ _, (State.settleStore_lines _).trans ?_⟩
  rw [State.setLine_lines, hline, State.setLine_lines, State.setLine_isc, Line.staleEmptied_setBuf]
  exact Vector.set_set ..

theorem LineKept.emptyStale (c : Car) (s : State) (y : Bool) : LineKept c s (s.emptyStale c y) := by
  unfold State.emptyStale
  dsimp only
  split
  · exact LineKept.setLine c s _
  · exact (LineKept.setLine c s _).trans (LineKept.requestRead c _ _)

theorem BuffersOnly.emptyStale (s : State) (c : Car) (y : Bool) : BuffersOnly c s (s.emptyStale c y) := by
  have h := BuffersOnly.setLine s c (s.lines[c].staleEmptied_jobs y)
  unfold State.emptyStale
  dsimp only
  split
  · exact h
  · exact h.trans (.requestRead _ c _)

end

end Sys2Proof.Machine
end

section
/-! The end of a job read (R38, R39, R105, R106, R112, R137). -/

namespace Sys2Proof.Machine

/-! ## The check -/

/-- The read's masked digest is that of the copy's table (R39). -/
abbrev State.ReadMatches (s : State) (q : ReadReq) (decay : Decay) : Prop :=
  s.isc.records[q.copy].table[q.index]? = some (digestOf (s.readMasked q decay))

/-- The state once the read has been checked, its buffer still to be set. -/
def State.readChecked (s : State) (q : ReadReq) (decay : Decay) : State :=
  if s.ReadMatches q decay then (s.readPassed q decay).settleStore else (s.readPassed q decay).settleStore.failReadCheck q.copy

/-- What the check of a job read leaves of the store: the records as they were, or the copy DAMAGED once, with its entry and its
mark owed. -/
structure ReadCheckDone (s : State) (r : CopyIx) (f : Flash) (same : Prop) (t : State) : Prop where
  reading : t.isc.reading = none
  flash : t.flash = f
  passed : same → t.isc.records = s.isc.records ∧ t.isc.pendingMarks = s.isc.pendingMarks ∧ t.jrn = s.jrn
    ∧ t.chan.iscRpl = s.chan.iscRpl
  failed : ¬ same → t.isc.records[r].state = .damaged ∧ t.isc.records[r].use = s.isc.records[r].use
    ∧ (∀ k : CopyIx, k ≠ r → t.isc.records[k] = s.isc.records[k])
    ∧ (s.isc.records[r].state ≠ .damaged → t.isc.pendingMarks = s.isc.pendingMarks ++ [r]
      ∧ t.jrn.requests = s.jrn.requests ++ [⟨.isc, copyStateEntry s.ord.uptime r .damaged .readCheck⟩]
      ∧ .damaged r ∈ t.chan.iscRpl)
    ∧ (s.isc.records[r].state = .damaged → t.isc.pendingMarks = s.isc.pendingMarks ∧ t.jrn = s.jrn
      ∧ t.chan.iscRpl = s.chan.iscRpl)

/-- What a line then does leaves that as it is, unless it asks for an entry. -/
theorem ReadCheckDone.line {s t u : State} {r : CopyIx} {f : Flash} {same : Prop} {c : Car} (h : ReadCheckDone s r f same t)
    (k : LineKept c t u) (hjrn : u.jrn = t.jrn) : ReadCheckDone s r f same u := by
  obtain ⟨hrecords, hmarks, hreading, hflash, hnews⟩ := k.store
  refine ⟨hreading.trans h.reading, hflash.trans h.flash, ?_, ?_⟩
  · rw [hrecords, hmarks, hjrn, hnews]
    exact h.passed
  · rw [hrecords, hmarks, hjrn, hnews]
    exact h.failed

/-- A failed check, on a state in which the read has ended. -/
theorem State.failReadCheck_done (u : State) (r : CopyIx) (hreading : u.isc.reading = none) :
    ReadCheckDone u r u.flash False (u.failReadCheck r) := by
  obtain ⟨-, -, -, hread, hflash, -⟩ := u.failReadCheck_rest r
  refine ⟨hread.trans hreading, hflash, False.elim, fun _ => ?_⟩
  by_cases h : u.isc.records[r].state = .damaged
  · rw [State.failReadCheck_damaged h]
    exact ⟨h, rfl, fun _ _ => rfl, fun hne => absurd h hne, fun _ => ⟨rfl, rfl, rfl⟩⟩
  · obtain ⟨o, news, heq⟩ := State.failReadCheck_eq h
    rw [heq]
    refine ⟨by simp, by simp, fun k hk => ?_, fun _ => ⟨rfl, rfl, by simp⟩, fun hd => absurd hd h⟩
    simp only [Fin.getElem_fin]
    exact Vector.getElem_set_ne _ _ (fun hh => hk (Fin.ext hh).symm)

section
variable (s : State) (q : ReadReq) (decay : Decay)

/-- The read passed and the store settled, nothing of the records or the news has changed. -/
theorem State.readPassed_settled : (s.readPassed q decay).settleStore.isc.records = s.isc.records
    ∧ (s.readPassed q decay).settleStore.isc.pendingMarks = s.isc.pendingMarks
    ∧ (s.readPassed q decay).settleStore.isc.reading = none ∧ (s.readPassed q decay).settleStore.flash = s.readFlash q decay
    ∧ (s.readPassed q decay).settleStore.ord = s.ord := by
  have h := LineKept.settleStore 0 (s.readPassed q decay)
  obtain ⟨hrecords, hmarks, hreading, hflash, -⟩ := h.store
  exact ⟨hrecords, hmarks, hreading, hflash, h.ord⟩

theorem State.readChecked_done :
    ReadCheckDone s q.copy (s.readFlash q decay) (s.ReadMatches q decay) (s.readChecked q decay) := by
  obtain ⟨hrecords, hmarks, hreading, hflash, hord⟩ := s.readPassed_settled q decay
  have hjrn : (s.readPassed q decay).settleStore.jrn = s.jrn := State.settleStore_jrn _
  have hchan : (s.readPassed q decay).settleStore.chan = s.chan := State.settleStore_chan _
  unfold State.readChecked
  split
  next hsame => exact ⟨hreading, hflash, fun _ => ⟨hrecords, hmarks, hjrn, by rw [hchan]⟩, fun hne => absurd hsame hne⟩
  next hne =>
    obtain ⟨hread, hkept, -, hfailed⟩ := (s.readPassed q decay).settleStore.failReadCheck_done q.copy hreading
    rw [hrecords, hmarks, hjrn, hchan, hord] at hfailed
    exact ⟨hread, hkept.trans hflash, fun hsame => absurd hsame hne, fun _ => hfailed id⟩

/-- The check reaches no line, no report and no request of a read, nor the form of any copy. -/
theorem State.readChecked_rest : (s.readChecked q decay).lines = s.lines ∧ (s.readChecked q decay).chan.clcRpl = s.chan.clcRpl
    ∧ (s.readChecked q decay).isc.requests = s.isc.requests
    ∧ ∀ k : CopyIx, (s.readChecked q decay).isc.records[k].desc = s.isc.records[k].desc := by
  obtain ⟨hrecords, -⟩ := s.readPassed_settled q decay
  have hlines : (s.readPassed q decay).settleStore.lines = s.lines := State.settleStore_lines _
  have hchan : (s.readPassed q decay).settleStore.chan = s.chan := State.settleStore_chan _
  have hrequests : (s.readPassed q decay).settleStore.isc.requests = s.isc.requests := State.settleStore_requests _
  unfold State.readChecked
  generalize (s.readPassed q decay).settleStore = u at hrecords hlines hchan hrequests ⊢
  have hdesc : ∀ k : CopyIx, u.isc.records[k].desc = s.isc.records[k].desc := fun k => by rw [hrecords]
  split
  · exact ⟨hlines, by rw [hchan], hrequests, hdesc⟩
  · obtain ⟨hline, htold, hask, -, -, hcopies⟩ := u.failReadCheck_rest q.copy
    exact ⟨hline.trans hlines, by rw [htold, hchan], hask.trans hrequests, fun k => (hcopies k).trans (hdesc k)⟩

end

/-! ## The buffer -/

section
variable {s : State} {q : ReadReq} {c : Car} {y : Bool} {k : NodeClass} {decay : Decay}

theorem exec_segmentReadEnd (hrun : s.isRunning = true) (hq : s.isc.reading = some q) (hwho : q.who = .job c y k) :
    exec (.segmentReadEnd decay) s = .next (publish s (s.jobReadEnds q c y decay)) := by
  show execSegmentReadEnd decay s = _
  simp only [execSegmentReadEnd, hrun, hq, hwho]
  rfl

/-- A job read whose sums were set as it began: the check, then the buffer. -/
theorem State.jobReadEnds_eq (hmasked : s.dge.masked = ⟨1, 0⟩) (hunmasked : s.dge.unmasked = ⟨1, 0⟩) :
    s.jobReadEnds q c y decay = if s.ReadMatches q decay then
      (s.readChecked q decay).bufferFilled c y (s.readData q decay) (digestOf (s.readData q decay))
    else (s.readChecked q decay).bufferFaulted c y := by
  have hm : (s.readPassed q decay).dge.masked.digest = digestOf (s.readMasked q decay) := by
    rw [State.readPassed_eq, hmasked]
    rfl
  have hu : (s.readPassed q decay).dge.unmasked.digest = digestOf (s.readData q decay) := by
    rw [State.readPassed_eq, hunmasked]
    rfl
  unfold State.jobReadEnds State.readChecked
  dsimp only
  rw [hm, hu]
  split
  · rfl
  · rfl

/-- The state once the read has been checked and its buffer is FAULT, before the holding job is looked at. -/
def State.readFaulted (s : State) (q : ReadReq) (c : Car) (y : Bool) (decay : Decay) : State :=
  (s.readChecked q decay).setLine c (s.lines[c].faulted y)

theorem State.readFaulted_line : (s.readFaulted q c y decay).lines[c] = s.lines[c].faulted y := set_get _ _ _

theorem State.readFaulted_lines : (s.readFaulted q c y decay).lines = s.lines.set c (s.lines[c].faulted y) := by
  rw [State.readFaulted, State.setLine_lines, (s.readChecked_rest q decay).1]

/-- An attempt in no need of the segment next goes on (R106). -/
theorem State.readFaulted_unneeded (h : s.lines[c].holding = none ∨ ∃ j, s.lines[c].holding = some j
    ∧ (s.lines[c].exch ≠ none ∨ s.lines[c].ending ≠ .unset ∨ j.phase ≠ .load ∨ j.reload = [])) :
    ((s.readFaulted q c y decay).checkFault c).lines = s.lines.set c (s.lines[c].faulted y) := by
  obtain ⟨hheld, -, hexch, hending⟩ := s.lines[c].faulted_rest y
  have hline := State.readFaulted_line (s := s) (q := q) (c := c) (y := y) (decay := decay)
  rcases h with hfree | ⟨j, hj, hbusy⟩
  · rw [State.checkFault_free (by rw [hline, hheld, hfree]), State.readFaulted_lines]
  · rw [State.checkFault_busy (j := j) (by rw [hline, hheld, hj]) (by rwa [hline, hexch, hending]), State.readFaulted_lines]

/-- The attempt that is to send the segment next fails (R106, R115). -/
theorem State.readFaulted_needed {j : LineJob} {i : Nat} {rest : List Nat} (hj : s.lines[c].holding = some j)
    (hnext : s.lines[c].SendsNext j i rest) (hjob : (s.lines[c].buf y).job = some j.jid) (hindex : (s.lines[c].buf y).index = i) :
    let t := (s.readFaulted q c y decay).checkFault c
    (s.chan.clcRpl[c] ++ [.failed j.jid .storeFault]) <+: t.chan.clcRpl[c]
      ∧ ((∀ x ∈ s.lines[c].queue, x.jid ≠ j.jid) → t.lines[c].holding.map LineJob.jid ≠ some j.jid) := by
  obtain ⟨hheld, hqueue, hexch, hending⟩ := s.lines[c].faulted_rest y
  have hline := State.readFaulted_line (s := s) (q := q) (c := c) (y := y) (decay := decay)
  have htold : (s.readFaulted q c y decay).chan.clcRpl = s.chan.clcRpl := (s.readChecked_rest q decay).2.1
  have hholds : (s.readFaulted q c y decay).lines[c].holding = some j := by rw [hline, hheld, hj]
  have hsends : (s.readFaulted q c y decay).lines[c].SendsNext j i rest := by
    rw [hline]
    exact ⟨hexch.trans hnext.exch, hending.trans hnext.ending, hnext.phase, hnext.reload⟩
  obtain ⟨hfailed, -, hgone⟩ := State.attemptFails_spec hholds .storeFault
  rw [htold] at hfailed
  rw [hline, hqueue] at hgone
  rw [State.checkFault_fails hholds hsends (by rw [hline]; exact Line.faultAt_faulted hjob hindex)]
  exact ⟨hfailed, hgone⟩

variable (hmasked : s.dge.masked = ⟨1, 0⟩) (hunmasked : s.dge.unmasked = ⟨1, 0⟩)
include hmasked hunmasked

theorem State.jobReadEnds_stale (h : (s.lines[c].buf y).state = .stale) :
    s.jobReadEnds q c y decay = (s.readChecked q decay).emptyStale c y := by
  have hline := (s.readChecked_rest q decay).1
  rw [State.jobReadEnds_eq hmasked hunmasked, State.bufferFilled, State.bufferFaulted, hline, if_pos h, if_pos h, ite_self]

theorem State.jobReadEnds_filled (h : (s.lines[c].buf y).state = .filling) (hsame : s.ReadMatches q decay) :
    s.jobReadEnds q c y decay = (s.readChecked q decay).setLine c (s.lines[c].setBuf y { s.lines[c].buf y with
      state := .filled, data := s.readData q decay, digest := digestOf (s.readData q decay) }) := by
  have hline := (s.readChecked_rest q decay).1
  rw [State.jobReadEnds_eq hmasked hunmasked, if_pos hsame, State.bufferFilled, hline, if_neg (by rw [h]; decide)]

theorem State.jobReadEnds_faulted (h : (s.lines[c].buf y).state = .filling) (hne : ¬ s.ReadMatches q decay) :
    s.jobReadEnds q c y decay = (s.readFaulted q c y decay).checkFault c := by
  have hline := (s.readChecked_rest q decay).1
  rw [State.jobReadEnds_eq hmasked hunmasked, if_neg hne, State.bufferFaulted, hline, if_neg (by rw [h]; decide)]
  rfl

/-- The check of the read stands in the state its end leaves, whatever its buffer was. -/
theorem State.jobReadEnds_done (h : (s.lines[c].buf y).state = .filling ∨ (s.lines[c].buf y).state = .stale) :
    ReadCheckDone s q.copy (s.readFlash q decay) (s.ReadMatches q decay) (s.jobReadEnds q c y decay) := by
  have hdone := s.readChecked_done q decay
  rcases h with h | h
  · by_cases hsame : s.ReadMatches q decay
    · rw [State.jobReadEnds_filled hmasked hunmasked h hsame]
      exact hdone.line (LineKept.setLine c _ _) rfl
    · rw [State.jobReadEnds_faulted hmasked hunmasked h hsame]
      exact hdone.line ((LineKept.setLine c _ _).trans (LineKept.checkFault c _)) (State.checkFault_jrn _ c)
  · rw [State.jobReadEnds_stale hmasked hunmasked h]
    exact hdone.line (LineKept.emptyStale c _ y) (BuffersOnly.emptyStale _ c y).jrn

end

/-! ## The statement -/

/-- Settles O43: the check is one step for both kinds of buffer, and what the line does after it reaches neither the records nor
the entries asked for. -/
theorem jobReadsAreChecked : Obligations.JobReadsAreChecked := by
  intro s q c y k decay hrun hq hwho hmasked hunmasked
  have hexec := exec_segmentReadEnd (decay := decay) hrun hq hwho
  have hdone := State.jobReadEnds_done (q := q) (c := c) (y := y) (decay := decay) hmasked hunmasked
  obtain ⟨hlines, htold, hrequests, hdesc⟩ := s.readChecked_rest q decay
  refine ⟨fun hfilling => ⟨_, hexec, ?_⟩, fun hstale => ⟨_, hexec, ?_⟩⟩
  · obtain ⟨hreading, hflash, hpassed, hfailed⟩ := hdone (.inl hfilling)
    refine ⟨⟨hreading, hflash, hpassed, hfailed⟩, fun hsame => ?_, fun hne => ?_⟩
    · rw [publish_lines, State.jobReadEnds_filled hmasked hunmasked hfilling hsame, State.setLine_lines, hlines]
      rfl
    · rw [publish_lines, publish_chan, State.jobReadEnds_faulted hmasked hunmasked hfilling hne]
      exact ⟨fun hfree => State.readFaulted_unneeded (.inl hfree), fun j hj =>
        ⟨fun hbusy => State.readFaulted_unneeded (.inr ⟨j, hj, hbusy⟩), fun i rest hexch hending hphase hreload hjob hindex =>
          State.readFaulted_needed hj ⟨hexch, hending, hphase, hreload⟩ hjob hindex⟩⟩
  · obtain ⟨hreading, hflash, hpassed, hfailed⟩ := hdone (.inr hstale)
    refine ⟨⟨hreading, hflash, hpassed, hfailed⟩, ?_⟩
    rw [publish_lines, publish_chan, publish_isc, State.jobReadEnds_stale hmasked hunmasked hstale,
      (BuffersOnly.emptyStale _ c y).chan]
    refine ⟨htold, fun hidle => ?_, fun i j hwant hj hother => ?_⟩
    · rw [State.emptyStale_unwanted (by rwa [hlines]), State.setLine_isc, State.setLine_lines, hlines]
      exact ⟨hrequests, rfl⟩
    · obtain ⟨hmade, hwaits⟩ := State.emptyStale_wanted (s := s.readChecked q decay) (c := c) (y := y) (i := i) (j := j)
        (by rwa [hlines]) (by rwa [hlines]) (by rwa [hlines])
      rw [hrequests] at hmade
      rw [hdesc, hlines] at hwaits
      exact ⟨hmade, hwaits⟩

end Sys2Proof.Machine
end

section
/-! The scan tick and the uptime (R65, R156, R158). -/

namespace Sys2Proof.Machine

/-- A ready clock after an uptime tick: it counts where it runs, as far as 65,535 (R65). -/
theorem RplCar.tick_eq (r : RplCar) : r.tick = { r with clock := if r.clockOn then min 65535 (r.clock + 1) else r.clock } := by
  unfold RplCar.tick
  split
  · rw [saturate_eq_min]
  · rfl

theorem exec_scanTick {s : State} (hrun : s.isRunning = true) (ht : s.ord.scanTimer.isSome = true) :
    let u := s.sample.slotCheck false
    exec .scanTick s = .next (publish s { u with chan := { u.chan with ordRpl := u.chan.ordRpl ++ [.scanTick] }
                                                 ord := u.ord.restartScan }) := by
  show execScanTick s = _
  unfold execScanTick
  rw [hrun, ht]
  rfl

theorem exec_uptimeTick {s : State} (hlive : s.live = true) : exec .uptimeTick s
    = .next (publish s { s.tickClocks with ord := { s.ord with uptime := s.ord.uptime + 1 } }) := by
  show execUptimeTick s = _
  unfold execUptimeTick
  rw [hlive]
  rfl

/-- Settles O12: both commands as they run, each ready clock as its tick leaves it. -/
theorem scanTickAndUptime : Obligations.ScanTickAndUptime := by
  refine ⟨fun s hrun ht => ⟨_, exec_scanTick hrun ht, rfl⟩, fun s hp hr => ?_⟩
  rw [exec_uptimeTick (by simp only [State.live, hp, hr, Bool.not_false, Bool.and_self])]
  simp only [State.tickClocks, RplCar.tick_eq]

end Sys2Proof.Machine
end

section
/-! What the planner does with one node: a record is written, entries and tells go with it, and its car is reckoned afresh (R51 to
R53, R59, R61, R63 to R70, R86, R121). -/

namespace Sys2Proof.Machine

/-! ## A record written, with what goes with it -/

/-- What the permits hear of a record's change of state, as the car's door nodes stand in a state (R121). -/
def doorNews (w : State) (r x : NodeRec) : List DoorReport :=
  if r.cls = .door ∧ x.state ≠ r.state then [⟨r.car, r.drop, .state r.state x.state, doorsAllReady w.roster r.car⟩] else []

/-- A request for an entry about a node. -/
def nodeRequest (r : NodeRec) (uptime : Long) (k : EntryKind) (b : List Byte) : EntryReq :=
  ⟨.rpl, { kind := k, car := r.car.val, drop := r.drop.val + 1, uptime := uptime, body := b }⟩

/-- From u to w the planner has put x for the record r, with these tells to its line, these entries and its report to the permits;
the directory, the line's reports and the car's next job are as they were. -/
structure NodeWritten (r x : NodeRec) (tells : List LineOrder) (entries : List EntryReq) (u w : State) : Prop where
  kept : PlannerKept r.car r.drop u w
  found : ∃ n, w.findNode r.car r.drop = some n
    ∧ n = { x with cost := n.cost, changedAt := if x.state = r.state then x.changedAt else u.ord.uptime }
  told : w.chan.rplClc[r.car] = u.chan.rplClc[r.car] ++ tells
  doors : w.chan.rplPrm = u.chan.rplPrm ++ doorNews w r x
  asked : w.jrn.requests = u.jrn.requests ++ entries
  isc : w.isc = u.isc
  reports : w.chan.clcRpl = u.chan.clcRpl
  marks : w.chan.handed = u.chan.handed
  nextJob : w.rpl[r.car].nextJob = u.rpl[r.car].nextJob

section
variable {r x q : NodeRec} {tells : List LineOrder} {entries : List EntryReq} {u w : State}

theorem NodeWritten.putNode (h : u.findNode r.car r.drop = some r) (hx : x.car = r.car ∧ x.drop = r.drop) :
    NodeWritten r x (missingNews r x) [] u (u.putNode r x) := by
  have hput := u.putNode_eq r x
  refine ⟨PlannerKept.putNode _ _ u ⟨rfl, rfl⟩ hx, ?_, ?_, ?_, ?_, ?_, ?_, ?_, ?_⟩
  · rw [hput, State.findNode_written h hx, NodeRec.stamped_eq]
    exact ⟨_, rfl, rfl⟩
  · rw [hput, State.written_told]
  · rw [hput, State.writeNode_eq]
    rfl
  · rw [hput, List.append_nil]
    rfl
  all_goals rw [hput]; rfl

theorem NodeWritten.nodeEntry (h : NodeWritten r x tells entries u w) (hq : q.car = r.car ∧ q.drop = r.drop) (k : EntryKind)
    (b : List Byte) : NodeWritten r x tells (entries ++ [nodeRequest r u.ord.uptime k b]) u (w.nodeEntry k q b) := by
  refine ⟨h.kept.trans (PlannerKept.nodeEntry _ _ w k q b), h.found, h.told, h.doors, ?_, h.isc, h.reports, h.marks, h.nextJob⟩
  show w.jrn.requests ++ [⟨.rpl, { kind := k, car := q.car.val, drop := q.drop.val + 1, uptime := w.ord.uptime, body := b }⟩] = _
  rw [h.asked, hq.1, hq.2, h.kept.ord, List.append_assoc]
  rfl

theorem NodeWritten.raiseAlert (h : NodeWritten r x tells entries u w) : NodeWritten r x tells entries u (w.raise .alert) :=
  ⟨h.kept.trans (PlannerKept.raiseAlert _ _ w), h.found, h.told, h.doors, h.asked, h.isc, h.reports, h.marks, h.nextJob⟩

theorem NodeWritten.nodeFailedEntry (h : NodeWritten r x tells entries u w) (hq : q.car = r.car ∧ q.drop = r.drop) (final : Bool)
    (source reason : Nat) : NodeWritten r x tells
      (entries ++ [nodeRequest r u.ord.uptime .nodeFailed
        [byteOf (bit final) 0, byteOf source 0, byteOf reason 0, byteOf q.attempt 0]])
      u (w.nodeFailedEntry q final source reason) := by
  have he := h.nodeEntry hq .nodeFailed [byteOf (bit final) 0, byteOf source 0, byteOf reason 0, byteOf q.attempt 0]
  unfold State.nodeFailedEntry
  dsimp only
  split
  · exact he.raiseAlert
  · exact he

theorem NodeWritten.tell (h : NodeWritten r x tells entries u w) (m : LineOrder) :
    NodeWritten r x (tells ++ [m]) entries u (w.tell r.car m) := by
  refine ⟨h.kept.trans (PlannerKept.tell _ _ w m), h.found, ?_, h.doors, h.asked, h.isc, h.reports, h.marks, h.nextJob⟩
  rw [State.tell_told, h.told, List.append_assoc]

theorem NodeWritten.changed (h : NodeWritten r x tells entries u w) :
    ∃ l, NodeWritten r x tells (entries ++ l) u (w.changed r.car) := by
  obtain ⟨l, hl, -⟩ := w.changed_requests r.car
  obtain ⟨-, hchan, hisc, hnext⟩ := w.changed_rest r.car
  refine ⟨w.settledNews r.car ++ l, h.kept.trans (PlannerKept.changed _ _ w), ?_, ?_, ?_, ?_, hisc.trans h.isc, ?_, ?_,
    hnext.trans h.nextJob⟩
  · obtain ⟨n, hn, hrec⟩ := h.found
    obtain ⟨y, hy⟩ := State.findNode_changed hn r.car
    refine ⟨_, hy, ?_⟩
    dsimp only
    rw [hrec]
  · rw [hchan, h.told]
  · rw [hchan, h.doors, doorNews, doorNews, (w.changed_doors r.car).2.2.1]
  · rw [hl, h.asked]
    simp only [List.append_assoc]
  · rw [hchan, h.reports]
  · rw [hchan, h.marks]

theorem NodeWritten.publish (h : NodeWritten r x tells entries u w) (s : State) : NodeWritten r x tells entries u (publish s w) :=
  ⟨h.kept.trans (PlannerKept.publish _ _ s w), h.found, h.told, h.doors, h.asked, h.isc, h.reports, h.marks, h.nextJob⟩

end

/-! ## Pins (R53) -/

/-- What a record's job pins of a copy. -/
def NodeRec.pins (r : NodeRec) (k : CopyIx) : Nat := if r.job.map RplJob.copy = some k then 1 else 0

theorem State.setRecord_get (s : State) (r k : CopyIx) (v : CopyRec) :
    (s.setRecord r v).isc.records[k] = if k = r then v else s.isc.records[k] := by
  rw [State.setRecord_isc]
  simp only [Fin.getElem_fin, Vector.getElem_set, Fin.ext_iff, @eq_comm _ k.val]

theorem State.pin_use (s : State) (r k : CopyIx) :
    (s.pin r).isc.records[k].use = s.isc.records[k].use + (if k = r then 1 else 0) := by
  rw [State.pin, State.setRecord_get]
  split
  · rename_i h; rw [h]
  · rfl

theorem State.unpinJob_use (s : State) (r : NodeRec) (k : CopyIx) :
    (s.unpinJob r).isc.records[k].use = s.isc.records[k].use - r.pins k := by
  unfold State.unpinJob NodeRec.pins
  cases r.job with
  | none => rfl
  | some j => simp only [State.unpin_use, Option.map_some, Option.some.injEq, @eq_comm _ k]

/-- The use count of a copy that the old and the new job both pin is as it was, where it was counted (R53). -/
theorem State.repin_use (s : State) (r : NodeRec) (copy k : CopyIx) :
    (s.repin r.job copy).isc.records[k].use = s.isc.records[k].use - r.pins k + (if k = copy then 1 else 0) := by
  unfold State.repin NodeRec.pins
  cases r.job with
  | none => exact State.pin_use s copy k
  | some j =>
    by_cases hj : j.copy = copy
    · simp only [hj, if_true, State.setRecord_get, Option.map_some, Option.some.injEq, @eq_comm _ k]
      split
      · rename_i h; rw [← h]
      · rfl
    · simp only [hj, if_false, State.pin_use, State.unpin_use, Option.map_some, Option.some.injEq, @eq_comm _ k]

theorem NodeRec.pins_none {r : NodeRec} (h : r.job = none) (k : CopyIx) : r.pins k = 0 := by
  simp only [NodeRec.pins, h, Option.map_none, reduceCtorEq, if_false]

theorem NodeRec.pins_some {r : NodeRec} {j : RplJob} (h : r.job = some j) (k : CopyIx) : r.pins k = if j.copy = k then 1 else 0 := by
  simp only [NodeRec.pins, h, Option.map_some, Option.some.injEq]

/-- A change of use counts leaves everything but the directory and what the RAM shows of it. -/
structure PinsOnly (s u : State) : Prop where
  ord : u.ord = s.ord
  jrn : u.jrn = s.jrn
  ntu : u.ntu = s.ntu
  fleet : u.fleet = s.fleet
  roster : u.roster = s.roster
  rpl : u.rpl = s.rpl
  chan : u.chan = s.chan

theorem PinsOnly.unpinJob (s : State) (r : NodeRec) : PinsOnly s (s.unpinJob r) := by
  unfold State.unpinJob
  split <;> exact ⟨rfl, rfl, rfl, rfl, rfl, rfl, rfl⟩

theorem PinsOnly.repin (s : State) (old : Option RplJob) (k : CopyIx) : PinsOnly s (s.repin old k) := by
  unfold State.repin
  split
  · exact ⟨rfl, rfl, rfl, rfl, rfl, rfl, rfl⟩
  · split <;> exact ⟨rfl, rfl, rfl, rfl, rfl, rfl, rfl⟩

theorem PinsOnly.findNode {s u : State} (h : PinsOnly s u) (c : Car) (d : Drop) : u.findNode c d = s.findNode c d := by
  unfold State.findNode; rw [h.roster]

end Sys2Proof.Machine
end

section
/-! Plannings by their rows, and what each leaves of its node (R49 to R53, R59, R61, R62, R67). -/

namespace Sys2Proof.Machine

/-! ## Effects -/

/-- The record of a node whose planning fails (R51). -/
def NodeRec.unplanned (r : NodeRec) (reason : PlanReason) : NodeRec :=
  { r with plan := none, reason := reason, marginal := false, state := .failed, job := none, backoffFrom := none, backoffShown := 0 }

/-- The record of a node whose planning gives a job (R52). -/
def NodeRec.queuedFor (r : NodeRec) (plan : Plan) (reason : PlanReason) (marginal : Bool) (j : RplJob) : NodeRec :=
  { r with plan := some plan, reason := reason, marginal := marginal, attempt := r.attempt + 1, state := .queued, job := some j,
           backoffFrom := none, backoffShown := 0 }

/-- The record of a node not heard (R47, R61). -/
def NodeRec.missed (r : NodeRec) : NodeRec := { r with state := .missing, job := none, backoffFrom := none, backoffShown := 0 }

/-- The body of the ANOMALY entry of row 8 (R50). -/
def State.anomalyBody (s : State) (r : NodeRec) : List Byte :=
  le16 s.rpl[r.car].gapG ++ le16 (s.fleet.hold r.cls).1 ++ le16 (s.fleet.hold r.cls).2 ++ [byteOf r.cls.code 0, 0]

theorem State.anomalyEntry_eq (s : State) (r : NodeRec) : s.anomalyEntry r = s.nodeEntry .anomaly r (s.anomalyBody r) := rfl

/-- The state in which a planning to a job writes its record: the copy is pinned, the job's number taken (R52, R53). -/
def State.jobPinned (s : State) (o : NodeRec) (copy : CopyIx) : State :=
  (s.repin o.job copy).setRpl o.car { s.rpl[o.car] with nextJob := s.rpl[o.car].nextJob + 1 }

theorem State.jobPinned_gap (s : State) (o : NodeRec) (copy : CopyIx) (c : Car) :
    (s.jobPinned o copy).rpl[c].gapG = s.rpl[c].gapG := by
  have hrpl : (s.jobPinned o copy).rpl = s.rpl.set o.car { s.rpl[o.car] with nextJob := s.rpl[o.car].nextJob + 1 } := by
    rw [State.jobPinned, State.setRpl_rpl, (PinsOnly.repin s o.job copy).rpl]
  simp only [hrpl]
  by_cases hc : c = o.car
  · rw [hc, set_get]
  · rw [set_get_ne _ _ hc]

section
variable {s : State} {o r : NodeRec}

/-- A failed planning: the job's pin is released, and the node is FAILED with its NODE FAILED entry and ALERT (R51, R53, R72). -/
theorem State.applyPlan_fails (h : s.findNode o.car o.drop = some o) (hr : r.car = o.car ∧ r.drop = o.drop) (reason : PlanReason) :
    ∃ l, NodeWritten o (r.unplanned reason) (missingNews o (r.unplanned reason))
        ([nodeRequest o s.ord.uptime .nodeFailed [1, 1, byteOf reason.code 0, byteOf r.attempt 0]] ++ l)
        (s.unpinJob o) (s.applyPlan o r (.fails reason))
      ∧ (s.applyPlan o r (.fails reason)).ntu.causes.getLsbD 3 = true := by
  have hpins := PinsOnly.unpinJob s o
  have hput := NodeWritten.putNode ((hpins.findNode _ _).trans h) (x := r.unplanned reason) hr
  obtain ⟨l, hw⟩ := (hput.nodeFailedEntry (q := r.unplanned reason) hr true 1 reason.code).changed
  rw [hpins.ord] at hw
  exact ⟨l, hw, (PlannerKept.changed o.car o.drop _).alert (nodeFailedEntry_alert _ _ _ _)⟩

/-- A planning to a job: the node is QUEUED, its entries are asked for, and the job enters the line's queue (R50, R52). -/
theorem State.applyPlan_job (h : s.findNode o.car o.drop = some o) (hr : r.car = o.car ∧ r.drop = o.drop) (plan : Plan)
    (reason : PlanReason) (copy : CopyIx) (marginal : Bool) :
    let j := newJob s.rpl[o.car].nextJob plan copy s.isc.records[copy].desc.segments
    let x := r.queuedFor plan reason marginal j
    ∃ l, NodeWritten o x (missingNews o x ++ [.jobEnters (lineJobOf x plan j)])
      ((if reason = .beyondHoldUp then [nodeRequest o s.ord.uptime .anomaly (s.anomalyBody x)] else [])
        ++ [nodeRequest o s.ord.uptime .nodePlanned
          [byteOf plan.code 0, byteOf reason.code 0, byteOf (bit marginal) 0, byteOf (r.attempt + 1) 0]] ++ l)
      (s.jobPinned o copy) (s.applyPlan o r (.job plan reason copy marginal)) := by
  intro j x
  have hpins := PinsOnly.repin s o.job copy
  have hfound : (s.jobPinned o copy).findNode o.car o.drop = some o := (hpins.findNode _ _).trans h
  have hput := NodeWritten.putNode hfound (x := x) hr
  have hord : (s.jobPinned o copy).ord = s.ord := hpins.ord
  have hbody : ((s.jobPinned o copy).putNode o x).anomalyBody x = s.anomalyBody x := by
    have hfleet := hput.kept.fleet.trans hpins.fleet
    have hgap : ((s.jobPinned o copy).putNode o x).rpl[x.car].gapG = s.rpl[x.car].gapG := by
      rw [State.putNode_eq]
      exact s.jobPinned_gap o copy x.car
    rw [State.anomalyBody, hfleet, hgap, State.anomalyBody]
  have hanomaly : NodeWritten o x (missingNews o x)
      (if reason = .beyondHoldUp then [nodeRequest o s.ord.uptime .anomaly (s.anomalyBody x)] else []) (s.jobPinned o copy)
      (if reason = .beyondHoldUp then ((s.jobPinned o copy).putNode o x).anomalyEntry x else (s.jobPinned o copy).putNode o x) := by
    split
    · have hentry := hput.nodeEntry hr .anomaly (s.anomalyBody x)
      rw [hord] at hentry
      rwa [State.anomalyEntry_eq, hbody]
    · exact hput
  have hplanned := hanomaly.nodeEntry hr .nodePlanned
    [byteOf plan.code 0, byteOf reason.code 0, byteOf (bit marginal) 0, byteOf (r.attempt + 1) 0]
  rw [hord] at hplanned
  exact (hplanned.tell _).changed

/-- A node not heard: MISSING, its job's pin released, with its NODE MISSING entry (R47, R61). -/
theorem State.missNode_written (h : s.findNode r.car r.drop = some r) :
    ∃ l, NodeWritten r r.missed (missingNews r r.missed)
      ([nodeRequest r s.ord.uptime .nodeMissing [byteOf r.attempt 0, byteOf r.fail.code 0, 0, 0]] ++ l)
      (s.unpinJob r) (s.missNode r) := by
  have hpins := PinsOnly.unpinJob s r
  have hput := NodeWritten.putNode ((hpins.findNode _ _).trans h) (x := r.missed) ⟨rfl, rfl⟩
  have hentry := hput.nodeEntry (q := r.missed) ⟨rfl, rfl⟩ .nodeMissing [byteOf r.attempt 0, byteOf r.fail.code 0, 0, 0]
  rw [hpins.ord] at hentry
  exact hentry.changed

/-- A failed attempt below the limit: BACKOFF, the pin kept (R59). -/
theorem State.failAttempt_written_below (h : s.findNode r.car r.drop = some r) (j : RplJob) (reason : FailReason)
    (hlimit : r.attempt < s.fleet.attemptLimit) :
    let x := r.backedOff j reason s.ord.uptime
    ∃ l, NodeWritten r x (missingNews r x)
      ([nodeRequest r s.ord.uptime .nodeFailed [0, 0, byteOf reason.code 0, byteOf r.attempt 0]] ++ l) s (s.failAttempt r j reason) := by
  intro x
  have hput := NodeWritten.putNode h (x := x) ⟨rfl, rfl⟩
  rw [State.failAttempt_below j reason hlimit]
  exact (hput.nodeFailedEntry (q := x) ⟨rfl, rfl⟩ false 0 reason.code).changed

/-- The final failed attempt: FAILED, the pin released, with ALERT (R59, R72). -/
theorem State.failAttempt_written_final (h : s.findNode r.car r.drop = some r) (j : RplJob) (reason : FailReason)
    (hlimit : s.fleet.attemptLimit ≤ r.attempt) :
    let x := r.failedFor reason
    ∃ l, NodeWritten r x (missingNews r x)
        ([nodeRequest r s.ord.uptime .nodeFailed [1, 0, byteOf reason.code 0, byteOf r.attempt 0]] ++ l) (s.unpin j.copy)
        (s.failAttempt r j reason)
      ∧ (s.failAttempt r j reason).ntu.causes.getLsbD 3 = true := by
  intro x
  have hput := NodeWritten.putNode (u := s.unpin j.copy) h (x := x) ⟨rfl, rfl⟩
  rw [State.failAttempt_final j reason hlimit]
  obtain ⟨l, hw⟩ := (hput.nodeFailedEntry (q := x) ⟨rfl, rfl⟩ true 0 reason.code).changed
  exact ⟨l, hw, (PlannerKept.changed r.car r.drop _).alert (nodeFailedEntry_alert _ _ _ _)⟩

end

/-! ## What a planning leaves, whichever it is -/

/-- The node state a planning gives. -/
def Planning.state : Planning → NodeState
  | .fails _ => .failed
  | .job _ _ _ _ => .queued

/-- The copy a planning pins. -/
def Planning.copy? : Planning → Option CopyIx
  | .fails _ => none
  | .job _ _ k _ => some k

/-- The job a planning of a node creates (R52). -/
def State.jobOf (s : State) (o : NodeRec) (plan : Plan) (k : CopyIx) : RplJob :=
  newJob s.rpl[o.car].nextJob plan k s.isc.records[k].desc.segments

theorem newJob_eq (jid : Nat) (plan : Plan) (k : CopyIx) (n : Nat) : newJob jid plan k n =
    { jid := jid, copy := k, place := .queue, phase := some (if plan = .compare then .survey else .load)
      reload := if plan = .compare then [] else List.range n, s := 0, retry := 0, condemned := false } := by
  cases plan <;> rfl

/-- The record a planning leaves (R51, R52). -/
def State.plannedRecord (s : State) (o r : NodeRec) : Planning → NodeRec
  | .fails reason => r.unplanned reason
  | .job plan reason k marginal => r.queuedFor plan reason marginal (s.jobOf o plan k)

/-- What a planning tells the line, but for the news of MISSING. -/
def State.plannedTells (s : State) (o r : NodeRec) : Planning → List LineOrder
  | .fails _ => []
  | .job plan reason k marginal =>
    [.jobEnters (lineJobOf (r.queuedFor plan reason marginal (s.jobOf o plan k)) plan (s.jobOf o plan k))]

/-- The entries of a planning (R50 to R52, R72). -/
def State.plannedEntries (s : State) (o r : NodeRec) : Planning → List EntryReq
  | .fails reason => [nodeRequest o s.ord.uptime .nodeFailed [1, 1, byteOf reason.code 0, byteOf r.attempt 0]]
  | .job plan reason _ marginal =>
    (if reason = .beyondHoldUp then [nodeRequest o s.ord.uptime .anomaly (s.anomalyBody r)] else [])
      ++ [nodeRequest o s.ord.uptime .nodePlanned
        [byteOf plan.code 0, byteOf reason.code 0, byteOf (bit marginal) 0, byteOf (r.attempt + 1) 0]]

/-- What the planning p leaves of the node o, recorded as r. -/
structure Planned (s : State) (o r : NodeRec) (p : Planning) (t : State) : Prop where
  kept : PlannerKept o.car o.drop s t
  found : ∃ n, t.findNode o.car o.drop = some n ∧ n = { s.plannedRecord o r p with
    cost := n.cost, changedAt := if p.state = o.state then r.changedAt else s.ord.uptime }
  told : t.chan.rplClc[o.car] = s.chan.rplClc[o.car] ++ (if o.state = .missing then [.missing o.drop false] else [])
    ++ s.plannedTells o r p
  doors : t.chan.rplPrm = s.chan.rplPrm ++ (if o.cls = .door ∧ p.state ≠ o.state then
    [⟨o.car, o.drop, .state o.state p.state, doorsAllReady t.roster o.car⟩] else [])
  asked : (s.jrn.requests ++ s.plannedEntries o r p) <+: t.jrn.requests
  use : ∀ k, t.isc.records[k].use = s.isc.records[k].use - o.pins k + (if p.copy? = some k then 1 else 0)
  reports : t.chan.clcRpl = s.chan.clcRpl
  marks : t.chan.handed = s.chan.handed
  nextJob : t.rpl[o.car].nextJob = s.rpl[o.car].nextJob + (if p.copy?.isSome then 1 else 0)
  alert : p.copy? = none → t.ntu.causes.getLsbD 3 = true

section
variable {s : State} {o r : NodeRec}

theorem State.applyPlan_planned (h : s.findNode o.car o.drop = some o) (hr : r.car = o.car ∧ r.drop = o.drop) (p : Planning) :
    Planned s o r p (s.applyPlan o r p) := by
  cases p with
  | fails reason =>
    obtain ⟨l, hw, halert⟩ := State.applyPlan_fails h hr reason
    have hpins := PinsOnly.unpinJob s o
    refine ⟨PlannerKept.applyPlan _ _ s ⟨rfl, rfl⟩ hr _, ?_, ?_, ?_, ?_, fun k => ?_, ?_, ?_, ?_, fun _ => halert⟩
    · rw [← hpins.ord]
      exact hw.found
    · rw [hw.told, hpins.chan, missingNews_left (show NodeState.failed ≠ .missing by decide)]
      exact (List.append_nil _).symm
    · rw [hw.doors, hpins.chan]
      rfl
    · rw [hw.asked, hpins.jrn, ← List.append_assoc]
      exact List.prefix_append _ _
    · rw [hw.isc, State.unpinJob_use]
      rfl
    · rw [hw.reports, hpins.chan]
    · rw [hw.marks, hpins.chan]
    · rw [hw.nextJob]
      simp only [hpins.rpl]
      rfl
  | job plan reason copy marginal =>
    obtain ⟨l, hw⟩ := State.applyPlan_job h hr plan reason copy marginal
    have hpins := PinsOnly.repin s o.job copy
    have hord : (s.jobPinned o copy).ord = s.ord := hpins.ord
    have hjrn : (s.jobPinned o copy).jrn = s.jrn := hpins.jrn
    have hchan : (s.jobPinned o copy).chan = s.chan := hpins.chan
    refine ⟨PlannerKept.applyPlan _ _ s ⟨rfl, rfl⟩ hr _, ?_, ?_, ?_, ?_, fun k => ?_, ?_, ?_, ?_, fun hn => by cases hn⟩
    · rw [← hord]
      exact hw.found
    · rw [hw.told, hchan, missingNews_left (show NodeState.queued ≠ .missing by decide), ← List.append_assoc]
      rfl
    · rw [hw.doors, hchan]
      rfl
    · rw [hw.asked, hjrn, ← List.append_assoc]
      exact List.prefix_append _ _
    · rw [hw.isc]
      show (s.repin o.job copy).isc.records[k].use = _
      rw [State.repin_use]
      simp only [Planning.copy?, Option.some.injEq, @eq_comm _ k]
    · rw [hw.reports, hchan]
    · rw [hw.marks, hchan]
    · rw [hw.nextJob, State.jobPinned, State.setRpl_nextJob]
      rfl

end

/-! ## The rows -/

theorem HelloFields.differs_iff (f : HelloFields) (d : Desc) :
    f.differs d = true ↔ f.image ≠ d.image ∨ f.version ≠ d.version ∨ f.segments ≠ d.segments := by
  simp only [HelloFields.differs, Bool.or_eq_true, decide_eq_true_eq, or_assoc]

section
variable {s : State} {r : NodeRec} {f : HelloFields}

/-- Rows 1 to 3 of R49 and of R62. -/
theorem State.plannable_classMismatch (h : r.cls ≠ f.cls) : s.plannable r f = .error .classMismatch := if_pos h

theorem State.plannable_noImage (h : r.cls = f.cls) (hk : s.activeCopy r.slot = none) : s.plannable r f = .error .noImage := by
  rw [State.plannable, if_neg (not_not.mpr h), hk]

theorem State.plannable_imageClass (h : r.cls = f.cls) {k : CopyIx} (hk : s.activeCopy r.slot = some k)
    (he : s.isc.records[k].desc.cls ≠ r.cls.code) : s.plannable r f = .error .imageClass := by
  rw [State.plannable, if_neg (not_not.mpr h), hk]
  exact if_pos he

theorem State.plannable_ok (h : r.cls = f.cls) {k : CopyIx} (hk : s.activeCopy r.slot = some k)
    (he : s.isc.records[k].desc.cls = r.cls.code) : s.plannable r f = .ok k := by
  rw [State.plannable, if_neg (not_not.mpr h), hk]
  exact if_neg (not_not.mpr he)

theorem State.planHello_fails {e : PlanReason} (h : s.plannable r f = .error e) : s.planHello r f = .fails e := by
  rw [State.planHello, h]

theorem State.planOrder_fails {e : PlanReason} (h : s.plannable r f = .error e) (plan : Plan) : s.planOrder r f plan = .fails e := by
  rw [State.planOrder, h]

/-- The reason that rows 4 to 9 of R49 give. -/
def State.helloReason (s : State) (r : NodeRec) (f : HelloFields) (k : CopyIx) : PlanReason :=
  let d := s.isc.records[k].desc
  if 0 < r.attempt ∧ r.fail = .imageCheck then .imageCheck
  else if f.ramLost then .ramLost
  else if f.image ≠ d.image ∨ f.version ≠ d.version ∨ f.segments ≠ d.segments then .otherImage
  else if f.digestCapable = false then .loadOnlyBoot
  else if (s.fleet.hold r.cls).1 + (s.fleet.hold r.cls).2 ≤ s.rpl[r.car].gapG then .beyondHoldUp
  else .compare

theorem State.planHello_job {k : CopyIx} (h : s.plannable r f = .ok k) :
    let reason := s.helloReason r f k
    s.planHello r f = .job (if reason = .compare then .compare else .full) reason k
      (decide (reason = .compare) && decide ((s.fleet.hold r.cls).1 - (s.fleet.hold r.cls).2 ≤ s.rpl[r.car].gapG)) := by
  intro reason
  simp only [reason, State.planHello, h, State.helloReason, HelloFields.differs_iff]
  split_ifs <;> simp_all

/-- Rows 4 to 6 of R62. -/
theorem State.planOrder_job {k : CopyIx} (h : s.plannable r f = .ok k) (plan : Plan) :
    let d := s.isc.records[k].desc
    s.planOrder r f plan = if plan = .full then .job .full .ordered k false
      else if f.image ≠ d.image ∨ f.version ≠ d.version ∨ f.segments ≠ d.segments then .job .full .otherImage k false
      else if f.digestCapable = false then .job .full .loadOnlyBoot k false
      else .job .compare .ordered k false := by
  intro d
  simp only [d, State.planOrder, h, HelloFields.differs_iff]
  cases plan <;> simp

end

end Sys2Proof.Machine
end

section
/-! A HELLO is planned (R48 to R53). -/

namespace Sys2Proof.Machine

/-- The record with its HELLO (R49). -/
def NodeRec.heardWith (r : NodeRec) (f : HelloFields) : NodeRec := { r with hello := some f }

theorem NodeRec.takesHello_iff (r : NodeRec) : r.takesHello = true
    ↔ r.state = .awaiting ∨ r.state = .missing ∨ (r.state = .backoff ∧ r.backoffFrom = none) := by
  simp only [NodeRec.takesHello, NodeRec.polled, Bool.or_eq_true, Bool.and_eq_true, decide_eq_true_eq, Option.isNone_iff_eq_none,
    or_assoc]

theorem State.clcBehind_iff (s : State) (c : Car) : s.clcBehind c = true
    ↔ ∃ u, .loss u ∈ s.chan.ssuClc[c].take (s.chan.ssuClc[c].length - s.chan.ssuRpl[c].length) := by
  simp only [State.clcBehind, List.any_eq_true]
  constructor
  · rintro ⟨e, he, hl⟩
    cases e with
    | loss u => exact ⟨u, he⟩
    | ret => cases hl
  · exact fun ⟨u, hu⟩ => ⟨_, hu, rfl⟩

theorem Planning.state_cases (p : Planning) : p.state = .failed ∨ p.state = .queued := by
  cases p
  · exact .inl rfl
  · exact .inr rfl

theorem Fleet.hold_eq (f : Fleet) (k : NodeClass) :
    f.hold k = (if k = .door then f.hDoor else f.hInfo, if k = .door then f.bDoor else f.bInfo) := by
  cases k <;> rfl

theorem Plan.ite_eq_compare (p : Prop) [Decidable p] : ((if p then Plan.compare else .full) = .compare) = p := by
  split <;> simp [*]

section
variable {s : State} {c : Car} {d : Drop} {f : HelloFields} {rest : List LineReport} {r : NodeRec}

theorem exec_rplHello (hrun : s.isRunning = true) (h : s.chan.clcRpl[c] = .hello d f :: rest) :
    exec (.rplHello c) s = .next (publish s ((s.dropReport c).rplHello c d f)) := by
  show execRplHello c s = _
  simp only [execRplHello, hrun, h]
  rfl

theorem State.rplHello_disregarded (hn : s.findNode c d = some r) (h : ¬ (s.clcBehind c = false ∧ r.takesHello = true)) :
    (s.dropReport c).rplHello c d f = s.dropReport c := by
  have hfound : (s.dropReport c).findNode c d = some r := hn
  unfold State.rplHello
  rw [hfound]
  dsimp only
  split
  · rfl
  · rename_i hb
    exact if_neg (fun ht => h ⟨Bool.not_eq_true _ ▸ hb, ht⟩)

theorem State.rplHello_taken (hn : s.findNode c d = some r) (hb : s.clcBehind c = false) (ht : r.takesHello = true) :
    (s.dropReport c).rplHello c d f
      = (s.dropReport c).applyPlan r (r.heardWith f) (s.planHello (r.heardWith f) f) := by
  have hfound : (s.dropReport c).findNode c d = some r := hn
  have hbehind : (s.dropReport c).clcBehind c = false := hb
  unfold State.rplHello
  rw [hfound, hbehind]
  dsimp only
  rw [if_neg (by decide), if_pos ht]
  rfl

end

/-- Settles O51: the planning as what it leaves of the node, then row by row. -/
theorem helloIsPlanned : Obligations.HelloIsPlanned := by
  unfold Obligations.HelloIsPlanned
  intro c s d f rest r hrun hrep hnode behind takes marks
  have hexec := exec_rplHello hrun hrep
  have htakes : takes ↔ s.clcBehind c = false ∧ r.takesHello = true := by
    rw [NodeRec.takesHello_iff, ← Bool.not_eq_true, State.clcBehind_iff]
  refine ⟨fun hno => ?_, fun hyes => ?_⟩
  · rw [hexec, State.rplHello_disregarded hnode (fun h => hno (htakes.mpr h)),
      publish_unshown s (s.dropReport c) rfl rfl rfl rfl, State.dropReport, dropAt, hrep]
    rfl
  · obtain ⟨hb, ht⟩ := htakes.mp hyes
    have hstate := (r.takesHello_iff).mp ht
    obtain ⟨rfl, rfl⟩ := State.findNode_names hnode
    rw [State.rplHello_taken hnode hb ht] at hexec
    have hplanned := State.applyPlan_planned (s := s.dropReport r.car) (r := r.heardWith f) hnode ⟨rfl, rfl⟩
      (s.planHello (r.heardWith f) f)
    generalize hp : s.planHello (r.heardWith f) f = p at hexec hplanned
    generalize (s.dropReport r.car).applyPlan r (r.heardWith f) p = w at hexec hplanned
    obtain ⟨n, hn, hrec⟩ := hplanned.found
    have hne : p.state ≠ r.state := by
      rcases p.state_cases with hp | hp <;> rcases hstate with h | h | ⟨h, -⟩ <;> rw [hp, h] <;> decide
    have hn_state : n.state = p.state := by rw [hrec]; cases p <;> rfl
    rw [if_neg hne] at hrec
    have hkept := (PlannerKept.dropReport r.car r.drop s).trans (hplanned.kept.trans (PlannerKept.publish _ _ s w))
    refine ⟨_, n, hexec, hkept.frame, hn, ?_, hplanned.marks, fun hm => ?_, ?_, ?_⟩
    · rw [publish_chan, hplanned.reports, State.dropReport, dropAt, set_get, hrep]
      rfl
    · rw [publish_chan, hplanned.told, if_pos hm]
      simp
    · rw [publish_chan, hplanned.doors, hn_state, doorsAllReady_eq]
      simp only [hne, ne_eq, not_false_eq_true, and_true]
      rfl
    · intro entry fails
      have hfails : ∀ reason, p = .fails reason → fails reason := by
        rintro reason rfl
        refine ⟨hrec, hplanned.nextJob, hplanned.alert rfl, fun k => hplanned.use k, hplanned.asked⟩
      have hrow : ∀ {reason}, s.plannable (r.heardWith f) f = .error reason → fails reason :=
        fun he => hfails _ (hp.symm.trans (State.planHello_fails he))
      refine ⟨fun hcls => hrow (State.plannable_classMismatch hcls), fun hcls hk => hrow (State.plannable_noImage hcls hk),
        fun k hcls hk => ?_⟩
      intro e h b g reason plan marginal
      refine ⟨fun he => hrow (State.plannable_imageClass hcls hk he), fun he => ?_⟩
      have hreason : s.helloReason (r.heardWith f) f k = reason := by
        simp only [State.helloReason, Fleet.hold_eq]
        rfl
      have hjob := State.planHello_job (State.plannable_ok (r := r.heardWith f) hcls hk he)
      simp only [hreason, hp, Fleet.hold_eq] at hjob
      subst hjob
      have huse : ∀ x : CopyIx, w.isc.records[x].use = s.isc.records[x].use - r.pins x + (if k = x then 1 else 0) := fun x => by
        have hx := hplanned.use x
        simp only [Planning.copy?, Option.some.injEq] at hx
        exact hx
      have hnew : (s.dropReport r.car).jobOf r plan k = { jid := s.rpl[r.car].nextJob, copy := k, place := .queue, s := 0, retry := 0
                                                          condemned := false
                                                          phase := some (if reason = .compare then .survey else .load)
                                                          reload := if reason = .compare then [] else List.range e.segments } := by
        simp only [State.jobOf, newJob_eq, plan, Plan.ite_eq_compare]
        rfl
      refine ⟨_, hrec, hnew, hplanned.nextJob, fun hj => ?_, fun o ho hok hpos => ?_, fun o ho hok => ⟨?_, ?_⟩, ?_, ?_⟩
      · rw [publish_isc, huse, NodeRec.pins_none hj, if_pos rfl, Nat.sub_zero]
      · rw [publish_isc, huse, NodeRec.pins_some ho, if_pos hok, if_pos rfl, Nat.sub_add_cancel hpos]
      · rw [publish_isc, huse, NodeRec.pins_some ho, if_neg hok, if_pos rfl, Nat.sub_zero]
      · rw [publish_isc, huse, NodeRec.pins_some ho, if_pos rfl, if_neg (Ne.symm hok), Nat.add_zero]
      · have hasked := hplanned.asked
        simp only [State.plannedEntries, State.anomalyBody, Fleet.hold_eq] at hasked
        rw [← List.append_assoc] at hasked
        exact hasked
      · rw [publish_chan, hplanned.told]
        refine List.mem_append_right _ (List.mem_singleton.mpr ?_)
        rw [hnew]
        rfl

end Sys2Proof.Machine
end

section
/-! RESTORE NODE and RESTORE CAR (R62, R89, R167, R168). -/

namespace Sys2Proof.Machine

/-! ## The tests of RESTORE NODE -/

theorem planOf_eq_none_iff (n : Nat) : planOf n = none ↔ n ≠ 1 ∧ n ≠ 2 := by
  unfold planOf
  split_ifs <;> simp_all

theorem planOf_eq {n : Nat} (h : n = 1 ∨ n = 2) : planOf n = some (if n = 2 then .full else .compare) := by
  rcases h with rfl | rfl <;> rfl

/-- The answer of RESTORE NODE to what its restore comes to (R167). -/
def Restored.answer : Restored → Answer
  | .refused e => .refused e
  | .planned n reason => .done .ok [byteOf n.code 0, byteOf reason.code 0]

theorem State.restoreNode_badParameter {s : State} {b : List Byte}
    (h : carOf (paramByte b 0) = none ∨ dropOf (paramByte b 1) = none ∨ planOf (paramByte b 2) = none) :
    s.restoreNode b = (s, .refused .badParameter) := by
  unfold State.restoreNode
  split
  · rename_i hc hd hp
    rw [hc, hd, hp] at h
    simp at h
  · rfl

theorem State.restoreCar_badParameter {s : State} {b : List Byte}
    (h : carOf (paramByte b 0) = none ∨ planOf (paramByte b 2) = none) : s.restoreCar b = (s, .refused .badParameter) := by
  unfold State.restoreCar
  split
  · rename_i hc hp
    rw [hc, hp] at h
    simp at h
  · rfl

section
variable {s : State} {b : List Byte} {c : Car} {d : Drop} {plan : Plan}

theorem State.restoreNode_eq (hc : paramByte b 0 = c.val) (hd : paramByte b 1 = d.val + 1) (hp : planOf (paramByte b 2) = some plan) :
    s.restoreNode b = ((s.restore c d plan).1, (s.restore c d plan).2.answer) := by
  unfold State.restoreNode
  rw [hc, hd, hp, carOf_val, dropOf_val]
  dsimp only
  generalize s.restore c d plan = x
  obtain ⟨t, a⟩ := x
  cases a <;> rfl

theorem State.restore_missing (h : s.findNode c d = none) : s.restore c d plan = (s, .refused .notInRoster) := by
  unfold State.restore
  rw [h]

variable {r : NodeRec}

theorem State.restore_refused (h : s.findNode c d = some r) {e : RefusalCode} (he : r.restoreRefusal = some e) :
    s.restore c d plan = (s, .refused e) := by
  unfold State.restore
  rw [h]
  dsimp only
  rw [he]

theorem State.restore_planned (h : s.findNode c d = some r) (he : r.restoreRefusal = none) {f : HelloFields} (hf : r.hello = some f)
    {n : NodeRec} :
    let w := (s.tell c (.cancel d)).applyPlan r { r with attempt := 0 } (s.planOrder r f plan)
    w.findNode c d = some n → s.restore c d plan = (w, .planned n.state n.reason) := by
  intro w hn
  unfold State.restore
  rw [h]
  dsimp only
  split
  · rename_i h1
    rw [he] at h1
    cases h1
  · rename_i h2
    rw [hf] at h2
    cases h2
  · rename_i h2
    obtain rfl := Option.some.inj (hf.symm.trans h2)
    rw [show ((s.tell c (.cancel d)).applyPlan r _ (s.planOrder r f plan)).findNode c d = some n from hn]

end

theorem NodeRec.restoreRefusal_excluded {r : NodeRec} (h : r.isExcluded = true) : r.restoreRefusal = some .excluded := if_pos h

/-- The refusal of an included node, by its state (R167). -/
theorem NodeRec.restoreRefusal_included {r : NodeRec} (h : r.isExcluded = false) :
    (r.state = .dark → r.restoreRefusal = some .dark)
      ∧ (r.state = .awaiting ∨ r.state = .missing → r.restoreRefusal = some .notHeard)
      ∧ (r.state ∈ [.queued, .surveying, .loading, .starting] → r.restoreRefusal = some .busy)
      ∧ (r.state ∈ [.ready, .failed, .backoff] → r.restoreRefusal = none) := by
  unfold NodeRec.restoreRefusal
  rw [if_neg (by rw [h]; decide)]
  cases r.state <;> decide

/-! ## RESTORE CAR -/

theorem State.restoreDrops_append (s : State) (c : Car) (plan : Plan) (l k : List Drop) : s.restoreDrops c plan (l ++ k)
    = (((s.restoreDrops c plan l).1.restoreDrops c plan k).1,
      (s.restoreDrops c plan l).2 ++ ((s.restoreDrops c plan l).1.restoreDrops c plan k).2) := by
  induction l generalizing s with
  | nil => rfl
  | cons d rest ih => simp only [List.cons_append, State.restoreDrops, ih]

theorem State.restoreDrops_length (s : State) (c : Car) (plan : Plan) (l : List Drop) :
    (s.restoreDrops c plan l).2.length = l.length := by
  induction l generalizing s with
  | nil => rfl
  | cons d rest ih => simp only [State.restoreDrops, List.length_cons, ih]

theorem allDrops_split (d : Drop) : allDrops = allDrops.take d.val ++ d :: allDrops.drop (d.val + 1)
    ∧ allDrops.take (d.val + 1) = allDrops.take d.val ++ [d] ∧ (allDrops.take d.val).length = d.val := by
  revert d; decide

/-- The car's drops as restored before the n-th. -/
def State.restoredTo (s : State) (c : Car) (plan : Plan) (n : Nat) : State := (s.restoreDrops c plan (allDrops.take n)).1

theorem State.restoredTo_succ (s : State) (c : Car) (plan : Plan) (d : Drop) :
    s.restoredTo c plan (d.val + 1) = ((s.restoredTo c plan d.val).restore c d plan).1 := by
  unfold State.restoredTo
  rw [(allDrops_split d).2.1, State.restoreDrops_append]
  rfl

theorem State.restoreDrops_disposition (s : State) (c : Car) (plan : Plan) (d : Drop) :
    (s.restoreDrops c plan allDrops).2[d.val]? = some ((s.restoredTo c plan d.val).restore c d plan).2.disposition := by
  obtain ⟨hall, -, hlen⟩ := allDrops_split d
  rw [hall, State.restoreDrops_append, List.getElem?_append_right (by rw [State.restoreDrops_length, hlen]),
    State.restoreDrops_length, hlen, Nat.sub_self]
  rfl

theorem State.restoreCar_eq {s : State} {b : List Byte} {c : Car} {plan : Plan} (hc : paramByte b 0 = c.val)
    (hp : planOf (paramByte b 2) = some plan) : s.restoreCar b =
    if s.roster.any (fun r => decide (r.car = c)) then
      let l := (s.restoreDrops c plan allDrops).2
      (s.restoredTo c plan 8, .done .ok ([byteOf (l.count 1) 0, byteOf (l.count 2) 0, 0, 0, 0, 0, 0, 0] ++ l.map (fun n => byteOf n 0)))
    else (s, .refused .notInRoster) := by
  unfold State.restoreCar State.restoredTo
  rw [hc, hp, carOf_val, show allDrops.take 8 = allDrops from rfl]

theorem Restored.disposition_refused (e : RefusalCode) :
    (Restored.refused e).disposition = if e = .notInRoster then 0 else e.code := by
  cases e <;> rfl

/-- What the disposition of a drop says of the answer RESTORE NODE would give it (R168). -/
theorem Restored.disposition_of_answer (x : Restored) :
    (x.answer = .refused .notInRoster → x.disposition = 0)
      ∧ (∀ e, x.answer = .refused e → e ≠ .notInRoster → x.disposition = e.code)
      ∧ ∀ n y, x.answer = .done .ok [n, y] → x.disposition = if n = 4 then 1 else 2 := by
  cases x with
  | refused e =>
    refine ⟨fun h => ?_, fun e' h hne => ?_, fun n y h => nomatch h⟩
    · cases h
      rfl
    · cases h
      rw [Restored.disposition_refused, if_neg hne]
  | planned n reason =>
    refine ⟨fun h => (nomatch h), fun e h => (nomatch h), fun m y h => ?_⟩
    cases h
    cases n <;> rfl

/-- Settles O14: the tests, the planning as what it leaves of the node, and RESTORE CAR drop by drop. -/
theorem restoreNodeTests : Obligations.RestoreNodeTests := by
  unfold Obligations.RestoreNodeTests
  refine ⟨fun s b => ?_, fun s b => ?_⟩
  · intro plan
    refine ⟨fun hbad => State.restoreNode_badParameter ?_, fun c d hc hd hplan => ⟨fun hnone => ?_, fun r hr => ?_⟩⟩
    · rw [carOf_eq_none_iff, dropOf_eq_none_iff, planOf_eq_none_iff]
      tauto
    · rw [State.restoreNode_eq hc hd (planOf_eq hplan), State.restore_missing hnone]
      rfl
    · have heq := State.restoreNode_eq (s := s) hc hd (planOf_eq hplan)
      have hrefused : ∀ {e}, r.restoreRefusal = some e → s.restoreNode b = (s, .refused e) := fun he => by
        rw [heq, State.restore_refused hr he]
        rfl
      refine ⟨fun hx => hrefused (NodeRec.restoreRefusal_excluded hx),
        fun hx hs => hrefused ((NodeRec.restoreRefusal_included hx).1 hs),
        fun hx hs => hrefused ((NodeRec.restoreRefusal_included hx).2.1 hs),
        fun hx hs => hrefused ((NodeRec.restoreRefusal_included hx).2.2.1 hs), fun hx hs f hf => ?_⟩
      obtain ⟨rfl, rfl⟩ := State.findNode_names hr
      have hstates : ∀ n : NodeState, n ∈ [NodeState.ready, .failed, .backoff] → n ≠ .missing ∧ n ≠ .queued := by decide
      obtain ⟨hmissing, hqueued⟩ := hstates _ hs
      have hplanned := State.applyPlan_planned (s := s.tell r.car (.cancel r.drop)) (r := { r with attempt := 0 }) hr ⟨rfl, rfl⟩
        (s.planOrder r f (if plan = 2 then .full else .compare))
      obtain ⟨n, hn, hrec⟩ := hplanned.found
      rw [State.restore_planned hr ((NodeRec.restoreRefusal_included hx).2.2.2 hs) hf hn] at heq
      generalize hp : s.planOrder r f (if plan = 2 then .full else .compare) = p at heq hplanned hrec hn
      generalize (s.tell r.car (.cancel r.drop)).applyPlan r { r with attempt := 0 } p = t at heq hplanned hn
      refine ⟨t, n, hn, heq, ?_⟩
      intro entry ready report old fails queues
      have hn_state : n.state = p.state := by rw [hrec]; cases p <;> rfl
      have hreport : report := by
        simp only [report, ready, ← doorsAllReady_eq, hn_state]
        exact hplanned.doors
      have htold := hplanned.told
      rw [if_neg hmissing, State.tell_told, List.append_nil] at htold
      have hfails : ∀ {reason}, s.plannable r f = .error reason → fails reason := fun he => by
        have hpe := hp.symm.trans (State.planOrder_fails he _)
        subst hpe
        have hasked := hplanned.asked
        simp only [State.plannedEntries, show byteOf 0 0 = 0 from rfl] at hasked
        refine ⟨hreport, ?_, hplanned.nextJob, fun k => hplanned.use k, ?_, hplanned.alert rfl, hasked⟩
        · rw [htold]
          exact List.append_nil _
        · rw [hrec]
          simp only [Planning.state, @eq_comm _ NodeState.failed]
          rfl
      have hqueues : ∀ {k q reason}, p = .job q reason k false → reason ≠ .beyondHoldUp → queues k q reason := by
        rintro k q reason rfl hreason
        have hasked := hplanned.asked
        simp only [State.plannedEntries, hreason, if_false, List.nil_append, show byteOf (bit false) 0 = 0 from rfl,
          show byteOf (0 + 1) 0 = 1 from rfl] at hasked
        refine ⟨_, hreport, hplanned.nextJob, fun x => ?_, ?_, newJob_eq _ _ _ _, hasked, ?_⟩
        · rw [hplanned.use]
          simp only [Planning.copy?, Option.some.injEq, @eq_comm _ k]
          rfl
        · rw [if_neg (show (Planning.job q reason k false).state ≠ r.state from Ne.symm hqueued)] at hrec
          exact hrec
        · rw [htold, List.append_assoc]
          simp only [State.plannedTells, State.jobOf, newJob_eq]
          rfl
      refine ⟨fun hcls => hfails (State.plannable_classMismatch hcls), fun hcls hk => hfails (State.plannable_noImage hcls hk),
        fun k hcls hk => ⟨fun he => hfails (State.plannable_imageClass hcls hk he), fun he => ?_⟩⟩
      have hjob := State.planOrder_job (State.plannable_ok hcls hk he) (if plan = 2 then .full else .compare)
      rw [hp] at hjob
      by_cases hfull : plan = 2
      · simp only [if_pos hfull, if_true] at hjob
        rw [if_pos hfull]
        exact hqueues hjob (by decide)
      · simp only [if_neg hfull, reduceCtorEq, if_false] at hjob
        rw [if_neg hfull]
        split_ifs at hjob ⊢ <;> exact hqueues hjob (by decide)
  · intro plan
    refine ⟨fun hbad => State.restoreCar_badParameter ?_, fun c hc hplan => ?_⟩
    · rw [carOf_eq_none_iff, planOf_eq_none_iff]
      exact hbad
    · obtain ⟨q, hq⟩ : ∃ q, planOf plan = some q := ⟨_, planOf_eq hplan⟩
      have heq := State.restoreCar_eq (s := s) hc hq
      refine ⟨fun hnone => ?_, fun hsome => ⟨s.restoredTo c q, _, rfl, State.restoreDrops_length s c q allDrops, ?_, ?_⟩⟩
      · rw [heq, if_neg]
        simpa using hnone
      · rw [heq, if_pos]
        simpa using hsome
      · intro d one h0 h1 h2
        rw [State.restoreDrops_disposition]
        refine ⟨((s.restoredTo c q d.val).restore c d q).2.answer, ?_, ?_⟩
        · rw [State.restoreNode_eq h0 h1 (h2 ▸ hq), State.restoredTo_succ]
        · obtain ⟨hnone, hrefused, hdone⟩ :=
            Restored.disposition_of_answer ((s.restoredTo c q d.val).restore c d q).2
          exact ⟨fun h => congrArg some (hnone h), fun e h hne => congrArg some (hrefused e h hne),
            fun n x h => congrArg some (hdone n x h)⟩

end Sys2Proof.Machine
end

section
/-! Passes of the planner over nodes: each place of a list is dealt with on its own, and the rest of the part is left (R47, R59, R61,
R114). -/

namespace Sys2Proof.Machine

/-! ## What work on whichever nodes leaves -/

/-- The planner has worked on nodes of whichever cars: entry requests and its news only grow, ALERT stays raised, and of the rest only
its own records, use counts and what is shown of them may differ. -/
structure PlannerWork (s t : State) : Prop where
  ord : t.ord = s.ord
  ssu : t.ssu = s.ssu
  fleet : t.fleet = s.fleet
  lines : t.lines = s.lines
  prm : t.prm = s.prm
  flash : t.flash = s.flash
  chan : ∃ x m y z, t.chan = { s.chan with clcRpl := x, handed := m, rplClc := y, rplPrm := z }
  isc : t.isc = { s.isc with records := t.isc.records }
  records : ∀ k : CopyIx, t.isc.records[k] = { s.isc.records[k] with use := t.isc.records[k].use }
  length : t.roster.length = s.roster.length
  ordered : RosterOrdered s → RosterOrdered t
  asks : s.jrn.requests <+: t.jrn.requests
  told : ∀ c : Car, s.chan.rplClc[c] <+: t.chan.rplClc[c]
  doors : s.chan.rplPrm <+: t.chan.rplPrm
  alert : s.ntu.causes.getLsbD 3 = true → t.ntu.causes.getLsbD 3 = true
  pages : HostPagesKept s t

theorem NodeRec.key_eq_iff (r q : NodeRec) : r.key = q.key ↔ r.car = q.car ∧ r.drop = q.drop := by
  rw [← NodeRec.names_both r q.car q.drop, NodeRec.names_iff]
  rfl

theorem RosterOrdered.of_keys {s t : State} (h : RosterOrdered s) (hk : t.roster.map NodeRec.key = s.roster.map NodeRec.key) :
    RosterOrdered t := by
  have hpair : ∀ l : List NodeRec, l.Pairwise (fun a b => a.before b = true) ↔ (l.map NodeRec.key).Pairwise (· < ·) := fun l => by
    simp only [List.pairwise_map, NodeRec.before_iff]
  have hlen := congrArg List.length hk
  rw [List.length_map, List.length_map] at hlen
  exact ⟨hlen ▸ h.1, (hpair _).mpr (hk ▸ (hpair _).mp h.2)⟩

theorem PlannerKept.keys {c : Car} {d : Drop} {s t : State} (h : PlannerKept c d s t) :
    t.roster.map NodeRec.key = s.roster.map NodeRec.key := by
  refine List.ext_getElem? (fun i => ?_)
  rw [List.getElem?_map, List.getElem?_map]
  cases hi : s.roster[i]? with
  | none =>
    rw [List.getElem?_eq_none_iff, ← h.length, ← List.getElem?_eq_none_iff] at hi
    rw [hi]
  | some r =>
    obtain ⟨n, hn, hnames⟩ := h.names i r hi
    rw [hn, Option.map_some, Option.map_some, (NodeRec.key_eq_iff n r).mpr hnames]

theorem PlannerKept.work {c : Car} {d : Drop} {s t : State} (h : PlannerKept c d s t) (hp : s.chan.rplPrm <+: t.chan.rplPrm) :
    PlannerWork s t where
  ord := h.ord
  ssu := h.ssu
  fleet := h.fleet
  lines := h.lines
  prm := h.prm
  flash := h.flash
  chan := h.chan
  isc := by
    obtain ⟨x, hx⟩ := h.isc
    rw [hx]
  records := h.records
  length := h.length
  ordered hs := hs.of_keys h.keys
  asks := h.asks
  told x := by
    by_cases hx : x = c
    · exact hx ▸ h.told
    · rw [h.tells x hx]
  doors := hp
  alert := h.alert
  pages := h.pages

theorem PlannerWork.refl (s : State) : PlannerWork s s := (PlannerKept.refl 0 0 s).work (List.prefix_refl _)

theorem PlannerWork.trans {s t u : State} (h : PlannerWork s t) (k : PlannerWork t u) : PlannerWork s u where
  ord := k.ord.trans h.ord
  ssu := k.ssu.trans h.ssu
  fleet := k.fleet.trans h.fleet
  lines := k.lines.trans h.lines
  prm := k.prm.trans h.prm
  flash := k.flash.trans h.flash
  chan := by
    obtain ⟨x, m, y, z, hx⟩ := h.chan
    obtain ⟨x', m', y', z', hk⟩ := k.chan
    exact ⟨x', m', y', z', by rw [hk, hx]⟩
  isc := by
    have hk := k.isc
    rw [h.isc] at hk
    exact hk
  records r := by rw [k.records r, h.records r]
  length := k.length.trans h.length
  ordered hs := k.ordered (h.ordered hs)
  asks := h.asks.trans k.asks
  told c := (h.told c).trans (k.told c)
  doors := h.doors.trans k.doors
  alert := k.alert ∘ h.alert
  pages a h1 h2 := (k.pages a h1 h2).trans (h.pages a h1 h2)

/-! ## Records but for their costs -/

/-- A record without its remaining cost. -/
def NodeRec.bare (r : NodeRec) : NodeRec := { r with cost := 0 }

theorem NodeRec.eq_of_bare {r q : NodeRec} (h : r.bare = q.bare) : r = { q with cost := r.cost } := by
  have hr : r = { r.bare with cost := r.cost } := rfl
  rw [h] at hr
  exact hr

/-! ## A pass -/

/-- What a pass over places gives of a record: F of it at a place on the list (but for costs). -/
def passed (F : NodeRec → NodeRec) (ps : List (Car × Drop)) (r : NodeRec) : NodeRec :=
  (if (r.car, r.drop) ∈ ps then F r else r).bare

/-- What a pass does with a record does not ask for its cost, keeps its place, and does not act on its own outcome. -/
structure PassRule (F : NodeRec → NodeRec) : Prop where
  bare : ∀ r, (F r.bare).bare = (F r).bare
  names : ∀ r, (F r).car = r.car ∧ (F r).drop = r.drop
  again : ∀ r, (F (F r)).bare = (F r).bare

/-- One place of a pass: its record becomes F of it, and no other changes but in its cost. -/
structure PassStep (F : NodeRec → NodeRec) (p : Car × Drop) (u t : State) : Prop where
  kept : PlannerKept p.1 p.2 u t
  doors : u.chan.rplPrm <+: t.chan.rplPrm
  found : ∀ r, u.findNode p.1 p.2 = some r → ∃ n, t.findNode p.1 p.2 = some n ∧ n.bare = (F r).bare

theorem RosterOrdered.findNode_iff {s : State} (h : RosterOrdered s) {i : Nat} {r : NodeRec} (hi : s.roster[i]? = some r) :
    s.findNode r.car r.drop = some r := by
  unfold State.findNode
  cases hf : s.roster.find? (fun x => x.names r.car r.drop) with
  | none => exact absurd r.names_self (List.find?_eq_none.mp hf r (List.mem_of_getElem? hi))
  | some q =>
    obtain ⟨k, hk⟩ := List.getElem?_of_mem (List.mem_of_find?_eq_some hf)
    have hname : q.names r.car r.drop = true := List.find?_some (p := fun x : NodeRec => x.names r.car r.drop) hf
    have := h.names_unique hi hk hname
    rw [this, hi] at hk
    exact hk.symm

section
variable {F : NodeRec → NodeRec} {p : Car × Drop} {u t : State}

theorem passed_bare (hF : PassRule F) (ps : List (Car × Drop)) (r : NodeRec) : passed F ps r.bare = passed F ps r := by
  unfold passed
  by_cases h : (r.car, r.drop) ∈ ps
  · rw [if_pos h, if_pos (show (r.bare.car, r.bare.drop) ∈ ps from h), hF.bare]
  · rw [if_neg h, if_neg (show ¬ (r.bare.car, r.bare.drop) ∈ ps from h)]
    rfl

theorem passed_cons (hF : PassRule F) (ps : List (Car × Drop)) (r : NodeRec) :
    passed F ps (passed F [p] r) = passed F (p :: ps) r := by
  by_cases hp : (r.car, r.drop) = p
  · have hnames : ((F r).car, (F r).drop) = p := by rw [(hF.names r).1, (hF.names r).2, hp]
    have hone : passed F [p] r = (F r).bare := by
      unfold passed
      rw [if_pos (List.mem_singleton.mpr hp)]
    have hcons : passed F (p :: ps) r = (F r).bare := by
      unfold passed
      rw [if_pos (hp ▸ List.mem_cons_self)]
    rw [hone, hcons, passed_bare hF]
    unfold passed
    split
    · exact hF.again r
    · rfl
  · have hone : passed F [p] r = r.bare := by
      unfold passed
      rw [if_neg (by simpa using hp)]
    rw [hone, passed_bare hF]
    unfold passed
    simp only [List.mem_cons, hp, false_or]

/-- The roster after one place of a pass. -/
theorem PassStep.roster (h : PassStep F p u t) (hu : RosterOrdered u) :
    t.roster.map NodeRec.bare = u.roster.map (passed F [p]) := by
  refine List.ext_getElem? (fun i => ?_)
  rw [List.getElem?_map, List.getElem?_map]
  cases hi : u.roster[i]? with
  | none =>
    rw [List.getElem?_eq_none_iff, ← h.kept.length, ← List.getElem?_eq_none_iff] at hi
    rw [hi]
    rfl
  | some r =>
    unfold passed
    by_cases hp : (r.car, r.drop) = p
    · obtain ⟨n, hn, hcar, hdrop⟩ := h.kept.names i r hi
      have hfound := hu.findNode_iff hi
      have hnode := (h.kept.work h.doors).ordered hu |>.findNode_iff hn
      rw [hcar, hdrop] at hnode
      subst hp
      obtain ⟨m, hm, hbare⟩ := h.found r hfound
      obtain rfl := Option.some.inj (hnode.symm.trans hm)
      rw [hn, Option.map_some, Option.map_some, if_pos (List.mem_singleton.mpr rfl), hbare]
    · obtain ⟨x, hx, -⟩ := h.kept.nodes i r hi (fun hc => hp (Prod.ext hc.1 hc.2))
      rw [hx, Option.map_some, Option.map_some, if_neg (by simpa using hp)]
      rfl

end

/-- A pass: what `step` does at each place, wherever the planner has come by then. -/
def IsPass (F : NodeRec → NodeRec) (s : State) (step : State → Car × Drop → State) : Prop :=
  ∀ u p, PlannerWork s u → PassStep F p u (step u p)

section
variable {F : NodeRec → NodeRec} {s : State} {step : State → Car × Drop → State}

theorem IsPass.work (h : IsPass F s step) (ps : List (Car × Drop)) {u : State} (hu : PlannerWork s u) :
    PlannerWork u (ps.foldl step u) := by
  induction ps generalizing u with
  | nil => exact PlannerWork.refl u
  | cons p ps ih =>
    have hstep := h u p hu
    have hwork := hstep.kept.work hstep.doors
    exact hwork.trans (ih (hu.trans hwork))

/-- The roster after a pass. -/
theorem IsPass.roster (h : IsPass F s step) (hF : PassRule F) (hs : RosterOrdered s) (ps : List (Car × Drop)) :
    (ps.foldl step s).roster.map NodeRec.bare = s.roster.map (passed F ps) := by
  have hall : ∀ (ps : List (Car × Drop)) (u : State), PlannerWork s u →
      (ps.foldl step u).roster.map NodeRec.bare = u.roster.map (passed F ps) := by
    intro ps
    induction ps with
    | nil => exact fun u _ => List.map_congr_left (fun r _ => rfl)
    | cons p ps ih =>
      intro u hu
      have hstep := h u p hu
      have hmap : (step u p).roster.map (passed F ps) = ((step u p).roster.map NodeRec.bare).map (passed F ps) := by
        rw [List.map_map]
        exact List.map_congr_left (fun r _ => (passed_bare hF ps r).symm)
      rw [List.foldl_cons, ih _ (hu.trans (hstep.kept.work hstep.doors)), hmap, hstep.roster (hu.ordered hs), List.map_map]
      exact List.map_congr_left (fun r _ => passed_cons hF ps r)
  exact hall ps s (PlannerWork.refl s)

/-- A record after a pass. -/
theorem IsPass.record (h : IsPass F s step) (hF : PassRule F) (hs : RosterOrdered s) (ps : List (Car × Drop)) {i : Nat} {r : NodeRec}
    (hi : s.roster[i]? = some r) :
    ∃ n, (ps.foldl step s).roster[i]? = some n ∧ n = { (if (r.car, r.drop) ∈ ps then F r else r) with cost := n.cost } := by
  have hroster := congrArg (fun l : List NodeRec => l[i]?) (h.roster hF hs ps)
  simp only [List.getElem?_map, hi, Option.map_some, Option.map_eq_some_iff] at hroster
  obtain ⟨n, hn, hbare⟩ := hroster
  exact ⟨n, hn, NodeRec.eq_of_bare hbare⟩

/-- Each record of the roster is dealt with once, as it stood before the pass; what that step adds stays. -/
theorem IsPass.visits (h : IsPass F s step) (hF : PassRule F) (hs : RosterOrdered s) {ps : List (Car × Drop)} {i : Nat} {r : NodeRec}
    (hi : s.roster[i]? = some r) (hp : (r.car, r.drop) ∈ ps) :
    ∃ u q, PlannerWork s u ∧ u.findNode r.car r.drop = some q ∧ q.bare = r.bare
      ∧ PlannerWork (step u (r.car, r.drop)) (ps.foldl step s) := by
  obtain ⟨before, after, rfl, hnot⟩ := List.eq_append_cons_of_mem hp
  have hu := h.work before (PlannerWork.refl s)
  have hroster := congrArg (fun l : List NodeRec => l[i]?) (h.roster hF hs before)
  simp only [List.getElem?_map, hi, Option.map_some, Option.map_eq_some_iff] at hroster
  obtain ⟨q, hq, hbare⟩ := hroster
  have hbare' : q.bare = r.bare := by
    rw [hbare, passed, if_neg hnot]
  have hqc : q.bare.car = r.bare.car := congrArg NodeRec.car hbare'
  have hqd : q.bare.drop = r.bare.drop := congrArg NodeRec.drop hbare'
  have hfound := (hu.ordered hs).findNode_iff hq
  rw [show q.car = r.car from hqc, show q.drop = r.drop from hqd] at hfound
  have hstep := h _ (r.car, r.drop) hu
  refine ⟨before.foldl step s, q, hu, hfound, hbare', ?_⟩
  rw [List.foldl_append, List.foldl_cons]
  exact h.work after (hu.trans (hstep.kept.work hstep.doors))

/-! ## What a pass adds up to -/

/-- A weight that a pass gathers at each record it deals with. -/
structure PassWeight (F : NodeRec → NodeRec) (w : NodeRec → Nat) : Prop where
  bare : ∀ r, w r.bare = w r
  again : ∀ r, w (F r) = 0

theorem RosterOrdered.sum_names {s : State} (hs : RosterOrdered s) (w : NodeRec → Nat) (c : Car) (d : Drop) :
    (s.roster.map (fun r => if (r.car, r.drop) = (c, d) then w r else 0)).sum = (s.findNode c d).elim 0 w := by
  have hpair : s.roster.Pairwise (fun a b => (a.car, a.drop) ≠ (b.car, b.drop)) := hs.2.imp (fun {a b} hab hne => by
    rw [NodeRec.before_iff, (NodeRec.key_eq_iff a b).mpr (Prod.mk.inj hne)] at hab
    exact Nat.lt_irrefl _ hab)
  unfold State.findNode
  generalize s.roster = l at hpair
  induction l with
  | nil => rfl
  | cons r rest ih =>
    obtain ⟨hr, hrest⟩ := List.pairwise_cons.mp hpair
    rw [List.map_cons, List.sum_cons]
    by_cases hn : (r.car, r.drop) = (c, d)
    · have hzero : rest.map (fun q => if (q.car, q.drop) = (c, d) then w q else 0) = rest.map (fun _ => 0) :=
        List.map_congr_left (fun q hq => if_neg (fun hqn => hr q hq (hn.trans hqn.symm)))
      rw [if_pos hn, hzero, List.find?_cons_of_pos (by simpa [NodeRec.names] using hn)]
      simp
    · rw [if_neg hn, ih hrest, Nat.zero_add, List.find?_cons_of_neg (by simpa [NodeRec.names] using hn)]

/-- A measure that each step moves by the weight of the record it deals with. -/
theorem IsPass.measure (h : IsPass F s step) (hF : PassRule F) (hs : RosterOrdered s) {w : NodeRec → Nat} (hw : PassWeight F w)
    {m : State → Nat} {act : Nat → Nat → Nat} (h0 : ∀ a, act a 0 = a) (hadd : ∀ a x y, act (act a x) y = act a (x + y))
    (hstep : ∀ u p, PlannerWork s u → m (step u p) = act (m u) ((u.findNode p.1 p.2).elim 0 w)) (ps : List (Car × Drop)) :
    m (ps.foldl step s) = act (m s) (s.roster.map (fun r => if (r.car, r.drop) ∈ ps then w r else 0)).sum := by
  have hall : ∀ (ps : List (Car × Drop)) (u : State), PlannerWork s u →
      m (ps.foldl step u) = act (m u) (u.roster.map (fun r => if (r.car, r.drop) ∈ ps then w r else 0)).sum := by
    intro ps
    induction ps with
    | nil =>
      intro u _
      simp [h0]
    | cons p ps ih =>
      intro u hu
      have hone := h u p hu
      have hu' := hu.trans (hone.kept.work hone.doors)
      have hbare : ∀ l : List NodeRec, l.map (fun r => if (r.car, r.drop) ∈ ps then w r else 0)
          = (l.map NodeRec.bare).map (fun r => if (r.car, r.drop) ∈ ps then w r else 0) := fun l => by
        rw [List.map_map]
        exact List.map_congr_left (fun r _ => by simp only [Function.comp, hw.bare]; rfl)
      rw [List.foldl_cons, ih _ hu', hstep u p hu, hadd, hbare, hone.roster (hu.ordered hs), List.map_map,
        ← (hu.ordered hs).sum_names w p.1 p.2, ← List.sum_map_add]
      congr 2
      refine List.map_congr_left (fun r _ => ?_)
      have hnames := hF.names r
      by_cases hp : (r.car, r.drop) = p
      · have hpassed : passed F [p] r = (F r).bare := by unfold passed; rw [if_pos (List.mem_singleton.mpr hp)]
        simp only [Function.comp, hpassed, hw.bare, hw.again, ite_self, Nat.add_zero, Prod.mk.eta, hp, if_true, List.mem_cons, true_or]
      · have hpassed : passed F [p] r = r.bare := by unfold passed; rw [if_neg (by simpa using hp)]
        simp only [Function.comp, hpassed, hw.bare, Prod.mk.eta, hp, if_false, Nat.zero_add, List.mem_cons, false_or]
        rfl
  exact hall ps s (PlannerWork.refl s)

end

/-- A sum of ones counts the records of a filter. -/
theorem sum_ones_eq_length (l : List NodeRec) (P : NodeRec → Bool) :
    (l.map (fun r => if P r then 1 else 0)).sum = (l.filter P).length := by
  induction l with
  | nil => rfl
  | cons r rest ih =>
    rw [List.map_cons, List.sum_cons, ih]
    cases h : P r <;> simp [h, Nat.add_comm]

end Sys2Proof.Machine
end

section
/-! Nodes reported unheard, and the backoff timer (R47, R60, R61). -/

namespace Sys2Proof.Machine

/-- A node that a report of its drop as unheard sends MISSING (R47, R48, R61). -/
def State.goesMissing (s : State) (r : NodeRec) : Bool :=
  !s.clcBehind r.car && (decide (r.state = .awaiting) || decide (r.state = .backoff ∧ r.backoffFrom = none))

/-- A record of a drop reported unheard, as it then stands. -/
def State.unheardRecord (s : State) (r : NodeRec) : NodeRec :=
  if s.goesMissing r then { r.missed with changedAt := s.ord.uptime } else r

/-- One place of a report of unheard drops. -/
def State.unheardAt (s : State) (p : Car × Drop) : State := State.takeUnheard p.1 s p.2

theorem NodeRec.polled_eq (r : NodeRec) : r.polled = decide (r.state = .backoff ∧ r.backoffFrom = none) := by
  rw [NodeRec.polled, Bool.decide_and]
  cases r.backoffFrom <;> rfl

section
variable {s u : State} {c : Car} {d : Drop} {r : NodeRec}

theorem PlannerWork.clcBehind (h : PlannerWork s u) (c : Car) : u.clcBehind c = s.clcBehind c := by
  obtain ⟨x, m, y, z, hx⟩ := h.chan
  rw [State.clcBehind, State.clcBehind, hx]

theorem PlannerWork.goesMissing (h : PlannerWork s u) (r : NodeRec) : u.goesMissing r = s.goesMissing r := by
  rw [State.goesMissing, State.goesMissing, h.clcBehind]

theorem State.takeUnheard_none (h : u.findNode c d = none) : State.takeUnheard c u d = u := by
  unfold State.takeUnheard
  rw [h]
  exact ite_self u

theorem State.takeUnheard_found (h : u.findNode c d = some r) :
    State.takeUnheard c u d = if u.goesMissing r then u.missNode r else u := by
  unfold State.takeUnheard State.goesMissing
  rw [h, (State.findNode_names h).1, ← NodeRec.polled_eq]
  cases u.clcBehind c <;> rfl

/-- A node that goes MISSING, as the report of its drop leaves it. -/
structure WentMissing (r : NodeRec) (u t : State) : Prop where
  found : ∃ n, t.findNode r.car r.drop = some n ∧ n = { r.missed with cost := n.cost, changedAt := u.ord.uptime }
  told : .missing r.drop true ∈ t.chan.rplClc[r.car]
  doors : t.chan.rplPrm = u.chan.rplPrm
    ++ (if r.cls = .door then [⟨r.car, r.drop, .state r.state .missing, doorsAllReady t.roster r.car⟩] else [])
  asked : nodeRequest r u.ord.uptime .nodeMissing [byteOf r.attempt 0, byteOf r.fail.code 0, 0, 0] ∈ t.jrn.requests
  use : ∀ k, t.isc.records[k].use = u.isc.records[k].use - r.pins k
  reports : t.chan.clcRpl = u.chan.clcRpl
  marks : t.chan.handed = u.chan.handed

theorem State.missNode_went (h : u.findNode r.car r.drop = some r) (hs : r.state ≠ .missing) : WentMissing r u (u.missNode r) := by
  obtain ⟨l, hw⟩ := State.missNode_written h
  have hpins := PinsOnly.unpinJob u r
  have hne : ¬ NodeState.missing = r.state := Ne.symm hs
  obtain ⟨n, hn, hrec⟩ := hw.found
  rw [if_neg (show ¬ r.missed.state = r.state from hne), hpins.ord] at hrec
  refine ⟨⟨n, hn, hrec⟩, ?_, ?_, ?_, fun k => ?_, ?_, ?_⟩
  · rw [hw.told, missingNews]
    simp [NodeRec.missed, hs]
  · rw [hw.doors, hpins.chan, doorNews]
    simp only [NodeRec.missed, ne_eq, hne, not_false_eq_true, and_true]
  · rw [hw.asked]
    simp
  · rw [hw.isc, State.unpinJob_use]
  · rw [hw.reports, hpins.chan]
  · rw [hw.marks, hpins.chan]

theorem State.goesMissing_state (h : u.goesMissing r = true) : r.state ≠ .missing := by
  intro hm
  simp [State.goesMissing, hm] at h

/-- The permits hear of a door node that is included and goes MISSING as of a car with a node not READY. -/
theorem WentMissing.not_ready {t : State} (h : WentMissing r u t) (hd : r.cls = .door) (hx : r.isExcluded = false) :
    doorsAllReady t.roster r.car = false := by
  obtain ⟨n, hn, hrec⟩ := h.found
  rw [doorsAllReady, List.all_eq_false]
  refine ⟨n, List.mem_of_find?_eq_some hn, ?_⟩
  have hdoor : n.includedDoor r.car = true := by
    rw [hrec]
    simp only [NodeRec.includedDoor, NodeRec.missed, hd, decide_true, Bool.true_and]
    exact Bool.not_eq_true' _ ▸ hx
  rw [hdoor, hrec]
  simp [NodeRec.missed]

end

/-! ## The pass -/

theorem unheard_rule (s : State) : PassRule s.unheardRecord where
  bare r := by
    unfold State.unheardRecord
    rw [show s.goesMissing r.bare = s.goesMissing r from rfl]
    split <;> rfl
  names r := by
    unfold State.unheardRecord
    split <;> exact ⟨rfl, rfl⟩
  again r := by
    unfold State.unheardRecord
    split
    · rw [if_neg (fun h => State.goesMissing_state h rfl)]
    · rfl

theorem unheard_pass (s : State) : IsPass s.unheardRecord s State.unheardAt := by
  intro u p hu
  unfold State.unheardAt
  cases hf : u.findNode p.1 p.2 with
  | none =>
    rw [State.takeUnheard_none hf]
    exact ⟨PlannerKept.refl _ _ u, List.prefix_refl _, fun r hr => by rw [hf] at hr; cases hr⟩
  | some r =>
    rw [State.takeUnheard_found hf, hu.goesMissing]
    obtain ⟨c, d⟩ := p
    obtain ⟨rfl, rfl⟩ := State.findNode_names hf
    have hrecord : s.unheardRecord r = if s.goesMissing r then { r.missed with changedAt := s.ord.uptime } else r := rfl
    split
    · rename_i hg
      have hw := State.missNode_went hf (State.goesMissing_state hg)
      rw [if_pos hg] at hrecord
      refine ⟨PlannerKept.missNode _ _ u ⟨rfl, rfl⟩, hw.doors ▸ List.prefix_append _ _, fun q hq => ?_⟩
      obtain rfl := Option.some.inj (hf.symm.trans hq)
      obtain ⟨n, hn, hrec⟩ := hw.found
      refine ⟨n, hn, ?_⟩
      rw [hrecord, hrec, hu.ord]
      rfl
    · rename_i hg
      rw [if_neg hg] at hrecord
      refine ⟨PlannerKept.refl _ _ u, List.prefix_refl _, fun q hq => ⟨q, hq, ?_⟩⟩
      obtain rfl := Option.some.inj (hf.symm.trans hq)
      rw [hrecord]

/-- What a node that goes MISSING counts for, of each kind of count. -/
theorem unheard_weight (s : State) {w : NodeRec → Nat} (hw : ∀ r, w r.bare = w r) :
    PassWeight s.unheardRecord (fun r => if s.goesMissing r then w r else 0) where
  bare r := by
    rw [hw]
    rfl
  again r := by
    refine if_neg (fun h => ?_)
    unfold State.unheardRecord at h
    split at h
    · exact State.goesMissing_state h rfl
    · contradiction

/-- What one place of the pass adds to a count, where a node that goes MISSING adds its weight. -/
theorem State.unheardAt_moves {s u : State} (hu : PlannerWork s u) (p : Car × Drop) {m : State → Nat} {act : Nat → Nat → Nat}
    {w : NodeRec → Nat} (h0 : ∀ a, act a 0 = a)
    (hm : ∀ r, WentMissing r u (u.missNode r) → m (u.missNode r) = act (m u) (w r)) :
    m (u.unheardAt p) = act (m u) ((u.findNode p.1 p.2).elim 0 (fun r => if s.goesMissing r then w r else 0)) := by
  unfold State.unheardAt
  cases hf : u.findNode p.1 p.2 with
  | none => rw [State.takeUnheard_none hf, Option.elim_none, h0]
  | some r =>
    rw [State.takeUnheard_found hf, Option.elim_some, hu.goesMissing]
    obtain ⟨c, d⟩ := p
    obtain ⟨rfl, rfl⟩ := State.findNode_names hf
    split
    · rename_i hg
      exact hm r (State.missNode_went hf (State.goesMissing_state hg))
    · rw [h0]

/-- The record is at a place of the report and goes MISSING. -/
def State.sentMissing (s : State) (ps : List (Car × Drop)) (r : NodeRec) : Bool :=
  decide ((r.car, r.drop) ∈ ps ∧ s.goesMissing r = true)

theorem sum_sentMissing (s : State) (ps : List (Car × Drop)) (l : List NodeRec) (P : NodeRec → Bool) :
    (l.map (fun r => if (r.car, r.drop) ∈ ps then (if s.goesMissing r then (if P r then 1 else 0) else 0) else 0)).sum
      = ((l.filter (s.sentMissing ps)).filter P).length := by
  rw [List.filter_filter, ← sum_ones_eq_length]
  congr 2
  funext r
  by_cases hin : (r.car, r.drop) ∈ ps <;> by_cases hg : s.goesMissing r = true <;> simp [State.sentMissing, hin, hg]

section
variable {s : State} (hs : RosterOrdered s) (ps : List (Car × Drop))
include hs

theorem State.unheard_use (k : CopyIx) : (ps.foldl State.unheardAt s).isc.records[k].use = s.isc.records[k].use
    - ((s.roster.filter (s.sentMissing ps)).filter (fun r => decide (r.job.map RplJob.copy = some k))).length := by
  rw [← sum_sentMissing]
  refine (unheard_pass s).measure (unheard_rule s) hs (unheard_weight s (fun _ => rfl)) (m := fun u => u.isc.records[k].use)
    (act := fun a b => a - b) Nat.sub_zero Nat.sub_sub (fun u p hu => ?_) ps
  refine State.unheardAt_moves hu p (m := fun u => u.isc.records[k].use) (act := fun a b => a - b) Nat.sub_zero (fun r hw => ?_)
  simp only [hw.use, NodeRec.pins, decide_eq_true_eq]

theorem State.unheard_reports : (ps.foldl State.unheardAt s).chan.rplPrm.length = s.chan.rplPrm.length
    + ((s.roster.filter (s.sentMissing ps)).filter (fun r => decide (r.cls = .door))).length := by
  rw [← sum_sentMissing]
  refine (unheard_pass s).measure (unheard_rule s) hs (unheard_weight s (fun _ => rfl)) (m := fun u => u.chan.rplPrm.length)
    (act := fun a b => a + b) Nat.add_zero Nat.add_assoc (fun u p hu => ?_) ps
  refine State.unheardAt_moves hu p (m := fun u => u.chan.rplPrm.length) (act := fun a b => a + b) Nat.add_zero (fun r hw => ?_)
  simp only [hw.doors, List.length_append, decide_eq_true_eq]
  split <;> rfl

end

/-- A node that the report sends MISSING: the line and the permits hear of it, and its entry is asked for. -/
theorem State.unheard_visited {s : State} (hs : RosterOrdered s) {ps : List (Car × Drop)} {i : Nat} {r : NodeRec}
    (hi : s.roster[i]? = some r) (hp : (r.car, r.drop) ∈ ps) (hg : s.goesMissing r = true) :
    let t := ps.foldl State.unheardAt s
    .missing r.drop true ∈ t.chan.rplClc[r.car]
      ∧ nodeRequest r s.ord.uptime .nodeMissing [byteOf r.attempt 0, byteOf r.fail.code 0, 0, 0] ∈ t.jrn.requests
      ∧ (r.cls = .door → ∃ all : Bool, ⟨r.car, r.drop, .state r.state .missing, all⟩ ∈ t.chan.rplPrm
        ∧ (r.isExcluded = false → all = false)) := by
  obtain ⟨u, q, hu, hq, hbare, hafter⟩ := (unheard_pass s).visits (unheard_rule s) hs hi hp
  obtain ⟨x, rfl⟩ : ∃ x, q = { r with cost := x } := ⟨_, NodeRec.eq_of_bare hbare⟩
  have hw := State.missNode_went (r := { r with cost := x }) hq (State.goesMissing_state hg)
  have hstep : u.unheardAt (r.car, r.drop) = u.missNode { r with cost := x } := by
    rw [State.unheardAt, State.takeUnheard_found hq, hu.goesMissing]
    exact if_pos hg
  rw [hstep] at hafter
  have hasked := hw.asked
  rw [hu.ord] at hasked
  refine ⟨(hafter.told r.car).subset hw.told, hafter.asks.subset hasked, fun hd => ⟨_, hafter.doors.subset ?_, hw.not_ready hd⟩⟩
  rw [hw.doors, if_pos (show ({ r with cost := x } : NodeRec).cls = .door from hd)]
  exact List.mem_append_right _ (List.mem_singleton.mpr rfl)

/-- A pass over nodes of one car leaves the other cars' nodes and the planner's records of them, and the line's reports. -/
theorem State.unheard_car (s : State) (c : Car) (ds : List Drop) :
    let t := ds.foldl (State.takeUnheard c) s
    (∀ x, x ≠ c → t.rpl[x] = s.rpl[x]) ∧ (∀ (i : Nat) (r : NodeRec), r.car ≠ c → s.roster[i]? = some r → t.roster[i]? = some r)
      ∧ t.chan.clcRpl = s.chan.clcRpl ∧ t.chan.handed = s.chan.handed := by
  refine foldl_keeps (P := fun u : State => (∀ x, x ≠ c → u.rpl[x] = s.rpl[x])
    ∧ (∀ (i : Nat) (r : NodeRec), r.car ≠ c → s.roster[i]? = some r → u.roster[i]? = some r)
    ∧ u.chan.clcRpl = s.chan.clcRpl ∧ u.chan.handed = s.chan.handed) _ ds (fun u d hu => ?_) s
    ⟨fun _ _ => rfl, fun _ _ _ h => h, rfl, rfl⟩
  cases hf : u.findNode c d with
  | none => rwa [State.takeUnheard_none hf]
  | some r =>
    rw [State.takeUnheard_found hf]
    split
    · rename_i hg
      obtain ⟨rfl, rfl⟩ := State.findNode_names hf
      obtain ⟨hrpl, hnodes, hreports, hmarks⟩ := hu
      have hkept := PlannerKept.missNode r.car r.drop u ⟨rfl, rfl⟩
      have hw := State.missNode_went hf (State.goesMissing_state hg)
      refine ⟨fun x hx => (hkept.rpl x hx).trans (hrpl x hx), fun i q hq hi => ?_, hw.reports.trans hreports, hw.marks.trans hmarks⟩
      obtain ⟨x, hx, hcost⟩ := hkept.nodes i q (hnodes i q hq hi) (fun h => hq h.1)
      rw [hx, hcost hq]
    · exact hu

/-! ## The commands -/

section
variable {s : State} {c : Car} {ds : List Drop} {one : Bool} {rest : List LineReport}

theorem State.backoffReport_iff (s : State) (c : Car) (ds : List Drop) (one : Bool) : s.backoffReport c ds one = true
    ↔ one = true ∧ ∃ d ∈ ds, ∃ r, s.findNode c d = some r ∧ r.state = .backoff := by
  simp only [State.backoffReport, Bool.and_eq_true, List.any_eq_true]
  refine and_congr_right (fun _ => exists_congr (fun d => and_congr_right (fun _ => ?_)))
  cases s.findNode c d <;> simp

/-- Either command of a report of unheard drops takes it, each in its own case (R47, R61). -/
theorem exec_unheard (hrun : s.isRunning = true) (h : s.chan.clcRpl[c] = .unheard ds one :: rest) {i : Instr}
    (hi : (i = .rplUnheardReport c ∧ s.backoffReport c ds one = false) ∨ (i = .backoffRollCallUnheard c ∧ s.backoffReport c ds one = true)) :
    exec i s = .next (publish s (ds.foldl (State.takeUnheard c) (s.dropReport c))) := by
  rcases hi with ⟨rfl, hb⟩ | ⟨rfl, hb⟩
  · show execRplUnheardReport c s = _
    simp only [execRplUnheardReport, hrun, h, hb]
    rfl
  · show execBackoffRollCallUnheard c s = _
    simp only [execBackoffRollCallUnheard, hrun, h, hb]
    rfl

theorem exec_backoffTimerExpiry {d : Drop} {r : NodeRec} (hrun : s.isRunning = true) (h : s.findNode c d = some r)
    (hs : r.state = .backoff) (hf : r.backoffFrom.isSome = true) : exec (.backoffTimerExpiry c d) s
      = .next (publish s ((s.putNode r { r with backoffFrom := none, backoffShown := 0 }).tell c (.individual d))) := by
  show execBackoffTimerExpiry c d s = _
  simp only [execBackoffTimerExpiry, hrun, h, hs, hf]
  rfl

end

/-- A record put with its state unchanged: no tell, no report. -/
theorem State.putNode_same_state (s : State) {old new : NodeRec} (h : new.state = old.state) :
    s.putNode old new = s.setNode old.car old.drop new := by
  simp only [State.putNode, State.writeNode, NodeRec.stamped, h, if_true, ne_eq, not_true, and_false, if_false]

/-- Settles O53: the report's drops as a pass over places, and the timer's expiry as one write. -/
theorem unheardAndBackoff : Obligations.UnheardAndBackoff := by
  unfold Obligations.UnheardAndBackoff
  intro c s hrun hs
  refine ⟨fun ds one rest i hrep hi => ?_, fun d r hr hstate hfrom => ?_⟩
  · intro behind gone
    have hi' : (i = .rplUnheardReport c ∧ s.backoffReport c ds one = false)
        ∨ (i = .backoffRollCallUnheard c ∧ s.backoffReport c ds one = true) := by
      rw [← Bool.not_eq_true, State.backoffReport_iff]
      refine hi.imp (fun ⟨h1, h2⟩ => ⟨h1, ?_⟩) (fun ⟨h1, h2⟩ => ⟨h1, h2⟩)
      rintro ⟨hone, d, hd, r, hr, hb⟩
      rcases h2 with h2 | h2
      · rw [h2] at hone
        cases hone
      · exact h2 d hd r hr hb
    have hexec := exec_unheard hrun hrep hi'
    have hs0 : RosterOrdered (s.dropReport c) := hs
    let ps := ds.map (Prod.mk c)
    have hfold : ds.foldl (State.takeUnheard c) (s.dropReport c) = ps.foldl State.unheardAt (s.dropReport c) := by
      rw [List.foldl_map]
      rfl
    have hps : ∀ r : NodeRec, (r.car, r.drop) ∈ ps ↔ r.car = c ∧ r.drop ∈ ds := fun r => by
      simp only [ps, List.mem_map, Prod.mk.injEq]
      exact ⟨fun ⟨d, hd, h1, h2⟩ => ⟨h1.symm, h2 ▸ hd⟩, fun ⟨h1, h2⟩ => ⟨_, h2, h1.symm, rfl⟩⟩
    have hgoes : ∀ r : NodeRec, (r.car, r.drop) ∈ ps ∧ s.goesMissing r = true
        ↔ behind = false ∧ r.car = c ∧ r.drop ∈ ds ∧ (r.state = .awaiting ∨ (r.state = .backoff ∧ r.backoffFrom = none)) := fun r => by
      simp only [hps, State.goesMissing, Bool.and_eq_true, Bool.or_eq_true, decide_eq_true_eq, Bool.not_eq_true']
      constructor
      · rintro ⟨⟨rfl, hd⟩, hb, hstate⟩
        exact ⟨hb, rfl, hd, hstate⟩
      · rintro ⟨hb, rfl, hd, hstate⟩
        exact ⟨⟨rfl, hd⟩, hb, hstate⟩
    have hgone : gone = s.roster.filter (s.sentMissing ps) := by
      refine List.filter_congr (fun r _ => ?_)
      simp only [State.sentMissing, hgoes, Bool.decide_and, Bool.decide_or, Bool.and_assoc, Bool.decide_eq_false]
    obtain ⟨hrpl, hothers, hreports, hmarks⟩ := (s.dropReport c).unheard_car c ds
    have hwork := (unheard_pass (s.dropReport c)).work ps (PlannerWork.refl _)
    have huse := State.unheard_use hs0 ps
    have hcount := State.unheard_reports hs0 ps
    have hvisited := fun {i r} => State.unheard_visited hs0 (ps := ps) (i := i) (r := r)
    have hrecord := fun {i r} => (unheard_pass (s.dropReport c)).record (unheard_rule _) hs0 ps (i := i) (r := r)
    rw [hfold] at hexec hrpl hothers hreports hmarks
    generalize ps.foldl State.unheardAt (s.dropReport c) = t at *
    refine ⟨_, hexec, hwork.length, ?_, ?_, fun k => ?_, hwork.doors, ?_, fun r hr hdoor => ?_, fun n r hn => ?_⟩
    · rw [publish_chan, hreports, State.dropReport, dropAt, hrep]
      rfl
    · rw [publish_chan, hmarks]
      rfl
    · rw [publish_isc, huse k, hgone]
      rfl
    · rw [publish_chan, hcount, hgone]
      rfl
    · rw [hgone, List.mem_filter, State.sentMissing, decide_eq_true_eq] at hr
      obtain ⟨hmem, hin, hg⟩ := hr
      obtain ⟨n, hn⟩ := List.getElem?_of_mem hmem
      have hcar := ((hps r).mp hin).1
      subst hcar
      exact (hvisited hn hin hg).2.2 hdoor
    · obtain ⟨r', hr', hrec⟩ := hrecord hn
      refine ⟨r', hr', ⟨fun hg => ?_, fun hg => ⟨?_, fun hc => ?_⟩⟩, hrpl, hwork.lines, hwork.ssu, hwork.prm, hwork.ord, hwork.flash,
        fun a h1 h2 => ?_⟩
      · obtain ⟨hin, hmiss⟩ := (hgoes r).mpr hg
        obtain ⟨htold, hasked, -⟩ := hvisited hn hin hmiss
        have hcar := ((hps r).mp hin).1
        subst hcar
        rw [if_pos hin, State.unheardRecord, if_pos (show (s.dropReport r.car).goesMissing r = true from hmiss)] at hrec
        exact ⟨hrec, htold, hasked⟩
      · rw [hrec]
        by_cases hin : (r.car, r.drop) ∈ ps
        · have hmiss : ¬ (s.dropReport c).goesMissing r = true := fun hm => hg ((hgoes r).mp ⟨hin, hm⟩)
          rw [if_pos hin, State.unheardRecord, if_neg hmiss]
        · rw [if_neg hin]
      · exact Option.some.inj (hr'.symm.trans (hothers n r hc hn))
      · exact ((PlannerKept.publish c 0 s t).pages a h1 h2).trans (hwork.pages a h1 h2)
  · intro l
    obtain ⟨rfl, rfl⟩ := State.findNode_names hr
    have hput : s.putNode r { r with backoffFrom := none, backoffShown := 0 } = s.setRoster l := by
      rw [State.putNode_same_state s (show ({ r with backoffFrom := none, backoffShown := 0 } : NodeRec).state = r.state from rfl)]
      unfold State.setNode
      simp only [NodeRec.names_both, l]
    rw [exec_backoffTimerExpiry hrun hr hstate hfrom, hput]
    rfl

end Sys2Proof.Machine
end

section
/-! The estimate of a car, exactly (R67 to R70): its figures, what it asks for, and what of it the Exchange RAM shows. -/

namespace Sys2Proof.Machine

/-! ## Figures -/

/-- What an estimate sums up for a car: the remaining costs of its included door nodes, and what the INFO job on its line is owed
(R67, R68). -/
def State.costSum (s : State) (c : Car) : Nat := (includedDoors s.roster c).foldl (fun n d => n + s.price d) 0 + s.infoShare c

/-- A car's record with E, the elapsed time and P reckoned, and the late flag judged by its budget (R69, R70). -/
def State.figured (s : State) (c : Car) (p : RplCar) : RplCar :=
  let e := if p.settled then 0 else min 65535 (ceilDiv (s.costSum c) 1000)
  let elapsed := min 65535 p.clock
  let total := min 65535 (elapsed + e)
  { p with e := e, elapsed := elapsed, p := total, late := decide (p.budget ≠ 0 ∧ p.budget < total) }

/-- LATE or ON TIME, where the late flag changes (R70). -/
def lateNews (c : Car) (uptime : Long) (was : Bool) (q : RplCar) : List EntryReq :=
  if q.late = was then []
  else [⟨.rpl, { kind := if q.late then .late else .onTime, car := c.val, drop := 0, uptime := uptime
                 body := le16 q.p ++ le16 q.budget }⟩]

/-- The causes once a car's late flag is judged: ALERT where it turns on (R70, R72). -/
def lateCauses (causes : BitVec 4) (was : Bool) (q : RplCar) : BitVec 4 :=
  if q.late = true ∧ was = false then causes ||| 8 else causes

theorem setRpl_same (v : Vector RplCar 6) (c : Car) (r : RplCar) (h : v[c] = r) : v.set c r = v := by
  rw [← h]
  exact Vector.set_getElem_self _

/-- The late flag judged: the record, LATE or ON TIME, ALERT, and nothing else but what is shown (R70). -/
theorem State.judgeLate_eq (s : State) (c : Car) (uptime : Long) :
    let r := s.rpl[c]
    let q := { r with late := decide (r.budget ≠ 0 ∧ r.budget < r.p) }
    let t := s.judgeLate c uptime
    t = { s with rpl := s.rpl.set c q, jrn := { s.jrn with requests := s.jrn.requests ++ lateNews c uptime r.late q }
                 ntu := { s.ntu with causes := lateCauses s.ntu.causes r.late q }, pins := t.pins, ram := t.ram } := by
  intro r q t
  have ht : t = s.judgeLate c uptime := rfl
  have hlate : (decide (r.budget ≠ 0) && decide (r.budget < r.p)) = q.late := (Bool.decide_and _ _).symm
  unfold State.judgeLate at ht
  dsimp only at ht
  rw [show (decide (s.rpl[c].budget ≠ 0) && decide (s.rpl[c].budget < s.rpl[c].p)) = q.late from hlate] at ht
  by_cases hsame : q.late = r.late
  · have hnews : lateNews c uptime r.late q = [] := if_pos hsame
    have hcauses : lateCauses s.ntu.causes r.late q = s.ntu.causes :=
      if_neg (fun h => by rw [hsame, h.2] at h; exact absurd h.1 (by decide))
    have hq : q = r := by
      show ({ r with late := q.late } : RplCar) = r
      rw [hsame]
    rw [if_pos hsame] at ht
    rw [hnews, hcauses, hq, setRpl_same _ _ _ rfl, List.append_nil, ht]
  · have hnews : lateNews c uptime r.late q = [⟨.rpl, { kind := if q.late then .late else .onTime, car := c.val, drop := 0
                                                        uptime := uptime, body := le16 r.p ++ le16 r.budget }⟩] := if_neg hsame
    rw [if_neg hsame] at ht
    rw [hnews]
    cases hq : q.late
    · have hcauses : lateCauses s.ntu.causes r.late q = s.ntu.causes := if_neg (fun h => by rw [hq] at h; exact absurd h.1 (by decide))
      rw [hq, if_neg (by decide)] at ht
      rw [hcauses, ht, if_neg (by decide), ← hq]
      rfl
    · have hwas : r.late = false := by
        cases hr : r.late
        · rfl
        · exact absurd (hq.trans hr.symm) hsame
      have hcauses : lateCauses s.ntu.causes r.late q = s.ntu.causes ||| 8 := if_pos ⟨hq, hwas⟩
      rw [hq, if_pos rfl] at ht
      rw [hcauses, ht, if_pos rfl, ← hq]
      rfl

/-! ## Where an estimate writes -/

/-- A byte of the Exchange RAM that lies neither in the mirrors nor in a car's summary. -/
def OutsideCar (c : Car) (a : Nat) : Prop := a < 0x1200 ∧ (a < 0x60 + 16 * c.val ∨ 0x60 + 16 * c.val + 16 ≤ a)

/-- The three words of a car's estimate stand in its summary (R69, R154). -/
def EstimateShown (m : Memory) (c : Car) (q : RplCar) : Prop :=
  Shows m (0x64 + 16 * c.val, q.e) ∧ Shows m (0x66 + 16 * c.val, q.p) ∧ Shows m (0x68 + 16 * c.val, q.elapsed)

section
variable (s : State) (c : Car)

theorem State.setRpl_outside (r : RplCar) {a : Nat} (h : OutsideCar c a) : (s.setRpl c r).ramByte a = s.ramByte a :=
  read_syncItems_other _ _ _ (fun w hw => by
    have := itemWords_within (carItems_within _ c) w hw
    obtain ⟨-, h⟩ := h
    omega)

theorem State.setRoster_outside (l : List NodeRec) {a : Nat} (h : a < 0x1200) : (s.setRoster l).ramByte a = s.ramByte a :=
  State.setRoster_ramByte_unchanged s l (fun i x hx _ => by have := mirrorItems_within _ i x hx; omega) (fun i _ => by omega)

theorem State.showField_outside (p : NodeRec → Bool) (n : Nat) {a : Nat} (h : a < 0x1200) :
    (s.showField p n).ramByte a = s.ramByte a := by
  refine read_putWords_other _ _ (fun w hw => ?_)
  obtain ⟨i, -, hi⟩ := List.mem_flatMap.mp hw
  split at hi
  · obtain ⟨x, hx, hw⟩ := List.mem_flatMap.mp hi
    have := mirrorWords_within s i w (wordsFrom_subset (List.mem_of_mem_filter hx) w hw)
    omega
  · cases hi

theorem State.showEstimate_outside {a : Nat} (h : OutsideCar c a) : (s.showEstimate c).ramByte a = s.ramByte a := by
  obtain ⟨hlow, hout⟩ := h
  rw [State.showEstimate, State.showField_outside _ _ _ hlow]
  refine read_putWords_other _ _ (fun w hw => ?_)
  have hword := (List.mem_filter.mp hw).2
  simp only [isEstimateWord, List.mem_cons, List.not_mem_nil, or_false, decide_eq_true_eq] at hword
  omega

theorem State.judgeLate_outside (u : Long) {a : Nat} (h : OutsideCar c a) : (s.judgeLate c u).ramByte a = s.ramByte a := by
  unfold State.judgeLate
  dsimp only
  split
  · rfl
  · split <;> exact State.setRpl_outside s c _ h

theorem wf_judgeLate (u : Long) (h : Mem.wf 0 s.ram = true) : Mem.wf 0 (s.judgeLate c u).ram = true := by
  unfold State.judgeLate
  dsimp only
  split
  · exact h
  · split <;> exact wf_setRpl s c _ h

theorem wf_showEstimate (h : Mem.wf 0 s.ram = true) : Mem.wf 0 (s.showEstimate c).ram = true := wf_putWords _ (wf_putWords _ h)

theorem carItem_mem {x : Item} (h : x ∈ carItems s c) : x ∈ pageItems s := by
  rw [pageItems_eq]
  exact List.mem_append_right _ (List.mem_flatMap.mpr ⟨c, List.mem_finRange c, h⟩)

/-- A word of a car's summary is one of the Status Page. -/
theorem carWord_mem {w : Nat × Nat} (h : (w.1, [w.2]) ∈ carItems s c) : w ∈ statusPage s := by
  exact wordsFrom_subset (x := (w.1, [w.2])) (carItem_mem s c h) w List.mem_cons_self

theorem Shows.of_outside {m m' : Memory} {w : Nat × Nat} (h : Shows m w) (hw : w.1 + 1 < 0x1200)
    (hm : ∀ a, a < 0x1200 → Mem.read 0 m' a = Mem.read 0 m a) : Shows m' w :=
  h.of_reads (hm _ (by omega)) (hm _ (by omega))

/-- The items of a car's summary that hold its estimate. -/
theorem estimateItems_mem : (0x64 + 16 * c.val, [s.rpl[c].e]) ∈ carItems s c ∧ (0x66 + 16 * c.val, [s.rpl[c].p]) ∈ carItems s c
    ∧ (0x68 + 16 * c.val, [s.rpl[c].elapsed]) ∈ carItems s c := by
  have hitem : ∀ (i n v : Nat), (carItems s c)[i]? = some (0x60 + 16 * c.val + n, [v]) → (0x60 + n + 16 * c.val, [v]) ∈ carItems s c :=
    fun i n v hi => Nat.add_right_comm 0x60 (16 * c.val) n ▸ List.mem_of_getElem? hi
  exact ⟨hitem 2 4 _ rfl, hitem 3 6 _ rfl, hitem 4 8 _ rfl⟩

theorem State.showEstimate_shows (h : Mem.wf 0 s.ram = true) : EstimateShown (s.showEstimate c).ram c s.rpl[c] := by
  have hc := c.isLt
  have hshow : ∀ w : Nat × Nat, (w.1, [w.2]) ∈ carItems s c → isEstimateWord c w.1 = true → Shows (s.showEstimate c).ram w := by
    intro w hw he
    have hmem := carWord_mem s c hw
    have hlow := statusPage_below s w hmem
    have hwords : ((statusPage s).filter (fun w => isEstimateWord c w.1)).Pairwise WordsApart :=
      (pageItems_apart s).itemWords.filter _
    exact (putWords_shows hwords h w (List.mem_filter.mpr ⟨hmem, he⟩)).of_outside (by omega)
      (fun a ha => State.showField_outside _ _ _ ha)
  obtain ⟨he, hp, helapsed⟩ := estimateItems_mem s c
  exact ⟨hshow _ he (by simp [isEstimateWord]), hshow _ hp (by simp [isEstimateWord]), hshow _ helapsed (by simp [isEstimateWord])⟩

end

/-! ## The estimate -/

/-- From s to t car c is estimated, to the record q: its nodes are repriced, its late flag judged, and its figures shown. -/
structure Estimated (c : Car) (uptime : Long) (q : RplCar) (s t : State) : Prop where
  state : t = { s with
    rpl := s.rpl.set c q
    roster := s.roster.map (s.repriced c)
    mirrorCount := t.mirrorCount
    jrn := { s.jrn with requests := s.jrn.requests ++ lateNews c uptime s.rpl[c].late q }
    ntu := { s.ntu with causes := lateCauses s.ntu.causes s.rpl[c].late q }
    pins := t.pins
    ram := t.ram }
  wf : Mem.wf 0 s.ram = true → Mem.wf 0 t.ram = true
  shown : Mem.wf 0 s.ram = true → EstimateShown t.ram c q
  outside : ∀ a, OutsideCar c a → t.ramByte a = s.ramByte a
  pages : HostPagesKept s t

theorem State.estimateAt_up {s : State} {c : Car} (hup : s.rpl[c].up = true) (uptime : Long) :
    Estimated c uptime (s.figured c s.rpl[c]) s (s.estimateAt c uptime) := by
  let r1 : RplCar := { s.rpl[c] with
    e := if s.rpl[c].settled then 0 else saturate 65535 (ceilDiv (s.costSum c) 1000)
    elapsed := saturate 65535 s.rpl[c].clock
    p := saturate 65535 (saturate 65535 s.rpl[c].clock
      + if s.rpl[c].settled then 0 else saturate 65535 (ceilDiv (s.costSum c) 1000)) }
  let s1 := s.setRoster (s.roster.map (s.repriced c))
  have ht : s.estimateAt c uptime = ((s1.setRpl c r1).judgeLate c uptime).showEstimate c := if_pos hup
  have hr1 : (s1.setRpl c r1).rpl[c] = r1 := set_get _ _ _
  have hj := (s1.setRpl c r1).judgeLate_eq c uptime
  dsimp only at hj
  have hq : ({ r1 with late := decide (r1.budget ≠ 0 ∧ r1.budget < r1.p) } : RplCar) = s.figured c s.rpl[c] := by
    simp only [r1, State.figured, saturate_eq_min]
  rw [hr1, hq] at hj
  rw [ht]
  generalize hjs : (s1.setRpl c r1).judgeLate c uptime = j at hj
  have hrpl : j.rpl[c] = s.figured c s.rpl[c] := by rw [hj]; exact set_get _ _ _
  have hwf : Mem.wf 0 s.ram = true → Mem.wf 0 j.ram = true := fun h =>
    hjs ▸ wf_judgeLate _ c uptime (wf_setRpl _ c _ (wf_setRoster s _ h))
  refine ⟨?_, fun h => wf_showEstimate _ c (hwf h), fun h => hrpl ▸ State.showEstimate_shows j c (hwf h), fun a ha => ?_, ?_⟩
  · rw [State.showEstimate_eq, hj]
    simp only [State.setRpl_rpl, Vector.set_set]
    rfl
  · rw [State.showEstimate_outside _ _ ha, ← hjs, State.judgeLate_outside _ _ _ ha, State.setRpl_outside _ _ _ ha,
      State.setRoster_outside _ _ ha.1]
  · have hroster : HostPagesKept s s1 := fun a h1 h2 => State.setRoster_ramByte_other s _ (by unfold Shown; omega)
    exact fun a h1 h2 => ((PlannerKept.showEstimate c 0 j c).pages a h1 h2).trans
      ((hjs ▸ (PlannerKept.judgeLate c 0 (s1.setRpl c r1) uptime).pages a h1 h2).trans
        (((PlannerKept.setRpl c 0 s1 r1).pages a h1 h2).trans (hroster a h1 h2)))

end Sys2Proof.Machine
end

section
/-! CAR RETURN (R45, R64, R65): the car's records, its ready clock, and the estimate that follows. -/

namespace Sys2Proof.Machine

theorem State.repriced_eq (s : State) (c : Car) (r : NodeRec) : s.repriced c r = { r with cost := (s.repriced c r).cost } := by
  unfold State.repriced
  split <;> rfl

theorem State.repriced_other (s : State) {c : Car} {r : NodeRec} (h : ¬ (r.car = c ∧ r.cls = .door)) : s.repriced c r = r := by
  unfold State.repriced
  rw [if_neg (by simpa using h)]

/-- Which door records are included does not depend on what a map of the roster leaves of them. -/
theorem includedDoors_map {g : NodeRec → NodeRec} {c : Car} (hg : ∀ r, (g r).includedDoor c = r.includedDoor c) (l : List NodeRec) :
    includedDoors (l.map g) c = (includedDoors l c).map g := by
  simp only [includedDoors, List.filter_map, Function.comp_def, hg]

theorem includedDoors_nil_iff (l : List NodeRec) (c : Car) :
    includedDoors l c = [] ↔ ∀ r ∈ l, r.car = c → r.cls = .door → r.isExcluded = true := by
  simp only [includedDoors, List.filter_eq_nil_iff, NodeRec.includedDoor, Bool.and_eq_true, decide_eq_true_eq, Bool.not_eq_true',
    not_and, Bool.not_eq_false, and_imp]

/-- A record of the car returned: DARK goes to AWAITING, and other records stay as they were (R45). -/
def NodeRec.returned (r : NodeRec) (c : Car) (uptime : Long) : NodeRec := if r.car = c then r.awaited uptime else r

section
variable (r : NodeRec) (c : Car) (uptime : Long)

theorem NodeRec.returned_dark (h : r.car = c ∧ r.state = .dark) :
    r.returned c uptime = { r with state := .awaiting, attempt := 0, changedAt := uptime } := by
  rw [NodeRec.returned, if_pos h.1, NodeRec.awaited, if_pos h.2]

theorem NodeRec.returned_other (h : ¬ (r.car = c ∧ r.state = .dark)) : r.returned c uptime = r := by
  unfold NodeRec.returned NodeRec.awaited
  split
  · exact if_neg (fun hs => h ⟨‹_›, hs⟩)
  · rfl

theorem NodeRec.returned_includedDoor : (r.returned c uptime).includedDoor c = r.includedDoor c := by
  by_cases h : r.car = c ∧ r.state = .dark
  · rw [NodeRec.returned_dark r c uptime h]; rfl
  · rw [NodeRec.returned_other r c uptime h]

end

namespace Estimated
variable {c : Car} {u : Long} {q : RplCar} {s t : State} (h : Estimated c u q s t)
include h

theorem rpl : t.rpl = s.rpl.set c q := congrArg State.rpl h.state
theorem roster : t.roster = s.roster.map (s.repriced c) := congrArg State.roster h.state
theorem jrn : t.jrn = { s.jrn with requests := s.jrn.requests ++ lateNews c u s.rpl[c].late q } := congrArg State.jrn h.state
theorem chan : t.chan = s.chan := (congrArg State.chan h.state).trans rfl
theorem lines : t.lines = s.lines := (congrArg State.lines h.state).trans rfl
theorem prm : t.prm = s.prm := (congrArg State.prm h.state).trans rfl
theorem ssu : t.ssu = s.ssu := (congrArg State.ssu h.state).trans rfl
theorem isc : t.isc = s.isc := (congrArg State.isc h.state).trans rfl
theorem flash : t.flash = s.flash := (congrArg State.flash h.state).trans rfl

end Estimated

/-- The state a CAR RETURN leaves to the estimate: the event taken, the records returned and the car up (R45). -/
def State.carUp (s : State) (c : Car) (g : Nat) (unknown restart : Bool) (u : Long) : State :=
  let s1 := (s.dropRplEvent c).mapCar c (fun r => r.awaited s.ord.uptime)
  s1.setRpl c (s.rpl[c].returned g unknown restart (msSince s.ord.uptime u) (decide (includedDoors s1.roster c = [])))

theorem State.carUp_record (s : State) (c : Car) (g : Nat) (unknown restart : Bool) (u : Long) :
    (s.carUp c g unknown restart u).rpl[c] = s.rpl[c].returned g unknown restart (msSince s.ord.uptime u)
      (decide (includedDoors s.roster c = [])) := by
  have hdoors : includedDoors (s.roster.map (fun r => r.returned c s.ord.uptime)) c = [] ↔ includedDoors s.roster c = [] := by
    rw [includedDoors_map (fun r => r.returned_includedDoor c _), List.map_eq_nil_iff]
  rw [State.carUp, State.setRpl_rpl, set_get]
  exact congrArg _ (decide_eq_decide.mpr hdoors)

/-- Settles O22: the event read, what follows is an estimate of the car from the state the return leaves, and each clause is one
field of it. -/
theorem plannerTakesCarReturn : Obligations.PlannerTakesCarReturn := by
  intro c s g unknown restart u rest hrun hev
  let s2 := s.carUp c g unknown restart u
  have hexec : exec (.rplCarReturn c) s = .next (publish s (s2.estimateAt c u)) := by
    show done s _ = _
    rw [hrun, hev]
    rfl
  have hcar : s2.rpl[c] = _ := s.carUp_record c g unknown restart u
  have est : Estimated c u (s2.figured c s2.rpl[c]) s2 (s2.estimateAt c u) :=
    State.estimateAt_up (by rw [hcar]; rfl) u
  generalize s2.estimateAt c u = v at hexec est
  have hv : v.rpl[c] = s2.figured c s2.rpl[c] := by rw [est.rpl, set_get]
  rw [hcar] at est hv
  have hmine : (publish s v).rpl[c] = v.rpl[c] := by simp only [publish_rpl]
  have hroster : (publish s v).roster = s.roster.map (fun r => s2.repriced c (r.returned c s.ord.uptime)) := by
    rw [publish_roster, est.roster]
    exact List.map_map
  refine ⟨publish s v, hexec, ?_⟩
  rw [hmine, hv]
  refine ⟨rfl, rfl, rfl, rfl, ?_, ?_, rfl, rfl, ?_, ?_, ?_, ?_, rfl, ?_, ?_, ?_, ?_, ?_, ?_⟩
  · rintro ⟨r, hr, hc, hd, hx⟩
    have : includedDoors s.roster c ≠ [] := fun h => by
      have := (includedDoors_nil_iff _ _).mp h r hr hc hd
      rw [hx] at this
      exact absurd this (by decide)
    simp [State.figured, RplCar.returned, this, saturate_eq_min, msSince]
  · intro h
    have : includedDoors s.roster c = [] := (includedDoors_nil_iff _ _).mpr h
    simp [State.figured, RplCar.returned, this]
  · intro d hd
    rw [publish_rpl, est.rpl, set_get_ne _ _ hd]
    exact set_get_ne _ _ hd
  · rw [publish_chan, est.chan]
    show ({ s.chan with ssuRpl := dropAt s.chan.ssuRpl c, rplPrm := _ } : Channels) = _
    rw [dropAt, hev]
    rfl
  · rw [hroster, List.length_map]
  · intro i r hr
    refine ⟨s2.repriced c (r.returned c s.ord.uptime), by rw [hroster, List.getElem?_map, hr]; rfl, fun hd => ?_, fun hd => ?_⟩
    · rw [State.repriced_eq, NodeRec.returned_dark r c _ hd]
    · rw [State.repriced_eq, NodeRec.returned_other r c _ hd]
  · rw [publish_jrn, est.jrn, hcar]
    rfl
  · rw [publish_lines, est.lines]; rfl
  · rw [publish_prm, est.prm]; rfl
  · rw [publish_ssu, est.ssu]; rfl
  · rw [publish_isc, est.isc]; rfl
  · rw [publish_flash, est.flash]; rfl

end Sys2Proof.Machine
end

section
/-! CAR LOSS (R46): the jobs of the car unpinned together, its records DARK, and the news of the cycle that ends without effect. -/

namespace Sys2Proof.Machine

/-! ## Unpinning several jobs -/

/-- From s to u use counts have gone down by n, and nothing else has changed but what the RAM shows of them (R53). -/
structure UseLowered (n : CopyIx → Nat) (s u : State) : Prop where
  state : u = { s with isc := { s.isc with records := u.isc.records }, ram := u.ram }
  record : ∀ k : CopyIx, u.isc.records[k] = { s.isc.records[k] with use := s.isc.records[k].use - n k }

theorem UseLowered.refl (s : State) : UseLowered (fun _ => 0) s s := ⟨rfl, fun _ => rfl⟩

theorem UseLowered.trans {m n : CopyIx → Nat} {s u v : State} (h : UseLowered m s u) (h' : UseLowered n u v) :
    UseLowered (fun k => m k + n k) s v where
  state := by rw [h'.state, h.state]
  record k := by rw [h'.record, h.record, Nat.sub_sub]

theorem UseLowered.unpinJob (s : State) (r : NodeRec) : UseLowered r.pins s (s.unpinJob r) where
  state := by
    unfold State.unpinJob
    split <;> rfl
  record k := by
    rw [← State.unpinJob_use]
    unfold State.unpinJob
    split
    · rfl
    · rw [State.unpin, State.setRecord_get]
      split
      · rename_i h; rw [h]
      · rfl

theorem UseLowered.foldl (l : List NodeRec) (s : State) :
    UseLowered (fun k => (l.map (fun r => r.pins k)).sum) s (l.foldl State.unpinJob s) := by
  induction l generalizing s with
  | nil => exact UseLowered.refl s
  | cons r l ih => exact (UseLowered.unpinJob s r).trans (ih _)

namespace UseLowered
variable {n : CopyIx → Nat} {s u : State} (h : UseLowered n s u)
include h

theorem roster : u.roster = s.roster := (congrArg State.roster h.state).trans rfl
theorem rpl : u.rpl = s.rpl := (congrArg State.rpl h.state).trans rfl
theorem chan : u.chan = s.chan := (congrArg State.chan h.state).trans rfl
theorem jrn : u.jrn = s.jrn := (congrArg State.jrn h.state).trans rfl
theorem ntu : u.ntu = s.ntu := (congrArg State.ntu h.state).trans rfl
theorem lines : u.lines = s.lines := (congrArg State.lines h.state).trans rfl
theorem prm : u.prm = s.prm := (congrArg State.prm h.state).trans rfl
theorem ssu : u.ssu = s.ssu := (congrArg State.ssu h.state).trans rfl
theorem flash : u.flash = s.flash := (congrArg State.flash h.state).trans rfl

end UseLowered

/-- The live jobs of a car that pin a copy. -/
theorem State.unpinCar_lowered (s : State) (c : Car) :
    UseLowered (fun k => (s.roster.filter (fun r => decide (r.car = c) && decide (r.job.map RplJob.copy = some k))).length)
      s (s.unpinCar c) := by
  have h := UseLowered.foldl (s.roster.filter (fun r => decide (r.car = c))) s
  have hcount : ∀ k : CopyIx, ((s.roster.filter (fun r => decide (r.car = c))).map (fun r => r.pins k)).sum
      = (s.roster.filter (fun r => decide (r.car = c) && decide (r.job.map RplJob.copy = some k))).length := by
    intro k
    have hones := sum_ones_eq_length (s.roster.filter (fun r => decide (r.car = c)))
      (fun r => decide (r.job.map RplJob.copy = some k))
    simp only [decide_eq_true_eq, List.filter_filter] at hones
    simpa only [NodeRec.pins, Bool.and_comm] using hones
  simp only [hcount] at h
  exact h

/-! ## The records of a lost car -/

theorem NodeRec.darkened_eq (r : NodeRec) (u : Long) :
    r.darkened u = { r with state := if r.state = .excluded then .excluded else .dark, job := none, backoffFrom := none
                            backoffShown := 0, cost := 0, changedAt := (r.darkened u).changedAt } := by
  unfold NodeRec.darkened
  rw [NodeRec.stamped_eq]

theorem NodeRec.darkened_state (r : NodeRec) (u : Long) :
    (r.darkened u).state = if r.state = .excluded then .excluded else .dark := by rw [NodeRec.darkened_eq]

/-- A node changes its state at a CAR LOSS where it is neither EXCLUDED nor DARK, and then to DARK. -/
theorem NodeRec.darkened_changes_iff (r : NodeRec) (u : Long) :
    (r.darkened u).state ≠ r.state ↔ r.state ≠ .excluded ∧ r.state ≠ .dark := by
  rw [NodeRec.darkened_state]
  split
  · rename_i h; simp [h]
  · rename_i h; simpa [h] using ne_comm

/-- The door reports of a car that is lost: each of its DOOR nodes that goes DARK (R121). -/
theorem State.darkenedNews_eq (s : State) (c : Car) (u : Long) (ready : Bool) :
    ((s.roster.filter (fun r => decide (r.car = c))).filter
        (fun r => decide (r.cls = .door) && decide ((r.darkened u).state ≠ r.state))).map
      (fun r => (⟨r.car, r.drop, .state r.state (r.darkened u).state, ready⟩ : DoorReport))
    = (s.roster.filter (fun r => decide (r.car = c ∧ r.cls = .door) && decide (r.state ≠ .excluded ∧ r.state ≠ .dark))).map
        (fun r => ⟨c, r.drop, .state r.state .dark, ready⟩) := by
  have hfilter : (s.roster.filter (fun r => decide (r.car = c))).filter
        (fun r => decide (r.cls = .door) && decide ((r.darkened u).state ≠ r.state))
      = s.roster.filter (fun r => decide (r.car = c ∧ r.cls = .door) && decide (r.state ≠ .excluded ∧ r.state ≠ .dark)) := by
    rw [List.filter_filter]
    refine List.filter_congr (fun r _ => ?_)
    rw [decide_eq_decide.mpr (NodeRec.darkened_changes_iff r u), Bool.and_right_comm, Bool.decide_and (r.car = c),
      Bool.and_comm (decide (r.cls = .door)) (decide (r.car = c))]
  rw [hfilter]
  refine List.map_congr_left (fun r hr => ?_)
  obtain ⟨⟨hcar, -⟩, hlive, -⟩ := by simpa only [List.mem_filter, Bool.and_eq_true, decide_eq_true_eq] using (List.mem_filter.mp hr).2
  rw [NodeRec.darkened_state, if_neg hlive, hcar]

/-! ## The loss -/

/-- What the loss leaves in the channels: the event taken, the reports of the ended cycle and the tells without effect gone, the
DOOR nodes' changes reported, and the leaving of MISSING told (R46, R86, R121). -/
theorem State.rplLoss_chan (s : State) (c : Car) (u : Long) :
    (s.rplLoss c u).chan =
      let x := (s.purgeReports c).chan
      { x with
        rplClc := x.rplClc.set c (x.rplClc[c].filter LineOrder.ofMissing ++ (s.missingDrops c).map (fun d => .missing d false))
        rplPrm := x.rplPrm ++
          (s.roster.filter (fun r => decide (r.car = c ∧ r.cls = .door) && decide (r.state ≠ .excluded ∧ r.state ≠ .dark))).map
            (fun r => ⟨c, r.drop, .state r.state .dark, doorsAllReady (s.rplLoss c u).roster c⟩) } := by
  rw [← State.darkenedNews_eq s c s.ord.uptime]
  have low := s.unpinCar_lowered c
  unfold State.rplLoss
  simp only [State.mapCar, low.roster, low.chan]
  rfl

/-- What a loss leaves of the other blocks. -/
theorem State.rplLoss_others (s : State) (c : Car) (u : Long) :
    let t := s.rplLoss c u
    t.lines = s.lines ∧ t.prm = s.prm ∧ t.ssu = s.ssu ∧ t.ntu = s.ntu ∧ t.flash = s.flash := by
  have low := s.unpinCar_lowered c
  unfold State.rplLoss State.mapCar
  simp [low.lines, low.prm, low.ssu, low.ntu, low.flash]

/-- Settles O21: each clause is one part of the loss, and the parts change different fields. -/
theorem plannerTakesCarLoss : Obligations.PlannerTakesCarLoss := by
  intro c s u rest hrun hev
  let s0 := s.dropRplEvent c
  have hexec : exec (.rplCarLoss c) s = .next (publish s (s0.rplLoss c u)) := by
    show done s _ = _
    rw [hrun, hev]
    rfl
  have low := s0.unpinCar_lowered c
  generalize hlost : s0.rplLoss c u = lost at hexec
  have hchan := s0.rplLoss_chan c u
  rw [hlost] at hchan
  have hroster : lost.roster = s.roster.map (fun r => if r.car = c then r.darkened s.ord.uptime else r) := by
    rw [← hlost]
    exact congrArg (List.map _) low.roster
  have hpurged : ∀ x, x = (s0.purgeReports c).chan → lost.chan.clcRpl = x.clcRpl ∧ lost.chan.handed = x.handed := by
    intro x hx
    rw [hchan, hx]
    exact ⟨rfl, rfl⟩
  refine ⟨publish s lost, hexec, ?_⟩
  simp only [publish_rpl, publish_chan, publish_roster, publish_jrn, publish_isc, publish_lines, publish_prm, publish_ssu,
    publish_ntu, publish_flash]
  refine ⟨?_, ?_, ?_, ?_, ?_, ?_, ?_, ?_, ?_, ?_, hlost ▸ s0.rplLoss_others c u⟩
  · rw [← hlost]
    exact congrArg (fun v : Vector RplCar 6 => v.set c s.rpl[c].lost) low.rpl
  · have hssu : lost.chan.ssuRpl = dropAt s.chan.ssuRpl c := by rw [hchan]; rfl
    simp only [hssu, dropAt, set_get, hev, List.tail_cons]
  · rw [hroster, List.length_map]
  · intro i r hr
    refine ⟨if r.car = c then r.darkened s.ord.uptime else r, by rw [hroster, List.getElem?_map, hr]; rfl, fun h => if_neg h, fun h => ?_⟩
    rw [if_pos h]
    exact r.darkened_eq _
  · rw [← hlost]
    show ({ (s0.unpinCar c).jrn with requests := (s0.unpinCar c).jrn.requests ++ _ } : Jrn) = _
    rw [low.jrn, carLossEntry, State.abandonedDrops, List.length_map, List.map_map, List.length_map]
    rfl
  · intro r hr hcar hmiss
    have htells : lost.chan.rplClc = s.chan.rplClc.set c (s.chan.rplClc[c].filter LineOrder.ofMissing
        ++ (s.missingDrops c).map (fun d => .missing d false)) := by rw [hchan]; rfl
    simp only [htells, set_get]
    refine List.mem_append_right _ (List.mem_map.mpr ⟨r.drop, List.mem_map.mpr ⟨r, List.mem_filter.mpr ⟨hr, ?_⟩, rfl⟩, rfl⟩)
    simp [hcar, hmiss]
  · intro h
    exact (hpurged _ (State.purgeReports_of_untaken (s := s0) h).symm).1
  · intro n later h
    exact hpurged _ (State.purgeReports_of_taken (s := s0) h).symm
  · intro k
    rw [← hlost]
    exact low.record k
  · rw [hchan]
    simp only [← doorsAllReady_eq]
    rfl

end Sys2Proof.Machine
end

section
/-! Estimates of several cars by one command (R67 to R70; log 45): each car is reckoned on its own, whatever cars came before it. -/

namespace Sys2Proof.Machine

/-! ## What an estimate depends on -/

/-- From s to u nothing has changed that an estimate looks at: the records are g of what they were, which differs in remaining costs
and in the backoff shown alone. -/
structure SameCosts (g : NodeRec → NodeRec) (s u : State) : Prop where
  isc : u.isc = s.isc
  fleet : u.fleet = s.fleet
  ord : u.ord = s.ord
  roster : u.roster = s.roster.map g
  keeps : ∀ r, g r = { r with cost := (g r).cost, backoffShown := (g r).backoffShown }

theorem foldl_add_eq_sum (f : NodeRec → Nat) (l : List NodeRec) : l.foldl (fun n r => n + f r) 0 = (l.map f).sum := by
  rw [List.sum_eq_foldl, List.foldl_map]

theorem State.costSum_eq (s : State) (c : Car) : s.costSum c = ((includedDoors s.roster c).map s.price).sum
    + ((s.roster.filter (fun r => decide (r.car = c) && decide (r.cls = .info) && !r.isExcluded
        && decide (r.job.map RplJob.place = some .line))).map s.infoOwed).sum := by
  unfold State.costSum State.infoShare
  rw [foldl_add_eq_sum, foldl_add_eq_sum]

namespace SameCosts
variable {g : NodeRec → NodeRec} {s u : State} (h : SameCosts g s u)
include h

theorem price (r : NodeRec) : u.price (g r) = s.price r := by
  rw [h.keeps r]
  unfold State.price State.activeCopy
  rw [h.isc, h.fleet, h.ord]
  rfl

theorem infoOwed (r : NodeRec) : u.infoOwed (g r) = s.infoOwed r := by
  rw [h.keeps r]
  unfold State.infoOwed
  rw [h.isc, h.fleet]
  rfl

theorem isExcluded (r : NodeRec) : (g r).isExcluded = r.isExcluded := by rw [h.keeps r]; rfl

theorem costSum (c : Car) : u.costSum c = s.costSum c := by
  have hdoor : ∀ r, (g r).includedDoor c = r.includedDoor c := fun r => by rw [h.keeps r]; rfl
  have hinfo : ∀ r, (decide ((g r).car = c) && decide ((g r).cls = .info) && !(g r).isExcluded
      && decide ((g r).job.map RplJob.place = some .line))
      = (decide (r.car = c) && decide (r.cls = .info) && !r.isExcluded && decide (r.job.map RplJob.place = some .line)) :=
    fun r => by rw [h.keeps r]; rfl
  simp only [State.costSum_eq, h.roster, includedDoors_map hdoor, List.filter_map, Function.comp_def, hinfo, List.map_map, h.price,
    h.infoOwed]

theorem figured (c : Car) (p : RplCar) : u.figured c p = s.figured c p := by
  unfold State.figured
  rw [h.costSum]

theorem repriced (c : Car) (r : NodeRec) :
    u.repriced c (g r) = { g r with cost := if r.car = c ∧ r.cls = .door then (s.repriced c r).cost else (g r).cost } := by
  have hcar : (g r).car = r.car := by rw [h.keeps r]
  have hcls : (g r).cls = r.cls := by rw [h.keeps r]
  unfold State.repriced
  rw [hcar, hcls, h.isExcluded, h.price]
  by_cases hr : r.car = c ∧ r.cls = .door
  · simp [hr, hcar, hcls]
  · have : (decide (r.car = c) && decide (r.cls = .door)) = false := by simpa using hr
    simp [hr, this]

end SameCosts

/-! ## One car reckoned -/

/-- The record of a car reckoned: its estimate, where it is up. -/
def State.reckoned (s : State) (c : Car) (p : RplCar) : RplCar := if p.up then s.figured c p else p

/-- A car given a record, and estimated. -/
def State.reckon (s : State) (c : Car) (p : RplCar) : State := (s.setRpl c p).estimate c

theorem State.setRpl_self (s : State) (c : Car) : s.setRpl c s.rpl[c] = s := by
  unfold State.setRpl
  rw [setRpl_same s.rpl c _ rfl]
  simp only [syncItems_self]

theorem State.estimate_eq_reckon (s : State) (c : Car) : s.estimate c = s.reckon c s.rpl[c] := by
  rw [State.reckon, State.setRpl_self]

/-- From u to t car c has been reckoned from the record p. -/
structure Reckon (c : Car) (p : RplCar) (u t : State) : Prop where
  state : t = { u with
    rpl := u.rpl.set c (u.reckoned c p)
    roster := u.roster.map (fun r => if p.up then u.repriced c r else r)
    mirrorCount := t.mirrorCount
    jrn := { u.jrn with requests := u.jrn.requests ++ lateNews c u.ord.uptime p.late (u.reckoned c p) }
    ntu := { u.ntu with causes := lateCauses u.ntu.causes p.late (u.reckoned c p) }
    pins := t.pins
    ram := t.ram }
  wf : Mem.wf 0 u.ram = true → Mem.wf 0 t.ram = true
  shown : p.up = true → Mem.wf 0 u.ram = true → EstimateShown t.ram c (u.reckoned c p)
  outside : ∀ a, OutsideCar c a → t.ramByte a = u.ramByte a
  pages : HostPagesKept u t

theorem lateNews_same (c : Car) (uptime : Long) (q : RplCar) : lateNews c uptime q.late q = [] := if_pos rfl

theorem lateCauses_same (causes : BitVec 4) (q : RplCar) : lateCauses causes q.late q = causes :=
  if_neg (fun h => absurd (h.1.symm.trans h.2) (by decide))

theorem State.reckon_spec (u : State) (c : Car) (p : RplCar) : Reckon c p u (u.reckon c p) := by
  have hp : (u.setRpl c p).rpl[c] = p := set_get _ _ _
  cases hup : p.up with
  | true =>
    have est := State.estimateAt_up (s := u.setRpl c p) (c := c) (by rw [hp]; exact hup) u.ord.uptime
    have hrec : u.reckoned c p = (u.setRpl c p).figured c p := if_pos hup
    rw [hp] at est
    refine ⟨?_, fun h => est.wf (wf_setRpl u c p h), fun _ h => hrec ▸ est.shown (wf_setRpl u c p h), fun a ha => ?_, fun a h1 h2 => ?_⟩
    · have hstate := est.state
      rw [← hrec, hp] at hstate
      simp only [State.setRpl_rpl, Vector.set_set] at hstate
      simp only [hup, if_true]
      exact hstate
    · exact (est.outside a ha).trans (State.setRpl_outside u c p ha)
    · exact (est.pages a h1 h2).trans ((PlannerKept.setRpl c 0 u p).pages a h1 h2)
  | false =>
    have hrec : u.reckoned c p = p := if_neg (by simp [hup])
    have ht : u.reckon c p = u.setRpl c p := if_neg (by rw [hp, hup]; decide)
    rw [ht]
    refine ⟨?_, wf_setRpl u c p, (fun h => absurd (hup.symm.trans h) Bool.false_ne_true), fun a ha => State.setRpl_outside u c p ha,
      (PlannerKept.setRpl c 0 u p).pages⟩
    have hroster : u.roster.map (fun r => if p.up then u.repriced c r else r) = u.roster := by simp [hup]
    rw [hroster, hrec, lateNews_same, lateCauses_same, List.append_nil]
    rfl

/-! ## Several cars reckoned -/

/-- A record once the cars of the list are reckoned from their records p. -/
def State.repricedIn (s : State) (p : Car → RplCar) (l : List Car) (r : NodeRec) : NodeRec :=
  if r.car ∈ l ∧ (p r.car).up = true then s.repriced r.car r else r

/-- What a car reckoned from p c asks for. -/
def State.turnNews (s : State) (p : Car → RplCar) (c : Car) : List EntryReq :=
  lateNews c s.ord.uptime (p c).late (s.reckoned c (p c))

/-- The causes once the cars of the list are reckoned. -/
def State.turnCauses (s : State) (p : Car → RplCar) (l : List Car) : BitVec 4 :=
  l.foldl (fun x c => lateCauses x (p c).late (s.reckoned c (p c))) s.ntu.causes

/-- From s to t the cars of the list, each once, have been reckoned in turn, car c from the record p c. -/
structure Reckoned (s : State) (p : Car → RplCar) (l : List Car) (t : State) : Prop where
  state : t = { s with
    rpl := t.rpl
    roster := s.roster.map (s.repricedIn p l)
    mirrorCount := t.mirrorCount
    jrn := { s.jrn with requests := s.jrn.requests ++ l.flatMap (s.turnNews p) }
    ntu := { s.ntu with causes := s.turnCauses p l }
    pins := t.pins
    ram := t.ram }
  rpl : ∀ c : Car, t.rpl[c] = if c ∈ l then s.reckoned c (p c) else s.rpl[c]
  wf : Mem.wf 0 s.ram = true → Mem.wf 0 t.ram = true
  shown : Mem.wf 0 s.ram = true → ∀ c ∈ l, (p c).up = true → EstimateShown t.ram c t.rpl[c]
  pages : HostPagesKept s t

theorem Reckoned.refl (s : State) (p : Car → RplCar) : Reckoned s p [] s where
  state := by
    have hroster : s.roster.map (s.repricedIn p []) = s.roster := by
      exact (List.map_congr_left (fun r _ => if_neg (fun h => List.not_mem_nil h.1))).trans (List.map_id _)
    rw [hroster]
    simp only [List.flatMap_nil, List.append_nil, State.turnCauses, List.foldl_nil]
  rpl c := (if_neg List.not_mem_nil).symm
  wf h := h
  shown _ c hc := nomatch hc
  pages _ _ _ := rfl

/-- The cars reckoned before it do not change what a car is reckoned to. -/
theorem Reckoned.costs {s t : State} {p : Car → RplCar} {l : List Car} (h : Reckoned s p l t) : SameCosts (s.repricedIn p l) s t where
  isc := (congrArg State.isc h.state).trans rfl
  fleet := (congrArg State.fleet h.state).trans rfl
  ord := (congrArg State.ord h.state).trans rfl
  roster := congrArg State.roster h.state
  keeps r := by
    unfold State.repricedIn
    split
    · rw [State.repriced_eq]
    · rfl

theorem SameCosts.reckoned {g : NodeRec → NodeRec} {s u : State} (h : SameCosts g s u) (c : Car) (p : RplCar) :
    u.reckoned c p = s.reckoned c p := by
  unfold State.reckoned
  rw [h.figured]

theorem EstimateShown.of_outside {m m' : Memory} {c d : Car} {q : RplCar} (h : EstimateShown m c q) (hd : c ≠ d)
    (ho : ∀ a, OutsideCar d a → Mem.read 0 m' a = Mem.read 0 m a) : EstimateShown m' c q := by
  have hc := c.isLt
  have hne : c.val ≠ d.val := fun hv => hd (Fin.ext hv)
  have hbyte : ∀ a, 0x60 + 16 * c.val ≤ a → a < 0x60 + 16 * c.val + 16 → Mem.read 0 m' a = Mem.read 0 m a :=
    fun a h1 h2 => ho a ⟨by omega, by omega⟩
  obtain ⟨he, hp, helapsed⟩ := h
  exact ⟨he.of_reads (hbyte _ (by omega) (by omega)) (hbyte _ (by omega) (by omega)),
    hp.of_reads (hbyte _ (by omega) (by omega)) (hbyte _ (by omega) (by omega)),
    helapsed.of_reads (hbyte _ (by omega) (by omega)) (hbyte _ (by omega) (by omega))⟩

theorem State.repricedIn_other {s : State} {p : Car → RplCar} {l : List Car} {r : NodeRec} (h : r.car ∉ l) : s.repricedIn p l r = r :=
  if_neg (fun hr => h hr.1)

theorem SameCosts.repricedIn_snoc {s t : State} {p : Car → RplCar} {l : List Car} {c : Car} (h : SameCosts (s.repricedIn p l) s t)
    (hc : c ∉ l) (r : NodeRec) :
    (if (p c).up then t.repriced c (s.repricedIn p l r) else s.repricedIn p l r) = s.repricedIn p (l ++ [c]) r := by
  by_cases hr : r.car = c
  · have hold : s.repricedIn p l r = r := State.repricedIn_other (hr ▸ hc)
    have hcost := h.repriced c r
    rw [hold] at hcost ⊢
    have hnew : t.repriced c r = s.repriced c r := by
      rw [hcost]
      by_cases hdoor : r.cls = .door
      · rw [if_pos ⟨hr, hdoor⟩, ← State.repriced_eq]
      · rw [if_neg (fun hh => hdoor hh.2), State.repriced_other s (fun hh => hdoor hh.2)]
    simp only [State.repricedIn, hr, hnew, List.mem_append, List.mem_singleton, or_true, true_and]
  · have hold : t.repriced c (s.repricedIn p l r) = s.repricedIn p l r := by
      refine State.repriced_other t (fun hh => hr ?_)
      rw [h.keeps r] at hh
      exact hh.1
    rw [hold, ite_self]
    simp only [State.repricedIn, List.mem_append, List.mem_singleton, hr, or_false]

/-- One car more. -/
theorem Reckoned.snoc {s t v : State} {p : Car → RplCar} {l : List Car} {c : Car} (h : Reckoned s p l t) (hc : c ∉ l)
    (hv : Reckon c (p c) t v) : Reckoned s p (l ++ [c]) v := by
  have hrec := h.costs.reckoned c (p c)
  have hcar : v.rpl[c] = s.reckoned c (p c) := by rw [congrArg State.rpl hv.state, set_get, hrec]
  have hother : ∀ d : Car, d ≠ c → v.rpl[d] = t.rpl[d] := fun d hd => by rw [congrArg State.rpl hv.state, set_get_ne _ _ hd]
  refine ⟨?_, fun d => ?_, hv.wf ∘ h.wf, fun hw d hd hup => ?_, fun a h1 h2 => (hv.pages a h1 h2).trans (h.pages a h1 h2)⟩
  · have hroster : t.roster.map (fun r => if (p c).up then t.repriced c r else r) = s.roster.map (s.repricedIn p (l ++ [c])) := by
      rw [h.costs.roster, List.map_map]
      exact List.map_congr_left (fun r _ => (h.costs.repricedIn_snoc hc r))
    have hjrn : ({ t.jrn with requests := t.jrn.requests ++ lateNews c t.ord.uptime (p c).late (t.reckoned c (p c)) } : Jrn)
        = { s.jrn with requests := s.jrn.requests ++ (l ++ [c]).flatMap (s.turnNews p) } := by
      rw [congrArg State.jrn h.state, h.costs.ord, hrec, List.flatMap_append, ← List.append_assoc, List.flatMap_singleton]
      rfl
    have hntu : ({ t.ntu with causes := lateCauses t.ntu.causes (p c).late (t.reckoned c (p c)) } : Ntu)
        = { s.ntu with causes := s.turnCauses p (l ++ [c]) } := by
      rw [congrArg State.ntu h.state, hrec, State.turnCauses, State.turnCauses, List.foldl_append]
      rfl
    refine hv.state.trans ?_
    rw [congrArg State.rpl hv.state, ← hroster, ← hjrn, ← hntu]
    congr 1 <;> rw [h.state]
  · by_cases hd : d = c
    · rw [hd, hcar, if_pos (List.mem_append_right _ List.mem_cons_self)]
    · rw [hother d hd, h.rpl d]
      simp [hd]
  · by_cases hdc : d = c
    · rw [hdc, hcar, ← hrec]
      exact hv.shown (hdc ▸ hup) (h.wf hw)
    · rw [hother d hdc]
      exact (h.shown hw d (by simpa [hdc] using hd) hup).of_outside hdc hv.outside

/-- A command that reckons, in turn, each car of a list that it acts on. -/
theorem Reckoned.foldl {s : State} {p : Car → RplCar} {f : State → Car → State} {act : Car → Bool}
    (hf : ∀ (u : State) (c : Car), u.rpl[c] = s.rpl[c] → f u c = if act c then u.reckon c (p c) else u) (l : List Car) (hl : l.Nodup) :
    Reckoned s p (l.filter act) (l.foldl f s) := by
  have hall : ∀ (todo done : List Car) (u : State), (done ++ todo).Nodup → Reckoned s p (done.filter act) u →
      Reckoned s p ((done ++ todo).filter act) (todo.foldl f u) := by
    intro todo
    induction todo with
    | nil => intro done u _ hu; rwa [List.append_nil]
    | cons c todo ih =>
      intro done u hnodup hu
      have hc : c ∉ done.filter act := fun hmem =>
        (List.nodup_append.mp hnodup).2.2 c (List.mem_filter.mp hmem).1 c List.mem_cons_self rfl
      have hone : Reckoned s p ((done ++ [c]).filter act) (f u c) := by
        rw [hf u c ((hu.rpl c).trans (if_neg hc)), List.filter_append]
        cases hact : act c with
        | true => rw [List.filter_cons_of_pos hact]; exact hu.snoc hc (u.reckon_spec c (p c))
        | false => rwa [List.filter_cons_of_neg (by simp [hact]), List.filter_nil, List.append_nil, if_neg Bool.false_ne_true]
      have hsplit : done ++ c :: todo = (done ++ [c]) ++ todo := by rw [List.append_assoc, List.singleton_append]
      rw [hsplit] at hnodup ⊢
      exact ih _ _ hnodup hone
  exact hall l [] s hl (Reckoned.refl s p)

end Sys2Proof.Machine
end

section
/-! What the planner's commands over all cars have in common: the cars reckoned are judged in ascending order, and each shows its
figures (R67 to R70; log 45). -/

namespace Sys2Proof.Machine

/-! ## Lists of cars -/

theorem allCars_eq_finRange : allCars = List.finRange 6 := rfl

theorem mem_filter_allCars {act : Car → Bool} {c : Car} : c ∈ allCars.filter act ↔ act c = true := by
  rw [List.mem_filter, allCars_eq_finRange, and_iff_right (List.mem_finRange c)]

theorem nodup_allCars : allCars.Nodup := List.nodup_finRange 6

/-- The entries of the cars that have one, in order. -/
theorem flatMap_optional (e : Car → EntryReq) (quiet act : Car → Bool) (l : List Car) :
    (l.filter act).flatMap (fun c => if quiet c then [] else [e c]) = (l.filter (fun c => act c && !quiet c)).map e := by
  induction l with
  | nil => rfl
  | cons c l ih =>
    cases hact : act c <;> cases hquiet : quiet c <;> simp [hact, hquiet, ih]

/-- ALERT is raised where the late flag of some car turns on. -/
theorem State.turnCauses_eq (s : State) (p : Car → RplCar) (l : List Car) :
    s.turnCauses p l = if ∃ c ∈ l, (s.reckoned c (p c)).late = true ∧ (p c).late = false then s.ntu.causes ||| 8 else s.ntu.causes := by
  unfold State.turnCauses
  generalize s.ntu.causes = x
  induction l generalizing x with
  | nil => rfl
  | cons c l ih =>
    rw [List.foldl_cons, ih]
    unfold lateCauses
    by_cases hc : (s.reckoned c (p c)).late = true ∧ (p c).late = false
    · simp only [List.mem_cons, exists_eq_or_imp, hc, and_self, true_or, if_true, BitVec.or_assoc, BitVec.or_self, ite_self]
    · simp only [List.mem_cons, exists_eq_or_imp, hc, false_or, if_false]

/-! ## The cars judged -/

/-- The cars whose late flag has changed, in ascending order. -/
def turnedCars (s t : State) : List Car := (List.finRange 6).filter (fun c => decide (t.rpl[c].late ≠ s.rpl[c].late))

/-- LATE or ON TIME of a car (R70). -/
def lateEntry (c : Car) (uptime : Long) (q : RplCar) : EntryReq :=
  ⟨.rpl, { kind := if q.late then .late else .onTime, car := c.val, drop := 0, uptime := uptime, body := le16 q.p ++ le16 q.budget }⟩

/-- Where the planner starts from when it reckons cars: as s, but for what its records show. -/
structure PlannerBase (g : NodeRec → NodeRec) (s u : State) : Prop where
  costs : SameCosts g s u
  cost : ∀ r, (g r).cost = r.cost
  rpl : u.rpl = s.rpl
  jrn : u.jrn = s.jrn
  ntu : u.ntu = s.ntu
  lines : u.lines = s.lines
  ssu : u.ssu = s.ssu
  prm : u.prm = s.prm
  flash : u.flash = s.flash
  wf : Mem.wf 0 s.ram = true → Mem.wf 0 u.ram = true
  pages : HostPagesKept s u

section
variable {g : NodeRec → NodeRec} {s u v : State} {p : Car → RplCar} {act : Car → Bool}

theorem PlannerBase.rpl_get (hb : PlannerBase g s u) (h : Reckoned u p (allCars.filter act) v) (c : Car) :
    v.rpl[c] = if act c then s.reckoned c (p c) else s.rpl[c] := by
  rw [h.rpl c, hb.costs.reckoned]
  simp only [mem_filter_allCars, hb.rpl]

/-- Of the cars reckoned those judged otherwise than before ask for LATE or ON TIME. -/
theorem PlannerBase.turned_iff (hb : PlannerBase g s u) (h : Reckoned u p (allCars.filter act) v)
    (hp : ∀ c, (p c).late = s.rpl[c].late) (c : Car) :
    v.rpl[c].late ≠ s.rpl[c].late ↔ act c = true ∧ (s.reckoned c (p c)).late ≠ (p c).late := by
  rw [hb.rpl_get h, hp]
  cases act c <;> simp

theorem PlannerBase.mem_turned (hb : PlannerBase g s u) (h : Reckoned u p (allCars.filter act) v)
    (hp : ∀ c, (p c).late = s.rpl[c].late) (c : Car) :
    c ∈ turnedCars s v ↔ act c = true ∧ (s.reckoned c (p c)).late ≠ (p c).late := by
  rw [← hb.turned_iff h hp, turnedCars, List.mem_filter, and_iff_right (List.mem_finRange c), decide_eq_true_eq]

theorem PlannerBase.jrn_judged (hb : PlannerBase g s u) (h : Reckoned u p (allCars.filter act) v)
    (hp : ∀ c, (p c).late = s.rpl[c].late) :
    v.jrn = { s.jrn with requests := s.jrn.requests ++ (turnedCars s v).map (fun c => lateEntry c s.ord.uptime v.rpl[c]) } := by
  have hnews : (allCars.filter act).flatMap (u.turnNews p) = (turnedCars s v).map (fun c => lateEntry c s.ord.uptime v.rpl[c]) := by
    have hturned : turnedCars s v = allCars.filter (fun c => act c && !decide ((s.reckoned c (p c)).late = (p c).late)) := by
      rw [turnedCars, allCars_eq_finRange]
      refine List.filter_congr (fun c _ => ?_)
      rw [decide_eq_decide.mpr (hb.turned_iff h hp c), Bool.decide_and, Bool.decide_eq_true, decide_not]
    have hentries : (turnedCars s v).map (fun c => lateEntry c s.ord.uptime v.rpl[c])
        = (turnedCars s v).map (fun c => lateEntry c s.ord.uptime (s.reckoned c (p c))) := by
      refine List.map_congr_left (fun c hc => ?_)
      rw [hb.rpl_get h, if_pos ((hb.mem_turned h hp c).mp hc).1]
    rw [hentries, hturned, ← flatMap_optional]
    refine List.flatMap_congr (fun c _ => ?_)
    rw [State.turnNews, lateNews, hb.costs.ord, hb.costs.reckoned]
    simp only [decide_eq_true_eq]
    rfl
  rw [congrArg State.jrn h.state, ← hnews, hb.jrn]

theorem PlannerBase.ntu_judged (hb : PlannerBase g s u) (h : Reckoned u p (allCars.filter act) v)
    (hp : ∀ c, (p c).late = s.rpl[c].late) :
    v.ntu = { s.ntu with causes :=
      if ∀ c ∈ turnedCars s v, v.rpl[c].late = false then s.ntu.causes else s.ntu.causes ||| 8 } := by
  have hiff : (∃ c ∈ allCars.filter act, (u.reckoned c (p c)).late = true ∧ (p c).late = false)
      ↔ ¬ ∀ c ∈ turnedCars s v, v.rpl[c].late = false := by
    simp only [mem_filter_allCars, hb.mem_turned h hp, hb.costs.reckoned, hb.rpl_get h, not_forall, exists_prop]
    refine exists_congr (fun c => ?_)
    rw [and_assoc]
    refine and_congr_right (fun hact => ?_)
    rw [if_pos hact]
    cases (s.reckoned c (p c)).late <;> simp
  rw [congrArg State.ntu h.state, State.turnCauses_eq, hb.ntu]
  by_cases hall : ∀ c ∈ turnedCars s v, v.rpl[c].late = false
  · rw [if_pos hall, if_neg (fun hc => hiff.mp hc hall)]
  · rw [if_neg hall, if_pos (hiff.mpr hall)]

/-! ## The cars estimated -/

/-- What an estimate of car c from its record p leaves: the record q, the costs of its door nodes, and its words in the RAM. -/
structure CarEstimated (s : State) (c : Car) (p q : RplCar) (t : State) : Prop where
  record : q = s.figured c p
  cost : ∀ (n : Nat) (r : NodeRec), s.roster[n]? = some r → r.car = c →
    (t.roster[n]?).map NodeRec.cost = some (if r.cls = .door then (if r.isExcluded then 0 else s.price r) else r.cost)
  shown : Mem.wf 0 s.ram = true → EstimateShown t.ram c q

/-- What publishing finds shown of an estimate stays shown. -/
theorem EstimateShown.publish {t : State} {c : Car} (hw : Mem.wf 0 t.ram = true) (h : EstimateShown t.ram c t.rpl[c]) (s : State) :
    EstimateShown (publish s t).ram c t.rpl[c] := by
  obtain ⟨he, hp, helapsed⟩ := h
  obtain ⟨ie, ip, ielapsed⟩ := estimateItems_mem t c
  have hshow : ∀ (a w : Nat), (a, [w]) ∈ carItems t c → Shows t.ram (a, w) → Shows (Machine.publish s t).ram (a, w) := fun a w hi hs =>
    publish_shows hw (mem_shownItems.mpr (.inl (carItem_mem t c hi))) List.mem_cons_self (fun _ => hs)
  exact ⟨hshow _ _ ie he, hshow _ _ ip hp, hshow _ _ ielapsed helapsed⟩

theorem PlannerBase.estimated (hb : PlannerBase g s u) (h : Reckoned u p (allCars.filter act) v) {c : Car} (hact : act c = true)
    (hup : (p c).up = true) : CarEstimated s c (p c) v.rpl[c] (publish s v) := by
  have hmem : c ∈ allCars.filter act := mem_filter_allCars.mpr hact
  refine ⟨?_, fun n r hr hcar => ?_, fun hw => ?_⟩
  · rw [hb.rpl_get h, if_pos hact, State.reckoned, if_pos hup]
  · have hg : (g r).car = c := by rw [hb.costs.keeps r]; exact hcar
    have hroster : (publish s v).roster[n]? = some (u.repricedIn p (allCars.filter act) (g r)) := by
      rw [publish_roster, h.costs.roster, List.getElem?_map, hb.costs.roster, List.getElem?_map, hr]
      rfl
    rw [hroster, State.repricedIn, hg, if_pos ⟨hmem, hup⟩, hb.costs.repriced, Option.map_some, hb.cost]
    by_cases hdoor : r.cls = .door
    · rw [if_pos ⟨hcar, hdoor⟩, if_pos hdoor, State.repriced, if_pos (by simp [hcar, hdoor])]
    · rw [if_neg (fun hh => hdoor hh.2), if_neg hdoor]
  · exact (h.shown (hb.wf hw) c hmem hup).publish (h.wf (hb.wf hw)) s

end

end Sys2Proof.Machine
end

section
/-! The cost model written out (R66 to R68). -/

namespace Sys2Proof.Machine

theorem segCosts_eq_sum (tt : Nat) (d : Desc) (compare : Bool) (l : List Nat) :
    segCosts tt d compare l = (l.map (segCost tt d compare)).sum := by
  rw [segCosts, List.sum_eq_foldl, List.foldl_map]

/-- What the job of a node has yet to do, by its phase (R67). -/
def State.workLeft (s : State) (r : NodeRec) (j : RplJob) : Nat :=
  let d := s.isc.records[j.copy].desc
  match j.phase with
  | some .survey => surveyCost s.fleet.tt d + segCosts s.fleet.tt d true (List.range d.segments) + startCost s.fleet.tt
  | some .load => segCosts s.fleet.tt d r.compares j.reload + startCost s.fleet.tt
  | some .start => startCost s.fleet.tt
  | none => 0

/-- The remaining cost of a node by its state (R67). -/
theorem State.price_cases (s : State) (r : NodeRec) : s.price r =
    if r.state = .awaiting ∨ r.state = .missing then
      (s.activeCopy r.slot).elim 0 (fun k => fullCost s.fleet.tt s.isc.records[k].desc + startCost s.fleet.tt)
    else if r.state ∈ [.queued, .surveying, .loading, .starting] then r.job.elim 0 (s.workLeft r)
    else if r.state = .backoff then
      r.job.elim 0 (fun j => 1000 * r.backoffLeft s.ord.uptime + fullCost s.fleet.tt s.isc.records[j.copy].desc + startCost s.fleet.tt)
    else 0 := by
  cases hstate : r.state with
  | awaiting | missing =>
    rw [if_pos (by decide)]
    cases hactive : s.activeCopy r.slot <;> simp only [State.price, hstate, hactive, Option.elim_none, Option.elim_some]
  | queued | surveying | loading | starting =>
    rw [if_neg (by decide), if_pos (by decide)]
    cases hjob : r.job with
    | none => simp only [State.price, hstate, hjob, Option.elim_none]
    | some j => simp only [State.price, State.workLeft, hstate, hjob, Option.elim_some] <;> rfl
  | backoff =>
    rw [if_neg (by decide), if_neg (by decide), if_pos rfl]
    cases hjob : r.job <;> simp only [State.price, hstate, hjob, Option.elim_none, Option.elim_some]
  | _ =>
    rw [if_neg (by decide), if_neg (by decide), if_neg (by decide)]
    simp only [State.price, hstate]

end Sys2Proof.Machine
end

section
/-! The planner at scan ticks, at sampled budgets and where a slot's active copy changes: one reckoning of cars each (R60, R69, R70,
R179). -/

namespace Sys2Proof.Machine

/-- What a reckoning of cars leaves of the part, and what it asks for: LATE or ON TIME of each car judged otherwise than before. -/
structure PlannerReckons (s t : State) : Prop where
  lines : t.lines = s.lines
  ssu : t.ssu = s.ssu
  prm : t.prm = s.prm
  ord : t.ord = s.ord
  flash : t.flash = s.flash
  fleet : t.fleet = s.fleet
  pages : HostPagesKept s t
  isc : t.isc = s.isc
  jrn : t.jrn = { s.jrn with requests := s.jrn.requests ++ (turnedCars s t).map (fun c => lateEntry c s.ord.uptime t.rpl[c]) }
  ntu : t.ntu =
    { s.ntu with causes := if ∀ c ∈ turnedCars s t, t.rpl[c].late = false then s.ntu.causes else s.ntu.causes ||| 8 }

section
variable {g : NodeRec → NodeRec} {s u v : State} {p : Car → RplCar} {act : Car → Bool}

theorem turnedCars_publish (s v : State) : turnedCars s (publish s v) = turnedCars s v :=
  List.filter_congr (fun c _ => decide_eq_decide.mpr (by simp only [publish_rpl]))

theorem PlannerBase.reckons (hb : PlannerBase g s u) (h : Reckoned u p (allCars.filter act) v)
    (hp : ∀ c, (p c).late = s.rpl[c].late) : PlannerReckons s (publish s v) where
  lines := by rw [publish_lines, congrArg State.lines h.state, ← hb.lines]
  ssu := by rw [publish_ssu, congrArg State.ssu h.state, ← hb.ssu]
  prm := by rw [publish_prm, congrArg State.prm h.state, ← hb.prm]
  ord := by rw [publish_ord, h.costs.ord, hb.costs.ord]
  flash := by rw [publish_flash, congrArg State.flash h.state, ← hb.flash]
  fleet := by rw [publish_fleet, h.costs.fleet, hb.costs.fleet]
  pages a h1 h2 := ((PlannerKept.publish 0 0 s v).pages a h1 h2).trans ((h.pages a h1 h2).trans (hb.pages a h1 h2))
  isc := by rw [publish_isc, h.costs.isc, hb.costs.isc]
  jrn := by
    rw [publish_jrn, hb.jrn_judged h hp, turnedCars_publish]
    simp only [publish_rpl]
  ntu := by
    rw [publish_ntu, hb.ntu_judged h hp, turnedCars_publish]
    rfl

/-- A record after cars have been reckoned. -/
theorem PlannerBase.record (hb : PlannerBase g s u) (h : Reckoned u p (allCars.filter act) v) {n : Nat} {r : NodeRec}
    (hr : s.roster[n]? = some r) : ∃ x, (publish s v).roster[n]? = some { g r with cost := x } := by
  refine ⟨(u.repricedIn p (allCars.filter act) (g r)).cost, ?_⟩
  rw [publish_roster, h.costs.roster, hb.costs.roster, List.map_map, List.getElem?_map, hr, Option.map_some, Option.some.injEq,
    Function.comp_apply, State.repricedIn]
  split
  · exact State.repriced_eq _ _ _
  · rfl

theorem PlannerBase.length (hb : PlannerBase g s u) (h : Reckoned u p (allCars.filter act) v) :
    (publish s v).roster.length = s.roster.length := by
  rw [publish_roster, h.costs.roster, hb.costs.roster, List.length_map, List.length_map]

theorem PlannerBase.chan (h : Reckoned u p (allCars.filter act) v) : (publish s v).chan = u.chan := by
  rw [publish_chan, congrArg State.chan h.state]

end

/-- A change of the channels alone. -/
theorem PlannerBase.ofChan (s : State) (x : Channels) : PlannerBase id s { s with chan := x } where
  costs := ⟨rfl, rfl, rfl, (List.map_id _).symm, fun _ => rfl⟩
  cost _ := rfl
  rpl := rfl
  jrn := rfl
  ntu := rfl
  lines := rfl
  ssu := rfl
  prm := rfl
  flash := rfl
  wf h := h
  pages _ _ _ := rfl

/-! ## The scan tick -/

theorem NodeRec.shownBackoff_eq (r : NodeRec) (uptime : Long) : r.shownBackoff uptime = { r with
    backoffShown := match r.backoffFrom with
      | some u => if r.state = .backoff then 1000 - (uptime - u).toNat else r.backoffShown
      | none => r.backoffShown } := by
  unfold NodeRec.shownBackoff NodeRec.backoffLeft
  cases hfrom : r.backoffFrom with
  | none =>
    rw [Option.isSome_none, Bool.and_false, if_neg Bool.false_ne_true]
    show r = { r with backoffFrom := none }
    rw [← hfrom]
  | some u =>
    by_cases h : r.state = .backoff
    · simp [h, msSince, Config.backoffMs]
    · simp only [h, decide_false, Bool.false_and, Bool.false_eq_true, if_false, ← hfrom]

/-- The tick taken, and the remaining backoff of each timer that runs written (R60). -/
def State.backoffsShown (s : State) (rest : List OrdNews) : State :=
  (({ s with chan := { s.chan with ordRpl := rest } }).setRoster (s.roster.map (NodeRec.shownBackoff s.ord.uptime))).showField
    (fun r => decide (r.state = NodeState.backoff) && r.backoffFrom.isSome) 28

theorem PlannerBase.backoffsShown (s : State) (rest : List OrdNews) :
    PlannerBase (NodeRec.shownBackoff s.ord.uptime) s (s.backoffsShown rest) where
  costs := ⟨rfl, rfl, rfl, rfl, fun r => by rw [NodeRec.shownBackoff_eq]⟩
  cost r := by rw [NodeRec.shownBackoff_eq]
  rpl := rfl
  jrn := rfl
  ntu := rfl
  lines := rfl
  ssu := rfl
  prm := rfl
  flash := rfl
  wf h := wf_putWords _ (wf_setRoster { s with chan := { s.chan with ordRpl := rest } } _ h)
  pages _ h1 h2 := (State.showField_ramByte_other _ _ _ (by unfold Shown; omega)).trans
    (State.setRoster_ramByte_other { s with chan := { s.chan with ordRpl := rest } } _ (by unfold Shown; omega))

section
variable {s : State}

theorem scanTick_reckons {rest : List OrdNews} (hrun : s.isRunning = true) (hnews : s.chan.ordRpl = .scanTick :: rest) :
    ∃ t, exec .rplScanTick s = .next t ∧ PlannerReckons s t ∧ t.chan = { s.chan with ordRpl := rest }
      ∧ t.roster.length = s.roster.length
      ∧ (∀ (n : Nat) (r : NodeRec), s.roster[n]? = some r →
        ∃ x, t.roster[n]? = some { r.shownBackoff s.ord.uptime with cost := x })
      ∧ ∀ c : Car, (s.rpl[c].up = false → t.rpl[c] = s.rpl[c])
        ∧ (s.rpl[c].up = true → CarEstimated s c s.rpl[c] t.rpl[c] t) := by
  have hb := PlannerBase.backoffsShown s rest
  have hexec : exec .rplScanTick s = .next (publish s (allCars.foldl State.estimate (s.backoffsShown rest))) := by
    show done s _ = _
    rw [hrun, hnews]
    rfl
  have h : Reckoned (s.backoffsShown rest) (fun c => s.rpl[c]) (allCars.filter (fun _ => true)) _ :=
    Reckoned.foldl (f := State.estimate) (fun u c hu => by rw [if_pos rfl, State.estimate_eq_reckon, hu, hb.rpl]) allCars nodup_allCars
  refine ⟨_, hexec, hb.reckons h (fun _ => rfl), PlannerBase.chan h, hb.length h, fun n r hr => hb.record h hr, fun c =>
    ⟨fun hdown => ?_, fun hup => ?_⟩⟩
  · simp only [publish_rpl]
    rw [hb.rpl_get h, if_pos rfl, State.reckoned, if_neg (by rw [hdown]; decide)]
  · simp only [publish_rpl]
    exact hb.estimated h rfl hup

/-! ## Budgets -/

theorem budgets_reckon {b : Vector Nat 6} {rest : List OrdNews} (hrun : s.isRunning = true)
    (hnews : s.chan.ordRpl = .budgets b :: rest) :
    ∃ t, exec .rplBudgetSample s = .next t ∧ PlannerReckons s t ∧ t.chan = { s.chan with ordRpl := rest }
      ∧ t.roster.length = s.roster.length
      ∧ (∀ (n : Nat) (r : NodeRec), s.roster[n]? = some r → ∃ x, t.roster[n]? = some { r with cost := x })
      ∧ ∀ c : Car, (b[c] = s.rpl[c].budget → t.rpl[c] = s.rpl[c])
        ∧ (b[c] ≠ s.rpl[c].budget → s.rpl[c].up = false → t.rpl[c] = { s.rpl[c] with budget := b[c] })
        ∧ (b[c] ≠ s.rpl[c].budget → s.rpl[c].up = true → CarEstimated s c { s.rpl[c] with budget := b[c] } t.rpl[c] t) := by
  have hb := PlannerBase.ofChan s { s.chan with ordRpl := rest }
  let s0 := { s with chan := { s.chan with ordRpl := rest } }
  have hexec : exec .rplBudgetSample s = .next (publish s (allCars.foldl (State.takeBudget b) s0)) := by
    show done s _ = _
    rw [hrun, hnews]
    rfl
  have h : Reckoned s0 (fun c => { s.rpl[c] with budget := b[c] }) (allCars.filter (fun c => decide (b[c] ≠ s.rpl[c].budget)))
      (allCars.foldl (State.takeBudget b) s0) := by
    refine Reckoned.foldl (f := State.takeBudget b) (fun u c hu => ?_) allCars nodup_allCars
    rw [State.takeBudget, hu]
    by_cases hsame : b[c] = s.rpl[c].budget
    · rw [if_pos hsame, if_neg (by simp [hsame])]
    · rw [if_neg hsame, if_pos (decide_eq_true hsame)]
      rfl
  refine ⟨_, hexec, hb.reckons h (fun _ => rfl), PlannerBase.chan h, hb.length h, fun n r hr => hb.record h hr, fun c =>
    ⟨fun hsame => ?_, fun hnew hdown => ?_, fun hnew hup => ?_⟩⟩
  all_goals simp only [publish_rpl]
  · rw [hb.rpl_get h, if_neg (by simp [hsame])]
  · rw [hb.rpl_get h, if_pos (decide_eq_true hnew), State.reckoned, if_neg (by rw [hdown]; decide)]
  · exact hb.estimated h (decide_eq_true hnew) hup

/-! ## A change of active copy -/

theorem activeChange_reckons {k : Slot} {rest : List StoreNews} (hrun : s.isRunning = true)
    (hnews : s.chan.iscRpl = .activeChanged k :: rest) :
    ∃ t, exec .activeCopyChange s = .next t ∧ PlannerReckons s t ∧ t.chan = { s.chan with iscRpl := rest }
      ∧ t.roster.length = s.roster.length
      ∧ (∀ (n : Nat) (r : NodeRec), s.roster[n]? = some r → ∃ x, t.roster[n]? = some { r with cost := x })
      ∧ ∀ c : Car, (s.awaitsSlot k c = true → s.rpl[c].up = true → CarEstimated s c s.rpl[c] t.rpl[c] t)
        ∧ (s.awaitsSlot k c = false ∨ s.rpl[c].up = false → t.rpl[c] = s.rpl[c]) := by
  have hb := PlannerBase.ofChan s { s.chan with iscRpl := rest }
  let s0 := { s with chan := { s.chan with iscRpl := rest } }
  have hexec : exec .activeCopyChange s
      = .next (publish s (allCars.foldl (fun u c => if s.awaitsSlot k c then u.estimate c else u) s0)) := by
    rw [← List.foldl_filter]
    show done s _ = _
    rw [hrun, hnews]
    rfl
  have h : Reckoned s0 (fun c => s.rpl[c]) (allCars.filter (s.awaitsSlot k))
      (allCars.foldl (fun u c => if s.awaitsSlot k c then u.estimate c else u) s0) := by
    refine Reckoned.foldl (f := fun u c => if s.awaitsSlot k c then u.estimate c else u) (fun u c hu => ?_) allCars nodup_allCars
    rw [State.estimate_eq_reckon, hu]
  refine ⟨_, hexec, hb.reckons h (fun _ => rfl), PlannerBase.chan h, hb.length h, fun n r hr => hb.record h hr, fun c =>
    ⟨fun hwaits hup => ?_, fun hnot => ?_⟩⟩
  all_goals simp only [publish_rpl]
  · exact hb.estimated h hwaits hup
  · rw [hb.rpl_get h]
    split
    · rename_i hwaits
      have hdown := hnot.resolve_left (by rw [hwaits]; decide)
      rw [State.reckoned, if_neg (by rw [hdown]; decide)]
    · rfl

end

end Sys2Proof.Machine
end

section
/-! A damaged copy: its jobs failed in the queue and condemned on the line, as a pass over the roster (R59, R114, R137). -/

namespace Sys2Proof.Machine

/-- The record's job is on the copy, and the copy's damage is to end it (R59, R114). -/
structure OnCopy (k : CopyIx) (r : NodeRec) (j : RplJob) : Prop where
  job : r.job = some j
  copy : j.copy = k
  live : r.state ≠ .excluded
  uncondemned : j.condemned = false

/-- The copy's damage leaves the record's job, or it has none. -/
def Unharmed (k : CopyIx) (r : NodeRec) : Prop :=
  ∀ j, r.job = some j → j.copy ≠ k ∨ r.state = .excluded ∨ j.place = .backoff ∨ j.condemned = true

theorem onCopy_cases (k : CopyIx) (r : NodeRec) :
    (∃ j, OnCopy k r j ∧ j.place = .queue) ∨ (∃ j, OnCopy k r j ∧ j.place = .line) ∨ Unharmed k r := by
  cases hjob : r.job with
  | none => exact .inr (.inr (fun j hj => by rw [hjob] at hj; cases hj))
  | some j =>
    by_cases hon : OnCopy k r j
    · cases hplace : j.place with
      | queue => exact .inl ⟨j, hon, hplace⟩
      | line => exact .inr (.inl ⟨j, hon, hplace⟩)
      | backoff => exact .inr (.inr (fun i hi => by rw [Option.some.inj (hi.symm.trans hjob)]; exact .inr (.inr (.inl hplace))))
    · refine .inr (.inr (fun i hi => ?_))
      obtain rfl := Option.some.inj (hi.symm.trans hjob)
      by_contra hnot
      simp only [not_or, not_not] at hnot
      obtain ⟨hcopy, hlive, -, hcond⟩ := hnot
      exact hon ⟨hi, hcopy, hlive, by simpa using hcond⟩

/-! ## A job in the queue -/

/-- The record of a node whose queued job fails with STORE FAULT (R59). -/
def State.faultEnd (s : State) (r : NodeRec) (j : RplJob) : NodeRec :=
  let x := if r.attempt < s.fleet.attemptLimit then r.backedOff j .storeFault s.ord.uptime else r.failedFor .storeFault
  { x with changedAt := if x.state = r.state then r.changedAt else s.ord.uptime }

/-- From u to t a queued job has been failed with STORE FAULT, and its line told. -/
structure QueueFaulted (r : NodeRec) (j : RplJob) (u t : State) : Prop where
  kept : PlannerKept r.car r.drop u t
  found : ∃ n, t.findNode r.car r.drop = some n ∧ n = { u.faultEnd r j with cost := n.cost }
  told : .storeFaultEnd j.jid ∈ t.chan.rplClc[r.car]
  doors : u.chan.rplPrm <+: t.chan.rplPrm
  asked : nodeRequest r u.ord.uptime .nodeFailed
    [byteOf (bit (decide (u.fleet.attemptLimit ≤ r.attempt))) 0, 0, byteOf FailReason.storeFault.code 0, byteOf r.attempt 0]
      ∈ t.jrn.requests
  use : ∀ x : CopyIx, t.isc.records[x].use
    = u.isc.records[x].use - (if u.fleet.attemptLimit ≤ r.attempt ∧ x = j.copy then 1 else 0)
  alert : u.fleet.attemptLimit ≤ r.attempt → t.ntu.causes.getLsbD 3 = true

section
variable {k : CopyIx} {s u : State} {r : NodeRec} {j : RplJob}

theorem State.failAttempt_faulted (h : u.findNode r.car r.drop = some r) :
    QueueFaulted r j u ((u.tell r.car (.storeFaultEnd j.jid)).failAttempt r j .storeFault) := by
  let w := u.tell r.car (.storeFaultEnd j.jid)
  have hw : w.findNode r.car r.drop = some r := h
  have hkept : PlannerKept r.car r.drop u (w.failAttempt r j .storeFault) :=
    (PlannerKept.tell r.car r.drop u _).trans (PlannerKept.failAttempt r.car r.drop w ⟨rfl, rfl⟩ j .storeFault)
  have htold : .storeFaultEnd j.jid ∈ w.chan.rplClc[r.car] := by
    have : w.chan.rplClc[r.car] = u.chan.rplClc[r.car] ++ [.storeFaultEnd j.jid] := set_get _ _ _
    rw [this]
    exact List.mem_append_right _ List.mem_cons_self
  have hstays : .storeFaultEnd j.jid ∈ (w.failAttempt r j .storeFault).chan.rplClc[r.car] :=
    (PlannerKept.failAttempt r.car r.drop w ⟨rfl, rfl⟩ j .storeFault).told.subset htold
  by_cases hlimit : r.attempt < u.fleet.attemptLimit
  · obtain ⟨l, hwritten⟩ := State.failAttempt_written_below hw j .storeFault hlimit
    obtain ⟨n, hn, hrec⟩ := hwritten.found
    refine ⟨hkept, ⟨n, hn, ?_⟩, hstays, hwritten.doors ▸ List.prefix_append _ _, ?_, fun x => ?_, fun hfinal => absurd hlimit (by omega)⟩
    · rw [State.faultEnd, if_pos hlimit]
      exact hrec
    · rw [hwritten.asked, decide_eq_false (by omega)]
      exact List.mem_append_right _ List.mem_cons_self
    · rw [hwritten.isc, if_neg (by omega)]
      rfl
  · have hfinal := Nat.le_of_not_lt hlimit
    obtain ⟨l, hwritten, halert⟩ := State.failAttempt_written_final hw j .storeFault hfinal
    obtain ⟨n, hn, hrec⟩ := hwritten.found
    refine ⟨hkept, ⟨n, hn, ?_⟩, hstays, hwritten.doors ▸ List.prefix_append _ _, ?_, fun x => ?_, fun _ => halert⟩
    · rw [State.faultEnd, if_neg hlimit]
      exact hrec
    · rw [hwritten.asked, decide_eq_true hfinal]
      exact List.mem_append_right _ List.mem_cons_self
    · rw [hwritten.isc, State.unpin_use]
      simp only [hfinal, true_and]
      rfl

/-- A job on the line is condemned, and its line told (R114). -/
structure LineCondemned (r : NodeRec) (j : RplJob) (u t : State) : Prop where
  kept : PlannerKept r.car r.drop u t
  found : t.findNode r.car r.drop = some { r with job := some { j with condemned := true } }
  told : .storeFaultEnd j.jid ∈ t.chan.rplClc[r.car]
  doors : t.chan.rplPrm = u.chan.rplPrm
  isc : t.isc = u.isc

theorem State.condemn_condemned (h : u.findNode r.car r.drop = some r) :
    LineCondemned r j u ((u.putNode r { r with job := some { j with condemned := true } }).tell r.car (.storeFaultEnd j.jid)) := by
  let x : NodeRec := { r with job := some { j with condemned := true } }
  have hput : u.putNode r x = u.setNode r.car r.drop x := State.putNode_same_state u rfl
  refine ⟨(PlannerKept.putNode r.car r.drop u (o := r) (n := x) ⟨rfl, rfl⟩ ⟨rfl, rfl⟩).trans (PlannerKept.tell _ _ _ _), ?_, ?_, ?_, ?_⟩
  · show (u.putNode r x).findNode r.car r.drop = some x
    rw [hput]
    exact State.findNode_setNode h ⟨rfl, rfl⟩
  · have : ((u.putNode r x).tell r.car (.storeFaultEnd j.jid)).chan.rplClc[r.car]
        = (u.putNode r x).chan.rplClc[r.car] ++ [.storeFaultEnd j.jid] := set_get _ _ _
    rw [this]
    exact List.mem_append_right _ List.mem_cons_self
  · show (u.putNode r x).chan.rplPrm = _
    rw [hput]
    rfl
  · show (u.putNode r x).isc = _
    rw [hput]
    rfl

/-! ## One place of the pass -/

theorem State.markedCopy_none {p : Car × Drop} (h : u.findNode p.1 p.2 = none) : State.markedCopy k u p = u := by
  unfold State.markedCopy
  rw [h]

theorem State.markedCopy_queue (h : u.findNode r.car r.drop = some r) (hon : OnCopy k r j) (hplace : j.place = .queue) :
    State.markedCopy k u (r.car, r.drop) = (u.tell r.car (.storeFaultEnd j.jid)).failAttempt r j .storeFault := by
  simp [State.markedCopy, State.faultJob, h, hon.job, hon.copy, hon.live, hon.uncondemned, hplace]

theorem State.markedCopy_line (h : u.findNode r.car r.drop = some r) (hon : OnCopy k r j) (hplace : j.place = .line) :
    State.markedCopy k u (r.car, r.drop)
      = (u.putNode r { r with job := some { j with condemned := true } }).tell r.car (.storeFaultEnd j.jid) := by
  simp [State.markedCopy, State.faultJob, h, hon.job, hon.copy, hon.live, hon.uncondemned, hplace]

theorem State.markedCopy_unharmed (h : u.findNode r.car r.drop = some r) (hun : Unharmed k r) :
    State.markedCopy k u (r.car, r.drop) = u := by
  simp only [State.markedCopy, h]
  cases hjob : r.job with
  | none => rfl
  | some j =>
    rcases hun j hjob with hcopy | hex | hplace | hcond
    · exact if_neg hcopy
    · simp [State.faultJob, hex]
    · simp [State.faultJob, hplace]
    · simp [State.faultJob, hcond]

/-! ## The pass -/

/-- A record as the copy's damage leaves it. -/
def State.marked (s : State) (k : CopyIx) (r : NodeRec) : NodeRec :=
  match r.job with
  | none => r
  | some j =>
    if j.copy = k ∧ r.state ≠ .excluded ∧ j.condemned = false then
      match j.place with
      | .backoff => r
      | .queue => s.faultEnd r j
      | .line => { r with job := some { j with condemned := true } }
    else r

theorem State.marked_queue (hon : OnCopy k r j) (hplace : j.place = .queue) : s.marked k r = s.faultEnd r j := by
  simp [State.marked, hon.job, hon.copy, hon.live, hon.uncondemned, hplace]

theorem State.marked_line (hon : OnCopy k r j) (hplace : j.place = .line) :
    s.marked k r = { r with job := some { j with condemned := true } } := by
  simp [State.marked, hon.job, hon.copy, hon.live, hon.uncondemned, hplace]

theorem State.marked_unharmed (hun : Unharmed k r) : s.marked k r = r := by
  unfold State.marked
  cases hjob : r.job with
  | none => rfl
  | some j =>
    rcases hun j hjob with hcopy | hex | hplace | hcond
    · simp [hcopy]
    · simp [hex]
    · simp [hplace]
    · simp [hcond]

/-- A damage ends no job that it has left behind. -/
theorem State.faultEnd_unharmed (k : CopyIx) : Unharmed k (s.faultEnd r j) := by
  intro i hi
  unfold State.faultEnd at hi
  dsimp only at hi
  split at hi
  · obtain rfl := Option.some.inj hi
    exact .inr (.inr (.inl rfl))
  · cases hi

theorem condemned_unharmed (k : CopyIx) : Unharmed k { r with job := some { j with condemned := true } } := by
  intro i hi
  obtain rfl := Option.some.inj hi
  exact .inr (.inr (.inr rfl))

theorem State.marked_harmless (s : State) (k : CopyIx) (r : NodeRec) : Unharmed k (s.marked k r) := by
  rcases onCopy_cases k r with ⟨j, hon, hplace⟩ | ⟨j, hon, hplace⟩ | hun
  · rw [State.marked_queue hon hplace]; exact State.faultEnd_unharmed k
  · rw [State.marked_line hon hplace]; exact condemned_unharmed k
  · rwa [State.marked_unharmed hun]

theorem OnCopy.of_bare (hon : OnCopy k r j) : OnCopy k r.bare j := ⟨hon.job, hon.copy, hon.live, hon.uncondemned⟩

theorem State.faultEnd_bare (s : State) (r : NodeRec) (j : RplJob) : (s.faultEnd r.bare j).bare = (s.faultEnd r j).bare := by
  unfold State.faultEnd
  rw [show r.bare.attempt = r.attempt from rfl]
  split <;> rfl

theorem marked_rule (s : State) (k : CopyIx) : PassRule (s.marked k) where
  bare r := by
    rcases onCopy_cases k r with ⟨j, hon, hplace⟩ | ⟨j, hon, hplace⟩ | hun
    · rw [State.marked_queue hon hplace, State.marked_queue hon.of_bare hplace, State.faultEnd_bare]
    · rw [State.marked_line hon hplace, State.marked_line hon.of_bare hplace]
      rfl
    · rw [State.marked_unharmed hun, State.marked_unharmed (show Unharmed k r.bare from hun)]
      rfl
  names r := by
    rcases onCopy_cases k r with ⟨j, hon, hplace⟩ | ⟨j, hon, hplace⟩ | hun
    · rw [State.marked_queue hon hplace, State.faultEnd]
      dsimp only
      split <;> exact ⟨rfl, rfl⟩
    · rw [State.marked_line hon hplace]
      exact ⟨rfl, rfl⟩
    · rw [State.marked_unharmed hun]
      exact ⟨rfl, rfl⟩
  again r := by rw [State.marked_unharmed (s.marked_harmless k r)]

theorem PlannerWork.faultEnd (hu : PlannerWork s u) (r : NodeRec) (j : RplJob) : u.faultEnd r j = s.faultEnd r j := by
  unfold State.faultEnd
  rw [hu.fleet, hu.ord]

theorem marked_pass (s : State) (k : CopyIx) : IsPass (s.marked k) s (State.markedCopy k) := by
  intro u p hu
  cases hf : u.findNode p.1 p.2 with
  | none =>
    rw [State.markedCopy_none hf]
    exact ⟨PlannerKept.refl _ _ u, List.prefix_refl _, fun r hr => by rw [hf] at hr; cases hr⟩
  | some r =>
    obtain ⟨c, d⟩ := p
    obtain ⟨rfl, rfl⟩ := State.findNode_names hf
    have hmine : ∀ q, u.findNode r.car r.drop = some q → q = r := fun q hq => Option.some.inj (hq.symm.trans hf)
    rcases onCopy_cases k r with ⟨j, hon, hplace⟩ | ⟨j, hon, hplace⟩ | hun
    · rw [State.markedCopy_queue hf hon hplace]
      have hq := State.failAttempt_faulted hf (j := j)
      refine ⟨hq.kept, hq.doors, fun q hfound => ?_⟩
      obtain ⟨n, hn, hrec⟩ := hq.found
      refine ⟨n, hn, ?_⟩
      rw [hmine q hfound, State.marked_queue hon hplace, hrec, hu.faultEnd]
      rfl
    · rw [State.markedCopy_line hf hon hplace]
      have hl := State.condemn_condemned hf (j := j)
      refine ⟨hl.kept, hl.doors ▸ List.prefix_refl _, fun q hfound => ⟨_, hl.found, ?_⟩⟩
      rw [hmine q hfound, State.marked_line hon hplace]
    · rw [State.markedCopy_unharmed hf hun]
      refine ⟨PlannerKept.refl _ _ u, List.prefix_refl _, fun q hfound => ⟨r, hf, ?_⟩⟩
      rw [hmine q hfound, State.marked_unharmed hun]

/-! ## What the pass adds up to, and what each place of it adds -/

/-- The copy's damage makes the record's node FAILED: its queued job was at the final attempt (R59). -/
def State.finalOn (s : State) (k : CopyIx) (r : NodeRec) : Bool :=
  decide (r.state ≠ .excluded ∧ s.fleet.attemptLimit ≤ r.attempt)
    && r.job.any (fun j => decide (j.copy = k ∧ j.place = .queue ∧ j.condemned = false))

theorem State.finalOn_queue (hon : OnCopy k r j) (hplace : j.place = .queue) :
    s.finalOn k r = decide (s.fleet.attemptLimit ≤ r.attempt) := by
  simp [State.finalOn, hon.job, hon.copy, hon.live, hon.uncondemned, hplace]

theorem State.finalOn_line (hon : OnCopy k r j) (hplace : j.place = .line) : s.finalOn k r = false := by
  simp [State.finalOn, hon.job, hplace]

theorem State.finalOn_unharmed (hun : Unharmed k r) : s.finalOn k r = false := by
  unfold State.finalOn
  cases hjob : r.job with
  | none => exact Bool.and_false _
  | some j =>
    rcases hun j hjob with hcopy | hex | hplace | hcond
    · simp [hcopy]
    · simp [hex]
    · simp [hplace]
    · simp [hcond]

/-- The pins the pass releases: one for each node that it makes FAILED. -/
theorem State.marked_use (hs : RosterOrdered s) (k x : CopyIx) :
    ((s.roster.map (fun r => (r.car, r.drop))).foldl (State.markedCopy k) s).isc.records[x].use
      = s.isc.records[x].use - (if x = k then (s.roster.filter (s.finalOn k)).length else 0) := by
  have hw : PassWeight (s.marked k) (fun r => if x = k ∧ s.finalOn k r = true then 1 else 0) := by
    refine ⟨fun _ => rfl, fun r => ?_⟩
    rw [State.finalOn_unharmed (s.marked_harmless k r), if_neg (fun h => Bool.false_ne_true h.2)]
  have hstep : ∀ (u : State) (p : Car × Drop), PlannerWork s u → (State.markedCopy k u p).isc.records[x].use
      = u.isc.records[x].use - (u.findNode p.1 p.2).elim 0 (fun r => if x = k ∧ s.finalOn k r = true then 1 else 0) := by
    intro u p hu
    cases hf : u.findNode p.1 p.2 with
    | none => rw [State.markedCopy_none hf]; rfl
    | some r =>
      obtain ⟨c, d⟩ := p
      obtain ⟨rfl, rfl⟩ := State.findNode_names hf
      rw [Option.elim_some]
      rcases onCopy_cases k r with ⟨j, hon, hplace⟩ | ⟨j, hon, hplace⟩ | hun
      · rw [State.markedCopy_queue hf hon hplace, (State.failAttempt_faulted hf).use, State.finalOn_queue hon hplace, hon.copy, hu.fleet]
        simp only [decide_eq_true_eq, and_comm]
      · rw [State.markedCopy_line hf hon hplace, (State.condemn_condemned hf).isc, State.finalOn_line hon hplace,
          if_neg (fun h => Bool.false_ne_true h.2), Nat.sub_zero]
      · rw [State.markedCopy_unharmed hf hun, State.finalOn_unharmed hun, if_neg (fun h => Bool.false_ne_true h.2), Nat.sub_zero]
  have hsum := (marked_pass s k).measure (marked_rule s k) hs hw (m := fun u => u.isc.records[x].use) (act := fun a b => a - b)
    Nat.sub_zero Nat.sub_sub hstep (s.roster.map (fun r => (r.car, r.drop)))
  refine hsum.trans (congrArg _ ?_)
  have hall : s.roster.map (fun r => if (r.car, r.drop) ∈ s.roster.map (fun r => (r.car, r.drop))
        then (if x = k ∧ s.finalOn k r = true then 1 else 0) else 0)
      = s.roster.map (fun r => if x = k ∧ s.finalOn k r = true then 1 else 0) :=
    List.map_congr_left (fun r hr => if_pos (List.mem_map_of_mem hr))
  rw [hall]
  by_cases hx : x = k
  · simp only [hx, true_and, if_true]
    exact sum_ones_eq_length _ _
  · simp [hx]

/-- What the pass leaves of a place is what its own step left there. -/
theorem State.marked_visited (hs : RosterOrdered s) {k : CopyIx} {i : Nat} (hi : s.roster[i]? = some r) :
    ∃ u x, PlannerWork s u ∧ u.findNode r.car r.drop = some { r with cost := x }
      ∧ PlannerWork (State.markedCopy k u (r.car, r.drop))
        ((s.roster.map (fun r => (r.car, r.drop))).foldl (State.markedCopy k) s) := by
  have hplace : (r.car, r.drop) ∈ s.roster.map (fun r => (r.car, r.drop)) := List.mem_map.mpr ⟨r, List.mem_of_getElem? hi, rfl⟩
  obtain ⟨u, q, hu, hq, hbare, hafter⟩ := (marked_pass s k).visits (marked_rule s k) hs hi hplace
  exact ⟨u, q.cost, hu, NodeRec.eq_of_bare hbare ▸ hq, hafter⟩

/-- A queued job on the copy: its line hears of its end, its entry is asked for, and ALERT stands at a final attempt. -/
theorem State.marked_queue_visited (hs : RosterOrdered s) {i : Nat} (hi : s.roster[i]? = some r) (hon : OnCopy k r j)
    (hplace : j.place = .queue) :
    let t := (s.roster.map (fun r => (r.car, r.drop))).foldl (State.markedCopy k) s
    .storeFaultEnd j.jid ∈ t.chan.rplClc[r.car]
      ∧ nodeRequest r s.ord.uptime .nodeFailed
        [byteOf (bit (decide (s.fleet.attemptLimit ≤ r.attempt))) 0, 0, byteOf FailReason.storeFault.code 0, byteOf r.attempt 0]
          ∈ t.jrn.requests
      ∧ (s.fleet.attemptLimit ≤ r.attempt → t.ntu.causes.getLsbD 3 = true) := by
  obtain ⟨u, x, hu, hq, hafter⟩ := State.marked_visited hs (k := k) hi
  have hfault := State.failAttempt_faulted (r := { r with cost := x }) (j := j) hq
  have hstep := State.markedCopy_queue (r := { r with cost := x }) hq ⟨hon.job, hon.copy, hon.live, hon.uncondemned⟩ hplace
  rw [hstep] at hafter
  have hasked := hafter.asks.subset hfault.asked
  have halert := fun h => hafter.alert (hfault.alert h)
  rw [hu.ord, hu.fleet] at hasked
  rw [hu.fleet] at halert
  exact ⟨(hafter.told r.car).subset hfault.told, hasked, halert⟩

/-- A job of the copy on the line: its line hears of its end. -/
theorem State.marked_line_visited (hs : RosterOrdered s) {i : Nat} (hi : s.roster[i]? = some r) (hon : OnCopy k r j)
    (hplace : j.place = .line) :
    .storeFaultEnd j.jid ∈ ((s.roster.map (fun r => (r.car, r.drop))).foldl (State.markedCopy k) s).chan.rplClc[r.car] := by
  obtain ⟨u, x, hu, hq, hafter⟩ := State.marked_visited hs (k := k) hi
  have hstep := State.markedCopy_line (r := { r with cost := x }) hq ⟨hon.job, hon.copy, hon.live, hon.uncondemned⟩ hplace
  rw [hstep] at hafter
  exact (hafter.told r.car).subset (State.condemn_condemned (r := { r with cost := x }) (j := j) hq).told

/-- A record after the pass. -/
theorem State.marked_record (hs : RosterOrdered s) (k : CopyIx) {i : Nat} (hi : s.roster[i]? = some r) :
    ∃ n, ((s.roster.map (fun r => (r.car, r.drop))).foldl (State.markedCopy k) s).roster[i]? = some n
      ∧ n = { s.marked k r with cost := n.cost } := by
  have hplace : (r.car, r.drop) ∈ s.roster.map (fun r => (r.car, r.drop)) := List.mem_map.mpr ⟨r, List.mem_of_getElem? hi, rfl⟩
  have hrecord := (marked_pass s k).record (marked_rule s k) hs (s.roster.map (fun r => (r.car, r.drop))) hi
  rwa [if_pos hplace] at hrecord

theorem State.faultEnd_below (hlimit : r.attempt < s.fleet.attemptLimit) (hstate : r.state ≠ .backoff) : s.faultEnd r j =
    { r with fail := .storeFault, state := .backoff
             job := some { j with place := .backoff, phase := none, reload := [], s := 0, retry := 0, condemned := false }
             backoffFrom := some s.ord.uptime, backoffShown := 1000, changedAt := s.ord.uptime } := by
  rw [State.faultEnd, if_pos hlimit]
  simp only [NodeRec.backedOff, Ne.symm hstate, if_false]

theorem State.faultEnd_final (hlimit : s.fleet.attemptLimit ≤ r.attempt) (hstate : r.state ≠ .failed) : s.faultEnd r j =
    { r with fail := .storeFault, state := .failed, job := none, changedAt := s.ord.uptime } := by
  rw [State.faultEnd, if_neg (Nat.not_lt.mpr hlimit)]
  simp only [NodeRec.failedFor, Ne.symm hstate, if_false]

/-- What the pass comes to for one node: a queued job of the copy fails with its tell and its entry, one on the line is condemned, and
any other record keeps all but its cost. -/
theorem State.marked_outcome (hs : RosterOrdered s) (k : CopyIx) {i : Nat} (hi : s.roster[i]? = some r) :
    let t := (s.roster.map (fun r => (r.car, r.drop))).foldl (State.markedCopy k) s
    ∃ n, t.roster[i]? = some n
      ∧ (∀ j, OnCopy k r j → r.state ≠ .backoff → r.state ≠ .failed →
        (j.place = .queue → .storeFaultEnd j.jid ∈ t.chan.rplClc[r.car]
            ∧ nodeRequest r s.ord.uptime .nodeFailed [byteOf (bit (decide (s.fleet.attemptLimit ≤ r.attempt))) 0, 0,
              byteOf FailReason.storeFault.code 0, byteOf r.attempt 0] ∈ t.jrn.requests
            ∧ (r.attempt < s.fleet.attemptLimit → n =
              { r with fail := .storeFault, state := .backoff
                       job := some { j with place := .backoff, phase := none, reload := [], s := 0, retry := 0, condemned := false }
                       backoffFrom := some s.ord.uptime, backoffShown := 1000, cost := n.cost, changedAt := s.ord.uptime })
            ∧ (s.fleet.attemptLimit ≤ r.attempt →
              n = { r with fail := .storeFault, state := .failed, job := none, cost := n.cost, changedAt := s.ord.uptime }
                ∧ t.ntu.causes.getLsbD 3 = true))
          ∧ (j.place = .line → .storeFaultEnd j.jid ∈ t.chan.rplClc[r.car]
            ∧ n = { r with job := some { j with condemned := true }, cost := n.cost }))
      ∧ (Unharmed k r → n = { r with cost := n.cost }) := by
  obtain ⟨n, hn, hrec⟩ := State.marked_record hs k hi
  refine ⟨n, hn, fun j hon hbackoff hfailed => ⟨fun hplace => ?_, fun hplace => ?_⟩, fun hun => ?_⟩
  · obtain ⟨htold, hasked, halert⟩ := State.marked_queue_visited hs hi hon hplace
    rw [State.marked_queue hon hplace] at hrec
    refine ⟨htold, hasked, fun hlimit => ?_, fun hlimit => ⟨?_, halert hlimit⟩⟩
    · rw [State.faultEnd_below hlimit hbackoff] at hrec
      exact hrec
    · rw [State.faultEnd_final hlimit hfailed] at hrec
      exact hrec
  · rw [State.marked_line hon hplace] at hrec
    exact ⟨State.marked_line_visited hs hi hon hplace, hrec⟩
  · rwa [State.marked_unharmed hun] at hrec

theorem exec_copyDamaged {rest : List StoreNews} (hrun : s.isRunning = true) (hnews : s.chan.iscRpl = .damaged k :: rest) :
    exec .rplCopyDamaged s = .next (publish s ((s.roster.map (fun r => (r.car, r.drop))).foldl (State.markedCopy k)
      { s with chan := { s.chan with iscRpl := rest } })) := by
  show done s _ = _
  rw [hrun, hnews]
  rfl

end

end Sys2Proof.Machine
end

section
/-! The planner at scan ticks, at sampled budgets and at the store's news, as obligated (R59, R60, R65 to R70, R114, R179). -/

namespace Sys2Proof.Machine

theorem ceilDiv_thousand (n : Nat) : ceilDiv n 1000 = (n + 999) / 1000 := by
  rw [ceilDiv, Nat.add_sub_assoc (by decide)]

/-- The words shown of an estimate hold its figures whole. -/
theorem EstimateShown.words {s : State} {c : Car} {p : RplCar} {t : State} (h : EstimateShown t.ram c (s.figured c p)) :
    leNat (t.ramBytes (0x64 + 16 * c.val) 2) = (s.figured c p).e ∧ leNat (t.ramBytes (0x66 + 16 * c.val) 2) = (s.figured c p).p
      ∧ leNat (t.ramBytes (0x68 + 16 * c.val) 2) = (s.figured c p).elapsed := by
  obtain ⟨he, hp, helapsed⟩ := h
  have hbound : ∀ n : Nat, min 65535 n % 65536 = min 65535 n := fun n => Nat.mod_eq_of_lt (by omega)
  refine ⟨he.trans ?_, hp.trans (hbound _), helapsed.trans (hbound _)⟩
  simp only [State.figured]
  split
  · rfl
  · exact hbound _

theorem State.awaitsSlot_iff (s : State) (k : Slot) (c : Car) : s.awaitsSlot k c = true
    ↔ ∃ r ∈ s.roster, r.includedDoor c = true ∧ r.slot = k ∧ (r.state = .awaiting ∨ r.state = .missing) := by
  simp only [State.awaitsSlot, includedDoors, List.any_eq_true, List.mem_filter, Bool.and_eq_true, Bool.or_eq_true, decide_eq_true_eq,
    and_assoc]

/-- Settles O54: three reckonings of cars, and a pass over the roster. -/
theorem ticksBudgetsAndStoreNews : Obligations.TicksBudgetsAndStoreNews := by
  intro s hrun others tt seg segs full survey start desc compares left worked cost owed sum priced repriced estimated judged
  have hsegs : ∀ (d : Desc) (b : Bool) (l : List Nat), segs d b l = segCosts tt d b l := fun d b l => (segCosts_eq_sum tt d b l).symm
  have hworked : ∀ r : NodeRec, worked r = s.workLeft r := by
    intro r
    funext j
    simp only [worked, State.workLeft]
    cases j.phase with
    | none => rfl
    | some ph => cases ph <;> simp only [hsegs] <;> rfl
  have howed : ∀ r : NodeRec, r.job.elim 0 (owed r) = s.infoOwed r := by
    intro r
    unfold State.infoOwed
    cases r.job with
    | none => rfl
    | some j =>
      simp only [owed, Option.elim_some]
      cases j.phase with
      | none => rfl
      | some ph => cases ph <;> simp only [hsegs] <;> rfl
  have hleft : ∀ r : NodeRec, left r = r.backoffLeft s.ord.uptime := by
    intro r
    simp only [left, NodeRec.backoffLeft]
    cases r.backoffFrom <;> rfl
  have hcost : ∀ r : NodeRec, cost r = if r.isExcluded then 0 else s.price r := by
    intro r
    show (if r.isExcluded = true then 0 else _) = _
    rw [State.price_cases]
    simp only [hworked, hleft, full, hsegs]
    rfl
  have hsum : ∀ c : Car, sum c = s.costSum c := by
    intro c
    rw [State.costSum_eq]
    have hdoors : (s.roster.filter (fun r => r.includedDoor c)).map cost = (includedDoors s.roster c).map s.price := by
      refine List.map_congr_left (fun r hr => ?_)
      have hincluded := (List.mem_filter.mp hr).2
      simp only [NodeRec.includedDoor, Bool.and_eq_true, Bool.not_eq_true'] at hincluded
      rw [hcost, hincluded.2, if_neg Bool.false_ne_true]
    simp only [sum, hdoors, howed, Bool.decide_and]
  have hestimated : ∀ (c : Car) (p q : RplCar) (t : State), CarEstimated s c p q t → estimated c p q t := by
    intro c p q t h
    have hfigured : s.figured c p = { p with
        e := if p.settled then 0 else min 65535 ((sum c + 999) / 1000)
        elapsed := min 65535 p.clock
        p := min 65535 (min 65535 p.clock + if p.settled then 0 else min 65535 ((sum c + 999) / 1000))
        late := decide (p.budget ≠ 0 ∧ p.budget
          < min 65535 (min 65535 p.clock + if p.settled then 0 else min 65535 ((sum c + 999) / 1000))) } := by
      rw [hsum, ← ceilDiv_thousand]
      rfl
    refine ⟨h.record.trans hfigured, fun n r hr hcar => ?_, fun hw => ?_⟩
    · rw [h.cost n r hr hcar, hcost]
    · have hwords := (h.record ▸ h.shown hw).words
      rw [hfigured] at hwords
      exact hwords
  have hothers : ∀ t, PlannerReckons s t → others t := fun t h =>
    ⟨h.lines, h.ssu, h.prm, h.ord, h.flash, h.fleet, h.pages⟩
  have hjudged : ∀ t, PlannerReckons s t → judged t := fun t h => ⟨h.jrn, h.ntu⟩
  refine ⟨fun rest hnews => ?_, fun b rest hnews => ?_, fun k rest hnews => ?_, fun k rest hnews hs => ?_⟩
  · obtain ⟨t, hexec, hreck, hchan, hlen, hrec, hcars⟩ := scanTick_reckons hrun hnews
    refine ⟨t, hexec, hothers t hreck, hreck.isc, hchan, hlen, fun n r hr => ?_, hjudged t hreck, fun c =>
      ⟨(hcars c).1, fun hup => hestimated _ _ _ _ ((hcars c).2 hup)⟩⟩
    obtain ⟨x, hx⟩ := hrec n r hr
    rw [NodeRec.shownBackoff_eq] at hx
    exact ⟨x, hx⟩
  · obtain ⟨t, hexec, hreck, hchan, hlen, hrec, hcars⟩ := budgets_reckon hrun hnews
    refine ⟨t, hexec, hothers t hreck, hreck.isc, hchan, ⟨hlen, hrec⟩, hjudged t hreck, fun c => ?_⟩
    obtain ⟨hsame, hdown, hup⟩ := hcars c
    exact ⟨hsame, hdown, fun hb hu => hestimated _ _ _ _ (hup hb hu)⟩
  · obtain ⟨t, hexec, hreck, hchan, hlen, hrec, hcars⟩ := activeChange_reckons hrun hnews
    refine ⟨t, hexec, hothers t hreck, hreck.isc, hchan, ⟨hlen, hrec⟩, hjudged t hreck, fun c => ?_⟩
    intro waits
    have hwaits : s.awaitsSlot k c = true ↔ waits := s.awaitsSlot_iff k c
    obtain ⟨hyes, hno⟩ := hcars c
    exact ⟨fun hw hu => hestimated _ _ _ _ (hyes (hwaits.mpr hw) hu),
      fun h => hno (h.imp (fun hw => Bool.eq_false_iff.mpr (fun ha => hw (hwaits.mp ha))) id)⟩
  · have hexec := exec_copyDamaged hrun hnews
    let s0 := { s with chan := { s.chan with iscRpl := rest } }
    have hs0 : RosterOrdered s0 := hs
    have hwork := (marked_pass s0 k).work (s.roster.map (fun r => (r.car, r.drop))) (PlannerWork.refl _)
    have huse := State.marked_use hs0 k
    have hnode := fun {i r} => State.marked_outcome hs0 k (i := i) (r := r)
    generalize hpass : (s.roster.map (fun r => (r.car, r.drop))).foldl (State.markedCopy k) s0 = t at hexec hwork
    obtain ⟨x, m, y, z, hchan⟩ := hwork.chan
    refine ⟨publish s t, hexec, ⟨hwork.lines, hwork.ssu, hwork.prm, hwork.ord, hwork.flash, hwork.fleet, fun a h1 h2 => ?_⟩, ?_,
      hwork.length, ⟨hwork.isc, fun x => ?_⟩, fun n r hn => ?_⟩
    · exact ((PlannerKept.publish 0 0 s t).pages a h1 h2).trans (hwork.pages a h1 h2)
    · rw [publish_chan, hchan]
    · refine (hwork.records x).trans ?_
      rw [← hpass]
      exact congrArg (fun n => { s.isc.records[x] with use := n }) (huse x)
    · subst hpass
      obtain ⟨r', hr', hon, hun⟩ := hnode hn
      exact ⟨r', hr', fun j hjob hcopy hlive hbackoff hfailed hcond => hon j ⟨hjob, hcopy, hlive, hcond⟩ hbackoff hfailed, hun⟩

end Sys2Proof.Machine
end

section
/-! What a car line's operations make of the line itself: buffers requested and released, a grant, a job that leaves; and what of
it nothing shows (R99 to R101, R104, R112, R154). -/

namespace Sys2Proof.Machine

/-! ## Changes that are not shown -/

/-- A line that keeps its error count, news in transit and entry requests show nothing. -/
theorem publish_quiet (s : State) (c : Car) (l : Line) (x : Channels) (r : List EntryReq) (h : l.errors = s.lines[c].errors) :
    publish s { s with lines := s.lines.set c l, chan := x, jrn := { s.jrn with requests := r } }
      = { s with lines := s.lines.set c l, chan := x, jrn := { s.jrn with requests := r } } := by
  have herrors : ∀ d : Car, (s.lines.set c l)[d].errors = s.lines[d].errors := by
    intro d
    by_cases hd : d = c
    · subst hd
      rw [set_get, h]
    · rw [set_get_ne _ _ hd]
  have hcars : carItems { s with lines := s.lines.set c l, chan := x, jrn := { s.jrn with requests := r } } = carItems s := by
    funext d
    simp only [carItems, herrors d, carFlags]
  refine publish_unshown _ _ ?_ rfl rfl rfl
  rw [pageItems, pageItems, hcars]
  rfl

theorem publish_news (s : State) (x : Channels) : publish s { s with chan := x } = { s with chan := x } :=
  publish_unshown _ _ rfl rfl rfl rfl

theorem State.setLine_self (s : State) (c : Car) : s.setLine c s.lines[c] = s := by
  unfold State.setLine
  rw [show s.lines.set c s.lines[c] = s.lines from Vector.set_getElem_self _]

theorem State.setLine_setLine (s : State) (c : Car) (l k : Line) : (s.setLine c l).setLine c k = s.setLine c k := by
  simp only [State.setLine, Vector.set_set]

@[simp] theorem State.setLine_line (s : State) (c : Car) (l : Line) : (s.setLine c l).lines[c] = l := set_get _ _ _

/-! ## Buffers alone -/

/-- Two lines that differ in their buffers and the request that waits for one alone. -/
def Line.SameButBuffers (l k : Line) : Prop := k = { l with bufX := k.bufX, bufY := k.bufY, wantRead := k.wantRead }

theorem Line.SameButBuffers.refl (l : Line) : l.SameButBuffers l := rfl

theorem Line.SameButBuffers.setBuf (l : Line) (y : Bool) (b : SegBuf) : l.SameButBuffers (l.setBuf y b) := by
  cases y <;> rfl

section
variable (s : State) (c : Car)

theorem State.addRequest_line (q : ReadReq) : (s.addRequest q).lines[c] = s.lines[c] :=
  congrArg (fun v : Vector Line 6 => v[c]) (State.settleStore_lines _)

theorem State.requestRead_line (i : Nat) : s.lines[c].SameButBuffers (s.requestRead c i).lines[c] := by
  unfold State.requestRead
  dsimp only
  split
  · exact .refl _
  · split
    · rw [State.setLine_line]
      rfl
    · rw [State.addRequest_line, State.setLine_line]
      exact .setBuf _ _ _

theorem State.requestLowest_line : s.lines[c].SameButBuffers (s.requestLowest c).lines[c] := by
  unfold State.requestLowest
  dsimp only
  split
  · exact .refl _
  · split
    · exact .refl _
    · split
      · exact .refl _
      · exact s.requestRead_line c _

/-! ## The grant (R99, R100) -/

theorem State.tryGrant_busy {s : State} {c : Car} (h : s.lines[c].state ≠ .idle) : s.tryGrant c = s :=
  if_neg (fun hidle => h hidle.1)

theorem State.tryGrant_unqueued {s : State} {c : Car} (h : s.lines[c].queue = []) : s.tryGrant c = s := by
  have hnone : s.lines[c].grantable = none := by rw [Line.grantable, h, List.find?_nil]
  unfold State.tryGrant
  dsimp only
  rw [hnone, ite_self]

/-- A grant leaves the line as it was, or takes it from IDLE to a job of its queue. -/
theorem State.tryGrant_line : (s.tryGrant c).lines[c] = s.lines[c]
    ∨ s.lines[c].state = .idle ∧ ∃ j, (s.lines[c].granted j).SameButBuffers (s.tryGrant c).lines[c] := by
  unfold State.tryGrant
  dsimp only
  split
  next hidle =>
    split
    · exact .inl rfl
    next j hj =>
      refine .inr ⟨hidle.1, j, ?_⟩
      have hline : ((s.setLine c (s.lines[c].granted j)).report c (.granted j.jid j.phase)).lines[c] = s.lines[c].granted j :=
        set_get _ _ _
      split
      · have h := State.requestLowest_line ((s.setLine c (s.lines[c].granted j)).report c (.granted j.jid j.phase)) c
        rwa [hline] at h
      · rw [hline]
        exact .refl _
  · exact .inl rfl

/-! ## Buffers released, a job that leaves (R101, R112) -/

theorem State.withdraw_line (d : Car) (y : Bool) : (s.withdraw d y).lines[c] = s.lines[c] :=
  congrArg (fun v : Vector Line 6 => v[c]) (State.settleStore_lines _)

theorem State.releaseBuffer_line (y : Bool) :
    (s.releaseBuffer c y).lines[c] = s.lines[c].setBuf y (s.lines[c].buf y).released := by
  unfold State.releaseBuffer
  dsimp only
  split
  · rw [State.withdraw_line, State.setLine_line]
  · rw [State.setLine_line]

theorem State.releaseBuffers_line : (s.releaseBuffers c).lines[c] =
    { s.lines[c] with bufX := s.lines[c].bufX.released, bufY := s.lines[c].bufY.released, wantRead := none } := by
  unfold State.releaseBuffers
  dsimp only
  rw [State.setLine_line, State.releaseBuffer_line, State.releaseBuffer_line]
  rfl

/-- A request left at the arbiter was there before, and no buffer released waits for it. -/
theorem State.releaseBuffer_requests {y : Bool} {q : ReadReq} (h : q ∈ (s.releaseBuffer c y).isc.requests) :
    q ∈ s.isc.requests ∧ ((s.lines[c].buf y).state = .waiting → ∀ k, q.who ≠ .job c y k) := by
  unfold State.releaseBuffer at h
  dsimp only at h
  split at h
  next hwaiting =>
    rw [State.withdraw, State.settleStore_requests] at h
    obtain ⟨hmem, hkeep⟩ := List.mem_filter.mp h
    refine ⟨hmem, fun _ k hk => ?_⟩
    rw [hk] at hkeep
    simp at hkeep
  next hwaiting => exact ⟨h, fun hw => absurd hw hwaiting⟩

theorem State.releaseBuffers_requests {q : ReadReq} (h : q ∈ (s.releaseBuffers c).isc.requests) (y : Bool)
    (hwaiting : (s.lines[c].buf y).state = .waiting) (k : NodeClass) : q.who ≠ .job c y k := by
  obtain ⟨hfirst, hY⟩ := State.releaseBuffer_requests (s.releaseBuffer c false) c (y := true) h
  obtain ⟨-, hX⟩ := State.releaseBuffer_requests s c hfirst
  cases y
  · exact hX hwaiting k
  · rw [State.releaseBuffer_line] at hY
    exact hY hwaiting k

theorem State.lineLeft_line : (s.lineLeft c).lines[c] = { s.lines[c] with
    state := if s.lines[c].state = .serving then .idle else s.lines[c].state
    holding := none, ending := .unset, exch := none, exchangeFirst := false, replyTimer := none
    bufX := s.lines[c].bufX.released, bufY := s.lines[c].bufY.released, wantRead := none } := by
  rw [State.lineLeft, State.setLine_line, State.releaseBuffers_line]
  rfl

theorem State.leaveLine_unqueued {s : State} {c : Car} (h : s.lines[c].queue = []) : s.leaveLine c none = s.lineLeft c :=
  State.tryGrant_unqueued (s := s.lineLeft c) ((congrArg Line.queue (s.lineLeft_line c)).trans h)

/-! ## What neither reaches -/

/-- Two lines with the same round in flight, the same sets and owed rounds, and the same frames taken. -/
structure Line.RoundKept (l k : Line) : Prop where
  round : k.round = l.round
  roundOver : k.roundOver = l.roundOver
  heard : k.heard = l.heard
  fastNo : k.fastNo = l.fastNo
  owed : k.owed = l.owed
  errors : k.errors = l.errors
  rx : k.rx = l.rx

theorem Line.SameButBuffers.roundKept {l k : Line} (h : l.SameButBuffers k) : l.RoundKept k := by
  rw [h]
  exact ⟨rfl, rfl, rfl, rfl, rfl, rfl, rfl⟩

theorem Line.RoundKept.trans {l k m : Line} (h : l.RoundKept k) (h' : k.RoundKept m) : l.RoundKept m :=
  ⟨h'.round.trans h.round, h'.roundOver.trans h.roundOver, h'.heard.trans h.heard, h'.fastNo.trans h.fastNo,
    h'.owed.trans h.owed, h'.errors.trans h.errors, h'.rx.trans h.rx⟩

theorem State.tryGrant_round : s.lines[c].RoundKept (s.tryGrant c).lines[c] := by
  rcases s.tryGrant_line c with hsame | ⟨-, j, hgranted⟩
  · rw [hsame]
    exact ⟨rfl, rfl, rfl, rfl, rfl, rfl, rfl⟩
  · exact (show s.lines[c].RoundKept (s.lines[c].granted j) from ⟨rfl, rfl, rfl, rfl, rfl, rfl, rfl⟩).trans hgranted.roundKept

theorem State.leaveLine_round (requeue : Option LineJob) : s.lines[c].RoundKept (s.leaveLine c requeue).lines[c] := by
  have hvacated : s.lines[c].RoundKept
      ((s.releaseBuffers c).setLine c ((s.releaseBuffers c).lines[c].vacated requeue)).lines[c] := by
    rw [State.setLine_line, State.releaseBuffers_line]
    exact ⟨rfl, rfl, rfl, rfl, rfl, rfl, rfl⟩
  exact hvacated.trans (State.tryGrant_round _ c)

/-- An IDLE line stays IDLE or goes to SERVING. -/
theorem State.tryGrant_state {s : State} {c : Car} (h : s.lines[c].state = .idle) :
    (s.tryGrant c).lines[c].state = .idle ∨ (s.tryGrant c).lines[c].state = .serving := by
  rcases s.tryGrant_line c with hsame | ⟨-, j, hgranted⟩
  · exact .inl (by rw [hsame, h])
  · exact .inr (by rw [hgranted]; rfl)

end

end Sys2Proof.Machine
end

section
/-! What a line takes of the planner's and the journal's news (R86, R87, R89, R97, R98, R110, R113, R114, R116). -/

namespace Sys2Proof.Machine

/-! ## Taking the news -/

/-- The command by which a line takes a tell of the planner. -/
def LineOrder.instr (c : Car) : LineOrder → Instr
  | .jobEnters _ => .clcJobEntersQueue c
  | .endJob _ => .clcEndJob c
  | .storeFaultEnd _ => .clcStoreFaultEnd c
  | .individual _ => .individualRollCallRequest c
  | .cancel _ => .cancelRollCall c
  | .missing _ _ => .missingSetChange c

/-- What that command does once the tell is off its channel. -/
def State.takeTell (s : State) (c : Car) : LineOrder → State
  | .jobEnters j => s.jobEnters c j
  | .endJob jid => s.endJob c jid
  | .storeFaultEnd jid => s.storeFaultEnd c jid
  | .individual d => s.setLine c (s.lines[c].individual d)
  | .cancel d => (s.setLine c { s.lines[c] with owed := s.lines[c].owed.set d 0 }).tryGrant c
  | .missing d on => (s.setLine c (s.lines[c].setMissing d on)).tryGrant c

theorem exec_tell {s : State} {c : Car} {m : LineOrder} {rest : List LineOrder} (hrun : s.isRunning = true)
    (h : s.chan.rplClc[c] = m :: rest) : exec (m.instr c) s
      = .next (publish s (({ s with chan := { s.chan with rplClc := s.chan.rplClc.set c rest } } : State).takeTell c m)) := by
  have hdrop : s.dropTell c = { s with chan := { s.chan with rplClc := s.chan.rplClc.set c rest } } := by
    rw [State.dropTell, dropAt, h]
    rfl
  rw [← hdrop]
  cases m with
  | jobEnters j =>
    show execClcJobEntersQueue c s = _
    simp only [execClcJobEntersQueue, hrun, h]
    rfl
  | endJob jid =>
    show execClcEndJob c s = _
    simp only [execClcEndJob, hrun, h]
    rfl
  | storeFaultEnd jid =>
    show execClcStoreFaultEnd c s = _
    simp only [execClcStoreFaultEnd, hrun, h]
    rfl
  | individual d =>
    show execIndividualRollCallRequest c s = _
    simp only [execIndividualRollCallRequest, hrun, h]
    rfl
  | cancel d =>
    show execCancelRollCall c s = _
    simp only [execCancelRollCall, hrun, h]
    rfl
  | missing d on =>
    show execMissingSetChange c s = _
    simp only [execMissingSetChange, hrun, h]
    rfl

theorem exec_holdTell {s : State} {c : Car} {on : Bool} {more : List Bool} (hrun : s.isRunning = true)
    (h : s.chan.jrnClc[c] = on :: more) : exec (.holdTell c) s = .next (publish s
      (({ s with lines := s.lines.set c { s.lines[c] with hold := on },
                 chan := { s.chan with jrnClc := s.chan.jrnClc.set c more } }).tryGrant c)) := by
  show execHoldTell c s = _
  simp only [execHoldTell, hrun, h]
  rfl

/-! ## Jobs that enter and end -/

section
variable {s : State} {c : Car} {jid : Nat}

theorem State.rplBehind_iff : s.rplBehind c = true ↔ s.chan.handed[c] ≠ [] := decide_eq_true_iff

theorem State.jobEnters_not {j : LineJob} (h : s.lines[c].state = .off ∨ s.chan.handed[c] ≠ []) : s.jobEnters c j = s :=
  if_pos (h.imp_right State.rplBehind_iff.mpr)

theorem State.jobEnters_queued {j : LineJob} (hoff : s.lines[c].state ≠ .off) (hhanded : s.chan.handed[c] = []) :
    s.jobEnters c j = (s.setLine c { s.lines[c] with queue := insertJob j s.lines[c].queue }).tryGrant c :=
  if_neg fun h => h.elim hoff fun hbehind => State.rplBehind_iff.mp hbehind hhanded

theorem Line.holds_iff {l : Line} : l.holds jid = true ↔ ∃ j, l.holding = some j ∧ j.jid = jid := by
  rw [Line.holds, decide_eq_true_iff, Option.map_eq_some_iff]

theorem Line.not_holds {l : Line} (h : ∀ j, l.holding = some j → j.jid ≠ jid) : l.holds jid = false :=
  Bool.eq_false_iff.mpr fun hholds =>
    have ⟨j, hj, hjid⟩ := Line.holds_iff.mp hholds
    h j hj hjid

theorem Line.tryInFlight_iff {l : Line} : l.tryInFlight = true ↔ ∃ x, l.exch = some x ∧ x.stage ≠ .resend := by
  unfold Line.tryInFlight
  split
  next h => simp [h]
  next x h => simp [h]

theorem State.endJob_later (hholds : s.lines[c].holds jid = true)
    (hbusy : s.lines[c].round.isSome = true ∨ ∃ x, s.lines[c].exch = some x ∧ x.stage ≠ .resend) :
    s.endJob c jid = s.setLine c { s.lines[c] with ending := .ending } := by
  have hlater : (s.lines[c].tryInFlight || s.lines[c].round.isSome) = true :=
    (Bool.or_eq_true _ _).mpr (hbusy.symm.imp_left Line.tryInFlight_iff.mpr)
  unfold State.endJob
  dsimp only
  rw [if_pos hholds, if_pos hlater]

theorem State.endJob_now (hholds : s.lines[c].holds jid = true)
    (hidle : ¬ (s.lines[c].round.isSome = true ∨ ∃ x, s.lines[c].exch = some x ∧ x.stage ≠ .resend)) :
    s.endJob c jid = (s.report c (.released jid)).leaveLine c none := by
  have hnow : ¬ (s.lines[c].tryInFlight || s.lines[c].round.isSome) = true := fun h =>
    hidle ((Bool.or_eq_true _ _).mp h |>.symm.imp_right Line.tryInFlight_iff.mp)
  unfold State.endJob
  dsimp only
  rw [if_pos hholds, if_neg hnow]

theorem State.endJob_abandoned (hholds : s.lines[c].holds jid = false) (hbehind : s.chan.handed[c] ≠ []) :
    s.endJob c jid = s := by
  unfold State.endJob
  dsimp only
  rw [if_neg (Bool.not_eq_true _ ▸ hholds), if_pos (State.rplBehind_iff.mpr hbehind)]

theorem State.endJob_unheld (hholds : s.lines[c].holds jid = false) (hlevel : s.chan.handed[c] = []) : s.endJob c jid =
    (s.setLine c { s.lines[c] with queue := removeJob s.lines[c].queue jid }).report c (.released jid) := by
  unfold State.endJob
  dsimp only
  rw [if_neg (Bool.not_eq_true _ ▸ hholds), if_neg (fun h => State.rplBehind_iff.mp h hlevel)]

theorem State.storeFaultEnd_ending (hholds : s.lines[c].holds jid = true) (hending : s.lines[c].ending = .ending) :
    s.storeFaultEnd c jid = s := by
  unfold State.storeFaultEnd
  dsimp only
  rw [if_pos hholds, if_pos hending]

theorem State.storeFaultEnd_later (hholds : s.lines[c].holds jid = true) (hending : s.lines[c].ending ≠ .ending)
    (hbusy : s.lines[c].tryInFlight = true) :
    s.storeFaultEnd c jid = s.setLine c { s.lines[c] with ending := .storeFault } := by
  unfold State.storeFaultEnd
  dsimp only
  rw [if_pos hholds, if_neg hending, if_pos hbusy]

theorem State.attemptFails_held {j : LineJob} (h : s.lines[c].holding = some j) (reason : FailReason) :
    s.attemptFails c reason = (s.report c (.failed j.jid reason)).leaveLine c none := by
  unfold State.attemptFails
  rw [h]

theorem State.storeFaultEnd_now (hholds : s.lines[c].holds jid = true) (hending : s.lines[c].ending ≠ .ending)
    (hidle : ¬ s.lines[c].tryInFlight = true) :
    s.storeFaultEnd c jid = (s.report c (.failed jid .storeFault)).leaveLine c none := by
  obtain ⟨j, hj, rfl⟩ := Line.holds_iff.mp hholds
  unfold State.storeFaultEnd
  dsimp only
  rw [if_pos hholds, if_neg hending, if_neg hidle, State.attemptFails_held hj]

theorem State.storeFaultEnd_abandoned (hholds : s.lines[c].holds jid = false) (hbehind : s.chan.handed[c] ≠ []) :
    s.storeFaultEnd c jid = s := by
  unfold State.storeFaultEnd
  dsimp only
  rw [if_neg (Bool.not_eq_true _ ▸ hholds), if_pos (State.rplBehind_iff.mpr hbehind)]

theorem State.storeFaultEnd_unheld (hholds : s.lines[c].holds jid = false) (hlevel : s.chan.handed[c] = []) : s.storeFaultEnd c jid =
    (s.setLine c { s.lines[c] with queue := removeJob s.lines[c].queue jid }).report c (.failed jid .storeFault) := by
  unfold State.storeFaultEnd
  dsimp only
  rw [if_neg (Bool.not_eq_true _ ▸ hholds), if_neg (fun h => State.rplBehind_iff.mp h hlevel)]

end

/-! ## Owed rounds and the missing set -/

theorem Line.individual_eq (l : Line) (d : Drop) : l.individual d =
    if l.state = .idle ∨ l.state = .serving ∨ (l.state = .rollCall ∧ l.round = some .other) then { l with owed := l.owed.set d 4 }
    else l := by
  unfold Line.individual
  cases l.state with
  | off => rfl
  | bootWait => rfl
  | rollCall => simp only [reduceCtorEq, false_or, true_and]; rfl
  | idle => rfl
  | serving => rfl

theorem Line.setMissing_eq (l : Line) (d : Drop) (on : Bool) :
    let m := if on then DropSet.add l.missing d else DropSet.del l.missing d
    l.setMissing d on = if l.state = .off then l else { l with
      missing := m
      slowTimer := if m = 0 then none else if l.missing = 0 then some 500 else l.slowTimer
      slowDue := if m = 0 then false else l.slowDue } := by
  intro m
  unfold Line.setMissing
  split
  · rfl
  · show (if m = 0 then _ else if l.missing = 0 then _ else _) = _
    split
    · rfl
    · split <;> rfl

/-- Settles O50, news by news: a tell that leaves the line on its job or without one shows nothing. -/
theorem lineTakesNews : Obligations.LineTakesNews := by
  intro c s rest hrun l taken sets news busy
  let u : State := { s with chan := taken }
  have htakes : ∀ {m : LineOrder} {i : Instr} {t v : State}, news m → m.instr c = i → u.takeTell c m = t → publish s t = v →
      exec i s = .next v := by
    rintro m i t v hm rfl rfl rfl
    exact exec_tell hrun hm
  have hquiet : publish s u = u := publish_news s taken
  have hsets : ∀ {x : Line}, x.errors = l.errors → publish s (sets x) = sets x := fun h => publish_line s c _ _ h
  have htold : ∀ {x : Line} {m : LineReport}, x.errors = l.errors → publish s ((sets x).report c m) = (sets x).report c m :=
    fun h => publish_line s c _ _ h
  have hheld : ∀ {j : LineJob} {jid : Nat}, l.holding = some j → j.jid = jid → u.lines[c].holds jid = true :=
    fun hj hjid => Line.holds_iff.mpr ⟨_, hj, hjid⟩
  refine ⟨fun j hj => ⟨fun hno => ?_, fun hoff hhanded => ?_⟩, fun jid hj => ?_, fun jid hj => ?_, fun d hd => ?_,
    fun d hd => htakes hd rfl rfl rfl, fun d on hd => ?_, fun on more h => exec_holdTell hrun h⟩
  · exact htakes hj rfl (State.jobEnters_not hno) hquiet
  · exact htakes hj rfl (State.jobEnters_queued hoff hhanded) rfl
  · refine ⟨fun j hj' hjid hbusy => ?_, fun j hj' hjid hidle => ?_, fun hother => ⟨fun hbehind => ?_, fun hlevel => ?_⟩⟩
    · exact htakes hj rfl (State.endJob_later (hheld hj' hjid) hbusy) (hsets rfl)
    · exact htakes hj rfl (State.endJob_now (hheld hj' hjid) hidle) rfl
    · exact htakes hj rfl (State.endJob_abandoned (Line.not_holds hother) hbehind) hquiet
    · exact htakes hj rfl (State.endJob_unheld (Line.not_holds hother) hlevel) (htold rfl)
  · refine ⟨fun j hj' hjid hending => ?_, fun j x hj' hjid hending hx hstage => ?_, fun j hj' hjid hending hresend => ?_,
      fun hother => ⟨fun hbehind => ?_, fun hlevel => ?_⟩⟩
    · exact htakes hj rfl (State.storeFaultEnd_ending (hheld hj' hjid) hending) hquiet
    · have htry : l.tryInFlight = true := Line.tryInFlight_iff.mpr ⟨x, hx, hstage⟩
      exact htakes hj rfl (State.storeFaultEnd_later (hheld hj' hjid) hending htry) (hsets rfl)
    · refine htakes hj rfl (State.storeFaultEnd_now (hheld hj' hjid) hending fun htry => ?_) rfl
      obtain ⟨x, hx, hstage⟩ := Line.tryInFlight_iff.mp htry
      exact hstage (hresend x hx)
    · exact htakes hj rfl (State.storeFaultEnd_abandoned (Line.not_holds hother) hbehind) hquiet
    · exact htakes hj rfl (State.storeFaultEnd_unheld (Line.not_holds hother) hlevel) (htold rfl)
  · refine htakes hd rfl (congrArg (u.setLine c) (Line.individual_eq l d)) (hsets ?_)
    split <;> rfl
  · exact htakes hd rfl (congrArg (fun x => (u.setLine c x).tryGrant c) (Line.setMissing_eq l d on)) rfl

end Sys2Proof.Machine
end

section
/-! A line at the car's events (R80, R81, R112, R116). -/

namespace Sys2Proof.Machine

section
variable {s : State} {c : Car} {rest : List CarEvent}

theorem exec_clcCarLoss {u : Long} (hrun : s.isRunning = true) (h : s.chan.ssuClc[c] = .loss u :: rest) :
    exec (.clcCarLoss c) s = .next (publish s (((s.closeReports c).dropClcEvent c).lineOff c)) := by
  show execClcCarLoss c s = _
  simp only [execClcCarLoss, hrun, h]
  rfl

theorem exec_clcCarReturn {g : Nat} {unknown restart : Bool} {u : Long} (hrun : s.isRunning = true)
    (h : s.chan.ssuClc[c] = .ret g unknown restart u :: rest) :
    exec (.clcCarReturn c) s = .next (publish s ((s.dropClcEvent c).setLine c (s.lines[c].bootWait s.fleet.boot))) := by
  show execClcCarReturn c s = _
  simp only [execClcCarReturn, hrun, h]
  rfl

theorem State.dropClcEvent_news {e : CarEvent} (h : s.chan.ssuClc[c] = e :: rest) :
    (s.dropClcEvent c).chan = { s.chan with ssuClc := s.chan.ssuClc.set c rest } := by
  rw [State.dropClcEvent, dropAt, h]
  rfl

/-- The reports of a car whose loss the planner has still to take wait, and are counted (log 4). -/
theorem State.closeReports_awaited (h : s.chan.ssuClc[c].length ≤ s.chan.ssuRpl[c].length) :
    (s.closeReports c).chan = { s.chan with handed := s.chan.handed.set c (s.chan.handed[c] ++ [s.chan.clcRpl[c].length]) } := by
  have hself : s.chan.clcRpl.set c s.chan.clcRpl[c] = s.chan.clcRpl := Vector.set_getElem_self _
  unfold State.closeReports
  dsimp only
  rw [decide_eq_false (by omega)]
  simp only [Bool.false_eq_true, if_false]
  rw [hself]

/-- Those of a car whose loss the planner has taken are discarded (R48, R116). -/
theorem State.closeReports_taken (h : s.chan.ssuRpl[c].length < s.chan.ssuClc[c].length) :
    (s.closeReports c).chan = { s.chan with clcRpl := s.chan.clcRpl.set c [], handed := s.chan.handed.set c [] } := by
  unfold State.closeReports
  dsimp only
  rw [decide_eq_true h]
  rfl

theorem LineKept.lineOff (c : Car) (s : State) : LineKept c s (s.lineOff c) :=
  (LineKept.releaseBuffers c s).trans (LineKept.setLine c _ _)

theorem State.lineOff_line (s : State) (c : Car) : (s.lineOff c).lines[c] =
    { Line.reset with errors := s.lines[c].errors, hold := s.lines[c].hold, bufX := s.lines[c].bufX.released
                      bufY := s.lines[c].bufY.released } := by
  rw [State.lineOff, State.setLine_line, State.releaseBuffers_line]
  rfl

theorem State.lineOff_chan (s : State) (c : Car) : (s.lineOff c).chan = s.chan := (BuffersOnly.releaseBuffers s c).chan

theorem State.lineOff_jrn (s : State) (c : Car) : (s.lineOff c).jrn = s.jrn := (BuffersOnly.releaseBuffers s c).jrn

end

/-- Settles O23: the reports are closed and the event taken before the line goes OFF, which releases its buffers (R112). -/
theorem lineTakesCarEvents : Obligations.LineTakesCarEvents := by
  intro c s rest hrun l off
  refine ⟨fun u hloss => ?_, fun g unknown restart u hret hoff => ?_⟩
  · let v : State := (s.closeReports c).dropClcEvent c
    have hkept : LineKept c v (v.lineOff c) := LineKept.lineOff c v
    have hnews : (s.closeReports c).chan.ssuClc[c] = .loss u :: rest := hloss
    have hchan : (v.lineOff c).chan = { (s.closeReports c).chan with ssuClc := s.chan.ssuClc.set c rest } :=
      (v.lineOff_chan c).trans (State.dropClcEvent_news hnews)
    obtain ⟨-, -, hreading, -, -⟩ := hkept.store
    have hlength : s.chan.ssuClc[c].length = rest.length + 1 := congrArg List.length hloss
    refine ⟨_, exec_clcCarLoss hrun hloss, ?_⟩
    rw [publish_lines, publish_chan, publish_isc, publish_dge, publish_roster, publish_rpl, publish_jrn, publish_prm, hchan]
    refine ⟨v.lineOff_line c, hkept.lines, set_get _ _ _, fun hbehind => ?_, fun hlevel => ?_,
      fun q hq y k hwho hwaiting => ?_, hreading, hkept.dge, hkept.roster, hkept.rpl, v.lineOff_jrn c, hkept.prm⟩
    · rw [State.closeReports_awaited (by omega)]
      exact ⟨rfl, rfl⟩
    · rw [State.closeReports_taken (by omega)]
      exact ⟨rfl, rfl⟩
    · exact State.releaseBuffers_requests v c hq y hwaiting k hwho
  · have hline : s.lines[c].bootWait s.fleet.boot = { s.lines[c] with state := .bootWait, bootTimer := some s.fleet.boot } :=
      if_pos hoff
    rw [exec_clcCarReturn hrun hret, hline]
    refine congrArg (fun x => Host.Outcome.next (publish s x)) ?_
    rw [State.setLine, State.dropClcEvent_news hret]
    rfl

end Sys2Proof.Machine
end

section
/-! The end of a round (R82, R85, R87, R88, R113, R114). -/

namespace Sys2Proof.Machine

/-! ## A line that has told -/

/-- Car c's line stands as given and has handed the planner the given reports. -/
def State.told (s : State) (c : Car) (l : Line) (m : List LineReport) : State :=
  { s with lines := s.lines.set c l, chan := { s.chan with clcRpl := s.chan.clcRpl.set c (s.chan.clcRpl[c] ++ m) } }

section
variable (s : State) (c : Car) (l : Line)

@[simp] theorem State.told_line (m : List LineReport) : (s.told c l m).lines[c] = l := set_get _ _ _

@[simp] theorem State.told_reports (m : List LineReport) : (s.told c l m).chan.clcRpl[c] = s.chan.clcRpl[c] ++ m := set_get _ _ _

theorem State.told_none : s.told c l [] = s.setLine c l := by
  have hself : s.chan.clcRpl.set c s.chan.clcRpl[c] = s.chan.clcRpl := Vector.set_getElem_self _
  rw [State.told, List.append_nil, hself]
  rfl

theorem State.report_eq_told (m : LineReport) : (s.setLine c l).report c m = s.told c l [m] := rfl

theorem State.told_told (m : List LineReport) (k : Line) (n : List LineReport) :
    (s.told c l m).told c k n = s.told c k (m ++ n) := by
  unfold State.told
  dsimp only
  rw [Vector.set_set, Vector.set_set, set_get, List.append_assoc]

theorem State.told_report (m : List LineReport) (r : LineReport) : (s.told c l m).report c r = s.told c l (m ++ [r]) := by
  have hself : (s.told c l m).setLine c l = s.told c l m := by
    rw [← State.told_none, State.told_told, List.append_nil]
  rw [← State.told_told s c l m l [r], ← State.report_eq_told, hself]

theorem publish_told {s : State} {c : Car} {l : Line} (m : List LineReport) (h : l.errors = s.lines[c].errors) :
    publish s (s.told c l m) = s.told c l m := publish_line s c l _ h

end

/-- The line with no round in flight. -/
def Line.roundClosed (l : Line) : Line := { l with round := none, called := 0, roundTimer := none, roundOver := false }

/-! ## A fast round (R82, R85) -/

/-- The included drops of a car that a set does not hold, in ascending order. -/
def State.unheardOf (s : State) (c : Car) (heard : DropSet) : List Drop :=
  allDrops.filter (fun d => (s.findNode c d).any (fun r => !r.isExcluded) && !DropSet.has heard d)

theorem State.unheardOf_eq (s : State) (c : Car) (heard : DropSet) :
    (s.includedDrops c).filter (fun d => !DropSet.has heard d) = s.unheardOf c heard := by
  rw [State.includedDrops, State.unheardOf, List.filter_filter]
  refine List.filter_congr fun d _ => ?_
  rw [Bool.and_comm]
  cases s.findNode c d <;> rfl

/-- The line at the end of its fast roll call. -/
def Line.fastEnded (l : Line) : Line := { l.roundClosed with fastNo := 0, heard := 0, state := .idle }

section
variable {s : State} {c : Car}

theorem State.endFastRound_next (hunheard : s.unheardOf c s.lines[c].heard ≠ []) (hno : s.lines[c].fastNo < 3) :
    s.endFastRound c = s.setLine c { s.lines[c].roundClosed with fastNo := s.lines[c].fastNo + 1 } := by
  unfold State.endFastRound
  dsimp only
  rw [State.unheardOf_eq, if_neg]
  · rfl
  · simp only [Config.roundsMax]
    exact fun h => h.elim hunheard (by omega)

/-- The last fast round reports the drops unheard, if there are any, and the line may be granted. -/
theorem State.endFastRound_last (h : s.unheardOf c s.lines[c].heard = [] ∨ s.lines[c].fastNo = 3) :
    s.endFastRound c = (s.told c s.lines[c].fastEnded
      (if s.unheardOf c s.lines[c].heard = [] then [] else [.unheard (s.unheardOf c s.lines[c].heard) false])).tryGrant c := by
  unfold State.endFastRound
  dsimp only
  have hlast : s.lines[c].fastNo = 3 → s.lines[c].fastNo + 1 = Config.roundsMax := congrArg (· + 1)
  rw [State.unheardOf_eq, if_pos (h.imp_right hlast)]
  split
  · rw [State.told_none]
    rfl
  · rfl

end

/-! ## Any other round (R82, R87, R88) -/

/-- The line once the owed rounds of some drops have fallen. -/
def Line.fallen (l : Line) (ds : List Drop) : Line :=
  { l with owed := Vector.ofFn (fun d : Drop => if d ∈ ds then l.owed[d] - 1 else l.owed[d]) }

theorem Line.fallen_owed (l : Line) (ds : List Drop) (d : Drop) :
    (l.fallen ds).owed[d] = if d ∈ ds then l.owed[d] - 1 else l.owed[d] := Vector.getElem_ofFn ..

theorem Line.fallen_fallen (l : Line) {d : Drop} {ds : List Drop} (h : d ∉ ds) : (l.fallen [d]).fallen ds = l.fallen (d :: ds) := by
  have howed : ((l.fallen [d]).fallen ds).owed = (l.fallen (d :: ds)).owed := by
    refine Vector.ext fun i hi => ?_
    have h1 := Line.fallen_owed (l.fallen [d]) ds ⟨i, hi⟩
    have h2 := Line.fallen_owed l [d] ⟨i, hi⟩
    have h3 := Line.fallen_owed l (d :: ds) ⟨i, hi⟩
    refine h1.trans (Eq.trans ?_ h3.symm)
    rw [h2]
    by_cases he : (⟨i, hi⟩ : Drop) = d
    · simp [he, h]
    · simp [he]
  exact congrArg (fun o => { l with owed := o }) howed

/-- The reports of the drops whose owed rounds reach 0 as they fall. -/
def Line.fallReports (l : Line) (ds : List Drop) : List LineReport :=
  (ds.filter (fun d => decide (l.owed[d] = 1))).map (fun d => .unheard [d] true)

theorem State.fallOwed_eq (s : State) (c : Car) (d : Drop) :
    State.fallOwed c s d = s.told c (s.lines[c].fallen [d]) (s.lines[c].fallReports [d]) := by
  have hset : ∀ n, n = s.lines[c].owed[d] - 1 → { s.lines[c] with owed := s.lines[c].owed.set d n } = s.lines[c].fallen [d] := by
    rintro n rfl
    refine congrArg (fun o => { s.lines[c] with owed := o }) (Vector.ext fun i hi => ?_)
    refine Eq.trans ?_ (Line.fallen_owed s.lines[c] [d] ⟨i, hi⟩).symm
    by_cases he : d = ⟨i, hi⟩
    · subst he
      simp
    · have hne : d.val ≠ i := fun hv => he (Fin.ext hv)
      simp [Vector.getElem_set_ne _ _ hne, Ne.symm he]
  unfold State.fallOwed
  dsimp only
  rw [hset _ rfl]
  split
  next hzero =>
    have hsame : s.lines[c].fallen [d] = s.lines[c] := by
      rw [← hset s.lines[c].owed[d] (by omega)]
      exact congrArg (fun o => { s.lines[c] with owed := o }) (Vector.set_getElem_self _)
    rw [hsame, Line.fallReports, List.filter_cons_of_neg (by rw [decide_eq_true_eq, hzero]; exact Nat.zero_ne_one),
      List.filter_nil, List.map_nil, State.told_none, State.setLine_self]
  next hsome =>
    split
    next hone =>
      rw [Line.fallReports, List.filter_cons_of_pos (by simpa using hone), List.filter_nil]
      rfl
    next hmore =>
      rw [Line.fallReports, List.filter_cons_of_neg (by simpa using hmore), List.filter_nil, List.map_nil, State.told_none]

theorem State.foldl_fallOwed (s : State) (c : Car) {ds : List Drop} (h : ds.Nodup) :
    ds.foldl (State.fallOwed c) s = s.told c (s.lines[c].fallen ds) (s.lines[c].fallReports ds) := by
  induction ds generalizing s with
  | nil =>
    have hsame : s.lines[c].fallen [] = s.lines[c] := by
      refine congrArg (fun o => { s.lines[c] with owed := o }) (Vector.ext fun i hi => ?_)
      exact (Line.fallen_owed s.lines[c] [] ⟨i, hi⟩).trans (if_neg List.not_mem_nil)
    rw [hsame, Line.fallReports, List.filter_nil, List.map_nil, State.told_none, State.setLine_self]
    rfl
  | cons d ds ih =>
    obtain ⟨hd, hds⟩ := List.nodup_cons.mp h
    have hreports : (s.lines[c].fallen [d]).fallReports ds = s.lines[c].fallReports ds := by
      unfold Line.fallReports
      refine congrArg _ (List.filter_congr fun e he => ?_)
      rw [Line.fallen_owed, if_neg]
      exact fun hmem => hd (List.mem_singleton.mp hmem ▸ he)
    rw [List.foldl_cons, ih _ hds, State.fallOwed_eq, State.told_line, State.told_told, Line.fallen_fallen _ hd, hreports]
    refine congrArg (s.told c _) ?_
    rw [Line.fallReports, Line.fallReports, Line.fallReports, ← List.map_append, ← List.filter_append, List.singleton_append]

/-- The drops a line's round calls. -/
def Line.calledDrops (l : Line) : List Drop := allDrops.filter (fun d => DropSet.has l.called d)

theorem Line.mem_calledDrops (l : Line) (d : Drop) : d ∈ l.calledDrops ↔ DropSet.has l.called d = true := by
  have hall : d ∈ allDrops := by
    revert d
    decide
  simp [Line.calledDrops, hall]

/-- The line at the end of a round that is no fast one. -/
def Line.otherEnded (l : Line) : Line :=
  { (l.fallen l.calledDrops).roundClosed with
    state := if l.holding.isSome then .serving else .idle
    exchangeFirst := l.requestReady }

/-- The state at the end of such a round, before its job is released or another granted. -/
def State.otherEnded (s : State) (c : Car) : State :=
  s.told c s.lines[c].otherEnded (s.lines[c].fallReports s.lines[c].calledDrops)

theorem State.otherEnded_line (s : State) (c : Car) : (s.otherEnded c).lines[c] = s.lines[c].otherEnded := s.told_line c _ _

theorem State.otherEnded_reports (s : State) (c : Car) :
    (s.otherEnded c).chan.clcRpl[c] = s.chan.clcRpl[c] ++ s.lines[c].fallReports s.lines[c].calledDrops := s.told_reports c _ _

theorem State.endOtherRound_eq (s : State) (c : Car) : s.endOtherRound c =
    if s.lines[c].ending ≠ .unset then (s.otherEnded c).endHolding c else (s.otherEnded c).tryGrant c := by
  have hnodup : s.lines[c].calledDrops.Nodup := List.Nodup.filter _ (by decide)
  have hset : (s.told c (s.lines[c].fallen s.lines[c].calledDrops) (s.lines[c].fallReports s.lines[c].calledDrops)).setLine c
      s.lines[c].otherEnded = s.otherEnded c := by
    rw [← State.told_none, State.told_told, List.append_nil]
    rfl
  unfold State.endOtherRound
  dsimp only
  rw [← hset, show allDrops.filter (fun d => DropSet.has s.lines[c].called d) = s.lines[c].calledDrops from rfl,
    s.foldl_fallOwed c hnodup, State.told_line]
  rfl

/-- What the line reports of a job that leaves by its ending mark (R113, R114). -/
def Ending.report (jid : Nat) : Ending → Option LineReport
  | .unset => none
  | .ending => some (.released jid)
  | .storeFault => some (.failed jid .storeFault)

theorem Ending.marked_of_report {e : Ending} {jid : Nat} {r : LineReport} (h : e.report jid = some r) : e ≠ .unset := by
  rintro rfl
  cases h

section
variable {s : State} {c : Car}

/-- The holding job leaves the line by its ending mark. -/
theorem State.endHolding_marked {j : LineJob} {r : LineReport} (hj : s.lines[c].holding = some j)
    (hr : s.lines[c].ending.report j.jid = some r) : s.endHolding c = (s.report c r).leaveLine c none := by
  unfold State.endHolding
  rw [hj]
  cases he : s.lines[c].ending with
  | unset => exact absurd he (Ending.marked_of_report hr)
  | ending =>
    rw [he] at hr
    cases hr
    rfl
  | storeFault =>
    rw [he] at hr
    cases hr
    rfl

theorem State.endHolding_free (hj : s.lines[c].holding = none) : s.endHolding c = s := by
  unfold State.endHolding
  rw [hj]

/-- What follows the end of such a round: a grant, nothing at all, or the release of a job with an ending mark. -/
theorem State.endOtherRound_cases (s : State) (c : Car) :
    s.lines[c].ending = .unset ∧ s.endOtherRound c = (s.otherEnded c).tryGrant c
      ∨ s.lines[c].holding = none ∧ s.endOtherRound c = s.otherEnded c
      ∨ ∃ j r, s.lines[c].holding = some j ∧ s.lines[c].ending.report j.jid = some r
        ∧ s.endOtherRound c = ((s.otherEnded c).report c r).leaveLine c none := by
  have hline := s.otherEnded_line c
  rw [State.endOtherRound_eq]
  by_cases he : s.lines[c].ending = .unset
  · exact .inl ⟨he, if_neg (not_not.mpr he)⟩
  · rw [if_pos he]
    cases hj : s.lines[c].holding with
    | none => exact .inr (.inl ⟨rfl, State.endHolding_free (by rw [hline]; exact hj)⟩)
    | some j =>
      obtain ⟨r, hr⟩ : ∃ r, s.lines[c].ending.report j.jid = some r := by
        revert he
        cases s.lines[c].ending with
        | unset => exact fun he => absurd rfl he
        | ending => exact fun _ => ⟨_, rfl⟩
        | storeFault => exact fun _ => ⟨_, rfl⟩
      exact .inr (.inr ⟨j, r, rfl, hr, State.endHolding_marked (by rw [hline]; exact hj) (by rw [hline]; exact hr)⟩)

end

end Sys2Proof.Machine
end

section
/-! What a round's end leaves, and the line's timers (R81, R82, R85 to R88, R90, R92, R113, R114). -/

namespace Sys2Proof.Machine

/-! ## What a round's end leaves -/

section
variable {s u : State} {c : Car} {told : List LineReport}

theorem State.endRound_fast (h : u.lines[c].round = some .fast) : u.endRound c = u.endFastRound c := by
  unfold State.endRound
  rw [h]

theorem State.endRound_other (h : u.lines[c].round = some .other) : u.endRound c = u.endOtherRound c := by
  unfold State.endRound
  rw [h]

theorem State.endRound_none (h : u.lines[c].round = none) : u.endRound c = u := by
  unfold State.endRound
  rw [h]

/-- What a grant leaves of a line and of what it has told. -/
theorem State.tryGrant_after {v : State} {l : Line} {m : List LineReport} (hline : v.lines[c] = l) (hm : v.chan.clcRpl[c] = m) :
    m <+: (v.tryGrant c).chan.clcRpl[c] ∧ l.RoundKept (v.tryGrant c).lines[c]
      ∧ (l.queue = [] → (v.tryGrant c).lines[c] = l)
      ∧ (l.state = .idle → (v.tryGrant c).lines[c].state = .idle ∨ (v.tryGrant c).lines[c].state = .serving) := by
  obtain ⟨hprefix, -, -⟩ := v.tryGrant_spec c
  subst hline hm
  exact ⟨hprefix, v.tryGrant_round c, fun hqueue => by rw [State.tryGrant_unqueued hqueue], State.tryGrant_state⟩

/-- What the leaving of its job leaves of a line and of what it has told, the job's own report the last. -/
theorem State.leaveLine_after {v : State} {l : Line} {m : List LineReport} (hline : v.lines[c] = l) (hm : v.chan.clcRpl[c] = m)
    (r : LineReport) :
    (m ++ [r]) <+: ((v.report c r).leaveLine c none).chan.clcRpl[c] ∧ l.RoundKept ((v.report c r).leaveLine c none).lines[c]
      ∧ (l.queue = [] → l.state = .serving → ((v.report c r).leaveLine c none).lines[c].state = .idle
        ∧ ((v.report c r).leaveLine c none).lines[c].holding = none) := by
  have hreported : (v.report c r).chan.clcRpl[c] = v.chan.clcRpl[c] ++ [r] := set_get _ _ _
  obtain ⟨hprefix, -, -⟩ := (v.report c r).leaveLine_spec c
  rw [hreported] at hprefix
  subst hline hm
  refine ⟨hprefix, (v.report c r).leaveLine_round c none, fun hqueue hserving => ?_⟩
  rw [State.leaveLine_unqueued (s := v.report c r) hqueue, State.lineLeft_line]
  exact ⟨if_pos hserving, rfl⟩

/-- The end of the fast roll call: the unheard reported, and the line free for a grant (R82, R85). -/
theorem State.endFastRound_spec (h : u.unheardOf c u.lines[c].heard = [] ∨ u.lines[c].fastNo = 3) :
    (u.chan.clcRpl[c] ++ (if u.unheardOf c u.lines[c].heard = [] then []
        else [.unheard (u.unheardOf c u.lines[c].heard) false])) <+: (u.endFastRound c).chan.clcRpl[c]
      ∧ (u.endFastRound c).lines[c].round = none ∧ (u.endFastRound c).lines[c].heard = 0 ∧ (u.endFastRound c).lines[c].fastNo = 0
      ∧ ((u.endFastRound c).lines[c].state = .idle ∨ (u.endFastRound c).lines[c].state = .serving)
      ∧ (u.lines[c].queue = [] → (u.endFastRound c).lines[c].state = .idle) := by
  rw [State.endFastRound_last h]
  obtain ⟨hprefix, hround, hqueue, hstate⟩ := State.tryGrant_after (u.told_line c u.lines[c].fastEnded
    (if u.unheardOf c u.lines[c].heard = [] then [] else [.unheard (u.unheardOf c u.lines[c].heard) false])) (u.told_reports c _ _)
  exact ⟨hprefix, hround.round, hround.heard, hround.fastNo, hstate rfl, fun hempty => congrArg Line.state (hqueue hempty)⟩

/-- What the round's own end leaves stands whatever follows it: the owed rounds and the reports of R87, and no round. -/
theorem State.endOtherRound_round (u : State) (c : Car) : u.lines[c].otherEnded.RoundKept (u.endOtherRound c).lines[c]
    ∧ (u.chan.clcRpl[c] ++ u.lines[c].fallReports u.lines[c].calledDrops) <+: (u.endOtherRound c).chan.clcRpl[c] := by
  rcases u.endOtherRound_cases c with ⟨-, heq⟩ | ⟨-, heq⟩ | ⟨j, r, -, -, heq⟩
  · obtain ⟨hprefix, hround, -, -⟩ := State.tryGrant_after (u.otherEnded_line c) (u.otherEnded_reports c)
    rw [heq]
    exact ⟨hround, hprefix⟩
  · rw [heq, State.otherEnded_line, State.otherEnded_reports]
    exact ⟨⟨rfl, rfl, rfl, rfl, rfl, rfl, rfl⟩, List.prefix_refl _⟩
  · obtain ⟨hprefix, hround, -⟩ := State.leaveLine_after (u.otherEnded_line c) (u.otherEnded_reports c) r
    rw [heq]
    exact ⟨hround, (List.prefix_append _ _).trans hprefix⟩

/-- A job that is to go on is served again, and nothing else is reported. -/
theorem State.endOtherRound_serves (hj : u.lines[c].holding.isSome = true) (he : u.lines[c].ending = .unset) :
    u.endOtherRound c = u.otherEnded c := by
  have hserving : (u.otherEnded c).lines[c].state = .serving := by
    rw [State.otherEnded_line]
    exact if_pos hj
  rw [State.endOtherRound_eq, if_neg (not_not.mpr he), State.tryGrant_busy (by rw [hserving]; exact nofun)]

/-- A job with an ending mark leaves the line. -/
theorem State.endOtherRound_ends {j : LineJob} {r : LineReport} (hj : u.lines[c].holding = some j)
    (hr : u.lines[c].ending.report j.jid = some r) :
    (u.chan.clcRpl[c] ++ u.lines[c].fallReports u.lines[c].calledDrops ++ [r]) <+: (u.endOtherRound c).chan.clcRpl[c]
      ∧ (u.lines[c].queue = [] → (u.endOtherRound c).lines[c].state = .idle ∧ (u.endOtherRound c).lines[c].holding = none) := by
  have hline := u.otherEnded_line c
  obtain ⟨hprefix, -, hfree⟩ := State.leaveLine_after hline (u.otherEnded_reports c) r
  have hserving : u.lines[c].otherEnded.state = .serving := if_pos (by rw [hj]; rfl)
  rw [State.endOtherRound_eq, if_pos (Ending.marked_of_report hr), State.endHolding_marked (j := j) (r := r) (by rw [hline]; exact hj)
    (by rw [hline]; exact hr)]
  exact ⟨hprefix, fun hqueue => hfree hqueue hserving⟩

/-- A line without a job is IDLE, or granted to one of its queue. -/
theorem State.endOtherRound_free (hj : u.lines[c].holding = none) :
    ((u.endOtherRound c).lines[c].state = .idle ∨ (u.endOtherRound c).lines[c].state = .serving)
      ∧ (u.lines[c].queue = [] → (u.endOtherRound c).lines[c].state = .idle) := by
  have hidle : u.lines[c].otherEnded.state = .idle := if_neg (by rw [hj]; exact nofun)
  rcases u.endOtherRound_cases c with ⟨-, heq⟩ | ⟨-, heq⟩ | ⟨j, r, hheld, -, -⟩
  · obtain ⟨-, -, hsame, hstate⟩ := State.tryGrant_after (u.otherEnded_line c) (u.otherEnded_reports c)
    rw [heq]
    exact ⟨hstate hidle, fun hqueue => (congrArg Line.state (hsame hqueue)).trans hidle⟩
  · rw [heq, State.otherEnded_line, hidle]
    exact ⟨.inl rfl, fun _ => rfl⟩
  · rw [hj] at hheld
    cases hheld

theorem Line.fallReports_called (l : Line) : l.fallReports l.calledDrops =
    (allDrops.filter (fun d => DropSet.has l.called d && decide (l.owed[d] = 1))).map (fun d => LineReport.unheard [d] true) := by
  rw [Line.fallReports, Line.calledDrops, List.filter_filter]
  exact congrArg _ (List.filter_congr fun d _ => Bool.and_comm _ _)

/-- The end of a round, after whatever its line has done and told since a command found it, is what the statements describe. -/
theorem State.endRound_roundEnds (hkept : LineKept c s u) (htold : u.chan.clcRpl[c] = s.chan.clcRpl[c] ++ told) :
    RoundEnds c s (publish s (u.endRound c)) u.lines[c] told := by
  have hroster : ∀ d, s.findNode c d = u.findNode c d := fun d => by rw [State.findNode, State.findNode, hkept.roster]
  have hframe := (hkept.trans (LineKept.endRound c u)).publish.frame
  have hline : (publish s (u.endRound c)).lines[c] = (u.endRound c).lines[c] := rfl
  have hreports : (publish s (u.endRound c)).chan.clcRpl[c] = (u.endRound c).chan.clcRpl[c] := rfl
  generalize publish s (u.endRound c) = t at hframe hline hreports ⊢
  refine ⟨hframe, fun hfast => ?_, fun hother => ?_⟩
  · intro unheard
    have hunheard : unheard = u.unheardOf c u.lines[c].heard := by
      simp only [unheard, hroster]
      rfl
    clear_value unheard
    subst hunheard
    rw [State.endRound_fast hfast] at hline hreports
    rw [hline, hreports, ← htold]
    refine ⟨fun hunheard hno => ?_, State.endFastRound_spec⟩
    rw [State.endFastRound_next hunheard hno, State.setLine_line]
    exact ⟨rfl, rfl⟩
  · intro unheard
    have hunheard : unheard = u.lines[c].fallReports u.lines[c].calledDrops := (Line.fallReports_called _).symm
    clear_value unheard
    subst hunheard
    rw [State.endRound_other hother] at hline hreports
    obtain ⟨hround, htells⟩ := u.endOtherRound_round c
    rw [← hline] at hround
    rw [← hreports] at htells
    rw [← htold]
    refine ⟨fun d => ?_, htells, hround.round, hround.roundOver, fun hj => ?_, fun j hj => ?_⟩
    · rw [hround.owed]
      exact (Line.fallen_owed _ _ _).trans (if_congr (Line.mem_calledDrops _ d) rfl rfl)
    · rw [hline]
      exact State.endOtherRound_free hj
    · have hheld : u.lines[c].holding.isSome = true := by rw [hj]; rfl
      have hends : ∀ r, u.lines[c].ending.report j.jid = some r →
          (u.chan.clcRpl[c] ++ (u.lines[c].fallReports u.lines[c].calledDrops ++ [r])) <+: t.chan.clcRpl[c]
            ∧ (u.lines[c].queue = [] → t.lines[c].state = .idle ∧ t.lines[c].holding = none) := fun r hr => by
        rw [← List.append_assoc, hline, hreports]
        exact State.endOtherRound_ends hj hr
      refine ⟨fun he => ?_, fun he => (hends _ (by rw [he]; rfl)).1, fun he => (hends _ (by rw [he]; rfl)).1, fun he => ?_⟩
      · rw [hline, hreports, State.endOtherRound_serves hheld he, State.otherEnded_line, State.otherEnded_reports, Line.otherEnded,
          if_pos hheld]
        exact ⟨rfl, rfl⟩
      · cases hmark : u.lines[c].ending with
        | unset => exact absurd hmark he
        | ending => exact (hends (.released j.jid) (by rw [hmark]; rfl)).2
        | storeFault => exact (hends (.failed j.jid .storeFault) (by rw [hmark]; rfl)).2

/-- No end of a round counts a line error or takes a frame. -/
theorem State.endRound_reception (u : State) (c : Car) :
    (u.endRound c).lines[c].errors = u.lines[c].errors ∧ (u.endRound c).lines[c].rx = u.lines[c].rx := by
  cases hround : u.lines[c].round with
  | none =>
    rw [State.endRound_none hround]
    exact ⟨rfl, rfl⟩
  | some k =>
    cases k with
    | other =>
      rw [State.endRound_other hround]
      obtain ⟨hkept, -⟩ := u.endOtherRound_round c
      exact ⟨hkept.errors, hkept.rx⟩
    | fast =>
      rw [State.endRound_fast hround]
      by_cases hlast : u.unheardOf c u.lines[c].heard = [] ∨ u.lines[c].fastNo = 3
      · rw [State.endFastRound_last hlast]
        obtain ⟨-, hkept, -, -⟩ := State.tryGrant_after (u.told_line c u.lines[c].fastEnded
          (if u.unheardOf c u.lines[c].heard = [] then [] else [.unheard (u.unheardOf c u.lines[c].heard) false])) rfl
        exact ⟨hkept.errors, hkept.rx⟩
      · unfold State.endFastRound
        dsimp only
        rw [State.unheardOf_eq, if_neg (fun h => hlast (h.imp_right Nat.succ.inj)), State.setLine_line]
        exact ⟨rfl, rfl⟩

end

end Sys2Proof.Machine
end

section
/-! The line's timers (R74, R81, R82, R85 to R88, R90, R92, R113, R114). -/

namespace Sys2Proof.Machine

section
variable {s : State} {c : Car}

theorem exec_bootTimerExpiry (hrun : s.isRunning = true) (hstate : s.lines[c].state = .bootWait)
    (htimer : s.lines[c].bootTimer.isSome = true) : exec (.bootTimerExpiry c) s
      = .next (publish s (s.setLine c { s.lines[c] with state := .rollCall, bootTimer := none, fastNo := 0, heard := 0 })) := by
  show execBootTimerExpiry c s = _
  unfold execBootTimerExpiry
  dsimp only
  rw [hrun, hstate, htimer]
  rfl

theorem exec_slowTimerExpiry (hrun : s.isRunning = true) (htimer : s.lines[c].slowTimer.isSome = true) :
    exec (.slowTimerExpiry c) s
      = .next (publish s (s.setLine c { s.lines[c] with slowDue := true, slowTimer := some 500 })) := by
  show execSlowTimerExpiry c s = _
  unfold execSlowTimerExpiry
  dsimp only
  rw [hrun, htimer]
  rfl

theorem exec_roundTimerExpiry (hrun : s.isRunning = true) (hround : s.lines[c].round.isSome = true)
    (htimer : s.lines[c].roundTimer.isSome = true) : exec (.roundTimerExpiry c) s = .next (publish s
      (if s.lines[c].rx = .inFrame then s.setLine c { s.lines[c] with roundTimer := none, roundOver := true }
      else s.endRound c)) := by
  show execRoundTimerExpiry c s = _
  unfold execRoundTimerExpiry
  dsimp only
  rw [hrun, hround, htimer]
  rfl

theorem exec_replyTimerExpiry {x : Exchange} (hrun : s.isRunning = true) (htimer : s.lines[c].replyTimer.isSome = true)
    (hx : s.lines[c].exch = some x) (hstage : x.stage = .awaiting) :
    exec (.replyTimerExpiry c) s = .next (publish s (s.failedTry c true)) := by
  have hawaits : s.lines[c].awaitsReply = true := by
    unfold Line.awaitsReply
    rw [hx]
    exact decide_eq_true hstage
  show execReplyTimerExpiry c s = _
  unfold execReplyTimerExpiry
  dsimp only
  rw [hrun, htimer, hawaits]
  rfl

/-! ## A failed try (R92, R113, R114) -/

variable {j : LineJob} {x : Exchange} (timeout : Bool)

theorem State.failedTry_ending (hj : s.lines[c].holding = some j) (hx : s.lines[c].exch = some x)
    (he : s.lines[c].ending ≠ .unset) : s.failedTry c timeout = s.endHolding c := by
  unfold State.failedTry
  dsimp only
  rw [hj, hx]
  exact if_pos he

theorem State.failedTry_again (hj : s.lines[c].holding = some j) (hx : s.lines[c].exch = some x)
    (he : s.lines[c].ending = .unset) (hretry : x.retry < 3) : s.failedTry c timeout = s.told c
      { s.lines[c] with exch := some { x with retry := x.retry + 1, stage := .resend }, replyTimer := none }
      [.retry j.jid (x.retry + 1)] := by
  unfold State.failedTry
  dsimp only
  rw [hj, hx]
  exact (if_neg (not_not.mpr he)).trans (if_pos hretry)

theorem State.failedTry_last (hj : s.lines[c].holding = some j) (hx : s.lines[c].exch = some x)
    (he : s.lines[c].ending = .unset) (hretry : 3 ≤ x.retry) : s.failedTry c timeout
      = (s.report c (.failed j.jid (if timeout then .noReply else .repeatedReject))).leaveLine c none := by
  rw [← State.attemptFails_held hj]
  unfold State.failedTry
  dsimp only
  rw [hj, hx]
  exact (if_neg (not_not.mpr he)).trans (if_neg (Nat.not_lt.mpr hretry))

end

/-- Settles O46: the round timer ends the round by `endRound_roundEnds`, the reply timer fails a try. -/
theorem lineTimers : Obligations.LineTimers := by
  intro c s hrun l sets tells closed
  have hsets : ∀ {x : Line}, x.errors = l.errors → publish s (sets x) = sets x := fun h => publish_line s c _ _ h
  refine ⟨fun hstate htimer => ?_, fun htimer => ?_, fun hround htimer hrx => ?_, fun hfast htimer hrx => ?_,
    fun hround htimer hrx => ?_, fun x j htimer hx hstage hj => ?_⟩
  · exact (exec_bootTimerExpiry hrun hstate htimer).trans (congrArg _ (hsets rfl))
  · exact (exec_slowTimerExpiry hrun htimer).trans (congrArg _ (hsets rfl))
  · rw [exec_roundTimerExpiry hrun hround htimer, if_pos hrx]
    exact congrArg _ (hsets rfl)
  · intro u ended
    have hexec : exec (.roundTimerExpiry c) s = .next (publish s (s.endFastRound c)) := by
      rw [exec_roundTimerExpiry hrun (by rw [hfast]; rfl) htimer, if_neg hrx, State.endRound_fast hfast]
    have hu : s.unheardOf c l.heard = u := rfl
    refine ⟨fun hunheard hno => ?_, fun hunheard hno => ?_, fun hheard => ?_⟩
    · rw [hexec, State.endFastRound_next hunheard hno]
      exact congrArg _ (hsets rfl)
    · rw [hexec, State.endFastRound_last (.inr hno), hu, if_neg hunheard]
      rfl
    · rw [hexec, State.endFastRound_last (.inl hheard), hu, if_pos hheard, State.told_none]
      rfl
  · rw [exec_roundTimerExpiry hrun hround htimer, if_neg hrx]
    exact ⟨_, rfl, State.endRound_roundEnds (LineKept.refl c s) (List.append_nil _).symm⟩
  · rw [exec_replyTimerExpiry hrun htimer hx hstage]
    refine ⟨fun he hretry => ?_, fun he hretry => ?_, fun he => ?_, fun he => ?_⟩
    · rw [State.failedTry_again true hj hx he hretry]
      exact congrArg _ (publish_told _ rfl)
    · rw [State.failedTry_last true hj hx he hretry]
      rfl
    · rw [State.failedTry_ending true hj hx (by rw [he]; exact nofun),
        State.endHolding_marked (r := .released j.jid) hj (by rw [he]; rfl)]
    · rw [State.failedTry_ending true hj hx (by rw [he]; exact nofun),
        State.endHolding_marked (r := .failed j.jid .storeFault) hj (by rw [he]; rfl)]

end Sys2Proof.Machine
end

section
/-! Frames taken: what a frame is judged to be, and those taken in a round (R74, R77, R82 to R85, R87, R113). -/

namespace Sys2Proof.Machine

/-! ## A frame that ends -/

/-- The command that carries a frame of a receivable kind from a drop. -/
def RxBody.instr (c : Car) (d : Drop) : RxBody → Option Instr
  | .hello cls ram image version segments boot => some (.hello c d cls ram image version segments boot)
  | .digestList first n digests => some (.digestList c d first n digests)
  | .loadAck index o => some (.loadAck c d index o)
  | .running o => some (.running c d o)
  | .malformed => none

/-- The line with its receiver free, or waiting for an idle line after a frame too long. -/
def Line.received (l : Line) (overlong : Bool) : Line := { l with rx := if overlong then .waitIdle else .idle }

/-- The line with one more line error (R77). -/
def Line.errored (l : Line) : Line := { l with errors := min 65535 (l.errors + 1) }

section
variable {s : State} {c : Car} {d : Drop} {b : RxBody}

theorem State.endsFrame_running (hrun : s.isRunning = true) (f : Judged) : s.endsFrame c f = s.takeFrame c f := if_pos hrun

theorem exec_frame {i : Instr} (hrun : s.isRunning = true) (hi : b.instr c d = some i) :
    exec i s = .next (publish s (s.takeFrame c (.frame d b))) := by
  rw [← State.endsFrame_running hrun]
  cases b <;> cases hi <;> rfl

theorem exec_discardedFrame {l : List Byte} (hrun : s.isRunning = true) :
    exec (.discardedFrame c l) s = .next (publish s (s.takeFrame c (judgeBytes l))) := by
  rw [← State.endsFrame_running hrun]
  rfl

theorem exec_lineIdleTimeout (hrun : s.isRunning = true) : exec (.lineIdleTimeout c) s = .next (publish s
    (match s.lines[c].rx with
      | .inFrame => s.takeFrame c (.bad false)
      | .waitIdle => s.setLine c { s.lines[c] with rx := .idle }
      | .idle => s)) := by
  show execLineIdleTimeout c s = _
  unfold execLineIdleTimeout
  dsimp only
  rw [hrun]
  rfl

/-- What a frame brings about once the receiver is free: its judgement, then the end of a round that fell during it (R74). -/
theorem State.takeFrame_inFrame (f : Judged) (hrx : s.lines[c].rx = .inFrame) : s.takeFrame c f =
    if ((s.setLine c (s.lines[c].received f.overlong)).judgeFrame c f).lines[c].roundOver = true then
      ((s.setLine c (s.lines[c].received f.overlong)).judgeFrame c f).endRound c
    else (s.setLine c (s.lines[c].received f.overlong)).judgeFrame c f := if_pos hrx

/-- A frame that is discarded on the line's state is as one whose bytes are. -/
theorem State.takeFrame_discarded
    (h : (s.setLine c (s.lines[c].received false)).judgeFrame c (.frame d b)
      = (s.setLine c (s.lines[c].received false)).discardFrame c) :
    s.takeFrame c (.frame d b) = s.takeFrame c (.bad false) := by
  by_cases hrx : s.lines[c].rx = .inFrame
  · rw [State.takeFrame_inFrame _ hrx, State.takeFrame_inFrame _ hrx]
    exact congrArg (fun v : State => if v.lines[c].roundOver = true then v.endRound c else v) h
  · exact (if_neg hrx).trans (if_neg hrx).symm

theorem exec_discarded {i : Instr} {l : List Byte} (hrun : s.isRunning = true) (hi : b.instr c d = some i)
    (hl : judgeBytes l = .bad false)
    (h : (s.setLine c (s.lines[c].received false)).judgeFrame c (.frame d b)
      = (s.setLine c (s.lines[c].received false)).discardFrame c) : exec i s = exec (.discardedFrame c l) s := by
  rw [exec_frame hrun hi, exec_discardedFrame hrun, hl, State.takeFrame_discarded h]

/-! ## The fields of a HELLO (R77) -/

theorem flagOf_eq_none_iff (b : Byte) : flagOf b = none ↔ 1 < b.toNat := by
  unfold flagOf
  split
  next h => simp [h]
  next h =>
    split
    next h1 => simp [h1]
    next h1 =>
      have h0 : b.toNat ≠ 0 := fun e => h (BitVec.eq_of_toNat_eq e)
      have h1 : b.toNat ≠ 1 := fun e => h1 (BitVec.eq_of_toNat_eq e)
      simp only [true_iff]
      omega

theorem helloFieldsOf_eq_none_iff (cls ram : Byte) (image version segments : Word) (boot : Byte) :
    helloFieldsOf cls ram image version segments boot = none ↔ 1 < cls.toNat ∨ 1 < ram.toNat ∨ 1 < boot.toNat := by
  rw [← flagOf_eq_none_iff, ← flagOf_eq_none_iff, ← flagOf_eq_none_iff, helloFieldsOf]
  cases flagOf cls <;> cases flagOf ram <;> cases flagOf boot <;> simp

theorem flagOf_bit (p : Prop) [Decidable p] : flagOf (if p then 1 else 0) = some (decide p) := by
  split
  next h => rw [decide_eq_true h]; rfl
  next h => rw [decide_eq_false h]; rfl

theorem helloFieldsOf_fields {f : HelloFields} {cls ram boot : Byte} {image version segments : Word}
    (hcls : cls = if f.cls = .info then 1 else 0) (hram : ram = if f.ramLost then 1 else 0)
    (hboot : boot = if f.digestCapable then 1 else 0) (himage : f.image = image.toNat) (hversion : f.version = version.toNat)
    (hsegments : f.segments = segments.toNat) : helloFieldsOf cls ram image version segments boot = some f := by
  subst hcls hram hboot
  rw [helloFieldsOf, flagOf_bit, flagOf_bit, flagOf_bit, ← himage, ← hversion, ← hsegments]
  obtain ⟨cls, ramLost, image, version, segments, capable⟩ := f
  cases cls <;> simp

/-! ## Discarded frames -/

theorem State.discardFrame_quiet (h : s.lines[c].exch = none) : s.discardFrame c = s.setLine c s.lines[c].errored := by
  have hnone : s.lines[c].awaitsReply = false := by
    unfold Line.awaitsReply
    rw [h]
  unfold State.discardFrame
  dsimp only
  rw [hnone, saturate_eq_min]
  rfl

/-- In a round a frame is discarded unless it is a HELLO, of fields in range, of a drop that the round still calls. -/
theorem State.judgeFrame_inRound (hround : s.lines[c].round.isSome = true)
    (h : ∀ cls ram image version segments boot f, b = .hello cls ram image version segments boot →
      helloFieldsOf cls ram image version segments boot = some f → s.lines[c].inRound d = false) :
    s.judgeFrame c (.frame d b) = s.discardFrame c := by
  refine (if_pos hround).trans ?_
  cases b with
  | hello cls ram image version segments boot =>
    unfold State.frameInRound
    dsimp only
    cases hf : helloFieldsOf cls ram image version segments boot with
    | none => rfl
    | some f => exact if_neg (by rw [h _ _ _ _ _ _ f rfl hf]; exact Bool.false_ne_true)
  | digestList | loadAck | running | malformed => rfl

theorem State.judgeFrame_noExchange (hround : s.lines[c].round = none) (hx : s.lines[c].exch = none) :
    s.judgeFrame c (.frame d b) = s.discardFrame c := by
  refine (if_neg (by rw [hround]; exact Bool.false_ne_true)).trans ?_
  unfold State.frameInExchange
  rw [hx]
  cases s.lines[c].holding <;> rfl

/-- With no round a HELLO whose fields are out of range is discarded. -/
theorem State.judgeFrame_badHello {cls ram boot : Byte} {image version segments : Word}
    (hf : helloFieldsOf cls ram image version segments boot = none) :
    s.judgeFrame c (.frame d (.hello cls ram image version segments boot)) = s.discardFrame c := by
  by_cases hround : s.lines[c].round.isSome = true
  · refine State.judgeFrame_inRound hround fun _ _ _ _ _ _ f hb hfields => ?_
    cases hb
    rw [hf] at hfields
    cases hfields
  · refine (if_neg hround).trans ?_
    unfold State.frameInExchange
    split
    · split
      · exact if_pos hf
      · rfl
    · rfl

end

end Sys2Proof.Machine
end

section
/-! A HELLO in a round, a line error shown, and the statement (R74, R77, R82 to R85, R87, R113). -/

namespace Sys2Proof.Machine

theorem State.setLine_told (s : State) (c : Car) (l k : Line) (m : List LineReport) :
    (s.setLine c l).told c k m = s.told c k m := by rw [← State.told_none, State.told_told, List.nil_append]

/-! ## A drop heard (R83, R84) -/

/-- The line has heard the drop, and what the roster makes of its HELLO has been handed on or asked for. -/
def State.heardFrom (s : State) (c : Car) (d : Drop) (f : HelloFields) : State :=
  match s.findNode c d with
  | none => (s.setLine c (s.lines[c].hear d)).ask (.clc c) (strangerEntry c d f s.ord.uptime)
  | some r => if r.isExcluded then s.setLine c (s.lines[c].hear d) else s.told c (s.lines[c].hear d) [.hello d f]

section
variable {s : State} {c : Car} {d : Drop} {f : HelloFields}

theorem State.takeHello_eq : s.takeHello c d f =
    if (s.heardFrom c d f).lines[c].round = some .other ∧ (s.heardFrom c d f).lines[c].called = 0 then
      (s.heardFrom c d f).endRound c
    else s.heardFrom c d f := rfl

theorem State.heardFrom_stranger (h : s.findNode c d = none) : s.heardFrom c d f =
    (s.setLine c (s.lines[c].hear d)).ask (.clc c) (strangerEntry c d f s.ord.uptime) := by
  unfold State.heardFrom
  rw [h]

theorem State.heardFrom_known {r : NodeRec} (h : s.findNode c d = some r) : s.heardFrom c d f =
    if r.isExcluded then s.setLine c (s.lines[c].hear d) else s.told c (s.lines[c].hear d) [.hello d f] := by
  unfold State.heardFrom
  rw [h]

theorem State.heardFrom_line : (s.heardFrom c d f).lines[c] = s.lines[c].hear d := by
  unfold State.heardFrom
  split
  · exact s.setLine_line c _
  · split
    · exact s.setLine_line c _
    · exact s.told_line c _ _

theorem State.heardFrom_reports : (s.heardFrom c d f).chan.clcRpl[c]
    = s.chan.clcRpl[c] ++ (if (s.findNode c d).any (fun r => !r.isExcluded) then [.hello d f] else []) := by
  unfold State.heardFrom
  split
  next h => simp [h]
  next r h =>
    split
    next hexcluded => simp [h, hexcluded]
    next hincluded =>
      rw [State.told_reports]
      simp [h, hincluded]

theorem LineKept.told (c : Car) (s : State) (l : Line) (m : List LineReport) : LineKept c s (s.told c l m) where
  lines _ hd := set_get_ne _ _ hd
  reports _ hd := set_get_ne _ _ hd

theorem LineKept.heardFrom : LineKept c s (s.heardFrom c d f) := by
  unfold State.heardFrom
  split
  · exact (LineKept.setLine c s _).trans (LineKept.ask c _ _ _)
  · exact LineKept.ite (fun _ => LineKept.setLine c s _) (fun _ => LineKept.told c s _ _)

/-- A HELLO of a drop that the round calls is heard. -/
theorem State.judgeFrame_heard {cls ram boot : Byte} {image version segments : Word} (hround : s.lines[c].round.isSome = true)
    (hcalled : DropSet.has s.lines[c].called d = true)
    (hf : helloFieldsOf cls ram image version segments boot = some f) :
    s.judgeFrame c (.frame d (.hello cls ram image version segments boot)) = s.takeHello c d f := by
  have hin : s.lines[c].inRound d = true := by rw [Line.inRound, hround, hcalled, Bool.and_self]
  refine (if_pos hround).trans ?_
  unfold State.frameInRound
  dsimp only
  rw [hf]
  exact if_pos hin

/-! ## The end of the frame -/

theorem Line.hear_round (l : Line) (d : Drop) : (l.hear d).round = l.round ∧ (l.hear d).called = DropSet.del l.called d
    ∧ (l.hear d).roundOver = l.roundOver := by
  unfold Line.hear
  split <;> exact ⟨rfl, rfl, rfl⟩

/-- The drop heard, with neither a deferred end nor the last called drop to end the round. -/
theorem State.takeHello_goesOn (hover : s.lines[c].roundOver = false)
    (hmore : s.lines[c].round = some .fast ∨ DropSet.del s.lines[c].called d ≠ 0) :
    (let v := s.takeHello c d f
      if v.lines[c].roundOver = true then v.endRound c else v) = s.heardFrom c d f := by
  have hline := State.heardFrom_line (s := s) (c := c) (d := d) (f := f)
  obtain ⟨hround, hcalled, hsame⟩ := s.lines[c].hear_round d
  have hgoes : ¬ ((s.heardFrom c d f).lines[c].round = some .other ∧ (s.heardFrom c d f).lines[c].called = 0) := by
    rw [hline, hround, hcalled]
    rintro ⟨hother, hnone⟩
    rcases hmore with hfast | hsome
    · rw [hfast] at hother
      cases hother
    · exact hsome hnone
  rw [State.takeHello_eq, if_neg hgoes]
  exact if_neg (by rw [hline, hsame, hover]; exact Bool.false_ne_true)

/-- The drop heard, and the round at its end, by either way once. -/
theorem State.takeHello_ends
    (hends : s.lines[c].roundOver = true ∨ s.lines[c].round = some .other ∧ DropSet.del s.lines[c].called d = 0) :
    (let v := s.takeHello c d f
      if v.lines[c].roundOver = true then v.endRound c else v) = (s.heardFrom c d f).endRound c := by
  have hline := State.heardFrom_line (s := s) (c := c) (d := d) (f := f)
  obtain ⟨hround, hcalled, hsame⟩ := s.lines[c].hear_round d
  rw [State.takeHello_eq, hline, hround, hcalled]
  by_cases hlast : s.lines[c].round = some .other ∧ DropSet.del s.lines[c].called d = 0
  · have hclosed : ((s.heardFrom c d f).endRound c).lines[c].roundOver = false := by
      obtain ⟨hkept, -⟩ := (s.heardFrom c d f).endOtherRound_round c
      rw [State.endRound_other (by rw [hline, hround, hlast.1]), hkept.roundOver]
      rfl
    rw [if_pos hlast]
    exact if_neg (by rw [hclosed]; exact Bool.false_ne_true)
  · rw [if_neg hlast]
    exact if_pos (by rw [hline, hsame, hends.resolve_right hlast])

end

/-! ## A line error shown -/

theorem State.errors_item (s : State) (c : Car) : (0x6C + 16 * c.val, [s.lines[c].errors]) ∈ shownItems s := by
  have hitem : (carItems s c)[6]? = some (0x60 + 16 * c.val + 12, [s.lines[c].errors]) := rfl
  have hmem : (0x60 + 16 * c.val + 12, [s.lines[c].errors]) ∈ shownItems s :=
    mem_shownItems.mpr (.inl (carItem_mem s c (List.mem_of_getElem? hitem)))
  rwa [Nat.add_right_comm] at hmem

/-- No two items of a state stand in one place. -/
theorem shownItems_unique {s : State} {x y : Item} (hx : x ∈ shownItems s) (hy : y ∈ shownItems s)
    (h : x.1 < y.1 + 2 * y.2.length ∧ y.1 < x.1 + 2 * x.2.length) : x = y := by
  by_contra hne
  have hapart : (shownItems s).Pairwise (fun x y => PlacesApart x.place y.place) := List.pairwise_map.mp (shownItems_apart s)
  have : Std.Symm (fun x y : Item => PlacesApart x.place y.place) := ⟨fun _ _ h => h.symm⟩
  have := hapart.forall hx hy hne
  simp only [PlacesApart, Item.place] at this
  omega

/-- A count of line errors that a command has changed is shown (R77, R156). -/
theorem publish_errors {s t : State} {c : Car} (hm : Mem.wf 0 t.ram = true) (h : t.lines[c].errors ≠ s.lines[c].errors) :
    leNat ((publish s t).ramBytes (0x6C + 16 * c.val) 2) = t.lines[c].errors % 65536 := by
  have hshown : Shows (publish s t).ram (0x6C + 16 * c.val, t.lines[c].errors) := by
    refine publish_shows hm (t.errors_item c) List.mem_cons_self fun hold => absurd ?_ h
    have hsame := shownItems_unique hold (s.errors_item c) (by simp)
    exact (List.cons.inj (congrArg Prod.snd hsame)).1
  exact hshown

/-! ## The statement -/

section
variable {s : State} {c : Car} {d : Drop} {f : HelloFields} {cls ram boot : Byte} {image version segments : Word}

/-- The line that has heard a drop, as its HELLO leaves it. -/
theorem Line.received_hear {l : Line} {k : Round} (hround : l.round = some k) (d : Drop) :
    (l.received false).hear d = { l with
      rx := .idle, called := DropSet.del l.called d
      heard := if k = .fast then DropSet.add l.heard d else l.heard
      owed := if k = .fast then l.owed else l.owed.set d 0 } := by
  cases l
  dsimp only at hround
  subst hround
  cases k <;> rfl

/-- A HELLO heard, as its command runs: to the state that has heard it, or to the end of the round in that state. -/
theorem exec_hello_heard (hrun : s.isRunning = true) (hrx : s.lines[c].rx = .inFrame)
    (hround : s.lines[c].round.isSome = true) (hcalled : DropSet.has s.lines[c].called d = true)
    (hf : helloFieldsOf cls ram image version segments boot = some f) :
    exec (.hello c d cls ram image version segments boot) s = .next (publish s
      (let v := (s.setLine c (s.lines[c].received false)).takeHello c d f
        if v.lines[c].roundOver = true then v.endRound c else v)) := by
  have hheard := State.judgeFrame_heard (s := s.setLine c (s.lines[c].received false)) (c := c) (d := d)
    (by rw [State.setLine_line]; exact hround) (by rw [State.setLine_line]; exact hcalled) hf
  rw [exec_frame hrun (b := .hello cls ram image version segments boot) rfl, State.takeFrame_inFrame _ hrx]
  exact congrArg (fun v : State => Host.Outcome.next (publish s (if v.lines[c].roundOver = true then v.endRound c else v))) hheard

end

/-- Settles O48: a HELLO of a drop called is heard, and every other frame of a round is as a discarded one; whatever ends the round
does so by `endRound_roundEnds`. -/
theorem roundFramesAreTaken : Obligations.RoundFramesAreTaken := by
  intro c s hrun l sets
  have hsets : ∀ {x : Line}, x.errors = l.errors → publish s (sets x) = sets x := fun h => publish_line s c _ _ h
  have hbad : ∀ {b : List Byte} {o : Bool}, l.rx = .inFrame → l.exch = none → judgeBytes b = .bad o →
      exec (.discardedFrame c b) s = .next (publish s
        (let v := s.setLine c (l.received o).errored
          if v.lines[c].roundOver = true then v.endRound c else v)) := by
    intro b o hrx hexch hb
    have hdiscard : (s.setLine c (l.received o)).discardFrame c = s.setLine c (l.received o).errored := by
      rw [State.discardFrame_quiet (by rw [State.setLine_line]; exact hexch), State.setLine_line, State.setLine_setLine]
    rw [exec_discardedFrame hrun, hb, State.takeFrame_inFrame _ hrx]
    exact congrArg (fun v : State => Host.Outcome.next (publish s (if v.lines[c].roundOver = true then v.endRound c else v))) hdiscard
  refine ⟨fun d cls ram boot image version segments f hrx hcls hram hboot himage hversion hsegments hcalled k hround => ?_,
    fun d cls ram boot image version segments b hb h => ?_, fun d cls ram boot image version segments b hb h => ?_,
    fun d first n digests o b hb h => ?_, fun b o hrx hexch hround hover hb => ?_, fun b o hrx hexch hround hb => ?_,
    fun hrx => ?_, fun hrx => ?_⟩
  · intro x i
    let u := s.setLine c (l.received false)
    have huline : u.lines[c] = l.received false := s.setLine_line c _
    have hf := helloFieldsOf_fields hcls hram hboot himage hversion hsegments
    have hexec := exec_hello_heard hrun hrx (by rw [hround]; rfl) hcalled hf
    have hx : u.lines[c].hear d = x := by rw [huline, Line.received_hear hround]
    have hline : (u.heardFrom c d f).lines[c] = x := State.heardFrom_line.trans hx
    refine ⟨fun hover hmore => ?_, fun hends => ⟨_, hexec, ?_⟩⟩
    · have hgoes : exec i s = .next (publish s (u.heardFrom c d f)) := by
        refine hexec.trans (congrArg (fun v => Host.Outcome.next (publish s v)) (State.takeHello_goesOn ?_ ?_))
        · rw [huline]; exact hover
        · rw [huline]
          exact hmore.imp_left (fun hk => hround.trans (congrArg some hk))
      refine ⟨fun r hr hincluded => ?_, fun r hr hexcluded => ?_, fun hnone => ?_⟩
      · rw [hgoes, State.heardFrom_known (s := u) hr, if_neg (by rw [hincluded]; exact Bool.false_ne_true), hx,
          State.setLine_told]
        exact congrArg _ (publish_told _ rfl)
      · rw [hgoes, State.heardFrom_known (s := u) hr, if_pos hexcluded, hx, State.setLine_setLine]
        exact congrArg _ (hsets rfl)
      · rw [hgoes, State.heardFrom_stranger (s := u) hnone, hx, State.setLine_setLine]
        exact congrArg _ (publish_quiet s c x s.chan _ rfl)
    · rw [State.takeHello_ends (s := u) (by rw [huline]; exact hends.imp_right (fun h => ⟨hround.trans (congrArg some h.1), h.2⟩))]
      have hends := State.endRound_roundEnds ((LineKept.setLine c s (l.received false)).trans (LineKept.heardFrom (d := d) (f := f)))
        (State.heardFrom_reports (s := u))
      rwa [hline] at hends
  · have hl : (s.setLine c (l.received false)).lines[c] = l.received false := s.setLine_line c _
    refine exec_discarded hrun (b := .hello cls ram image version segments boot) rfl hb ?_
    rcases h with ⟨hround, hcalled⟩ | ⟨hround, hexch⟩
    · refine State.judgeFrame_inRound (by rw [hl]; exact hround) fun _ _ _ _ _ _ _ _ _ => ?_
      rw [hl]
      exact (congrArg (l.round.isSome && ·) hcalled).trans (Bool.and_false _)
    · exact State.judgeFrame_noExchange (by rw [hl]; exact hround) (by rw [hl]; exact hexch)
  · exact exec_discarded hrun (b := .hello cls ram image version segments boot) rfl hb
      (State.judgeFrame_badHello ((helloFieldsOf_eq_none_iff ..).mpr h))
  · have hl : (s.setLine c (l.received false)).lines[c] = l.received false := s.setLine_line c _
    have hdiscards : ∀ {body : RxBody} {i : Instr}, body.instr c d = some i →
        (∀ cls ram image version segments boot, body ≠ .hello cls ram image version segments boot) →
        exec i s = exec (.discardedFrame c b) s := by
      intro body i hi hno
      refine exec_discarded hrun hi hb ?_
      by_cases hround : l.round.isSome = true
      · exact State.judgeFrame_inRound (by rw [hl]; exact hround) fun _ _ _ _ _ _ _ hbody => absurd hbody (hno _ _ _ _ _ _)
      · refine State.judgeFrame_noExchange ?_ (by rw [hl]; exact h.resolve_left hround)
        rw [hl]
        exact Option.not_isSome_iff_eq_none.mp hround
    exact ⟨hdiscards (body := .digestList first n digests) rfl nofun, hdiscards (body := .loadAck n o) rfl nofun,
      hdiscards (body := .running o) rfl nofun⟩
  · intro x
    have hline : (s.setLine c x).lines[c] = x := s.setLine_line c x
    obtain ⟨herrors, hrx'⟩ := (s.setLine c x).endRound_reception c
    rw [hline] at herrors hrx'
    have hends := State.endRound_roundEnds (LineKept.setLine c s x) (List.append_nil _).symm
    rw [hline] at hends
    refine ⟨_, (hbad hrx hexch hb).trans (congrArg (fun v => Host.Outcome.next (publish s v)) (if_pos ?_)), hends, herrors, hrx'⟩
    exact (congrArg Line.roundOver hline).trans hover
  · intro x
    have hline : (s.setLine c x).lines[c] = x := s.setLine_line c x
    have hstays : exec (.discardedFrame c b) s = .next (publish s (s.setLine c x)) := by
      refine (hbad hrx hexch hb).trans (congrArg (fun v => Host.Outcome.next (publish s v)) ?_)
      rcases hround with hnone | hover
      · exact ite_eq_right_iff.mpr fun _ => State.endRound_none ((congrArg Line.round hline).trans hnone)
      · exact if_neg fun h => Bool.false_ne_true (hover.symm.trans ((congrArg Line.roundOver hline).symm.trans h))
    refine ⟨_, hstays, rfl, (LineKept.setLine c s x).publish.pages, fun hm hless => ?_⟩
    have hcount : (s.setLine c x).lines[c].errors = l.errors + 1 := by
      rw [hline]
      exact Nat.min_eq_right hless
    rw [publish_errors (t := s.setLine c x) hm (by rw [hcount]; exact Nat.succ_ne_self _), hcount, Nat.mod_eq_of_lt (by omega)]
  · rw [exec_lineIdleTimeout hrun, hrx, exec_discardedFrame hrun]
    rfl
  · rw [exec_lineIdleTimeout hrun, hrx]
    exact congrArg _ (hsets rfl)

end Sys2Proof.Machine
end

section
/-! Frames sent: the rounds, the requests and what they bring with them, and the bytes of each (R74, R78, R82, R85, R88, R90, R92,
R104, R106, section 5.3). -/

namespace Sys2Proof.Machine

/-! ## Rounds sent -/

theorem dropBit_has (e d : Drop) : (dropBit e).getLsbD d.val = decide (e = d) := by
  revert e d
  decide

theorem DropSet.has_add (k : DropSet) (e d : Drop) : DropSet.has (DropSet.add k e) d = (DropSet.has k d || decide (e = d)) := by
  rw [DropSet.has, DropSet.add, BitVec.getLsbD_or, dropBit_has]
  rfl

theorem DropSet.has_foldl_add (p : Drop → Prop) [DecidablePred p] (ds : List Drop) (k : DropSet) (d : Drop) :
    DropSet.has (ds.foldl (fun k e => if p e then DropSet.add k e else k) k) d = (DropSet.has k d || decide (d ∈ ds ∧ p d)) := by
  induction ds generalizing k with
  | nil => simp
  | cons e ds ih =>
    rw [List.foldl_cons, ih]
    by_cases hp : p e
    · rw [if_pos hp, DropSet.has_add, Bool.or_assoc]
      refine congrArg _ ?_
      by_cases he : e = d
      · subst he
        simp [hp]
      · simp [he, Ne.symm he]
    · rw [if_neg hp]
      refine congrArg _ (decide_eq_decide.mpr ?_)
      have hne : p d → d ≠ e := fun hd he => hp (he ▸ hd)
      simp only [List.mem_cons]
      tauto

theorem mem_allDrops (d : Drop) : d ∈ allDrops := by
  revert d
  decide

theorem Line.calledSet_has (l : Line) (d : Drop) :
    DropSet.has l.calledSet d = (DropSet.has l.missing d || decide (0 < l.owed[d])) := by
  rw [Line.calledSet, DropSet.has_foldl_add (fun d : Drop => 0 < l.owed[d])]
  simp only [mem_allDrops, true_and]

theorem Line.roundDue_iff (l : Line) : l.roundDue = true ↔ l.slowDue = true ∨ ∃ d : Drop, 0 < l.owed[d] := by
  rw [Line.roundDue, Bool.or_eq_true, Line.anyOwed, List.any_eq_true]
  simp only [mem_allDrops, true_and, decide_eq_true_iff]

/-- The driver is disabled, no frame is in reception, and no round is in flight. -/
structure Line.MayBegin (l : Line) : Prop where
  tx : l.tx = none
  rx : l.rx ≠ .inFrame
  round : l.round = none

theorem Line.MayBegin.maySend {l : Line} (h : l.MayBegin) : l.maySend = true := by
  rw [Line.maySend, h.tx, decide_eq_true h.rx]
  rfl

theorem Line.MayBegin.free {l : Line} (h : l.MayBegin) : (l.maySend && decide (l.round = none)) = true := by
  rw [h.maySend, decide_eq_true h.round]
  rfl

theorem Line.sendRound_fast {l : Line} (h : l.MayBegin) (hstate : l.state = .rollCall) :
    l.sendRound = l.beginRound .fast (~~~ l.heard) := by
  unfold Line.sendRound
  rw [if_pos h.free, if_pos hstate]

theorem Line.sendRound_due {l : Line} (h : l.MayBegin) (hdue : l.roundDue = true)
    (hstate : l.state = .idle ∨ l.state = .serving ∧ l.exch = none ∧ l.exchangeFirst = false) :
    l.sendRound = { l.beginRound .other l.calledSet with slowDue := false } := by
  unfold Line.sendRound
  rw [if_pos h.free, hdue]
  rcases hstate with hidle | ⟨hserving, hexch, hfirst⟩
  · simp only [hidle, reduceCtorEq, decide_true, Bool.true_or, Bool.and_self, if_true, if_false]
  · simp only [hserving, hexch, hfirst, reduceCtorEq, decide_true, Option.isNone_none, Bool.not_false, Bool.and_self, Bool.or_true,
      if_true, if_false]

section
variable {s : State} {c : Car}

theorem exec_rollCall (hrun : s.isRunning = true) :
    exec (.rollCall c) s = .next (publish s (s.setLine c s.lines[c].sendRound)) := by
  show execRollCall c s = _
  unfold execRollCall
  rw [if_pos hrun]
  rfl

/-! ## Requests sent -/

/-- The command that sends the request of a phase. -/
def Phase.instr (c : Car) : Phase → Instr
  | .survey => .digestAsk c
  | .load => .load c
  | .start => .start c

theorem exec_request (hrun : s.isRunning = true) (p : Phase) :
    exec (p.instr c) s = .next (publish s (s.sendRequest c p)) := by
  have hif : (if s.isRunning then s.sendRequest c p else s) = s.sendRequest c p := if_pos hrun
  rw [← hif]
  cases p <;> rfl

/-- The line as it sends a request for the first time. -/
def Line.requesting (l : Line) (q : Request) (b : List Byte) : Line :=
  { l with exch := some ⟨q, b, 0, .sending⟩, tx := some ⟨false, b⟩ }

theorem Line.mayRequest_eq {l : Line} (h : l.MayBegin) (hstate : l.state = .serving) (he : l.ending = .unset) :
    l.mayRequest = true := by
  rw [Line.mayRequest, h.maySend, hstate, h.round, he]
  rfl

theorem Line.roundFirst_eq {l : Line} (h : ¬ (l.slowDue = true ∨ ∃ d : Drop, 0 < l.owed[d]) ∨ l.exchangeFirst = true) :
    l.roundFirst = false := by
  rw [Line.roundFirst]
  rcases h with hnone | hfirst
  · rw [Bool.eq_false_iff.mpr (fun hdue => hnone (l.roundDue_iff.mp hdue)), Bool.false_and]
  · rw [hfirst, Bool.not_true, Bool.and_false]

/-- A new request is sent under a retry count of 0; the first LOAD of a segment has the next one requested (R90, R104). -/
theorem State.sendRequest_first {p : Phase} {j : LineJob} {q : Request} {b : List Byte} (hmay : s.lines[c].mayRequest = true)
    (hexch : s.lines[c].exch = none) (hj : s.lines[c].holding = some j) (hphase : j.phase = p)
    (hfirst : s.lines[c].roundFirst = false) (hreq : s.nextRequest c = some (q, b)) : s.sendRequest c p =
      if p = .load then (s.told c (s.lines[c].requesting q b) [.retry j.jid 0]).requestNext c
      else s.told c (s.lines[c].requesting q b) [.retry j.jid 0] := by
  unfold State.sendRequest
  dsimp only
  rw [if_pos hmay, hexch]
  dsimp only
  split
  next j' req bytes hj' hreq' =>
    cases hj.symm.trans hj'
    cases hreq.symm.trans hreq'
    exact if_pos ⟨hphase, hfirst⟩
  next hnone => exact absurd hreq (hnone _ _ _ hj)

/-- A failed try is sent again with the same bytes (R92). -/
theorem State.sendRequest_again {p : Phase} {x : Exchange} (hmay : s.lines[c].mayRequest = true) (hexch : s.lines[c].exch = some x)
    (hstage : x.stage = .resend) (hphase : x.req.phase = p) : s.sendRequest c p = s.setLine c
      { s.lines[c] with exch := some { x with stage := .sending }, tx := some ⟨false, x.bytes⟩ } := by
  unfold State.sendRequest
  dsimp only
  rw [if_pos hmay, hexch]
  exact if_pos ⟨hstage, hphase⟩

/-! ## The next segment (R104) -/

theorem State.requestNext_last {j : LineJob} {i : Nat} (hj : s.lines[c].holding = some j) (hr : j.reload = [i]) :
    s.requestNext c = s := by
  unfold State.requestNext
  dsimp only
  rw [hj]
  dsimp only
  rw [hr]

theorem State.requestNext_more {j : LineJob} {i n : Nat} {more : List Nat} (hj : s.lines[c].holding = some j)
    (hr : j.reload = i :: n :: more) :
    s.requestNext c = if s.lines[c].holdsIndex j.jid n = true then s else s.requestRead c n := by
  unfold State.requestNext
  dsimp only
  rw [hj]
  dsimp only
  rw [hr]

theorem State.requestRead_waits {j : LineJob} (hj : s.lines[c].holding = some j) (hfull : s.lines[c].emptyBuf = none) (i : Nat) :
    s.requestRead c i = s.setLine c { s.lines[c] with wantRead := some i } := by
  unfold State.requestRead
  dsimp only
  rw [hj]
  dsimp only
  rw [hfull]

theorem Line.emptyBuf_none {l : Line} (hX : l.bufX.state ≠ .empty) (hY : l.bufY.state ≠ .empty) : l.emptyBuf = none :=
  (if_neg hX).trans (if_neg hY)

theorem Line.filledBuf_index {l : Line} {jid i : Nat} {b : SegBuf} (h : l.filledBuf jid i = some b) : b.index = i := by
  have hfor : ∀ k : SegBuf, k.isFor jid i [.filled] = true → k.index = i := fun k hk => by
    simp only [SegBuf.isFor, Bool.and_eq_true, decide_eq_true_eq] at hk
    exact hk.1.2
  unfold Line.filledBuf at h
  split at h
  next hX =>
    cases h
    exact hfor _ hX
  · split at h
    next hY =>
      cases h
      exact hfor _ hY
    · cases h

end

/-! ## Ends and beginnings of frames -/

section
variable {s : State} {c : Car}

theorem exec_txFrameEnd (hrun : s.isRunning = true) :
    exec (.txFrameEnd c) s = .next (publish s (s.setLine c s.lines[c].frameSent)) := by
  show execTxFrameEnd c s = _
  unfold execTxFrameEnd
  rw [if_pos hrun]
  rfl

theorem exec_leadByteTaken (hrun : s.isRunning = true) :
    exec (.leadByteTaken c) s = .next (publish s (s.setLine c s.lines[c].leadByte)) := by
  show execLeadByteTaken c s = _
  unfold execLeadByteTaken
  rw [if_pos hrun]
  rfl

theorem Line.frameSent_rollCall {l : Line} {b : List Byte} (h : l.tx = some ⟨true, b⟩) :
    l.frameSent = { l with tx := none, roundTimer := some 20 } := by
  unfold Line.frameSent
  rw [h]
  rfl

theorem Line.frameSent_request {l : Line} {b : List Byte} {x : Exchange} (h : l.tx = some ⟨false, b⟩) (hx : l.exch = some x) :
    l.frameSent = { l with tx := none, exch := some { x with stage := .awaiting }, replyTimer := some (replyTimeout x.req) } := by
  unfold Line.frameSent
  rw [h]
  dsimp only
  rw [hx]
  rfl

end

/-! ## The bytes of section 5.3 -/

theorem byteOf_zero (v : Nat) : byteOf v 0 = BitVec.ofNat 8 v := by
  rw [byteOf, Nat.mul_zero, Nat.pow_zero, Nat.div_one]

/-- A frame to a drop by its bytes. -/
theorem mkFrame_toDrop (d : Drop) (kind : Nat) (p : List Byte) : mkFrame (dropAddress d) kind p =
    let body := [BitVec.ofNat 8 (d.val + 1), BitVec.ofNat 8 kind, byteOf p.length 0, byteOf p.length 1] ++ p
    [0xA5] ++ body ++ le16 (crc16 body).toNat := by
  rw [mkFrame, frameBody, byteOf_zero, byteOf_zero, dropAddress]
  rfl

theorem rollCallFrame_eq (k : DropSet) :
    rollCallFrame k = [0xA5, 0x0F, 0x10, 1, 0, k] ++ le16 (crc16 [0x0F, 0x10, 1, 0, k]).toNat := by
  have hhead : [byteOf 0x0F 0, byteOf kindRollCall 0] ++ le16 1 = [0x0F, 0x10, 1, 0] := by decide
  have hbody : frameBody 0x0F kindRollCall [k] = [0x0F, 0x10, 1, 0, k] := congrArg (· ++ [k]) hhead
  rw [rollCallFrame, mkFrame, hbody]
  rfl

/-! ## The statement -/

section
variable {s : State} {c : Car} {j : LineJob}

theorem State.nextRequest_survey (hj : s.lines[c].holding = some j) (hp : j.phase = .survey) : s.nextRequest c =
    some (.digestAsk s.isc.records[j.copy].desc.segments, digestAskFrame j.drop s.isc.records[j.copy].desc) := by
  unfold State.nextRequest
  dsimp only
  rw [hj]
  dsimp only
  rw [hp]

theorem State.nextRequest_start (hj : s.lines[c].holding = some j) (hp : j.phase = .start) : s.nextRequest c =
    some (.start, startFrame j.drop s.isc.records[j.copy].desc s.isc.records[j.copy].whole) := by
  unfold State.nextRequest
  dsimp only
  rw [hj]
  dsimp only
  rw [hp]

/-- The LOAD of a job's lowest index, from whichever buffer holds it. -/
def State.loadOf (s : State) (j : LineJob) (i : Nat) (b : SegBuf) : List Byte :=
  loadFrame j.drop i (if j.plan = .compare then clippedSpans s.isc.records[j.copy].desc i else []) b.data b.digest

theorem State.nextRequest_load {i : Nat} {rest : List Nat} {b : SegBuf} (hj : s.lines[c].holding = some j) (hp : j.phase = .load)
    (hr : j.reload = i :: rest) (hb : s.lines[c].filledBuf j.jid i = some b) :
    s.nextRequest c = some (.load i, s.loadOf j i b) := by
  have hindex : b.index = i := Line.filledBuf_index hb
  unfold State.nextRequest
  dsimp only
  rw [hj]
  dsimp only
  rw [hp]
  dsimp only
  rw [hr, List.headD_cons, hb]
  dsimp only
  rw [hindex]
  rfl

/-- A first LOAD whose next segment goes into the EMPTY one of the buffers (R104). -/
theorem State.load_requests {n : Nat} {more : List Nat} {l : Line} {i : Nat} {y : Bool} (hj : l.holding = some j)
    (hr : j.reload = i :: n :: more) (hheld : l.holdsIndex j.jid n = false) (hempty : l.emptyBuf = some y)
    (q : Request) (f : List Byte) :
    let t := (s.told c (l.requesting q f) [.retry j.jid 0]).requestNext c
    t.chan = (s.told c (l.requesting q f) [.retry j.jid 0]).chan ∧ t.lines[c].exch = some ⟨q, f, 0, .sending⟩
      ∧ t.lines[c].tx = some ⟨false, f⟩ ∧ t.lines[c].buf (!y) = l.buf (!y) ∧ (t.lines[c].buf y).state = .waiting
      ∧ (t.lines[c].buf y).index = n ∧ t.isc.requests = s.isc.requests ++ [⟨.job c y j.cls, j.copy, n⟩] := by
  have hline : (s.told c (l.requesting q f) [.retry j.jid 0]).lines[c] = l.requesting q f := s.told_line c _ _
  intro t
  have ht : t = ((s.told c (l.requesting q f) [.retry j.jid 0]).setLine c ((l.requesting q f).setBuf y { SegBuf.reset with
      state := .waiting, job := some j.jid, copy := j.copy, index := n
      len := segLen s.isc.records[j.copy].desc n })).addRequest ⟨.job c y j.cls, j.copy, n⟩ := by
    refine (State.requestNext_more (by rw [hline]; exact hj) hr).trans ?_
    rw [hline, if_neg (by exact Bool.eq_false_iff.mp hheld),
      State.requestRead_eq (j := j) (y := y) (by rw [hline]; exact hj) (by rw [hline]; exact hempty), hline]
    rfl
  clear_value t
  subst ht
  rw [State.addRequest_requests, State.addRequest_line, State.setLine_line]
  refine ⟨State.settleStore_chan _, ?_⟩
  cases y <;> exact ⟨rfl, rfl, rfl, rfl, rfl, rfl⟩

end

/-- Settles O47: the round that is due, the request of the phase, the next segment into whichever buffer is EMPTY, and the bytes. -/
theorem framesAreSent : Obligations.FramesAreSent := by
  intro c s hrun l sets tells due
  have hsets : ∀ {x : Line}, x.errors = l.errors → publish s (sets x) = sets x := fun h => publish_line s c _ _ h
  refine ⟨fun htx hrx hround hstate => ?_, fun htx hrx hround hdue hstate => ?_,
    fun j htx hrx hround hstate hending hexch hj hfirst => ?_, fun x htx hrx hround hstate hending hexch hstage => ?_,
    fun b htx => ?_, fun b x htx hx => ?_, fun hoff htx hrx => ?_, rollCallFrame_eq,
    fun d k whole digest index keep data => ?_⟩
  · rw [exec_rollCall hrun, Line.sendRound_fast ⟨htx, hrx, hround⟩ hstate, Line.beginRound, BitVec.not_not, hstate]
    exact congrArg _ (hsets rfl)
  · refine ⟨l.calledSet, l.calledSet_has, ?_⟩
    rw [exec_rollCall hrun, Line.sendRound_due ⟨htx, hrx, hround⟩ (l.roundDue_iff.mpr hdue) hstate]
    exact congrArg _ (hsets rfl)
  · intro k first
    have hsends : ∀ {p : Phase} {q : Request} {b : List Byte}, j.phase = p → s.nextRequest c = some (q, b) →
        exec (p.instr c) s = .next (publish s (if p = .load then (s.told c (l.requesting q b) [.retry j.jid 0]).requestNext c
          else s.told c (l.requesting q b) [.retry j.jid 0])) := fun hp hreq => by
      rw [exec_request hrun, State.sendRequest_first (Line.mayRequest_eq ⟨htx, hrx, hround⟩ hstate hending) hexch hj hp
        (Line.roundFirst_eq hfirst) hreq]
    have hfirst : ∀ q b, publish s (s.told c (l.requesting q b) [.retry j.jid 0]) = first q b := fun q b => publish_told _ rfl
    refine ⟨fun hp => (hsends hp (State.nextRequest_survey hj hp)).trans (congrArg _ (hfirst _ _)),
      fun hp => (hsends hp (State.nextRequest_start hj hp)).trans (congrArg _ (hfirst _ _)), fun i rest b hp hr hb => ?_⟩
    intro f
    have hline : (s.told c (l.requesting (.load i) f) [.retry j.jid 0]).lines[c] = l.requesting (.load i) f := s.told_line c _ _
    have hload : exec (.load c) s = .next (publish s ((s.told c (l.requesting (.load i) f) [.retry j.jid 0]).requestNext c)) :=
      hsends hp (State.nextRequest_load hj hp hr hb)
    have hframe : LineFrame c s (publish s ((s.told c (l.requesting (.load i) f) [.retry j.jid 0]).requestNext c)) :=
      ((LineKept.told c s _ _).trans (LineKept.requestNext c _)).publish.frame
    refine ⟨fun hlast => ?_, fun n more hmore hheld hX hY hfilled => ?_, fun n more hmore hheld hY hX hfilled => ?_,
      fun n more hmore => ⟨fun hheld => ?_, fun hheld hX hY => ?_⟩⟩
    · rw [hload, State.requestNext_last (by rw [hline]; exact hj) (hlast ▸ hr)]
      exact congrArg _ (hfirst _ _)
    · have hempty : l.emptyBuf = some true := (if_neg (by rw [hX, hfilled]; exact nofun)).trans (if_pos hY)
      obtain ⟨hchan, hexch', htx', hother, hstate', hindex, hrequests⟩ :=
        State.load_requests (s := s) (c := c) hj (hmore ▸ hr) hheld hempty (.load i) f
      exact ⟨_, hload, hframe, hchan, hexch', htx', hother.trans hX, hstate', hindex, hrequests⟩
    · have hempty : l.emptyBuf = some false := if_pos hX
      obtain ⟨hchan, hexch', htx', hother, hstate', hindex, hrequests⟩ :=
        State.load_requests (s := s) (c := c) hj (hmore ▸ hr) hheld hempty (.load i) f
      exact ⟨_, hload, hframe, hchan, hexch', htx', hother.trans hY, hstate', hindex, hrequests⟩
    · rw [hload, State.requestNext_more (by rw [hline]; exact hj) (hmore ▸ hr), hline, if_pos (by exact hheld)]
      exact congrArg _ (hfirst _ _)
    · rw [hload, State.requestNext_more (by rw [hline]; exact hj) (hmore ▸ hr), hline,
        if_neg (by exact Bool.eq_false_iff.mp hheld), State.requestRead_waits (by rw [hline]; exact hj)
          (by rw [hline]; exact Line.emptyBuf_none hX hY), hline, ← State.told_none, State.told_told]
      exact congrArg _ (publish_told _ rfl)
  · intro again
    have hagain : ∀ p, x.req.phase = p → exec (p.instr c) s = .next again := fun p hp => by
      rw [exec_request hrun, State.sendRequest_again (Line.mayRequest_eq ⟨htx, hrx, hround⟩ hstate hending) hexch hstage hp]
      exact congrArg _ (hsets rfl)
    exact ⟨fun n hreq => hagain .survey (by rw [hreq]; rfl), fun n hreq => hagain .load (by rw [hreq]; rfl),
      fun hreq => hagain .start (by rw [hreq]; rfl)⟩
  · rw [exec_txFrameEnd hrun, Line.frameSent_rollCall htx]
    exact congrArg _ (hsets rfl)
  · intro ends
    have hends : ∀ n, replyTimeout x.req = n → exec (.txFrameEnd c) s = .next (ends n) := fun n hn => by
      rw [exec_txFrameEnd hrun, Line.frameSent_request htx hx, hn]
      exact congrArg _ (hsets rfl)
    exact ⟨fun n hreq => hends _ (by rw [hreq]; rfl), fun n hreq => hends _ (by rw [hreq]; rfl), fun hreq => hends _ (by rw [hreq]; rfl)⟩
  · have hlead : l.leadByte = { l with rx := .inFrame, replyTimer := none } :=
      if_pos (by rw [decide_eq_true hoff, htx, decide_eq_true hrx]; rfl)
    rw [exec_leadByteTaken hrun, hlead]
    exact congrArg _ (hsets rfl)
  · exact ⟨mkFrame_toDrop d 0x20 _, mkFrame_toDrop d 0x30 _, mkFrame_toDrop d 0x40 _⟩

end Sys2Proof.Machine
end

section
/-! The check of a frame, and frames read back (R75 to R77, R79, section 5.3; log 33). -/

namespace Sys2Proof.Machine

/-! ## The check (R76) -/

theorem crcBit_eq (r : Word) : crcBit r = (r <<< 1) ^^^ (if r.getLsbD 15 then 0x1021 else 0) := by
  have hmsb : r.getMsbD 0 = r.getLsbD 15 := rfl
  rw [crcBit, hmsb]
  split
  · rfl
  · exact (BitVec.xor_zero).symm

theorem crc16_concat (l : List Byte) (b : Byte) : crc16 (l ++ [b]) = crcByte (crc16 l) b := by
  rw [crc16, List.foldl_concat]
  rfl

theorem crcByte_eq (r : Word) (b : Byte) : crcByte r b =
    (List.range 8).foldl (fun (r : Word) _ => (r <<< 1) ^^^ (if r.getLsbD 15 then 0x1021 else 0)) (r ^^^ (b.setWidth 16 <<< 8)) := by
  have hbit : (fun (r : Word) (_ : Nat) => (r <<< 1) ^^^ (if r.getLsbD 15 then 0x1021 else 0)) = fun r _ => crcBit r :=
    funext fun r => funext fun _ => (crcBit_eq r).symm
  rw [hbit]
  rfl

/-- A register whose highest bit is clear is shifted alone. -/
theorem crcBit_toNat {r : Word} (h : r.toNat < 32768) : (crcBit r).toNat = 2 * r.toNat := by
  have hmsb : r.getMsbD 0 = false := by
    have hsmall : r.msb = decide (2 ^ 15 ≤ r.toNat) := BitVec.msb_eq_decide r
    exact hsmall.trans (decide_eq_false (by omega))
  rw [crcBit, hmsb, if_neg Bool.false_ne_true, BitVec.toNat_shiftLeft, Nat.shiftLeft_eq]
  omega

/-- A byte in the low half of the register moves to the high half, and meets no 1 at the top. -/
theorem crcByte_low {r : Word} {b : Byte} (h : (r ^^^ (b.setWidth 16 <<< 8)).toNat < 256) :
    (crcByte r b).toNat = 256 * (r ^^^ (b.setWidth 16 <<< 8)).toNat := by
  unfold crcByte
  dsimp only
  generalize r ^^^ (b.setWidth 16 <<< 8) = x at h
  have h1 := crcBit_toNat (r := x) (by omega)
  have h2 := crcBit_toNat (r := crcBit x) (by omega)
  have h3 := crcBit_toNat (r := crcBit (crcBit x)) (by omega)
  have h4 := crcBit_toNat (r := crcBit (crcBit (crcBit x))) (by omega)
  have h5 := crcBit_toNat (r := crcBit (crcBit (crcBit (crcBit x)))) (by omega)
  have h6 := crcBit_toNat (r := crcBit (crcBit (crcBit (crcBit (crcBit x))))) (by omega)
  have h7 := crcBit_toNat (r := crcBit (crcBit (crcBit (crcBit (crcBit (crcBit x)))))) (by omega)
  have h8 := crcBit_toNat (r := crcBit (crcBit (crcBit (crcBit (crcBit (crcBit (crcBit x))))))) (by omega)
  omega

/-- The high byte of the register clears its high half. -/
theorem xor_highByte (r : Word) : r ^^^ ((r.extractLsb' 8 8).setWidth 16 <<< 8) = (r.extractLsb' 0 8).setWidth 16 := by
  refine BitVec.eq_of_getLsbD_eq fun i hi => ?_
  simp only [BitVec.getLsbD_xor, BitVec.getLsbD_shiftLeft, BitVec.getLsbD_setWidth, BitVec.getLsbD_extractLsb']
  rcases Nat.lt_or_ge i 8 with hlow | hhigh
  · simp [hi, hlow]
  · simp [hi, Nat.not_lt.mpr hhigh, show 8 + (i - 8) = i by omega, show i - 8 < 16 by omega, show i - 8 < 8 by omega]

/-- The check of a run followed by its own check is 0 (R76). -/
theorem crc16_selfCheck (l : List Byte) : crc16 (l ++ [(crc16 l).extractLsb' 8 8, (crc16 l).extractLsb' 0 8]) = 0 := by
  rw [List.append_cons, crc16_concat, crc16_concat]
  generalize crc16 l = r
  have hlow : ((r.extractLsb' 0 8).setWidth 16).toNat < 256 := by
    rw [BitVec.toNat_setWidth]
    have := (r.extractLsb' 0 8).isLt
    omega
  have hfirst : crcByte r (r.extractLsb' 8 8) = (r.extractLsb' 0 8).setWidth 16 <<< 8 := by
    refine BitVec.eq_of_toNat_eq ?_
    rw [crcByte_low (by rw [xor_highByte]; exact hlow), xor_highByte, BitVec.toNat_shiftLeft, Nat.shiftLeft_eq]
    omega
  have hzero : crcByte r (r.extractLsb' 8 8) ^^^ ((r.extractLsb' 0 8).setWidth 16 <<< 8) = 0 := by rw [hfirst, BitVec.xor_self]; rfl
  refine BitVec.eq_of_toNat_eq ?_
  rw [crcByte_low (by rw [hzero]; decide), hzero]
  rfl

/-! ## The bytes of a frame -/

theorem le16_toNat (r : Word) : le16 r.toNat = [r.extractLsb' 0 8, r.extractLsb' 8 8] := by
  have hbyte : ∀ i, r.extractLsb' (8 * i) 8 = byteOf r.toNat i := fun i => by
    apply BitVec.eq_of_toNat_eq
    rw [BitVec.extractLsb'_toNat, byteOf, BitVec.toNat_ofNat, Nat.shiftRight_eq_div_pow]
  rw [le16, ← hbyte, ← hbyte]

theorem word_le16 (r : Word) : BitVec.ofNat 16 (leNat (le16 r.toNat)) = r := by
  have := r.isLt
  rw [leNat_le16, Nat.mod_eq_of_lt this, BitVec.ofNat_toNat, BitVec.setWidth_eq]

theorem byteOf_pair {n : Nat} (h : n < 65536) : (byteOf n 0).toNat + 256 * (byteOf n 1).toNat = n := by
  have hpair : leNat (le16 n) = (byteOf n 0).toNat + 256 * ((byteOf n 1).toNat + 256 * 0) := rfl
  have := leNat_le16 n
  omega

theorem byteOf_toNat {n : Nat} (h : n < 256) : (byteOf n 0).toNat = n := by
  rw [byteOf_zero, BitVec.toNat_ofNat]
  omega

/-! ## The judgement of R77 -/

/-- A frame whose bytes are whole, by its check, its address and its kind. -/
def judgeWhole (address kind : Byte) (p : List Byte) : Judged :=
  match senderOf address.toNat, bodyOf kind.toNat p with
  | some d, some body => .frame d body
  | _, _ => .bad false

section
variable {address kind : Byte} {n : Nat} {rest : List Byte}

theorem judgeBytes_headed (hn : n < 65536) : judgeBytes (0xA5 :: address :: kind :: byteOf n 0 :: byteOf n 1 :: rest) =
    if 2097 < n then .bad true
    else if rest.length ≠ n + 2 then .bad false
    else if crc16 ([address, kind, byteOf n 0, byteOf n 1] ++ rest.take n) ≠ payloadWord rest n then .bad false
    else judgeWhole address kind (rest.take n) := by
  unfold judgeBytes
  dsimp only
  rw [byteOf_pair hn, if_neg (not_not.mpr rfl)]
  rfl

/-- The check behind a payload is compared with the one over what comes before it. -/
theorem judgeBytes_whole {p : List Byte} (hp : p.length ≤ 2097) (check : Word) :
    judgeBytes (0xA5 :: [address, kind, byteOf p.length 0, byteOf p.length 1] ++ p ++ le16 check.toNat) =
      if check ≠ crc16 ([address, kind, byteOf p.length 0, byteOf p.length 1] ++ p) then .bad false
      else judgeWhole address kind p := by
  have htake : (p ++ le16 check.toNat).take p.length = p := List.take_left' rfl
  have hword : payloadWord (p ++ le16 check.toNat) p.length = check := by
    rw [payloadWord, wordAt, List.drop_left' rfl]
    exact word_le16 check
  refine (judgeBytes_headed (rest := p ++ le16 check.toNat) (by omega)).trans ?_
  rw [if_neg (by omega), if_neg (not_not.mpr (by rw [List.length_append]; rfl)), htake, hword]
  exact if_congr ne_comm rfl rfl

theorem senderOf_none {a : Nat} (h : a < 0x81 ∨ 0x88 < a) : senderOf a = none := dif_neg (by omega)

theorem senderOf_drop (d : Drop) : senderOf (0x81 + d.val) = some d := by
  have hd := d.isLt
  rw [senderOf, dif_pos (by omega)]
  exact congrArg some (Fin.ext (by simp))

theorem judgeWhole_stranger (h : address.toNat < 0x81 ∨ 0x88 < address.toNat) (p : List Byte) :
    judgeWhole address kind p = .bad false := by
  unfold judgeWhole
  rw [senderOf_none h]

theorem judgeWhole_bodiless {p : List Byte} (h : bodyOf kind.toNat p = none) : judgeWhole address kind p = .bad false := by
  unfold judgeWhole
  rw [h]
  cases senderOf address.toNat <;> rfl

end

/-! ## The bodies by their kinds (R75) -/

theorem bodyOf_unknown {kind : Byte} (h : kind ∉ [(0x11 : Byte), 0x21, 0x31, 0x41]) (p : List Byte) : bodyOf kind.toNat p = none := by
  have hne : ∀ k : Byte, k ∈ [(0x11 : Byte), 0x21, 0x31, 0x41] → kind.toNat ≠ k.toNat := fun k hk he =>
    h (BitVec.eq_of_toNat_eq he ▸ hk)
  unfold bodyOf
  exact (if_neg (hne 0x11 (by decide))).trans ((if_neg (hne 0x21 (by decide))).trans
    ((if_neg (hne 0x31 (by decide))).trans (if_neg (hne 0x41 (by decide)))))

theorem bodyOf_digestList (p : List Byte) : bodyOf 0x21 p = if 4 ≤ p.length ∧ p.length = 4 + 4 * wordAt p 2 then
    some (.digestList (payloadWord p 0) (payloadWord p 2) (payloadDigests p 4 (wordAt p 2))) else some .malformed := rfl

theorem wordAt_two {p : List Byte} (h : 4 ≤ p.length) : wordAt p 2 = byteAt p 2 + 256 * byteAt p 3 := by
  obtain ⟨a, b, c, d, rest, rfl⟩ : ∃ a b c d rest, p = a :: b :: c :: d :: rest := by
    match p, h with
    | a :: b :: c :: d :: rest, _ => exact ⟨a, b, c, d, rest, rfl⟩
  show c.toNat + 256 * (d.toNat + 256 * 0) = c.toNat + 256 * d.toNat
  omega

theorem payloadDigests_flatMap (front : List Byte) (digests : List Long) :
    payloadDigests (front ++ digests.flatMap (fun x => le32 x.toNat)) front.length digests.length = digests := by
  induction digests generalizing front with
  | nil => rfl
  | cons x rest ih =>
    have hfront : front ++ (x :: rest).flatMap (fun x => le32 x.toNat)
        = (front ++ le32 x.toNat) ++ rest.flatMap (fun x => le32 x.toNat) := by rw [List.flatMap_cons, List.append_assoc]
    have hlong : longAt (front ++ (x :: rest).flatMap (fun x => le32 x.toNat)) front.length = x.toNat := by
      rw [longAt, List.drop_left' rfl]
      exact (longAt_le32 x.toNat).trans (Nat.mod_eq_of_lt x.isLt)
    rw [List.length_cons, payloadDigests, hlong, BitVec.ofNat_toNat, BitVec.setWidth_eq, hfront]
    have hlen : (front ++ le32 x.toNat).length = front.length + 4 := List.length_append
    rw [← hlen, ih]

/-! ## Frames read back -/

/-- A frame as either side sends it is judged by its address and its kind alone. -/
theorem judgeBytes_mkFrame {address kind : Nat} {p : List Byte} (hp : p.length ≤ 2097) :
    judgeBytes (mkFrame address kind p) = judgeWhole (byteOf address 0) (byteOf kind 0) p :=
  (judgeBytes_whole hp (crc16 (frameBody address kind p))).trans (if_neg (not_not.mpr rfl))

theorem judgeBytes_fromDrop (d : Drop) {kind : Nat} {p : List Byte} {body : RxBody} (hp : p.length ≤ 2097) (hk : kind < 256)
    (hbody : bodyOf kind p = some body) : judgeBytes (mkFrame (0x81 + d.val) kind p) = .frame d body := by
  have hd := d.isLt
  rw [judgeBytes_mkFrame hp, judgeWhole, byteOf_toNat (by omega), byteOf_toNat hk, senderOf_drop, hbody]

/-- The part's own frames carry addresses that name no sender (R75). -/
theorem judgeBytes_ownFrame {address kind : Nat} {p : List Byte} (hp : p.length ≤ 2097) (ha : address < 0x81) :
    judgeBytes (mkFrame address kind p) = .bad false := by
  rw [judgeBytes_mkFrame hp, judgeWhole_stranger (.inl (by rw [byteOf_toNat (by omega)]; exact ha))]

theorem spanBytes_length (l : List Span) : (spanBytes l).length = 5 * l.length := by
  induction l with
  | nil => rfl
  | cons x rest ih => rw [spanBytes, List.flatMap_cons, List.length_append, List.length_cons, ← spanBytes, ih, Nat.mul_succ, Nat.add_comm]; rfl

theorem judgeBytes_short {l : List Byte} (h : l.length < 5) : judgeBytes l = .bad false := by
  match l, h with
  | [], _ | [_], _ | [_, _], _ | [_, _, _], _ | [_, _, _, _], _ => rfl

/-- The part's own frames of one drop name a drop, not a sender. -/
theorem judgeBytes_ownDrop (d : Drop) {kind : Nat} {p : List Byte} (hp : p.length ≤ 2097) :
    judgeBytes (mkFrame (dropAddress d) kind p) = .bad false := by
  have hd := d.isLt
  exact judgeBytes_ownFrame hp (show d.val + 1 < 0x81 by omega)

theorem mkFrame_checked (address kind : Nat) (p : List Byte) :
    mkFrame address kind p = [0xA5] ++ frameBody address kind p
      ++ [(crc16 (frameBody address kind p)).extractLsb' 0 8, (crc16 (frameBody address kind p)).extractLsb' 8 8] := by
  rw [mkFrame, le16_toNat]

/-- What discards a frame whose bytes are whole (R77). -/
theorem judgeBytes_unsound {address kind : Byte} {p : List Byte} {check : Word} (hp : p.length ≤ 2097)
    (h : check ≠ crc16 ([address, kind, byteOf p.length 0, byteOf p.length 1] ++ p) ∨ address.toNat < 0x81 ∨ 0x88 < address.toNat
      ∨ kind ∉ [(0x11 : Byte), 0x21, 0x31, 0x41] ∨ (kind = 0x11 ∧ p.length ≠ 9)) :
    judgeBytes (0xA5 :: [address, kind, byteOf p.length 0, byteOf p.length 1] ++ p ++ le16 check.toNat) = .bad false := by
  rw [judgeBytes_whole hp]
  refine (ite_eq_left_iff.mpr fun _ => ?_)
  rcases h with hcheck | hbelow | habove | hkind | ⟨rfl, hlen⟩
  · contradiction
  · exact judgeWhole_stranger (.inl hbelow) p
  · exact judgeWhole_stranger (.inr habove) p
  · exact judgeWhole_bodiless (bodyOf_unknown hkind p)
  · exact judgeWhole_bodiless (if_neg hlen)

theorem digestBytes_length (digests : List Long) : (digests.flatMap (fun x => le32 x.toNat)).length = 4 * digests.length := by
  induction digests with
  | nil => rfl
  | cons x rest ih => rw [List.flatMap_cons, List.length_append, ih, List.length_cons, Nat.mul_succ, Nat.add_comm]; rfl

theorem judgeBytes_hello (d : Drop) (cls ram boot : Byte) (image version segments : Word) :
    judgeBytes (mkFrame (0x81 + d.val) 0x11
        ([cls, ram] ++ le16 image.toNat ++ le16 version.toNat ++ le16 segments.toNat ++ [boot]))
      = .frame d (.hello cls ram image version segments boot) := by
  have hbody : bodyOf 0x11 ([cls, ram] ++ le16 image.toNat ++ le16 version.toNat ++ le16 segments.toNat ++ [boot])
      = some (.hello cls ram (BitVec.ofNat 16 (leNat (le16 image.toNat))) (BitVec.ofNat 16 (leNat (le16 version.toNat)))
        (BitVec.ofNat 16 (leNat (le16 segments.toNat))) boot) := rfl
  rw [word_le16, word_le16, word_le16] at hbody
  exact judgeBytes_fromDrop d (by decide : (9 : Nat) ≤ 2097) (by decide) hbody

theorem judgeBytes_digestList (d : Drop) (first : Word) (digests : List Long) (h : digests.length ≤ 523) :
    judgeBytes (mkFrame (0x81 + d.val) 0x21
        (le16 first.toNat ++ le16 digests.length ++ digests.flatMap (fun x => le32 x.toNat)))
      = .frame d (.digestList first (BitVec.ofNat 16 digests.length) digests) := by
  have hlength : (le16 first.toNat ++ le16 digests.length ++ digests.flatMap (fun x => le32 x.toNat)).length
      = 4 + 4 * digests.length := by rw [List.length_append, digestBytes_length]; rfl
  have hcount : wordAt (le16 first.toNat ++ le16 digests.length ++ digests.flatMap (fun x => le32 x.toNat)) 2 = digests.length :=
    (leNat_le16 digests.length).trans (Nat.mod_eq_of_lt (by omega))
  have hfirst : payloadWord (le16 first.toNat ++ le16 digests.length ++ digests.flatMap (fun x => le32 x.toNat)) 0 = first :=
    word_le16 first
  have hdigests := payloadDigests_flatMap (le16 first.toNat ++ le16 digests.length) digests
  refine judgeBytes_fromDrop d (by omega) (by decide) ?_
  rw [bodyOf_digestList, if_pos (by rw [hcount]; omega), hfirst, payloadWord, hcount]
  exact congrArg (fun l => some (RxBody.digestList first _ l)) hdigests

theorem judgeBytes_loadAck (d : Drop) (index : Word) (outcome : Byte) :
    judgeBytes (mkFrame (0x81 + d.val) 0x31 (le16 index.toNat ++ [outcome])) = .frame d (.loadAck index outcome) := by
  have hbody : bodyOf 0x31 (le16 index.toNat ++ [outcome])
      = some (.loadAck (BitVec.ofNat 16 (leNat (le16 index.toNat))) outcome) := rfl
  rw [word_le16] at hbody
  exact judgeBytes_fromDrop d (by decide : (3 : Nat) ≤ 2097) (by decide) hbody

/-- A reply of a payload in another form than section 5.3 gives it (R79, log 33). -/
theorem judgeBytes_malformed (d : Drop) {p : List Byte} (hp : p.length ≤ 2097) :
    let malformed := fun kind : Nat => judgeBytes (mkFrame (0x81 + d.val) kind p) = .frame d .malformed
    (p.length < 4 ∨ p.length ≠ 4 + 4 * (byteAt p 2 + 256 * byteAt p 3) → malformed 0x21)
      ∧ (p.length ≠ 3 → malformed 0x31) ∧ (p.length ≠ 1 → malformed 0x41) := by
  refine ⟨fun h => judgeBytes_fromDrop d hp (by decide) ?_, fun h => judgeBytes_fromDrop d hp (by decide) ?_,
    fun h => judgeBytes_fromDrop d hp (by decide) ?_⟩
  · rw [bodyOf_digestList]
    refine if_neg fun ⟨hfour, hcount⟩ => ?_
    rw [wordAt_two hfour] at hcount
    omega
  · exact if_neg h
  · exact if_neg h

/-- The part hears its own frames as from no drop (R75). -/
theorem judgeBytes_ownFrames (d : Drop) (silent : DropSet) (k : Desc) (whole : Long) :
    judgeBytes (rollCallFrame silent) = .bad false ∧ judgeBytes (startFrame d k whole) = .bad false
      ∧ (7 + 5 * k.spans.length ≤ 2097 → judgeBytes (digestAskFrame d k) = .bad false)
      ∧ ∀ (index : Nat) (keep : List Span) (data : List Byte), 9 + 5 * keep.length + data.length ≤ 2097 →
        judgeBytes (loadFrame d index keep data whole) = .bad false := by
  refine ⟨judgeBytes_ownFrame (by decide : (1 : Nat) ≤ 2097) (by decide), judgeBytes_ownDrop d (by decide : (10 : Nat) ≤ 2097),
    fun h => judgeBytes_ownDrop d ?_, fun index keep data h => judgeBytes_ownDrop d ?_⟩
  · rw [List.length_append, spanBytes_length]
    exact h
  · simp only [List.length_append, spanBytes_length]
    exact (by omega : 2 + 1 + 5 * keep.length + 2 + data.length + 4 ≤ 2097)

/-- Settles O31: the CRC bit by bit, the judgement of R77 branch by branch, and each kind of payload put together and taken apart. -/
theorem framesAreReadBack : Obligations.FramesAreReadBack := by
  unfold Obligations.FramesAreReadBack
  refine ⟨⟨rfl, fun l b => (crc16_concat l b).trans (crcByte_eq _ b), by decide +kernel, crc16_selfCheck⟩, mkFrame_checked,
    fun address kind n p check hn => ⟨fun hlong => ?_, fun hn' hlen => ?_, fun hn' hlen h => ?_⟩, fun l => judgeBytes_short, fun d =>
    ⟨judgeBytes_hello d, judgeBytes_digestList d, judgeBytes_loadAck d, fun p => judgeBytes_malformed d,
      fun outcome => judgeBytes_fromDrop d (by decide : (1 : Nat) ≤ 2097) (by decide) rfl, judgeBytes_ownFrames d⟩⟩
  · exact (judgeBytes_headed hn).trans (if_pos hlong)
  · exact (judgeBytes_headed hn).trans ((if_neg (by omega)).trans (if_pos hlen))
  · subst hlen
    exact judgeBytes_unsound hn' h

end Sys2Proof.Machine
end

section
/-! What an exchange that ends leaves of the round, and the frame that ends it (R74, R77, R91, R92). -/

namespace Sys2Proof.Machine

/-! ## What an agreeing reply leads to (R91, R102, R103, R108 to R111) -/

/-- The line once an exchange of its job has ended. -/
def Line.exchanged (l : Line) (p : LineJob) : Line :=
  { l with holding := some p, exch := none, exchangeFirst := false, replyTimer := none }

/-- A buffer that was FILLED for an index of a job becomes EMPTY (R108). -/
def SegBuf.cleared (b : SegBuf) (jid i : Nat) : SegBuf := if b.isFor jid i [.filled] then SegBuf.reset else b

theorem Line.emptied_eq (l : Line) (jid i : Nat) : l.emptied jid i
    = { l with bufX := l.bufX.cleared jid i, bufY := l.bufY.cleared jid i } := by
  have hX : (if l.bufX.isFor jid i [.filled] then { l with bufX := SegBuf.reset } else l)
      = { l with bufX := l.bufX.cleared jid i } := by
    unfold SegBuf.cleared
    split <;> rfl
  unfold Line.emptied
  dsimp only
  rw [hX]
  show (if l.bufY.isFor jid i [.filled] then _ else _) = { l with bufX := l.bufX.cleared jid i, bufY := l.bufY.cleared jid i }
  rw [SegBuf.cleared.eq_def l.bufY]
  split <;> rfl

/-- A buffer in FAULT is none that has been FILLED, and stays so. -/
theorem SegBuf.cleared_fault (b : SegBuf) (jid i k n : Nat) : (b.cleared jid i).isFor k n [.fault] = b.isFor k n [.fault] := by
  have hreset : SegBuf.reset.isFor k n [.fault] = false := by simp [SegBuf.isFor, SegBuf.reset]
  unfold SegBuf.cleared
  split
  next hfilled =>
    have hstate : b.state = .filled := by
      simp only [SegBuf.isFor, Bool.and_eq_true, decide_eq_true_eq, List.mem_singleton] at hfilled
      exact hfilled.2
    rw [hreset, SegBuf.isFor, hstate, decide_eq_false (p := BufState.filled ∈ [BufState.fault]) (by decide), Bool.and_false]
  · rfl

/-- The job yields where it has reason to; else the line goes on as given. -/
def State.goesOn (s : State) (c : Car) (p : LineJob) (u : State) : State :=
  match s.yieldReason c p with
  | some r => s.yieldJob c p r
  | none => u

section
variable {s : State} {c : Car} {j p : LineJob}

theorem Line.doorWaits_iff (l : Line) : l.doorWaits = true ↔ ∃ q ∈ l.queue, q.cls = .door := by
  simp only [Line.doorWaits, List.any_eq_true, decide_eq_true_eq]

variable {v u : State}

/-- A DOOR job does not yield, nor an INFO job with neither reason to (R109, R110). -/
theorem State.goesOn_stays {l : Line} (hl : v.lines[c] = l)
    (h : p.cls = .door ∨ ¬ (v.fleet.holdLimit ≤ p.s ∧ ∃ q ∈ l.queue, q.cls = .door) ∧ l.hold = false) : v.goesOn c p u = u := by
  have hnone : v.yieldReason c p = none := by
    unfold State.yieldReason
    rw [hl]
    rcases h with hdoor | ⟨hpreempted, hhold⟩
    · exact if_pos hdoor
    · refine ite_eq_left_iff.mpr fun _ => ?_
      rw [← l.doorWaits_iff] at hpreempted
      exact (if_neg hpreempted).trans (if_neg (by rw [hhold]; exact Bool.false_ne_true))
  rw [State.goesOn, hnone]

/-- An INFO job yields to a DOOR job that waits, once it has loaded to the hold limit (R109). -/
theorem State.goesOn_preempted {l : Line} (hl : v.lines[c] = l) (hinfo : p.cls = .info)
    (h : v.fleet.holdLimit ≤ p.s ∧ ∃ q ∈ l.queue, q.cls = .door) : v.goesOn c p u = v.yieldJob c p 1 := by
  have hreason : v.yieldReason c p = some 1 := by
    unfold State.yieldReason
    rw [hl, hinfo, ← l.doorWaits_iff] at *
    exact (if_neg nofun).trans (if_pos h)
  rw [State.goesOn, hreason]

/-- It yields to the journal hold (R110). -/
theorem State.goesOn_held {l : Line} (hl : v.lines[c] = l) (hinfo : p.cls = .info)
    (h : ¬ (v.fleet.holdLimit ≤ p.s ∧ ∃ q ∈ l.queue, q.cls = .door)) (hhold : l.hold = true) :
    v.goesOn c p u = v.yieldJob c p 2 := by
  have hreason : v.yieldReason c p = some 2 := by
    unfold State.yieldReason
    rw [hl, hinfo, ← l.doorWaits_iff] at *
    exact (if_neg nofun).trans ((if_neg h).trans (if_pos hhold))
  rw [State.goesOn, hreason]

theorem State.surveyDone_nothing {digests : List Long} (he : differing s.isc.records[j.copy].table digests = []) :
    s.surveyDone c j digests = s.told c (s.lines[c].exchanged { j with reload := [], phase := .start })
      [.surveyEnded j.jid digests] := by
  unfold State.surveyDone
  dsimp only
  rw [he]
  rfl

theorem State.surveyDone_loads {digests : List Long} {e : List Nat} (he : differing s.isc.records[j.copy].table digests = e)
    (hne : e ≠ []) : s.surveyDone c j digests =
      let v := s.told c (s.lines[c].exchanged { j with reload := e, phase := .load }) [.surveyEnded j.jid digests]
      v.goesOn c { j with reload := e, phase := .load } (v.requestLowest c) := by
  unfold State.surveyDone
  dsimp only
  rw [he, if_neg hne, if_neg hne]
  rfl

/-- The job after an accepted LOAD, with what its reload set still holds. -/
def LineJob.loaded (j : LineJob) (rest : List Nat) : LineJob :=
  { j with reload := rest, s := j.s + 1, phase := if rest = [] then .start else .load }

/-- What an accepted LOAD tells the planner, its progress first (log 4). -/
def LineJob.loadTold (j : LineJob) : List LineReport := [.progress j.jid (j.s + 1), .loadAccepted j.jid]

/-- The line after an accepted LOAD. -/
def Line.loaded (l : Line) (j : LineJob) (i : Nat) (rest : List Nat) : Line := (l.exchanged (j.loaded rest)).emptied j.jid i

theorem State.accepted_eq (s : State) (c : Car) (j : LineJob) : s.accepted c j =
    let v := s.told c (s.lines[c].loaded j (j.reload.headD 0) j.reload.tail) j.loadTold
    match j.reload.tail with
    | [] => v
    | n :: _ => v.goesOn c (j.loaded j.reload.tail) (if v.lines[c].faultAt j.jid n then v.attemptFails c .storeFault else v) := by
  have htold : (((s.exchangeDone c (j.loaded j.reload.tail)).setLine c
      ((s.exchangeDone c (j.loaded j.reload.tail)).lines[c].emptied j.jid (j.reload.headD 0))).report c
        (.progress j.jid (j.s + 1))).report c (.loadAccepted j.jid)
      = s.told c (s.lines[c].loaded j (j.reload.headD 0) j.reload.tail) j.loadTold := by
    have hline : (s.exchangeDone c (j.loaded j.reload.tail)).lines[c] = s.lines[c].exchanged (j.loaded j.reload.tail) :=
      s.setLine_line c _
    rw [hline, State.report_eq_told, State.told_report, State.exchangeDone, State.setLine_told]
    rfl
  rw [← htold]
  rfl

theorem State.accepted_last {i : Nat} (hr : j.reload = [i]) : s.accepted c j = s.told c (s.lines[c].loaded j i []) j.loadTold := by
  rw [State.accepted_eq, hr]
  rfl

theorem State.accepted_more {i n : Nat} {more : List Nat} (hr : j.reload = i :: n :: more) : s.accepted c j =
    let v := s.told c (s.lines[c].loaded j i (n :: more)) j.loadTold
    v.goesOn c (j.loaded (n :: more)) (if v.lines[c].faultAt j.jid n then v.attemptFails c .storeFault else v) := by
  rw [State.accepted_eq, hr]
  rfl

theorem State.yieldJob_told (s : State) (c : Car) (l : Line) (m : List LineReport) (p : LineJob) (r : Nat) :
    (s.told c l m).yieldJob c p r = ((s.told c l (m ++ [.yielded p.jid])).ask (.clc c)
      (preemptedEntry c p r s.ord.uptime)).leaveLine c (some p) := by
  rw [State.yieldJob, State.told_report]
  rfl

end

/-! ## No reply opens a round -/

section
variable (s : State) (c : Car)

theorem State.attemptFails_round (reason : FailReason) : (s.attemptFails c reason).lines[c].round = s.lines[c].round := by
  unfold State.attemptFails
  split
  · rfl
  next j hj => exact ((s.report c (.failed j.jid reason)).leaveLine_round c none).round

theorem State.endHolding_round : (s.endHolding c).lines[c].round = s.lines[c].round := by
  unfold State.endHolding
  split
  next j hj he => exact ((s.report c (.released j.jid)).leaveLine_round c none).round
  next j hj he => exact ((s.report c (.failed j.jid .storeFault)).leaveLine_round c none).round
  · rfl

theorem State.failedTry_round (timeout : Bool) : (s.failedTry c timeout).lines[c].round = s.lines[c].round := by
  unfold State.failedTry
  dsimp only
  split
  · split
    · exact s.endHolding_round c
    · split
      · rw [State.report_eq_told, State.told_line]
      · exact s.attemptFails_round c _
  · rfl

theorem State.discardFrame_round : (s.discardFrame c).lines[c].round = s.lines[c].round := by
  have hcounted : (s.setLine c { s.lines[c] with errors := saturate 65535 (s.lines[c].errors + 1) }).lines[c].round
      = s.lines[c].round := by rw [State.setLine_line]
  unfold State.discardFrame
  dsimp only
  split
  · exact (State.failedTry_round _ c false).trans hcounted
  · exact hcounted

theorem State.yieldJob_round (j : LineJob) (reason : Nat) : (s.yieldJob c j reason).lines[c].round = s.lines[c].round :=
  (State.leaveLine_round ((s.report c (.yielded j.jid)).ask (.clc c) (preemptedEntry c j reason s.ord.uptime)) c (some j)).round

theorem State.goesOn_round {v u : State} {p : LineJob} (hv : v.lines[c].round = s.lines[c].round)
    (hu : u.lines[c].round = s.lines[c].round) : (v.goesOn c p u).lines[c].round = s.lines[c].round := by
  unfold State.goesOn
  split
  · exact (v.yieldJob_round c p _).trans hv
  · exact hu

theorem State.surveyDone_round (j : LineJob) (digests : List Long) :
    (s.surveyDone c j digests).lines[c].round = s.lines[c].round := by
  have htold : ∀ p m, (s.told c (s.lines[c].exchanged p) m).lines[c].round = s.lines[c].round := fun p m => by rw [State.told_line]; rfl
  by_cases he : differing s.isc.records[j.copy].table digests = []
  · rw [State.surveyDone_nothing he]
    exact htold _ _
  · rw [State.surveyDone_loads rfl he]
    exact s.goesOn_round c (htold _ _) ((State.requestLowest_line _ c).roundKept.round.trans (htold _ _))

theorem State.accepted_round (j : LineJob) : (s.accepted c j).lines[c].round = s.lines[c].round := by
  have htold : (s.told c (s.lines[c].loaded j (j.reload.headD 0) j.reload.tail) j.loadTold).lines[c].round = s.lines[c].round := by
    rw [State.told_line, Line.loaded, Line.emptied_eq]
    rfl
  rw [State.accepted_eq]
  dsimp only
  generalize s.told c _ _ = v at htold ⊢
  split
  · exact htold
  · refine s.goesOn_round c htold ?_
    split
    · exact (v.attemptFails_round c _).trans htold
    · exact htold

theorem State.takeReply_round (j : LineJob) (b : RxBody) : (s.takeReply c j b).lines[c].round = s.lines[c].round := by
  unfold State.takeReply
  split
  · exact s.endHolding_round c
  · split
    · exact s.surveyDone_round c j _
    · split
      · exact s.accepted_round c j
      · split
        · exact s.attemptFails_round c _
        · exact s.failedTry_round c _
    · split
      · exact (State.leaveLine_round (s.report c (.success j.jid)) c none).round
      · exact s.attemptFails_round c _
    · exact s.failedTry_round c _

theorem State.frameInExchange_round (d : Drop) (b : RxBody) : (s.frameInExchange c d b).lines[c].round = s.lines[c].round := by
  unfold State.frameInExchange
  split
  · split
    · split
      · split
        · exact s.discardFrame_round c
        · exact s.failedTry_round c _
      · split
        · exact s.takeReply_round c _ _
        · exact s.failedTry_round c _
    · exact s.discardFrame_round c
  · exact s.discardFrame_round c

end

/-! ## The exchange that awaits its reply -/

/-- The line of a car is taking a frame with no round open, and the exchange of its job awaits the reply. -/
structure State.Awaits (s : State) (c : Car) (j : LineJob) (x : Exchange) : Prop where
  running : s.isRunning = true
  rx : s.lines[c].rx = .inFrame
  round : s.lines[c].round = none
  holding : s.lines[c].holding = some j
  exch : s.lines[c].exch = some x
  stage : x.stage = .awaiting

/-- The line has the frame, and its receiver is free or waits for an idle line. -/
def State.received (s : State) (c : Car) (overlong : Bool) : State := s.setLine c (s.lines[c].received overlong)

theorem State.received_line (s : State) (c : Car) (o : Bool) : (s.received c o).lines[c] = s.lines[c].received o := s.setLine_line c _

section
variable {s : State} {c : Car} {j : LineJob} {x : Exchange} {d : Drop} {b : RxBody} {i : Instr}

/-- With no round open there is no end of one to be taken behind the frame. -/
theorem State.takeFrame_roundless (f : Judged) (hrx : s.lines[c].rx = .inFrame)
    (hround : ((s.received c f.overlong).judgeFrame c f).lines[c].round = none) :
    s.takeFrame c f = (s.received c f.overlong).judgeFrame c f :=
  (State.takeFrame_inFrame f hrx).trans (ite_eq_right_iff.mpr fun _ => State.endRound_none hround)

theorem State.judgeFrame_noRound (hround : s.lines[c].round = none) (d : Drop) (b : RxBody) :
    s.judgeFrame c (.frame d b) = s.frameInExchange c d b := if_neg (by rw [hround]; exact Bool.false_ne_true)

theorem agrees_hello (q : Request) (cls ram : Byte) (image version segments : Word) (boot : Byte) :
    agrees q (.hello cls ram image version segments boot) = false := by
  cases q <;> rfl

namespace State.Awaits

theorem received_round (h : s.Awaits c j x) (o : Bool) : (s.received c o).lines[c].round = none := by
  rw [State.received_line]
  exact h.round

theorem received_holding (h : s.Awaits c j x) (o : Bool) : (s.received c o).lines[c].holding = some j := by
  rw [State.received_line]
  exact h.holding

theorem received_exch (h : s.Awaits c j x) (o : Bool) : (s.received c o).lines[c].exch = some x := by
  rw [State.received_line]
  exact h.exch

theorem exec_frame (h : s.Awaits c j x) (hi : b.instr c d = some i) :
    exec i s = .next (publish s ((s.received c false).frameInExchange c d b)) := by
  have hjudged := State.judgeFrame_noRound (h.received_round false) d b
  rw [Machine.exec_frame h.running hi, State.takeFrame_roundless (.frame d b) h.rx]
  · exact congrArg (fun v => Host.Outcome.next (publish s v)) hjudged
  · exact (congrArg (fun v : State => v.lines[c].round) hjudged).trans
      ((State.frameInExchange_round _ c d b).trans (h.received_round false))

/-- A frame that is discarded where a reply is awaited is a line error and a failed try (R77, R92). -/
theorem discardFrame (h : s.Awaits c j x) (o : Bool) : (s.received c o).discardFrame c
    = (s.setLine c (s.lines[c].received o).errored).failedTry c false := by
  have hawaits : (s.received c o).lines[c].awaitsReply = true := by
    unfold Line.awaitsReply
    rw [h.received_exch o]
    exact decide_eq_true h.stage
  unfold State.discardFrame
  dsimp only
  rw [if_pos hawaits, State.received_line, saturate_eq_min, State.received, State.setLine_setLine]
  rfl

theorem exec_discardedFrame (h : s.Awaits c j x) {l : List Byte} {o : Bool} (hl : judgeBytes l = .bad o) :
    exec (.discardedFrame c l) s = .next (publish s ((s.setLine c (s.lines[c].received o).errored).failedTry c false)) := by
  rw [Machine.exec_discardedFrame h.running, hl, State.takeFrame_roundless (.bad o) h.rx, ← h.discardFrame o]
  · rfl
  · exact (State.discardFrame_round _ c).trans (h.received_round o)

/-- A frame of another drop than the request's is discarded (R77). -/
theorem exec_otherDrop (h : s.Awaits c j x) (hd : d ≠ j.drop) (hi : b.instr c d = some i) :
    exec i s = .next (publish s ((s.setLine c (s.lines[c].received false).errored).failedTry c false)) := by
  have hother : (s.received c false).frameInExchange c d b = (s.received c false).discardFrame c := by
    unfold State.frameInExchange
    rw [h.received_holding, h.received_exch]
    exact if_neg fun hsame => hd hsame.2.symm
  rw [h.exec_frame hi, hother, h.discardFrame]

/-- A reply that agrees with the request is taken (R91). -/
theorem exec_agreeing (h : s.Awaits c j x) (hi : b.instr c j.drop = some i) (ha : agrees x.req b = true) :
    exec i s = .next (publish s ((s.received c false).takeReply c j b)) := by
  have htaken : (s.received c false).frameInExchange c j.drop b = (s.received c false).takeReply c j b := by
    unfold State.frameInExchange
    rw [h.received_holding, h.received_exch]
    refine (if_pos ⟨h.stage, rfl⟩).trans ?_
    cases b with
    | hello =>
      rw [agrees_hello] at ha
      cases ha
    | digestList | loadAck | running | malformed => exact if_pos ha
  rw [h.exec_frame hi, htaken]

/-- A frame of the request's drop that is no agreeing reply, and no HELLO to be discarded, is a failed try (R92). -/
theorem exec_disagreeing (h : s.Awaits c j x) (hi : b.instr c j.drop = some i) (ha : agrees x.req b = false)
    (hsound : ∀ cls ram image version segments boot, b = .hello cls ram image version segments boot →
      helloFieldsOf cls ram image version segments boot ≠ none) :
    exec i s = .next (publish s ((s.received c false).failedTry c false)) := by
  have hfails : (s.received c false).frameInExchange c j.drop b = (s.received c false).failedTry c false := by
    unfold State.frameInExchange
    rw [h.received_holding, h.received_exch]
    refine (if_pos ⟨h.stage, rfl⟩).trans ?_
    cases b with
    | hello => exact if_neg (hsound _ _ _ _ _ _ rfl)
    | digestList | loadAck | running | malformed => exact if_neg (by rw [ha]; exact Bool.false_ne_true)
  rw [h.exec_frame hi, hfails]

end State.Awaits

end

end Sys2Proof.Machine
end

section
/-! What ends an exchange, by its outcome (R91, R92, R102, R103, R106, R108 to R111, R113 to R115). -/

namespace Sys2Proof.Machine

/-! ## The line that has told -/

section
variable {s : State} {c : Car} {j : LineJob} {x : Exchange}

theorem State.received_told (s : State) (c : Car) (o : Bool) (k : Line) (m : List LineReport) :
    (s.received c o).told c k m = s.told c k m := s.setLine_told c _ k m

/-- The line after an accepted LOAD, field by field. -/
theorem Line.loaded_eq (l : Line) (j : LineJob) (i : Nat) (rest : List Nat) : l.loaded j i rest =
    { l.exchanged (j.loaded rest) with bufX := l.bufX.cleared j.jid i, bufY := l.bufY.cleared j.jid i } := Line.emptied_eq _ _ _

theorem Line.loaded_fault (l : Line) (j : LineJob) (i : Nat) (rest : List Nat) (n : Nat) :
    (l.loaded j i rest).faultAt j.jid n = l.faultAt j.jid n := by
  rw [Line.loaded_eq, Line.faultAt, SegBuf.cleared_fault, SegBuf.cleared_fault]
  rfl

theorem Line.loaded_errors (l : Line) (j : LineJob) (i : Nat) (rest : List Nat) : (l.loaded j i rest).errors = l.errors := by
  rw [Line.loaded_eq]
  rfl

/-! ## A failed try of the job that holds the line -/

/-- A line whose job has an exchange. -/
structure Line.Exchanging (l : Line) (j : LineJob) (x : Exchange) : Prop where
  holding : l.holding = some j
  exch : l.exch = some x

section
variable {k : Line}

theorem Line.Exchanging.again (h : k.Exchanging j x) (he : k.ending = .unset) (hretry : x.retry < 3) :
    (s.setLine c k).failedTry c false = s.told c
      { k with exch := some { x with retry := x.retry + 1, stage := .resend }, replyTimer := none } [.retry j.jid (x.retry + 1)] := by
  have hl : (s.setLine c k).lines[c] = k := s.setLine_line c k
  rw [State.failedTry_again false (by rw [hl]; exact h.holding) (by rw [hl]; exact h.exch) (by rw [hl]; exact he) hretry, hl, State.setLine_told]

theorem Line.Exchanging.last (h : k.Exchanging j x) (he : k.ending = .unset) (hretry : 3 ≤ x.retry) :
    (s.setLine c k).failedTry c false = ((s.setLine c k).report c (.failed j.jid .repeatedReject)).leaveLine c none := by
  have hl : (s.setLine c k).lines[c] = k := s.setLine_line c k
  rw [State.failedTry_last false (by rw [hl]; exact h.holding) (by rw [hl]; exact h.exch) (by rw [hl]; exact he) hretry]
  rfl

theorem Line.Exchanging.marked (h : k.Exchanging j x) (he : k.ending ≠ .unset) :
    (s.setLine c k).failedTry c false = (s.setLine c k).endHolding c := by
  have hl : (s.setLine c k).lines[c] = k := s.setLine_line c k
  exact State.failedTry_ending false (by rw [hl]; exact h.holding) (by rw [hl]; exact h.exch) (by rw [hl]; exact he)

theorem Line.Exchanging.ends (h : k.Exchanging j x) {r : LineReport} (hr : k.ending.report j.jid = some r) :
    (s.setLine c k).endHolding c = ((s.setLine c k).report c r).leaveLine c none := by
  have hl : (s.setLine c k).lines[c] = k := s.setLine_line c k
  exact State.endHolding_marked (by rw [hl]; exact h.holding) (by rw [hl]; exact hr)

end

namespace State.Awaits

theorem exchanging (h : s.Awaits c j x) (o : Bool) : (s.lines[c].received o).Exchanging j x := ⟨h.holding, h.exch⟩

theorem exchanging_errored (h : s.Awaits c j x) (o : Bool) : (s.lines[c].received o).errored.Exchanging j x := ⟨h.holding, h.exch⟩

theorem received_ending (h : s.lines[c].ending = .unset) (o : Bool) : (s.received c o).lines[c].ending = .unset := by
  rw [State.received_line]
  exact h

theorem attemptFails (h : s.Awaits c j x) (reason : FailReason) : (s.received c false).attemptFails c reason
    = ((s.received c false).report c (.failed j.jid reason)).leaveLine c none :=
  State.attemptFails_held (h.received_holding false) reason

/-! ## The outcomes -/

/-- With an ending mark set whatever the request's drop sends ends the job (R113, R114). -/
theorem exec_marked (h : s.Awaits c j x) {b : RxBody} {i : Instr} (hi : b.instr c j.drop = some i)
    (hsound : ∀ cls ram image version segments boot, b = .hello cls ram image version segments boot →
      helloFieldsOf cls ram image version segments boot ≠ none)
    (he : s.lines[c].ending ≠ .unset) : exec i s = .next (publish s ((s.received c false).endHolding c)) := by
  cases ha : agrees x.req b with
  | true =>
    have hreply : (s.received c false).takeReply c j b = (s.received c false).endHolding c :=
      if_pos (by rw [State.received_line]; exact he)
    rw [h.exec_agreeing hi ha, hreply]
  | false =>
    have hfailed : (s.received c false).failedTry c false = (s.received c false).endHolding c := (h.exchanging false).marked he
    rw [h.exec_disagreeing hi ha hsound, hfailed]

theorem exec_surveyed (h : s.Awaits c j x) (he : s.lines[c].ending = .unset) {n : Word} {digests : List Long}
    (hreq : x.req = .digestAsk n.toNat) (hlen : digests.length = n.toNat) : exec (.digestList c j.drop 0 n digests) s
      = .next (publish s ((s.received c false).surveyDone c j digests)) := by
  have ha : agrees x.req (.digestList 0 n digests) = true := by
    rw [hreq]
    simp [agrees, hlen]
  rw [h.exec_agreeing (b := .digestList 0 n digests) rfl ha]
  exact congrArg (fun v => Host.Outcome.next (publish s v)) (if_neg (not_not.mpr (received_ending he false)))

/-- What the outcome of a LOAD ACK brings about (R103). -/
theorem exec_loadAck (h : s.Awaits c j x) (he : s.lines[c].ending = .unset) {index : Word} (hreq : x.req = .load index.toNat)
    {o : Byte} (ho : o.toNat ≤ 3) : exec (.loadAck c j.drop index o) s = .next (publish s
      (if o = 0 then (s.received c false).accepted c j
      else if o = 3 then (s.received c false).attemptFails c .nodeRefused
      else (s.received c false).failedTry c false)) := by
  have ha : agrees x.req (.loadAck index o) = true := by
    rw [hreq]
    simp [agrees, ho]
  rw [h.exec_agreeing (b := .loadAck index o) rfl ha]
  exact congrArg (fun v => Host.Outcome.next (publish s v)) (if_neg (not_not.mpr (received_ending he false)))

theorem exec_running (h : s.Awaits c j x) (he : s.lines[c].ending = .unset) (hreq : x.req = .start)
    {o : Byte} (ho : o.toNat ≤ 1) : exec (.running c j.drop o) s = .next (publish s
      (if o = 0 then ((s.received c false).report c (.success j.jid)).leaveLine c none
      else (s.received c false).attemptFails c .imageCheck)) := by
  have ha : agrees x.req (.running o) = true := by
    rw [hreq]
    simp [agrees, ho]
  rw [h.exec_agreeing (b := .running o) rfl ha]
  exact congrArg (fun v => Host.Outcome.next (publish s v)) (if_neg (not_not.mpr (received_ending he false)))

/-- A LOAD that the node refuses (R103). -/
theorem exec_refused (h : s.Awaits c j x) (he : s.lines[c].ending = .unset) {index : Word} (hreq : x.req = .load index.toNat) :
    exec (.loadAck c j.drop index 3) s
      = .next (publish s (((s.received c false).report c (.failed j.jid .nodeRefused)).leaveLine c none)) := by
  rw [h.exec_loadAck he hreq (by decide), if_neg (by decide), if_pos rfl, h.attemptFails]

/-- A LOAD that the node rejects is a failed try (R103). -/
theorem exec_rejected (h : s.Awaits c j x) (he : s.lines[c].ending = .unset) {index : Word} (hreq : x.req = .load index.toNat)
    {o : Byte} (ho : o = 1 ∨ o = 2) :
    exec (.loadAck c j.drop index o) s = .next (publish s ((s.received c false).failedTry c false)) := by
  have hrange : o.toNat ≤ 3 ∧ o ≠ 0 ∧ o ≠ 3 := by rcases ho with rfl | rfl <;> decide
  obtain ⟨hle, hzero, hthree⟩ := hrange
  rw [h.exec_loadAck he hreq hle, if_neg hzero, if_neg hthree]

theorem exec_succeeds (h : s.Awaits c j x) (he : s.lines[c].ending = .unset) (hreq : x.req = .start) :
    exec (.running c j.drop 0) s = .next (publish s (((s.received c false).report c (.success j.jid)).leaveLine c none)) := by
  rw [h.exec_running he hreq (by decide), if_pos rfl]

theorem exec_imageFails (h : s.Awaits c j x) (he : s.lines[c].ending = .unset) (hreq : x.req = .start) :
    exec (.running c j.drop 1) s
      = .next (publish s (((s.received c false).report c (.failed j.jid .imageCheck)).leaveLine c none)) := by
  rw [h.exec_running he hreq (by decide), if_neg (by decide), h.attemptFails]

/-! ## What the line has told by then -/

theorem received_exchanged (s : State) (c : Car) (p : LineJob) (m : List LineReport) :
    (s.received c false).told c ((s.received c false).lines[c].exchanged p) m
      = s.told c ((s.lines[c].received false).exchanged p) m := by
  rw [State.received_line, State.received_told]

theorem received_loaded (s : State) (c : Car) (j : LineJob) (i : Nat) (rest : List Nat) :
    (s.received c false).told c ((s.received c false).lines[c].loaded j i rest) j.loadTold
      = s.told c ((s.lines[c].received false).loaded j i rest) j.loadTold := by
  rw [State.received_line, State.received_told]

/-- A survey that finds nothing to load (R102). -/
theorem exec_survey_nothing (h : s.Awaits c j x) (he : s.lines[c].ending = .unset) {n : Word} {digests : List Long}
    (hreq : x.req = .digestAsk n.toNat) (hlen : digests.length = n.toNat)
    (hd : differing s.isc.records[j.copy].table digests = []) : exec (.digestList c j.drop 0 n digests) s
      = .next (s.told c ((s.lines[c].received false).exchanged { j with reload := [], phase := .start })
        [.surveyEnded j.jid digests]) := by
  rw [h.exec_surveyed he hreq hlen, State.surveyDone_nothing (s := s.received c false) hd, received_exchanged]
  exact congrArg _ (publish_told _ rfl)

/-- A survey that finds segments to load (R102). -/
theorem exec_survey_loads (h : s.Awaits c j x) (he : s.lines[c].ending = .unset) {n : Word} {digests : List Long} {e : List Nat}
    (hreq : x.req = .digestAsk n.toNat) (hlen : digests.length = n.toNat)
    (hd : differing s.isc.records[j.copy].table digests = e) (hne : e ≠ []) : exec (.digestList c j.drop 0 n digests) s
      = .next (publish s
        (let v := s.told c ((s.lines[c].received false).exchanged { j with reload := e, phase := .load }) [.surveyEnded j.jid digests];
          v.goesOn c { j with reload := e, phase := .load } (v.requestLowest c))) := by
  rw [h.exec_surveyed he hreq hlen, State.surveyDone_loads (s := s.received c false) hd hne, received_exchanged]

/-- The last LOAD of the reload set accepted (R108). -/
theorem exec_accepted_last (h : s.Awaits c j x) (he : s.lines[c].ending = .unset) {index : Word}
    (hreq : x.req = .load index.toNat) (hreload : j.reload = [index.toNat]) : exec (.loadAck c j.drop index 0) s
      = .next (s.told c ((s.lines[c].received false).loaded j index.toNat []) j.loadTold) := by
  rw [h.exec_loadAck he hreq (by decide), if_pos rfl, State.accepted_last hreload, received_loaded]
  exact congrArg _ (publish_told _ (Line.loaded_errors ..))

/-- A LOAD accepted with more to load (R108). -/
theorem exec_accepted_more (h : s.Awaits c j x) (he : s.lines[c].ending = .unset) {index : Word} {n : Nat} {more : List Nat}
    (hreq : x.req = .load index.toNat) (hreload : j.reload = index.toNat :: n :: more) : exec (.loadAck c j.drop index 0) s
      = .next (publish s
        (let v := s.told c ((s.lines[c].received false).loaded j index.toNat (n :: more)) j.loadTold;
          v.goesOn c (j.loaded (n :: more)) (if s.lines[c].faultAt j.jid n then v.attemptFails c .storeFault else v))) := by
  have hfault : (s.told c ((s.lines[c].received false).loaded j index.toNat (n :: more)) j.loadTold).lines[c].faultAt j.jid n
      = s.lines[c].faultAt j.jid n := by
    rw [State.told_line, Line.loaded_fault]
    rfl
  rw [h.exec_loadAck he hreq (by decide), if_pos rfl, State.accepted_more hreload, received_loaded]
  dsimp only
  rw [hfault]

end State.Awaits

/-! ## What goes on after an exchange -/

/-- A job that goes on without yielding, once its line has told what it has to. -/
theorem State.goesOn_serves {l k : Line} {m : List LineReport} {p : LineJob} {u : State} (hqueue : k.queue = l.queue)
    (hhold : k.hold = l.hold)
    (h : p.cls = .door ∨ ¬ (s.fleet.holdLimit ≤ p.s ∧ ∃ q ∈ l.queue, q.cls = .door) ∧ l.hold = false) :
    (s.told c k m).goesOn c p u = u :=
  State.goesOn_stays (s.told_line c k m) (by rw [hqueue, hhold]; exact h)

/-- A job that yields, once its line has told what it has to (R109 to R111). -/
theorem State.goesOn_yields {l k : Line} {m : List LineReport} {p : LineJob} {u : State} (hqueue : k.queue = l.queue)
    (hhold : k.hold = l.hold) (hinfo : p.cls = .info) :
    (s.fleet.holdLimit ≤ p.s ∧ (∃ q ∈ l.queue, q.cls = .door) → (s.told c k m).goesOn c p u
        = ((s.told c k (m ++ [.yielded p.jid])).ask (.clc c) (preemptedEntry c p 1 s.ord.uptime)).leaveLine c (some p))
      ∧ (¬ (s.fleet.holdLimit ≤ p.s ∧ ∃ q ∈ l.queue, q.cls = .door) → l.hold = true → (s.told c k m).goesOn c p u
        = ((s.told c k (m ++ [.yielded p.jid])).ask (.clc c) (preemptedEntry c p 2 s.ord.uptime)).leaveLine c (some p)) := by
  rw [← hqueue, ← hhold]
  refine ⟨fun hpreempted => ?_, fun hpreempted hheld => ?_⟩
  · rw [State.goesOn_preempted (s.told_line c k m) hinfo hpreempted, State.yieldJob_told]
  · rw [State.goesOn_held (s.told_line c k m) hinfo hpreempted hheld, State.yieldJob_told]

end

end Sys2Proof.Machine
end

section
/-! Replies and discarded frames, as the statement has them (R91, R92, R102, R103, R106, R108 to R111, R113 to R115). -/

namespace Sys2Proof.Machine

/-! ## Replies that disagree (R79) -/

theorem agrees_loadAck_not {q : Request} {index : Word} {o : Byte} (h : q ≠ .load index.toNat ∨ 3 < o.toNat) :
    agrees q (.loadAck index o) = false := by
  cases q with
  | load i =>
    simp only [ne_eq, Request.load.injEq] at h
    simp only [agrees, Bool.and_eq_false_iff, decide_eq_false_iff_not]
    exact h.imp (fun hi he => hi he.symm) Nat.not_le.mpr
  | digestAsk | start => rfl

theorem agrees_digestList_not {q : Request} {first n : Word} {digests : List Long}
    (h : q ≠ .digestAsk n.toNat ∨ first ≠ 0 ∨ digests.length ≠ n.toNat) : agrees q (.digestList first n digests) = false := by
  cases q with
  | digestAsk k =>
    simp only [ne_eq, Request.digestAsk.injEq] at h
    simp only [agrees, Bool.and_eq_false_iff, decide_eq_false_iff_not]
    by_cases hk : k = n.toNat
    · exact (h.resolve_left (not_not.mpr hk)).imp .inl (fun hlen => hk ▸ hlen)
    · exact .inl (.inr fun he => hk he.symm)
  | load | start => rfl

theorem agrees_running_not {q : Request} {o : Byte} (h : q ≠ .start ∨ 1 < o.toNat) : agrees q (.running o) = false := by
  cases q with
  | start => exact decide_eq_false (Nat.not_le.mpr (h.resolve_left (not_not.mpr rfl)))
  | load | digestAsk => rfl

/-! ## The statement -/

/-- Settles O49: each frame ends the exchange by `takeReply`, or is a failed try; what follows is read off by the ending mark, the
retry count and the reasons to yield. -/
theorem repliesAreTaken : Obligations.RepliesAreTaken := by
  intro c s j x hrun hover hrx hround hj hx hstage l s1 tells moves retried yields doors
  have h : s.Awaits c j x := ⟨hrun, hrx, hround, hj, hx, hstage⟩
  have hpub : ∀ {y : Line} {m : List LineReport}, y.errors = l.errors → publish s (s.told c y m) = s.told c y m :=
    fun hy => publish_told _ hy
  have hexec : ∀ {i : Instr} {u v : State}, exec i s = .next (publish s u) → u = v → exec i s = .next (publish s v) :=
    fun hi huv => huv ▸ hi
  have hretried : ∀ {i : Instr}, l.ending = .unset → exec i s = .next (publish s (s1.failedTry c false)) → retried i := by
    intro i he hi
    refine ⟨fun hretry => ?_, fun hretry => hexec hi ((h.exchanging false).last he hretry)⟩
    exact (hexec hi ((h.exchanging false).again he hretry)).trans (congrArg _ (hpub rfl))
  have hdisagrees : ∀ {b : RxBody} {i : Instr}, l.ending = .unset → b.instr c j.drop = some i → agrees x.req b = false →
      (∀ cls ram image version segments boot, b ≠ .hello cls ram image version segments boot) → retried i :=
    fun he hi ha hb => hretried he (h.exec_disagreeing hi ha fun _ _ _ _ _ _ hhello => absurd hhello (hb _ _ _ _ _ _))
  have hfields : ∀ {cls ram boot : Byte} (image version segments : Word), cls.toNat ≤ 1 → ram.toNat ≤ 1 → boot.toNat ≤ 1 →
      helloFieldsOf cls ram image version segments boot ≠ none := by
    intro cls ram boot image version segments hcls hram hboot hnone
    rcases (helloFieldsOf_eq_none_iff ..).mp hnone with hc | hr | hb <;> omega
  have hyields : ∀ {i : Instr} {told : List LineReport} {y : Line} {p : LineJob} {u : State}, y.queue = l.queue → y.hold = l.hold →
      p.jid = j.jid → p.drop = j.drop → p.cls = .info → exec i s = .next (publish s ((s.told c y told).goesOn c p u)) →
      (s.fleet.holdLimit ≤ p.s ∧ doors → yields i told y p 1)
        ∧ (¬ (s.fleet.holdLimit ≤ p.s ∧ doors) → l.hold = true → yields i told y p 2) := by
    intro i told y p u hqueue hhold hjid hdrop hinfo hi
    obtain ⟨hpreempted, hheld⟩ := State.goesOn_yields (s := s) (c := c) (m := told) (u := u) hqueue hhold hinfo
    simp only [preemptedEntry, hjid, hdrop] at hpreempted hheld
    exact ⟨fun h => hexec hi (hpreempted h), fun h hl => hexec hi (hheld h hl)⟩
  refine ⟨fun n digests he hreq hlen => ?_, fun index rest he hreq hreload => ?_, fun he hreq => ?_, fun index o he hno => ?_,
    fun first n digests he hno => ?_, fun o he hno => ?_, fun cls ram boot image version segments he hcls hram hboot => ?_,
    fun he => ?_, ?_⟩
  · intro e i told p preempted
    have hloads : e ≠ [] → exec i s = .next (publish s ((s.told c (moves p) told).goesOn c p
        ((s.told c (moves p) told).requestLowest c))) := h.exec_survey_loads he hreq hlen rfl
    exact ⟨h.exec_survey_nothing he hreq hlen, fun hne hstays => hexec (hloads hne) (State.goesOn_serves (l := l) rfl rfl hstays),
      fun hne hinfo => (hyields (y := moves p) (p := p) rfl rfl rfl rfl hinfo (hloads hne)).1,
      fun hne hinfo => (hyields (y := moves p) (p := p) rfl rfl rfl rfl hinfo (hloads hne)).2⟩
  · intro i p told cleared y goes preempted
    have hline : (l.received false).loaded j index.toNat rest = y := Line.loaded_eq ..
    have hgoes : exec (i 0) s = .next (s.told c y told) → goes := by
      intro hi
      have hframe := (LineKept.told c s y told).publish.frame
      rw [hpub (y := y) rfl] at hframe
      exact ⟨_, hi, hframe, rfl, rfl, rfl, s.told_line c y told⟩
    have hmore : ∀ n more, rest = n :: more → exec (i 0) s = .next (publish s ((s.told c y told).goesOn c p
        (if l.faultAt j.jid n then (s.told c y told).attemptFails c .storeFault else s.told c y told))) := by
      rintro n more hrest
      have hi := h.exec_accepted_more he hreq (hrest ▸ hreload)
      rw [← hrest, hline] at hi
      exact hi
    refine ⟨fun hlast => ?_, fun n more hrest hstays => ?_, fun hne hinfo => ?_, fun hne hinfo => ?_,
      hretried he (h.exec_rejected he hreq (.inl rfl)), hretried he (h.exec_rejected he hreq (.inr rfl)), h.exec_refused he hreq⟩
    · have hi := h.exec_accepted_last he hreq (hlast ▸ hreload)
      rw [← hlast, hline] at hi
      exact hgoes hi
    · have hi := hexec (hmore n more hrest) (State.goesOn_serves (l := l) rfl rfl hstays)
      refine ⟨fun hsound => hgoes (hi.trans ?_), fun hfault => ?_⟩
      · rw [hsound, if_neg Bool.false_ne_true, hpub (y := y) rfl]
      · have hheld : (s.told c y told).lines[c].holding = some p := by rw [State.told_line]
        obtain ⟨hprefix, hjrn, -⟩ := State.attemptFails_spec hheld .storeFault
        rw [State.told_reports] at hprefix
        rw [hfault, if_pos rfl] at hi
        exact ⟨_, hi, ((LineKept.told c s y told).trans (LineKept.attemptFails c _ _)).publish.frame, hjrn, hprefix⟩
    · obtain ⟨n, more, hrest⟩ := List.exists_cons_of_ne_nil hne
      exact (hyields (y := y) (p := p) rfl rfl rfl rfl hinfo (hmore n more hrest)).1
    · obtain ⟨n, more, hrest⟩ := List.exists_cons_of_ne_nil hne
      exact (hyields (y := y) (p := p) rfl rfl rfl rfl hinfo (hmore n more hrest)).2
  · exact ⟨h.exec_succeeds he hreq, h.exec_imageFails he hreq⟩
  · exact hdisagrees he (b := .loadAck index o) rfl (agrees_loadAck_not hno) nofun
  · exact hdisagrees he (b := .digestList first n digests) rfl (agrees_digestList_not hno) nofun
  · exact hdisagrees he (b := .running o) rfl (agrees_running_not hno) nofun
  · refine hretried he (h.exec_disagreeing (b := .hello cls ram image version segments boot) rfl (agrees_hello ..) ?_)
    intro _ _ _ _ _ _ hb
    cases hb
    exact hfields image version segments hcls hram hboot
  · intro discarded
    have hdiscarded : ∀ {i : Instr} {o : Bool},
        exec i s = .next (publish s ((s.setLine c (l.received o).errored).failedTry c false)) → discarded i o :=
      fun hi => ⟨fun hretry => hexec hi ((h.exchanging_errored _).again he hretry),
        fun hretry => hexec hi ((h.exchanging_errored _).last he hretry)⟩
    refine ⟨fun b o hb => hdiscarded (h.exec_discardedFrame hb), fun d first n digests o hd => ?_⟩
    exact ⟨hdiscarded (h.exec_otherDrop hd (b := .digestList first n digests) rfl),
      hdiscarded (h.exec_otherDrop hd (b := .loadAck n o) rfl), hdiscarded (h.exec_otherDrop hd (b := .running o) rfl),
      fun ram boot version => hdiscarded (h.exec_otherDrop hd (b := .hello o ram first version n boot) rfl)⟩
  · intro ended counted
    have hended : ∀ {i : Instr} {k : Line}, k.Exchanging j x → k.ending = l.ending →
        (l.ending ≠ .unset → exec i s = .next (publish s ((s.setLine c k).endHolding c))) → ended i (s.setLine c k) := by
      intro i k hk he hi
      exact ⟨fun hmark => hexec (hi (by rw [hmark]; exact nofun)) (hk.ends (by rw [he, hmark]; rfl)),
        fun hmark => hexec (hi (by rw [hmark]; exact nofun)) (hk.ends (by rw [he, hmark]; rfl))⟩
    have hreply : ∀ {b : RxBody} {i : Instr}, b.instr c j.drop = some i →
        (∀ cls ram image version segments boot, b = .hello cls ram image version segments boot →
          helloFieldsOf cls ram image version segments boot ≠ none) → ended i s1 :=
      fun hi hsound => hended (h.exchanging false) rfl (h.exec_marked hi hsound)
    have hcounted : ∀ {i : Instr} {o : Bool},
        exec i s = .next (publish s ((s.setLine c (l.received o).errored).failedTry c false)) → ended i (counted o) :=
      fun hi => hended (h.exchanging_errored _) rfl fun he => hexec hi ((h.exchanging_errored _).marked he)
    refine ⟨fun first n digests => hreply (b := .digestList first n digests) rfl nofun,
      fun index o => hreply (b := .loadAck index o) rfl nofun, fun o => hreply (b := .running o) rfl nofun,
      fun cls ram boot image version segments hcls hram hboot =>
        hreply (b := .hello cls ram image version segments boot) rfl ?_,
      fun b o hb => hcounted (h.exec_discardedFrame hb), fun d first n digests o hd => ?_⟩
    · intro _ _ _ _ _ _ hb
      cases hb
      exact hfields image version segments hcls hram hboot
    · exact ⟨hcounted (h.exec_otherDrop hd (b := .digestList first n digests) rfl),
        hcounted (h.exec_otherDrop hd (b := .loadAck n o) rfl), hcounted (h.exec_otherDrop hd (b := .running o) rfl)⟩

end Sys2Proof.Machine
end
